-- ==== Sys2Proof/Word.lean ====
section
/-! DEFINITION. The word types: bytes, 32-bit registers and 64-bit values (00_scope.md R9, R10). -/

namespace Sys2Proof

/-- One byte of buffer memory, of a port or of an encoding. -/
abbrev Byte := BitVec 8

/-- A host-visible register (00_scope.md R9: every one is 32 bits wide). -/
abbrev Word := BitVec 32

/-- A 64-bit value: ARG, RES_VAL, a varint's value, SR_INPOS (00_scope.md R9, 10_state.md R52). -/
abbrev DWord := BitVec 64

end Sys2Proof
end

