-- ==== Sys2Proof/Config.lean ====
section
/-! DEFINITION. The build parameters of an instance (00_scope.md R8), the fixed constants of the formats, and the
free values: opaque constants with no body, for what the spec leaves open. -/

namespace Sys2Proof

/-- P_ENC_POLICY (00_scope.md R8, 42_block_encoder.md R216). -/
inductive EncPolicy where
  | reference
  | conformant
deriving DecidableEq, Repr

/-- P_COMPRESS_SELECT (00_scope.md R8, 45_stream_writer.md R307). -/
inductive CompressSelect where
  | smaller
  | eighth
deriving DecidableEq, Repr

/-- The parameters of 00_scope.md R8 that have more than one legal value. A model "takes each as a configuration
argument"; `State.cfg` carries them and no step changes them (log 1, DESIGN CHOICE: where they are held). -/
structure Params where
  /-- P_MEM_ADDR_W. -/
  memAddrW : Nat
  /-- P_MEM_SIZE. -/
  memSize : Nat
  /-- P_MAX_DECODED_LEN. -/
  maxDecodedLen : Word
  /-- P_MU_MAX. -/
  muMax : Byte
  /-- P_ENC_POLICY. -/
  encPolicy : EncPolicy
  /-- P_ENC_SKIP: true = on. -/
  encSkip : Bool
  /-- P_COMPRESS_SELECT. -/
  select : CompressSelect
deriving DecidableEq, Repr

/-- The values this hardware takes (00_scope.md R8, column "default"). -/
def Params.default : Params where
  memAddrW := 32
  memSize := 4294967296
  maxDecodedLen := 0xFFFFFFFF#32
  muMax := 0x7F#8
  encPolicy := .reference
  encSkip := true
  select := .smaller

/-- 00_scope.md R8, column "legal values". -/
abbrev Params.Legal (p : Params) : Prop :=
  1 ≤ p.memAddrW ∧ p.memAddrW ≤ 32 ∧ 1 ≤ p.memSize ∧ p.memSize ≤ 2 ^ p.memAddrW ∧
    0x01#8 ≤ p.muMax ∧ p.muMax ≤ 0xFD#8

namespace Config

/-- P_MAX_BLOCK (00_scope.md R8). -/
abbrev maxBlock : Nat := 65536

/-- P_MAX_FRAME_LEN (00_scope.md R8). -/
abbrev maxFrameLen : Nat := 76494

/-- P_VARINT_MAX (00_scope.md R8). -/
abbrev varintMax : Nat := 10

/-- P_MIN_MATCH (00_scope.md R8). -/
abbrev minMatch : Nat := 4

/-- P_HASH_MUL (00_scope.md R8). -/
abbrev hashMul : Nat := 0x1E35A7BD

/-- P_TABLE_BITS_MIN and P_TABLE_BITS_MAX (00_scope.md R8). -/
abbrev tableBitsMin : Nat := 8
abbrev tableBitsMax : Nat := 14

/-- P_INPUT_MARGIN (00_scope.md R8). -/
abbrev inputMargin : Nat := 15

/-- P_MIN_NONLIT_BLOCK (00_scope.md R8). -/
abbrev minNonlitBlock : Nat := 17

/-- P_CRC_MASK_DELTA (00_scope.md R8). -/
abbrev crcMaskDelta : Word := 0xA282EAD8#32

/-- P_MAGIC, "sNaPpY" (00_scope.md R8). -/
abbrev magic : List Byte := [0x73#8, 0x4E#8, 0x61#8, 0x50#8, 0x70#8, 0x59#8]

end Config

/-- One emission of the block encoder: the literal tagger or the copy tagger called on these arguments
(42_block_encoder.md R204, R205). -/
inductive EmitOp where
  | lit  (bytes : List Byte)
  | copy (off len : Nat)
deriving DecidableEq, Repr

namespace Config

/-- FREE VALUE: the k-th byte drawn for a location whose content the spec calls any value: DST after an error
(40_commands.md R117(a), log 4), DST of an abandoned command (70_reset_and_hazards.md R451, log 8). -/
opaque freeByte : Nat → Byte

/-- FREE VALUE: the k-th choice where the spec allows several: the byte a host read of DST returns while BUSY
(70_reset_and_hazards.md R460, log 7), the intermediate state a status read shows (R463, log 25), what an endless IN source
offers next (20_memory.md R77, log 9). -/
opaque freePick : Nat → Nat

/-- FREE VALUE: what the 16-bit field SW_STATUS.IBUF_LEN shows while IBUF holds 65536 bytes (10_state.md R43, R51; log 23). -/
opaque fullIbufLen : Nat → BitVec 16

/-- FREE VALUE: the emissions the conformant encoder makes for a source (42_block_encoder.md R216: an uninterpreted
function of the source; log 11). -/
opaque encodePlan : List Byte → List EmitOp

end Config

end Sys2Proof
end

