-- ==== Sys2Proof/Machine/Bytes.lean ====
section
/-! DEFINITION. Byte order: LE and le_N of 00_scope.md R12. Every multi-byte field is little-endian (20_memory.md R75). -/

namespace Sys2Proof

/-- `LE(B)`: the sum of `B[k] << (8*k)` (00_scope.md R12). -/
def leNat : List Byte → Nat
  | [] => 0
  | b :: bs => b.toNat + 256 * leNat bs

/-- `le_N(v)`: the N-byte little-endian sequence of v mod 2^(8N) (00_scope.md R12). -/
def leBytes : Nat → Nat → List Byte
  | 0, _ => []
  | n + 1, v => BitVec.ofNat 8 v :: leBytes n (v / 256)

end Sys2Proof
end

