-- ==== Sys2Proof/Machine/Encoder.lean ====
section
/-! DEFINITION. The pure part of the varint engine and the block encoder: VarintEncode, VarintLen (41_varint.md), the
bound, the taggers, the reference match-finder and Encode (42_block_encoder.md). -/

namespace Sys2Proof.Machine

/-! ### Varint encoding -/

/-- The loop of 41_varint.md R180; the first argument bounds its rounds (10 suffice for 64 bits). -/
def varintBytes : Nat → Nat → List Byte
  | 0, _ => []
  | fuel + 1, v => if v < 128 then [BitVec.ofNat 8 v] else BitVec.ofNat 8 (v % 128 + 128) :: varintBytes fuel (v / 128)

/-- `VarintEncode(v)`, for v below 2^64 (41_varint.md R180). -/
def varintEncode (v : Nat) : List Byte := varintBytes Config.varintMax v

/-- `VarintLen(v)` (41_varint.md R181). -/
def varintLength (v : Nat) : Nat :=
  if v < 2 ^ 7 then 1
  else if v < 2 ^ 14 then 2
  else if v < 2 ^ 21 then 3
  else if v < 2 ^ 28 then 4
  else if v < 2 ^ 35 then 5
  else if v < 2 ^ 42 then 6
  else if v < 2 ^ 49 then 7
  else if v < 2 ^ 56 then 8
  else if v < 2 ^ 63 then 9
  else 10

/-! ### The bound -/

/-- `MaxEncodedLen(n)` (42_block_encoder.md R200). -/
def maxEncodedLen (n : Nat) : Option Nat :=
  if n > 0xFFFFFFFF then none
  else if 32 + n + n / 6 > 0xFFFFFFFF then none
  else some (32 + n + n / 6)

/-! ### The taggers -/

/-- The header of `EmitLiteral` for m = |B| - 1 (42_block_encoder.md R204). -/
def literalHeader (m : Nat) : List Byte :=
  if m < 60 then [BitVec.ofNat 8 (m * 4)]
  else if m < 2 ^ 8 then 0xF0#8 :: leBytes 1 m
  else if m < 2 ^ 16 then 0xF4#8 :: leBytes 2 m
  else if m < 2 ^ 24 then 0xF8#8 :: leBytes 3 m
  else 0xFC#8 :: leBytes 4 m

/-- `EmitLiteral(B)` (42_block_encoder.md R204). -/
def emitLiteral (bs : List Byte) : List Byte := literalHeader (bs.length - 1) ++ bs

/-- A COPY2 chunk of length `len` (30_encoding.md R98). -/
def copy2Chunk (off len : Nat) : List Byte := BitVec.ofNat 8 ((len - 1) * 4 + 2) :: leBytes 2 off

/-- A COPY1 chunk of length `len` (30_encoding.md R97). -/
def copy1Chunk (off len : Nat) : List Byte :=
  [BitVec.ofNat 8 (off / 256 * 32 + (len - 4) * 4 + 1), BitVec.ofNat 8 off]

/-- The last chunk of `EmitCopy`, for 4 ≤ L ≤ 64 (42_block_encoder.md R205). -/
def emitCopyLast (off len : Nat) : List Byte :=
  if len ≥ 12 ∨ off ≥ 2048 then copy2Chunk off len else copy1Chunk off len

/-- `EmitCopy` after its loop: "L in 65..67: splits into 60 + remainder" (42_block_encoder.md R205). -/
def emitCopyTail (off len : Nat) : List Byte :=
  if len > 64 then copy2Chunk off 60 ++ emitCopyLast off (len - 60) else emitCopyLast off len

/-- The loop of `EmitCopy` (42_block_encoder.md R205): while L ≥ 68, a COPY2 of length 64. The first argument bounds its
rounds. -/
def emitCopyLoop : Nat → Nat → Nat → List Byte
  | 0, off, len => emitCopyTail off len
  | fuel + 1, off, len =>
    if len ≥ 68 then copy2Chunk off 64 ++ emitCopyLoop fuel off (len - 64) else emitCopyTail off len

/-- `EmitCopy(off, L)` (42_block_encoder.md R205, 90_conflicts.md C1). -/
def emitCopy (off len : Nat) : List Byte := emitCopyLoop (len / 64) off len

/-- The bytes of one emission. -/
def emitOp : EmitOp → List Byte
  | .lit bs => emitLiteral bs
  | .copy off len => emitCopy off len

/-- The bytes of a list of emissions, in order. -/
def emitAll : List EmitOp → List Byte
  | [] => []
  | op :: ops => emitOp op ++ emitAll ops

/-! ### The reference match-finder -/

/-- `load32(blk, i)` (42_block_encoder.md R207), blk given by its byte at each position. -/
def load32 (blk : Nat → Byte) (i : Nat) : Nat := leNat [blk i, blk (i + 1), blk (i + 2), blk (i + 3)]

/-- `Hash(u, shift)` (42_block_encoder.md R207). -/
def hash32 (u shift : Nat) : Nat := u * Config.hashMul % 2 ^ 32 / 2 ^ shift

/-- The loop of `TableSize` (42_block_encoder.md R208), from table bits `bits`; the first argument bounds its rounds. -/
def tableBits : Nat → Nat → Nat → Nat
  | 0, _, bits => bits
  | fuel + 1, n, bits =>
    if 2 ^ bits < 2 ^ Config.tableBitsMax ∧ 2 ^ bits < n then tableBits fuel n (bits + 1) else bits

/-- `TableSize(n)`: (tsize, shift) (42_block_encoder.md R208). -/
def tableSize (n : Nat) : Nat × Nat :=
  let bits := tableBits (Config.tableBitsMax - Config.tableBitsMin) n Config.tableBitsMin
  (2 ^ bits, 32 - bits)

/-- The loop of `Extend` (42_block_encoder.md R211); the first argument bounds its rounds. -/
def extendMatch (blk : Nat → Byte) (n : Nat) : Nat → Nat → Nat → Nat
  | 0, _, t => t
  | fuel + 1, i, t => if t < n ∧ blk i = blk t then extendMatch blk n fuel (i + 1) (t + 1) else t

/-- The bytes blk[a .. b). -/
def slice (blk : Nat → Byte) (a b : Nat) : List Byte := (List.range' a (b - a)).map blk

/-- HTAB: one 16-bit position for each hash value below tsize (42_block_encoder.md R208, R209). -/
abbrev HashTable := Array Nat

/-- HTAB[h]. -/
def HashTable.look (t : HashTable) (h : Nat) : Nat := t.getD h 0

/-- HTAB[h] <- p. -/
def HashTable.put (t : HashTable) (h p : Nat) : HashTable := t.setIfInBounds h p

/-- The loop the match-finder is in: at label SCAN, or at label REPEAT (42_block_encoder.md R206). -/
inductive MatchState where
  | scan (nextS skip nextHash : Nat)
  | again (s candidate : Nat)
deriving DecidableEq, Repr

/-- What does not change during one `EncodeSubBlock`: the block, its length, the hash shift, P_ENC_SKIP. -/
structure MatchEnv where
  blk : Nat → Byte
  n : Nat
  shift : Nat
  skipOn : Bool

/-- sLimit (42_block_encoder.md R206). -/
def MatchEnv.sLimit (e : MatchEnv) : Nat := e.n - Config.inputMargin

/-- Hash of the fingerprint at a position. -/
def MatchEnv.hashAt (e : MatchEnv) (i : Nat) : Nat := hash32 (load32 e.blk i) e.shift

/-- The step size of a scan (42_block_encoder.md R214). -/
def MatchEnv.step (e : MatchEnv) (skip : Nat) : Nat := if e.skipOn then skip / 32 else 1

/-- REMAINDER (42_block_encoder.md R213). -/
def MatchEnv.remainder (e : MatchEnv) (nextEmit : Nat) : List EmitOp :=
  if nextEmit < e.n then [.lit (slice e.blk nextEmit e.n)] else []

/-- The emissions of `EncodeSubBlock` from a label on (42_block_encoder.md R206, R210 to R213). The first argument bounds
the rounds: each one moves s forward. -/
def matchFind (e : MatchEnv) : Nat → MatchState → HashTable → Nat → List EmitOp
  | 0, _, _, nextEmit => e.remainder nextEmit
  | fuel + 1, .scan s skip nextHash, htab, nextEmit =>
    let step := e.step skip
    let nextS := s + step
    if nextS > e.sLimit then e.remainder nextEmit
    else
      let candidate := htab.look nextHash
      let htab := htab.put nextHash s
      if load32 e.blk s ≠ load32 e.blk candidate then
        matchFind e fuel (.scan nextS (skip + step) (e.hashAt nextS)) htab nextEmit
      else
        .lit (slice e.blk nextEmit s) :: matchFind e fuel (.again s candidate) htab s
  | fuel + 1, .again base candidate, htab, _ =>
    let s := extendMatch e.blk e.n e.n (candidate + 4) (base + 4)
    .copy (base - candidate) (s - base) ::
      if s ≥ e.sLimit then e.remainder s
      else
        let htab := htab.put (e.hashAt (s - 1)) (s - 1)
        let currHash := e.hashAt s
        let candidate := htab.look currHash
        let htab := htab.put currHash s
        if load32 e.blk s = load32 e.blk candidate then matchFind e fuel (.again s candidate) htab s
        else matchFind e fuel (.scan (s + 1) 32 (e.hashAt (s + 1))) htab s

/-- `EncodeSubBlock(blk)` as emissions, for 17 ≤ |blk| ≤ 65536 (42_block_encoder.md R206). -/
def subBlockMatches (skipOn : Bool) (bs : List Byte) : List EmitOp :=
  let arr := bs.toArray
  let n := bs.length
  let (tsize, shift) := tableSize n
  let e : MatchEnv := { blk := fun i => arr.getD i 0#8, n := n, shift := shift, skipOn := skipOn }
  matchFind e (2 * n) (.scan 1 32 (e.hashAt 1)) (Array.replicate tsize 0) 0

/-- The emissions of one sub-block: shorter than 17 bytes, one literal (42_block_encoder.md R203). -/
def subBlockPlan (skipOn : Bool) (bs : List Byte) : List EmitOp :=
  if bs.length < Config.minNonlitBlock then [.lit bs] else subBlockMatches skipOn bs

/-- The sub-blocks of a source, 65536 bytes each but the last (42_block_encoder.md R203); the first argument bounds
their number. -/
def subBlocks : Nat → List Byte → List (List Byte)
  | 0, _ => []
  | fuel + 1, bs =>
    if bs.isEmpty then [] else bs.take Config.maxBlock :: subBlocks fuel (bs.drop Config.maxBlock)

/-- The emissions of the reference policy for a source (42_block_encoder.md R203). -/
def referencePlan (skipOn : Bool) (src : List Byte) : List EmitOp :=
  (subBlocks (src.length / Config.maxBlock + 1) src).flatMap (subBlockPlan skipOn)

/-! ### The conformant policy -/

/-- One byte at a time, from the pattern `w` of the last `off` output bytes (43_block_decoder.md R260): each byte is the
oldest of the pattern, which it then joins. -/
def repeatPattern : List Byte → Nat → List Byte
  | _, 0 => []
  | [], _ => []
  | b :: w, n + 1 => b :: repeatPattern (w ++ [b]) n

/-- What an emission adds to the output `out`. -/
def applyOp (out : List Byte) : EmitOp → List Byte
  | .lit bs => out ++ bs
  | .copy off len => out ++ repeatPattern (out.drop (out.length - off)) len

/-- What emissions produce from the output `out`. -/
def runPlan : List Byte → List EmitOp → List Byte
  | out, [] => out
  | out, op :: ops => runPlan (applyOp out op) ops

/-- An emission a tagger accepts after `done` bytes of output: 1 ≤ |B| ≤ 2^32; 1 ≤ o ≤ 65535, L ≥ 4, and the copy starts
inside the output (42_block_encoder.md R204, R205, R216). -/
def opOk (done : Nat) : EmitOp → Bool
  | .lit bs => decide (1 ≤ bs.length ∧ bs.length ≤ 2 ^ 32)
  | .copy off len => decide (1 ≤ off ∧ off ≤ 65535 ∧ Config.minMatch ≤ len ∧ off ≤ done)

/-- The bytes an emission produces. -/
def opSize : EmitOp → Nat
  | .lit bs => bs.length
  | .copy _ len => len

/-- Every emission is one a tagger accepts. -/
def planOk : Nat → List EmitOp → Bool
  | _, [] => true
  | done, op :: ops => opOk done op && planOk (done + opSize op) ops

/-- VarintEncode(|X|) and the emissions (42_block_encoder.md R203, R216 (1)). -/
def encodeWith (plan : List EmitOp) (src : List Byte) : List Byte := varintEncode src.length ++ emitAll plan

/-- The properties of 42_block_encoder.md R216 for one source and one list of emissions: (1) tagger arguments, (2) they
produce the source, (3) the bound. (4) holds of every list: no tagger emits COPY4. -/
def planConforms (src : List Byte) (plan : List EmitOp) : Bool :=
  planOk 0 plan && decide (runPlan [] plan = src) &&
    match maxEncodedLen src.length with
    | some b => decide ((encodeWith plan src).length ≤ b)
    | none => true

/-- The source as literals of at most 65536 bytes each: emissions that always conform. -/
def literalPlan (src : List Byte) : List EmitOp :=
  (subBlocks (src.length / Config.maxBlock + 1) src).map .lit

/-- `EncodeC` (42_block_encoder.md R216): the free emissions where they have the properties the rule gives, and else
literals, so that the properties hold whatever the free value is (log 11). -/
def conformantPlan (src : List Byte) : List EmitOp :=
  if planConforms src (Config.encodePlan src) then Config.encodePlan src else literalPlan src

/-- `Encode(X)` under the policy of the instance (42_block_encoder.md R203, R216). -/
def encodeBlock (p : Params) (src : List Byte) : List Byte :=
  match p.encPolicy with
  | .reference => encodeWith (referencePlan p.encSkip src) src
  | .conformant => encodeWith (conformantPlan src) src

/-! ### Frames (45_stream_writer.md R304, R305, R307) -/

/-- `Select(c, u)` (45_stream_writer.md R307). -/
def selectCompressed (p : Params) (c u : Nat) : Bool :=
  match p.select with
  | .smaller => decide (c < u)
  | .eighth => decide (c < u - u / 8)

/-- The 10 bytes of `EmitMarker()` (45_stream_writer.md R304). -/
def markerBytes : List Byte := [0xFF#8, 0x06#8, 0x00#8, 0x00#8] ++ Config.magic

end Sys2Proof.Machine
end

