-- ==== Sys2Proof/Machine/Checksum.lean ====
section
/-! DEFINITION. The checksum engine (44_checksum.md): CRC-32C, its mask and the checksum field. -/

namespace Sys2Proof.Machine

/-- One of the 8 bit steps of 44_checksum.md R280. -/
def crcBit (c : Word) : Word := if c.getLsbD 0 then (c >>> 1) ^^^ 0x82F63B78#32 else c >>> 1

/-- "repeat 8 times". -/
def crcBits : Nat → Word → Word
  | 0, c => c
  | n + 1, c => crcBits n (crcBit c)

/-- One byte of 44_checksum.md R280. -/
def crcByte (c : Word) (x : Byte) : Word := crcBits 8 (c ^^^ x.setWidth 32)

/-- The bytes in order, from the value `c`. -/
def crcBytes : Word → List Byte → Word
  | c, [] => c
  | c, x :: xs => crcBytes (crcByte c x) xs

/-- `CRC32C(B)` (44_checksum.md R280). -/
def crc32c (bs : List Byte) : Word := crcBytes 0xFFFFFFFF#32 bs ^^^ 0xFFFFFFFF#32

/-- `Mask(c)` (44_checksum.md R281). -/
def crcMask (c : Word) : Word := c.rotateRight 15 + Config.crcMaskDelta

/-- `FrameChecksum(D)` (44_checksum.md R281). -/
def frameChecksum (data : List Byte) : Word := crcMask (crc32c data)

/-- The checksum field, least significant byte first (44_checksum.md R282). -/
def checksumField (data : List Byte) : List Byte := leBytes 4 (frameChecksum data).toNat

end Sys2Proof.Machine
end

