-- ==== Sys2Proof/Syntax.lean ====
section
/-! DEFINITION. The instructions: one constructor per row of spec/opcode_table.json, in the four formats of
30_encoding.md (host commands F-CMD, chunk tags F-TAG, frame headers F-FH, varint bytes F-VB). -/

namespace Sys2Proof

/-- The four encoded formats (30_encoding.md R90, R95, R101, R93). They share byte values: which one a byte belongs
to is fixed by the stream it stands in. -/
inductive Format where
  | cmd
  | tag
  | frame
  | varint
deriving DecidableEq, Repr

/-- One encoded element. A command carries no operands of its own: they are the operand registers, latched at issue
(30_encoding.md R90, 40_commands.md R111). -/
inductive Instr where
  -- F-CMD (30_encoding.md R91)
  | varintEnc
  | varintDec
  | varintLen
  | maxLen
  | benc
  | bdec
  | swWrite
  | swFlush
  | swClose
  | swReset
  | srRead
  | srReset
  /-- Every unassigned opcode (40_commands.md R112); `op` is the byte written. -/
  | illegal (op : Byte)
  -- F-TAG (30_encoding.md R96 to R99)
  /-- `m` is the length field the 1 to 4 extension bytes hold, length - 1. -/
  | litX1 (m : BitVec 8)
  | litX2 (m : BitVec 16)
  | litX3 (m : BitVec 24)
  | litX4 (m : BitVec 32)
  /-- `h` is t[7:2], length - 1. -/
  | litInline (h : BitVec 6)
  /-- `len` is t[4:2], length - 4; `off` the 11-bit offset. -/
  | copy1 (len : BitVec 3) (off : BitVec 11)
  /-- `len` is t[7:2], length - 1; `off` the 16-bit offset. -/
  | copy2 (len : BitVec 6) (off : BitVec 16)
  /-- `h` is t[7:2], which nothing reads (30_encoding.md R99). -/
  | copy4 (h : BitVec 6)
  -- F-FH (30_encoding.md R101, R102); `len` is LEN
  | ftCompressed (len : BitVec 24)
  | ftUncompressed (len : BitVec 24)
  | ftStreamId (len : BitVec 24)
  | ftPadding (len : BitVec 24)
  /-- `ty` is TYPE, 0x02..P_MU_MAX. -/
  | ftReservedUnskippable (ty : Byte) (len : BitVec 24)
  /-- `ty` is TYPE, P_MU_MAX+1..0xFD. -/
  | ftReservedSkippable (ty : Byte) (len : BitVec 24)
  -- F-VB (30_encoding.md R93); `g` is G
  | vbCont (g : BitVec 7)
  | vbLast (g : BitVec 7)
deriving DecidableEq, Repr

/-- The format an instruction is encoded in. -/
def Instr.format : Instr → Format
  | .varintEnc | .varintDec | .varintLen | .maxLen | .benc | .bdec | .swWrite | .swFlush | .swClose | .swReset
  | .srRead | .srReset | .illegal _ => .cmd
  | .litX1 _ | .litX2 _ | .litX3 _ | .litX4 _ | .litInline _ | .copy1 _ _ | .copy2 _ _ | .copy4 _ => .tag
  | .ftCompressed _ | .ftUncompressed _ | .ftStreamId _ | .ftPadding _ | .ftReservedUnskippable _ _
  | .ftReservedSkippable _ _ => .frame
  | .vbCont _ | .vbLast _ => .varint

end Sys2Proof
end

