-- ==== Sys2Proof/Machine/State.lean ====
section
/-! DEFINITION. The state of the machine (10_state.md R30), as plain data, the reasons a step can stop, and the state
after reset (70_reset_and_hazards.md R450). -/

namespace Sys2Proof.Machine

/-! ### Named values -/

/-- The completion codes (60_exceptions.md R400). -/
inductive Code where
  | ok
  | corrupt
  | tooLarge
  | unsupported
  | closed
  | eos
  | badArg
  | dstSmall
  | illegal
deriving DecidableEq, Repr

/-- SW_STATE (10_state.md R51, 45_stream_writer.md R300). -/
inductive SwState where
  | unstarted
  | active
  | closed
deriving DecidableEq, Repr

/-- SR_PHASE (10_state.md R52). -/
inductive SrPhase where
  | awaitMarker
  | streaming
deriving DecidableEq, Repr

/-- SR_ERR, the sticky reader condition (10_state.md R52, 46_stream_reader.md R342). -/
inductive SrErr where
  | none
  | corrupt
  | tooLarge
  | unsupported
  | eos
deriving DecidableEq, Repr

/-! ### The running command -/

/-- The latched operands L (40_commands.md R111), and the opcode of the running command: a rejected CMD write changes
CMD.OPCODE "and nothing else", so the running command's opcode is held apart (log 15, DEDUCED). -/
structure Latch where
  op : Byte
  srcAddr : Word
  srcLen : Word
  dstAddr : Word
  dstCap : Word
  arg : DWord
deriving DecidableEq, Repr

/-- Whose block is decoded: BDEC's, or the body of a compressed frame (43_block_decoder.md R240, "The callers choose").
For a frame: i0 (46_stream_reader.md R341) and h0 (R356). -/
inductive BlockUser where
  | bdec
  | frame (i0 h0 : DWord)
deriving DecidableEq, Repr

/-- Whose varint is decoded: VARINT_DEC's, or a block's prefix (41_varint.md R187, 43_block_decoder.md R240). -/
inductive VarintUser where
  | command
  | ofBlock (u : BlockUser)
deriving DecidableEq, Repr

/-- The varint position i and the running value x (41_varint.md R183 to R185). -/
structure VarintCursor where
  i : Nat
  x : DWord
deriving DecidableEq, Repr

/-- The decoder's cursors s and d (10_state.md R54), and the declared length N. -/
structure BlockCursor where
  s : Nat
  d : Nat
  n : Nat
deriving DecidableEq, Repr

/-- What is done with a frame's body once FBUF holds it (46_stream_reader.md R348 to R353). -/
inductive BodyKind where
  | compressed
  | uncompressed
  | streamId
  | skipped
deriving DecidableEq, Repr

/-- One remaining action of a running writer command (45_stream_writer.md R302, R308, R309). -/
inductive WriterOp where
  /-- OutPut of bytes the sink has not accepted yet. -/
  | put (bs : List Byte)
  /-- SW_STATE <- ACTIVE. -/
  | activate
  /-- IBUF takes the source bytes k .. k+n-1. -/
  | fill (k n : Nat)
  /-- EmitFrame of all of IBUF, then IBUF_LEN <- 0. -/
  | frame
  /-- IBUF_LEN <- 0, when the frame has been put. -/
  | empty
  /-- SW_STATE <- CLOSED. -/
  | close
deriving DecidableEq, Repr

/-- A writer command in progress: the RES_LEN it will finish with, the OUT bytes o it has put, what is left to do. -/
structure WriterRun where
  resLen : Nat
  o : Nat
  todo : List WriterOp
deriving DecidableEq, Repr

/-- Where the running command stands. STATUS.BUSY is 1 iff this is not `idle`. -/
inductive Engine where
  /-- No command runs. -/
  | idle
  /-- A CMD write has been accepted and its operands latched; the opcode is not yet dispatched (40_commands.md R110). -/
  | dispatch
  /-- At the next byte of a varint. -/
  | varint (c : VarintCursor) (u : VarintUser)
  /-- At the tag of the next chunk. -/
  | block (c : BlockCursor) (u : BlockUser)
  /-- A writer command whose OUT bytes the sink has not all accepted. -/
  | writer (w : WriterRun)
  /-- SR_READ in a frame header of which the bytes `h` have been taken. -/
  | header (i0 h0 : DWord) (h : List Byte)
  /-- SR_READ in a frame body of `len` bytes; those taken so far are in FBUF. -/
  | body (i0 h0 : DWord) (kind : BodyKind) (len : Nat)
deriving DecidableEq, Repr

/-! ### The world outside -/

/-- A move of the host or the platform (70_reset_and_hazards.md R465, R451; 20_memory.md R77, R78), or a turn of the
engine. The list `State.events` says which comes next (log 5, DESIGN CHOICE). -/
inductive HostAction where
  /-- The engine moves once. -/
  | engine
  /-- The host waits for the running command to complete (70_reset_and_hazards.md R454 step 6): the engine moves until
  BUSY = 0. -/
  | wait
  /-- A register-window write of `width` bytes at an offset from CSR_BASE. -/
  | write (off : Byte) (width : Nat) (val : Word)
  /-- A register-window read. -/
  | read (off : Byte) (width : Nat)
  /-- A write of one byte of buffer memory. -/
  | memWrite (addr : Nat) (b : Byte)
  /-- A read of one byte of buffer memory. -/
  | memRead (addr : Nat)
  /-- The IN source offers bytes after those it has offered. -/
  | inOffer (bs : List Byte)
  /-- The IN source offers EOS after the bytes it has offered. -/
  | inEos
  /-- An endless IN source (20_memory.md R77, 70_reset_and_hazards.md R464): while the running command has not completed, the
  source offers one of `chunks`, freely chosen, each time all it has offered is taken, and the engine moves. With the 256
  one-byte chunks its content is any infinite sequence of bytes; with one chunk that chunk repeated (log 9). -/
  | feed (chunks : List (List Byte))
  /-- The OUT sink will accept so many bytes more (`none`: without limit). -/
  | outSink (room : Option Nat)
  /-- Hardware reset (70_reset_and_hazards.md R451). -/
  | hwReset
deriving DecidableEq, Repr

/-! ### The state -/

/-- The state of SNAPPY-CODEC (10_state.md R30) with its ports, its build parameters and the model's own fields.
INVENTORY.md, heading State, lists every field with its rule. -/
structure State where
  /-- The build parameters (00_scope.md R8). -/
  cfg : Params
  /-- CTRL.IE. -/
  ie : Bool
  /-- STATUS.DONE. -/
  done : Bool
  /-- STATUS.REJ. -/
  rej : Bool
  /-- STATUS.ERR. -/
  err : Code
  /-- CMD.OPCODE. -/
  cmd : Byte
  srcAddr : Word
  srcLen : Word
  dstAddr : Word
  dstCap : Word
  argLo : Word
  argHi : Word
  resLen : Word
  /-- RES_VAL_HI and RES_VAL_LO. -/
  resVal : DWord
  errPos : Word
  /-- L (40_commands.md R111). -/
  latch : Latch
  /-- The progress of the running command. -/
  engine : Engine
  /-- SW_STATE. -/
  swState : SwState
  /-- IBUF[0..IBUF_LEN). -/
  ibuf : List Byte
  /-- SR_PHASE. -/
  srPhase : SrPhase
  /-- SR_ERR. -/
  srErr : SrErr
  /-- The bytes of DBUF written by the current use. -/
  dbuf : List Byte
  /-- LEFT_RD. -/
  leftRd : Nat
  /-- LEFT_END. -/
  leftEnd : Nat
  /-- SR_INPOS. -/
  srInpos : DWord
  /-- The bytes of FBUF written by the current use. -/
  fbuf : List Byte
  /-- Buffer memory (20_memory.md R70): the bytes that are not `Memory.unwritten`, addresses rising. -/
  mem : List Host.Cell
  /-- IN: the bytes offered and not yet taken. -/
  inPending : List Byte
  /-- IN: the source offers EOS after `inPending`. -/
  inEos : Bool
  /-- IN: InTake has returned EOS (20_memory.md R77). -/
  inLatch : Bool
  /-- IN: the bytes taken since the start of the run. -/
  inTaken : Nat
  /-- OUT: the bytes put since the start of the run (20_memory.md R78). -/
  out : List Byte
  /-- OUT: how many bytes more the sink accepts now; `none` is without limit. -/
  outRoom : Option Nat
  /-- The model's own: buffer memory as the last command issued found it, for a host read of DST while BUSY
  (70_reset_and_hazards.md R460). -/
  memBefore : List Host.Cell
  /-- The model's own: the moves of host, platform and engine still to come. -/
  events : List HostAction
  /-- The model's own: what the host's last read returned. -/
  busData : Word
  /-- The model's own: how many free bytes have been drawn. -/
  draws : Nat
deriving DecidableEq, Repr

/-- Why the machine stops. -/
inductive Fault where
  /-- A host access to buffer memory at an address outside 0..P_MEM_SIZE-1, which does not exist (20_memory.md R70).
  Raised by `hostAct`. SAFE (log 17). -/
  | hostAddressOutOfRange
deriving DecidableEq, Repr

/-- Why a step has no meaning. -/
inductive Refusal where
  /-- An instruction not modelled yet, by its mnemonic. SAFE. -/
  | notModelled (mnemonic : String)
  /-- A host write to the running command's SRC or DST region while BUSY = 1: "A model may refuse such a program"
  (70_reset_and_hazards.md R460). Raised by `hostAct`. SAFE (log 6). -/
  | hostRegionRace
  /-- A chunk, a frame header or a varint byte executed where the engine is not parsing such an element. `step` never
  answers this. Raised by the meanings of F-TAG, F-FH and F-VB. SAFE (log 21). -/
  | noElementStream
deriving DecidableEq, Repr

/-- What a step, or an instruction, answers. -/
abbrev Result := Host.Outcome State Fault Refusal

/-- 70_reset_and_hazards.md R450: the latched operands are 0. -/
def Latch.reset : Latch where
  op := 0#8
  srcAddr := 0#32
  srcLen := 0#32
  dstAddr := 0#32
  dstCap := 0#32
  arg := 0#64

/-- The machine right after reset (70_reset_and_hazards.md R450). The spec gives no value for buffer memory at power-on
(log 3), for the ports' sources (logs 9, 10) or for the internal buffers (log 12); the model's own fields start empty
(logs 5, 7, 16, 18). -/
def State.reset : State where
  cfg := Params.default
  ie := false
  done := false
  rej := false
  err := .ok
  cmd := 0#8
  srcAddr := 0#32
  srcLen := 0#32
  dstAddr := 0#32
  dstCap := 0#32
  argLo := 0#32
  argHi := 0#32
  resLen := 0#32
  resVal := 0#64
  errPos := 0#32
  latch := Latch.reset
  engine := .idle
  swState := .unstarted
  ibuf := []
  srPhase := .awaitMarker
  srErr := .none
  dbuf := []
  leftRd := 0
  leftEnd := 0
  srInpos := 0#64
  fbuf := []
  mem := []
  inPending := []
  inEos := false
  inLatch := false
  inTaken := 0
  out := []
  outRoom := none
  memBefore := []
  events := []
  busData := 0#32
  draws := 0

end Sys2Proof.Machine
end

