-- ==== Sys2Proof/Machine/Flags.lean ====
section
/-! DEFINITION. The status of the machine: completion codes as numbers, the fields of STATUS, SW_STATUS, SR_STATUS and
CONFIG, and the interrupt output (10_state.md R31 to R46, R57; 60_exceptions.md R400). -/

namespace Sys2Proof.Machine

/-- STATUS.ERR (60_exceptions.md R400). -/
def Code.bits : Code → BitVec 4
  | .ok => 0#4
  | .corrupt => 1#4
  | .tooLarge => 2#4
  | .unsupported => 3#4
  | .closed => 4#4
  | .eos => 5#4
  | .badArg => 6#4
  | .dstSmall => 7#4
  | .illegal => 8#4

/-- SW_STATUS.SW_STATE (10_state.md R43). -/
def SwState.bits : SwState → BitVec 2
  | .unstarted => 0#2
  | .active => 1#2
  | .closed => 2#2

/-- SR_STATUS.SR_PHASE (10_state.md R44). -/
def SrPhase.bits : SrPhase → BitVec 1
  | .awaitMarker => 0#1
  | .streaming => 1#1

/-- SR_STATUS.SR_ERR (10_state.md R44). -/
def SrErr.bits : SrErr → BitVec 4
  | .none => 0#4
  | .corrupt => 1#4
  | .tooLarge => 2#4
  | .unsupported => 3#4
  | .eos => 5#4

/-- The completion code a sticky reader condition is raised with (46_stream_reader.md R342). -/
def SrErr.code : SrErr → Code
  | .none => .ok
  | .corrupt => .corrupt
  | .tooLarge => .tooLarge
  | .unsupported => .unsupported
  | .eos => .eos

/-- STATUS.BUSY: a command runs (10_state.md R33, 40_commands.md R110). -/
def State.busy (s : State) : Bool := decide (s.engine ≠ .idle)

/-- IRQ = STATUS.DONE AND CTRL.IE, a level (10_state.md R57). -/
def State.irq (s : State) : Bool := s.done && s.ie

/-- IBUF_LEN (10_state.md R51). -/
def State.ibufLen (s : State) : Nat := s.ibuf.length

/-- LEFTOVER: LEFT_END - LEFT_RD, the undelivered decoded bytes (10_state.md R44). -/
def State.leftover (s : State) : Nat := s.leftEnd - s.leftRd

/-- STATUS (10_state.md R33). -/
def statusImage (s : State) : Word :=
  0#24 ++ s.err.bits ++ 0#1 ++ BitVec.ofBool s.rej ++ BitVec.ofBool s.done ++ BitVec.ofBool s.busy

/-- The field IBUF_LEN of SW_STATUS (10_state.md R43), 0..65535 when BUSY = 0. It has no room for the 65536 that IBUF_LEN can be
while a writer command runs (R51): it is any value then (log 23). -/
def ibufLenField (s : State) : BitVec 16 :=
  if s.ibufLen < Config.maxBlock then BitVec.ofNat 16 s.ibufLen else Config.fullIbufLen s.draws

/-- SW_STATUS (10_state.md R43). -/
def swStatusImage (s : State) : Word :=
  ibufLenField s ++ 0#14 ++ s.swState.bits

/-- SR_STATUS (10_state.md R44). -/
def srStatusImage (s : State) : Word :=
  BitVec.ofNat 17 s.leftover ++ 0#7 ++ s.srErr.bits ++ 0#3 ++ s.srPhase.bits

/-- CONFIG (10_state.md R45). -/
def configImage (p : Params) : Word :=
  0#8 ++ BitVec.ofNat 8 p.memAddrW ++ p.muMax ++ 0#5
    ++ BitVec.ofBool (decide (p.select = .eighth)) ++ BitVec.ofBool p.encSkip
    ++ BitVec.ofBool (decide (p.encPolicy = .conformant))

/-- ID (10_state.md R31). -/
def idImage : Word := 0x59504E53#32

end Sys2Proof.Machine
end

