-- ==== Sys2Proof/Machine/Memory.lean ====
section
/-! DEFINITION. Buffer memory (20_memory.md R70 to R73) as a list of cells in one canonical form, read and written a byte
or a run of bytes at a time. -/

namespace Sys2Proof.Machine

/-- What a byte of buffer memory that nothing has written reads as. The spec gives no value (20_memory.md R70: "whatever
the platform leaves"); DESIGN CHOICE, unsafe (log 3). Every content of buffer memory is some list of cells. -/
def Memory.unwritten : Byte := 0x00#8

/-- The canonical form: addresses strictly rising, and no cell equal to what an unlisted address reads as. -/
abbrev Memory.wf (m : List Host.Cell) : Prop :=
  m.Pairwise (fun c c' => c.1 < c'.1) ∧ ∀ c ∈ m, c.2 ≠ Memory.unwritten

/-- M[a]. -/
def Memory.get (m : List Host.Cell) (a : Nat) : Byte :=
  match m.find? (fun c => c.1 == a) with
  | some c => c.2
  | none => Memory.unwritten

/-- `MemRead(a, n)` (20_memory.md R72): M[a], M[a+1], ..., M[a+n-1]. -/
def Memory.read (m : List Host.Cell) : Nat → Nat → List Byte
  | _, 0 => []
  | a, n + 1 => Memory.get m a :: Memory.read m (a + 1) n

/-- The cells of a run of bytes placed at `a`. -/
def Memory.cells : Nat → List Byte → List Host.Cell
  | _, [] => []
  | a, b :: bs => if b = Memory.unwritten then Memory.cells (a + 1) bs else (a, b) :: Memory.cells (a + 1) bs

/-- `MemWrite(a, n, B)` (20_memory.md R73), n = |B|: M[a+k] <- B[k]. -/
def Memory.write (m : List Host.Cell) (a : Nat) (bs : List Byte) : List Host.Cell :=
  m.filter (fun c => c.1 < a) ++ Memory.cells a bs ++ m.filter (fun c => a + bs.length ≤ c.1)

end Sys2Proof.Machine
end

