-- ==== Sys2Proof/WellFormed.lean ====
section
/-! DEFINITION. Which instructions have an encoding of their own: the value ranges of 30_encoding.md that a field's
width does not already fix. -/

namespace Sys2Proof

/-- The assigned opcodes (30_encoding.md R91). -/
def assignedOpcodes : List Byte :=
  [0x01#8, 0x02#8, 0x03#8, 0x10#8, 0x11#8, 0x12#8, 0x20#8, 0x21#8, 0x22#8, 0x23#8, 0x30#8, 0x31#8]

/-- ILLEGAL stands for the opcodes that 30_encoding.md R91 does not assign. -/
abbrev opcodeUnassigned (op : Byte) : Prop := op ∉ assignedOpcodes

/-- LIT_INLINE holds H in 0..59 (30_encoding.md R96). -/
abbrev inlineLengthFits (h : BitVec 6) : Prop := h < 60#6

/-- FT_RESERVED_UNSKIPPABLE is TYPE 0x02..P_MU_MAX (30_encoding.md R102). -/
abbrev typeUnskippable (muMax ty : Byte) : Prop := 0x02#8 ≤ ty ∧ ty ≤ muMax

/-- FT_RESERVED_SKIPPABLE is TYPE P_MU_MAX+1..0xFD (30_encoding.md R102); 0x00 and 0x01 have rows of their own. -/
abbrev typeSkippable (muMax ty : Byte) : Prop := 0x02#8 ≤ ty ∧ muMax < ty ∧ ty ≤ 0xFD#8

/-- An instruction is well formed for the boundary `muMax` (P_MU_MAX) iff its fields are in the ranges its row of the
opcode table gives. -/
def Instr.wellFormed (muMax : Byte) : Instr → Bool
  | .illegal op => decide (opcodeUnassigned op)
  | .litInline h => decide (inlineLengthFits h)
  | .ftReservedUnskippable ty _ => decide (typeUnskippable muMax ty)
  | .ftReservedSkippable ty _ => decide (typeSkippable muMax ty)
  | .varintEnc | .varintDec | .varintLen | .maxLen | .benc | .bdec | .swWrite | .swFlush | .swClose | .swReset
  | .srRead | .srReset => true
  | .litX1 _ | .litX2 _ | .litX3 _ | .litX4 _ | .copy1 _ _ | .copy2 _ _ | .copy4 _ => true
  | .ftCompressed _ | .ftUncompressed _ | .ftStreamId _ | .ftPadding _ => true
  | .vbCont _ | .vbLast _ => true

/-- `wellFormed` as a proposition. -/
abbrev Instr.WellFormed (muMax : Byte) (i : Instr) : Prop := i.wellFormed muMax = true

end Sys2Proof
end

