-- ==== Sys2Proof/Decode.lean ====
section
/-! DEFINITION. Decoding of the four formats (30_encoding.md), total on any bytes and rejecting by name, then the encoder
written from the same tables, then the decoder the host asks about single table words. -/

namespace Sys2Proof

/-- Why bytes are no instruction of a format. Every value of a complete element decodes (30_encoding.md R91, R95, R102,
R93 leave no value out), so the only rejections are for missing bytes. -/
inductive DecodeError where
  /-- A command word has 4 bytes (30_encoding.md R90). -/
  | shortCommand
  /-- No tag byte is left. -/
  | noTag
  /-- The bytes after the tag that the chunk's form calls for are not all there (43_block_decoder.md R252 to R257). -/
  | shortChunk
  /-- A frame header has 4 bytes (30_encoding.md R101). -/
  | shortHeader
  /-- No varint byte is left. -/
  | noVarintByte
deriving DecidableEq, Repr

/-- What a decoder answers: the instruction and the bytes after it. -/
abbrev Decoded := Except DecodeError (Instr × List Byte)

/-! ### Fields of a tag byte (30_encoding.md R95 to R98) -/

/-- K = t[1:0]. -/
def tagKind (t : Byte) : BitVec 2 := t.extractLsb' 0 2

/-- H = t[7:2]. -/
def tagHigh (t : Byte) : BitVec 6 := t.extractLsb' 2 6

/-- t[4:2] of a COPY1. -/
def copy1LenField (t : Byte) : BitVec 3 := t.extractLsb' 2 3

/-- t[7:5] of a COPY1: offset[10:8]. -/
def copy1OffHigh (t : Byte) : BitVec 3 := t.extractLsb' 5 3

/-! ### The decoders -/

/-- 30_encoding.md R91: the command an opcode selects; every value not assigned is ILLEGAL. -/
def decodeOpcode (op : Byte) : Instr :=
  if op = 0x01#8 then .varintEnc
  else if op = 0x02#8 then .varintDec
  else if op = 0x03#8 then .varintLen
  else if op = 0x10#8 then .maxLen
  else if op = 0x11#8 then .benc
  else if op = 0x12#8 then .bdec
  else if op = 0x20#8 then .swWrite
  else if op = 0x21#8 then .swFlush
  else if op = 0x22#8 then .swClose
  else if op = 0x23#8 then .swReset
  else if op = 0x30#8 then .srRead
  else if op = 0x31#8 then .srReset
  else .illegal op

/-- A command word as its four bytes, least significant first: only bits 7:0 are decoded (30_encoding.md R90). -/
def decodeCommand : List Byte → Decoded
  | op :: _ :: _ :: _ :: rest => .ok (decodeOpcode op, rest)
  | _ => .error .shortCommand

/-- 30_encoding.md R96: a literal tag with H, followed by the bytes `rest`. -/
def decodeLiteral (h : BitVec 6) (rest : List Byte) : Decoded :=
  if h = 60#6 then
    match rest with
    | b1 :: r => .ok (.litX1 b1, r)
    | _ => .error .shortChunk
  else if h = 61#6 then
    match rest with
    | b1 :: b2 :: r => .ok (.litX2 (BitVec.ofNat 16 (leNat [b1, b2])), r)
    | _ => .error .shortChunk
  else if h = 62#6 then
    match rest with
    | b1 :: b2 :: b3 :: r => .ok (.litX3 (BitVec.ofNat 24 (leNat [b1, b2, b3])), r)
    | _ => .error .shortChunk
  else if h = 63#6 then
    match rest with
    | b1 :: b2 :: b3 :: b4 :: r => .ok (.litX4 (BitVec.ofNat 32 (leNat [b1, b2, b3, b4])), r)
    | _ => .error .shortChunk
  else .ok (.litInline h, rest)

/-- 30_encoding.md R97. -/
def decodeCopy1 (t : Byte) : List Byte → Decoded
  | b1 :: r => .ok (.copy1 (copy1LenField t) (copy1OffHigh t ++ b1), r)
  | [] => .error .shortChunk

/-- 30_encoding.md R98. -/
def decodeCopy2 (t : Byte) : List Byte → Decoded
  | b1 :: b2 :: r => .ok (.copy2 (tagHigh t) (BitVec.ofNat 16 (leNat [b1, b2])), r)
  | _ => .error .shortChunk

/-- 30_encoding.md R95: a chunk's tag and the bytes that belong to its operands. The data bytes of a literal follow and
are not part of what is decoded. COPY4 is decided by the tag alone (43_block_decoder.md R258). -/
def decodeTag : List Byte → Decoded
  | [] => .error .noTag
  | t :: rest =>
    if tagKind t = 0#2 then decodeLiteral (tagHigh t) rest
    else if tagKind t = 1#2 then decodeCopy1 t rest
    else if tagKind t = 2#2 then decodeCopy2 t rest
    else .ok (.copy4 (tagHigh t), rest)

/-- 30_encoding.md R102: the frame a TYPE and LEN stand for, with the boundary P_MU_MAX. -/
def frameInstr (muMax ty : Byte) (len : BitVec 24) : Instr :=
  if ty = 0x00#8 then .ftCompressed len
  else if ty = 0x01#8 then .ftUncompressed len
  else if ty = 0xFF#8 then .ftStreamId len
  else if ty = 0xFE#8 then .ftPadding len
  else if ty ≤ muMax then .ftReservedUnskippable ty len
  else .ftReservedSkippable ty len

/-- 30_encoding.md R101: a frame header. -/
def decodeHeader (muMax : Byte) : List Byte → Decoded
  | ty :: l0 :: l1 :: l2 :: rest => .ok (frameInstr muMax ty (BitVec.ofNat 24 (leNat [l0, l1, l2])), rest)
  | _ => .error .shortHeader

/-- 30_encoding.md R93: one varint byte. -/
def varintInstr (b : Byte) : Instr :=
  if b.extractLsb' 7 1 = 1#1 then .vbCont (b.extractLsb' 0 7) else .vbLast (b.extractLsb' 0 7)

def decodeVarintByte : List Byte → Decoded
  | b :: rest => .ok (varintInstr b, rest)
  | [] => .error .noVarintByte

/-- The decoder of each format. -/
def decode (muMax : Byte) : Format → List Byte → Decoded
  | .cmd => decodeCommand
  | .tag => decodeTag
  | .frame => decodeHeader muMax
  | .varint => decodeVarintByte

/-! ### The encoder -/

/-- A command word (30_encoding.md R90): the opcode, then the ignored bits, written 0. -/
def encodeOpcode (op : Byte) : List Byte := [op, 0#8, 0#8, 0#8]

/-- A tag byte from H and K (30_encoding.md R95). -/
def tagByte (h : BitVec 6) (k : BitVec 2) : Byte := h ++ k

/-- The words of an instruction (30_encoding.md R90, R91, R93, R96 to R99, R101, R102). -/
def encode : Instr → List Byte
  | .varintEnc => encodeOpcode 0x01#8
  | .varintDec => encodeOpcode 0x02#8
  | .varintLen => encodeOpcode 0x03#8
  | .maxLen => encodeOpcode 0x10#8
  | .benc => encodeOpcode 0x11#8
  | .bdec => encodeOpcode 0x12#8
  | .swWrite => encodeOpcode 0x20#8
  | .swFlush => encodeOpcode 0x21#8
  | .swClose => encodeOpcode 0x22#8
  | .swReset => encodeOpcode 0x23#8
  | .srRead => encodeOpcode 0x30#8
  | .srReset => encodeOpcode 0x31#8
  | .illegal op => encodeOpcode op
  | .litX1 m => tagByte 60#6 0#2 :: leBytes 1 m.toNat
  | .litX2 m => tagByte 61#6 0#2 :: leBytes 2 m.toNat
  | .litX3 m => tagByte 62#6 0#2 :: leBytes 3 m.toNat
  | .litX4 m => tagByte 63#6 0#2 :: leBytes 4 m.toNat
  | .litInline h => [tagByte h 0#2]
  | .copy1 len off => [off.extractLsb' 8 3 ++ len ++ 1#2, off.extractLsb' 0 8]
  | .copy2 len off => tagByte len 2#2 :: leBytes 2 off.toNat
  | .copy4 h => [tagByte h 3#2]
  | .ftCompressed len => 0x00#8 :: leBytes 3 len.toNat
  | .ftUncompressed len => 0x01#8 :: leBytes 3 len.toNat
  | .ftStreamId len => 0xFF#8 :: leBytes 3 len.toNat
  | .ftPadding len => 0xFE#8 :: leBytes 3 len.toNat
  | .ftReservedUnskippable ty len => ty :: leBytes 3 len.toNat
  | .ftReservedSkippable ty len => ty :: leBytes 3 len.toNat
  | .vbCont g => [1#1 ++ g]
  | .vbLast g => [0#1 ++ g]

/-! ### Single table words (log 14)

A word of spec/opcode_table.json does not say which format it belongs to, and the four formats use the same byte values
(0x00 alone is ILLEGAL, LIT_INLINE, FT_COMPRESSED, FT_RESERVED_UNSKIPPABLE and VB_LAST). The machine knows the format from
the stream a byte stands in; for a bare word the first row of the table whose match value IS the word decides, and
else the row with the most mask bits. -/

/-- The format read for a bare table word. -/
def tableFormat (b : Byte) : Format :=
  if b ∈ assignedOpcodes ∨ b = 0x00#8 then .cmd
  else if b = 0xFF#8 ∨ b = 0xFE#8 ∨ b = 0x80#8 then .frame
  else .tag

/-- The longest instruction has 5 bytes (LIT_X4). -/
def tableBytes (nbits w : Nat) : List Byte := leBytes 5 (w % 2 ^ nbits)

/-- The instruction the decoder reads from a table word, the bits above `nbits` zero. -/
def decodeTableWord (nbits w : Nat) : Option Instr :=
  match decode Params.default.muMax (tableFormat (BitVec.ofNat 8 (w % 2 ^ nbits))) (tableBytes nbits w) with
  | .ok (i, _) => some i
  | .error _ => none

end Sys2Proof
end

