-- ==== Sys2Proof/Machine/Operands.lean ====
section
/-! DEFINITION. Operands: which regions a command uses and whether they are valid (30_encoding.md R91; 40_commands.md R113,
R114), and the operand values that encoded fields stand for (30_encoding.md R104). -/

namespace Sys2Proof.Machine

/-! ### Regions -/

/-- The commands that use S = SRC_ADDR/SRC_LEN (30_encoding.md R91). -/
def usesSrc : Instr → Bool
  | .varintDec | .benc | .bdec | .swWrite => true
  | _ => false

/-- The commands that use D = DST_ADDR/DST_CAP (30_encoding.md R91). -/
def usesDst : Instr → Bool
  | .varintEnc | .benc | .bdec | .srRead => true
  | _ => false

/-- 40_commands.md R113: a region (a, n) is valid iff n = 0 or a + n ≤ P_MEM_SIZE, without wrap-around. -/
def regionValid (p : Params) (a n : Word) : Bool :=
  decide (n.toNat = 0 ∨ a.toNat + n.toNat ≤ p.memSize)

/-- An address lies in the region (a, n). -/
def inRegion (a n : Word) (x : Nat) : Bool := decide (a.toNat ≤ x ∧ x < a.toNat + n.toNat)

/-- 40_commands.md R114: the two regions overlap. -/
def regionsOverlap (l : Latch) : Bool :=
  decide (0 < l.srcLen.toNat ∧ 0 < l.dstCap.toNat ∧
    l.srcAddr.toNat < l.dstAddr.toNat + l.dstCap.toNat ∧ l.dstAddr.toNat < l.srcAddr.toNat + l.srcLen.toNat)

/-- The latched source region is valid. -/
def srcValid (s : State) : Bool := regionValid s.cfg s.latch.srcAddr s.latch.srcLen

/-- The latched destination region is valid. -/
def dstValid (s : State) : Bool := regionValid s.cfg s.latch.dstAddr s.latch.dstCap

/-- The checks of a command with both regions: S valid, D valid, disjoint (40_commands.md R113 to R115). -/
def regionsOk (s : State) : Bool := srcValid s && dstValid s && !regionsOverlap s.latch

/-! ### Operand values (30_encoding.md R104) -/

/-- ARG = (ARG_HI << 32) | ARG_LO. -/
def argOperand (s : State) : DWord := s.argHi ++ s.argLo

/-- The length of a literal with length field m. -/
def literalLength (m : Nat) : Nat := m + 1

/-- COPY1: length = 4 + t[4:2]. -/
def copy1Length (len : BitVec 3) : Nat := 4 + len.toNat

/-- COPY2: length = 1 + t[7:2]. -/
def copy2Length (len : BitVec 6) : Nat := 1 + len.toNat

/-- What the group G of a varint byte at position i adds to the value: G << 7i (30_encoding.md R93). -/
def varintGroup (g : BitVec 7) (i : Nat) : DWord := g.setWidth 64 <<< (7 * i)

end Sys2Proof.Machine
end

