-- ==== Sys2Proof/Machine/Ops.lean ====
section
/-! DEFINITION. The shared operations of the sequencer: issue and latching (40_commands.md R110, R111), completion (R116),
what an error leaves in DST (R117), reset (70_reset_and_hazards.md R450 to R452), and the two ports (20_memory.md R77, R78). -/

namespace Sys2Proof.Machine

/-! ### Issue -/

/-- 40_commands.md R111: the operand registers copied at the start of a command. -/
def latchOperands (op : Byte) (s : State) : Latch where
  op := op
  srcAddr := s.srcAddr
  srcLen := s.srcLen
  dstAddr := s.dstAddr
  dstCap := s.dstCap
  arg := argOperand s

/-- 40_commands.md R110, a CMD write accepted with BUSY = 0: BUSY <- 1, DONE <- 0, ERR <- 0, the operands latched.
`memBefore` is what a later host read of DST may still see (70_reset_and_hazards.md R460). -/
def issue (op : Byte) (s : State) : State :=
  { s with cmd := op, done := false, err := .ok, latch := latchOperands op s, engine := .dispatch, memBefore := s.mem }

/-- 40_commands.md R110, a CMD write while BUSY = 1: CMD holds the opcode, REJ <- 1, "and nothing else changes". -/
def rejectIssue (op : Byte) (s : State) : State := { s with cmd := op, rej := true }

/-- 40_commands.md R110: a host write to CMD. -/
def cmdWrite (op : Byte) (s : State) : State := if s.busy then rejectIssue op s else issue op s

/-! ### Completion -/

/-- 40_commands.md R116: the completion record, ERR, BUSY <- 0, DONE <- 1. -/
def complete (code : Code) (resLen resVal pos : Nat) (s : State) : State :=
  { s with
    resLen := BitVec.ofNat 32 resLen
    resVal := BitVec.ofNat 64 resVal
    errPos := BitVec.ofNat 32 pos
    err := code
    engine := .idle
    done := true }

/-- `finish(res_len, res_val)` (00_scope.md R15, 40_commands.md R116). -/
def finish (resLen resVal : Nat) (s : State) : State := complete .ok resLen resVal 0 s

/-- `raise K(pos)` with DST untouched: steps (1) to (5) of 40_commands.md R115, and the commands without a DST region. -/
def raiseClean (code : Code) (s : State) : State := complete code 0 0 0 s

/-- `raise DstSmall(0)`: RES_VAL is the capacity needed (60_exceptions.md R401); DST is unchanged (93 I1, log 4). -/
def raiseDstSmall (needed : Nat) (s : State) : State := complete .dstSmall 0 needed 0 s

/-- n free bytes, from the k-th draw on. -/
def freeBytes : Nat → Nat → List Byte
  | _, 0 => []
  | k, n + 1 => Config.freeByte k :: freeBytes (k + 1) n

/-- 40_commands.md R117(a): every byte of the DST region becomes any value, every byte outside is unchanged (log 4). -/
def scrambleDst (s : State) : State :=
  { s with
    mem := Memory.write s.mem s.latch.dstAddr.toNat (freeBytes s.draws s.latch.dstCap.toNat)
    draws := s.draws + s.latch.dstCap.toNat }

/-- `raise K(pos)` of a command that uses D, past step (5) of 40_commands.md R115. -/
def raiseDst (code : Code) (pos : Nat) (s : State) : State := complete code 0 0 pos (scrambleDst s)

/-! ### Reset -/

/-- 70_reset_and_hazards.md R451: what abandoning a running command does to memory: the bytes of its DST region are any
value (log 8). -/
def abandon (s : State) : State :=
  if s.busy && usesDst (decodeOpcode s.latch.op) && dstValid s then scrambleDst s else s

/-- 70_reset_and_hazards.md R450: the reset values; buffer memory, the bytes put, the bytes taken, the sources of the
ports, the parameters and the world outside stay. -/
def resetState (s : State) : State :=
  { State.reset with
    cfg := s.cfg
    mem := s.mem
    inPending := s.inPending
    inEos := s.inEos
    inTaken := s.inTaken
    out := s.out
    outRoom := s.outRoom
    events := s.events
    busData := s.busData
    draws := s.draws }

/-- Hardware reset (70_reset_and_hazards.md R451). -/
def hwReset (s : State) : State := resetState (abandon s)

/-- Soft reset (70_reset_and_hazards.md R452): the reset at once, then IE takes bit 0 of the written value. -/
def softReset (ie : Bool) (s : State) : State := { hwReset s with ie := ie }

/-! ### The IN port (20_memory.md R77) -/

/-- The source offers bytes after those it has offered; an EOS not yet returned then comes after them no more (log 9). -/
def inOffer (bs : List Byte) (s : State) : State :=
  { s with inPending := s.inPending ++ bs, inEos := s.inEos && bs.isEmpty }

/-- The n-th of a list, its last past the end, `d` if there is none: a free choice is one of these. -/
def chooseFrom {α : Type} (d : α) : List α → Nat → α
  | [], _ => d
  | [a], _ => a
  | a :: _ :: _, 0 => a
  | _ :: b :: l, n + 1 => chooseFrom d (b :: l) n

/-- An endless source offers one of `chunks`, freely chosen, when all it has offered is taken (20_memory.md R77,
70_reset_and_hazards.md R464; log 9). -/
def inRefill (chunks : List (List Byte)) (s : State) : State :=
  if s.inPending.isEmpty then
    { inOffer (chooseFrom [] chunks (Config.freePick s.draws)) s with draws := s.draws + 1 }
  else s

/-- The bytes InTake could return now, in order: none once the EOS latch is set. -/
def inAvailable (s : State) : List Byte := if s.inLatch then [] else s.inPending

/-- InTake would return EOS now. -/
def inAtEos (s : State) : Bool := s.inLatch || (s.inPending.isEmpty && s.inEos)

/-- The first n bytes InTake offers, or as many as there are. -/
def inPeek (n : Nat) (s : State) : List Byte := (inAvailable s).take n

/-- InTake of n bytes that are there: they are consumed and SR_INPOS counts them. -/
def inConsume (n : Nat) (s : State) : State :=
  { s with
    inPending := s.inPending.drop n
    inTaken := s.inTaken + n
    srInpos := s.srInpos + BitVec.ofNat 64 n }

/-- InTake has returned EOS: every later one does, until the reader path is reset. -/
def latchEos (s : State) : State := { s with inLatch := true }

/-! ### The OUT port (20_memory.md R78) -/

/-- How many of n bytes the sink accepts now. -/
def outAccepts (s : State) (n : Nat) : Nat :=
  match s.outRoom with
  | none => n
  | some r => min r n

/-- OutPut of the first n bytes of `bs`, which the sink accepts. -/
def outPut (n : Nat) (bs : List Byte) (s : State) : State :=
  { s with out := s.out ++ bs.take n, outRoom := s.outRoom.map (fun r => r - n) }

end Sys2Proof.Machine
end

