-- ==== Sys2Proof/Machine/ReaderOps.lean ====
section
/-! DEFINITION. The shared operations of the stream reader (46_stream_reader.md): failing, going on to the next frame,
taking the data of a verified frame, delivering it. -/

namespace Sys2Proof.Machine

/-- `fail K(pos)` (46_stream_reader.md R340): SR_ERR <- K; raise K(pos). The DST region is then any value
(40_commands.md R117(a), log 4). -/
def srFail (e : SrErr) (pos : DWord) (s : State) : State := raiseDst e.code pos.toNat { s with srErr := e }

/-- At the first byte of a frame: h0 <- SR_INPOS (46_stream_reader.md R344, R356). -/
def nextFrame (i0 : DWord) (s : State) : State := { s with engine := .header i0 s.srInpos [] }

/-- `Deliver()` (46_stream_reader.md R343): how many bytes go to the host. -/
def deliverCount (s : State) : Nat := min s.latch.dstCap.toNat s.leftover

/-- DBUF[LEFT_RD .. LEFT_RD + n). -/
def leftoverBytes (n : Nat) (s : State) : List Byte := (s.dbuf.drop s.leftRd).take n

/-- `Deliver()`, then `finish(n, SR_INPOS - i0)` (46_stream_reader.md R341, R343). -/
def deliver (i0 : DWord) (s : State) : State :=
  let n := deliverCount s
  finish n (s.srInpos - i0).toNat
    { s with
      mem := Memory.write s.mem s.latch.dstAddr.toNat (leftoverBytes n s)
      leftRd := s.leftRd + n }

/-- The loop of SR_READ (46_stream_reader.md R341): while LEFT_RD = LEFT_END another frame, else deliver. -/
def readerLoop (i0 : DWord) (s : State) : State :=
  if s.leftRd = s.leftEnd then nextFrame i0 s else deliver i0 s

/-- The checksum field of the frame in FBUF (46_stream_reader.md R348, R349; 44_checksum.md R282). -/
def storedChecksum (s : State) : Nat := leNat (s.fbuf.take 4)

/-- The end of a data frame: DBUF holds its data. A checksum mismatch is Corrupt(h0); else LEFT_RD <- 0,
LEFT_END <- N (46_stream_reader.md R348, R349). -/
def dataFrameDone (i0 h0 : DWord) (s : State) : State :=
  if (frameChecksum s.dbuf).toNat ≠ storedChecksum s then srFail .corrupt h0 s
  else readerLoop i0 { s with leftRd := 0, leftEnd := s.dbuf.length }

end Sys2Proof.Machine
end

