-- ==== Sys2Proof/Machine/BlockDecoder.lean ====
section
/-! DEFINITION. The block decoder (43_block_decoder.md): the prefix checks, the chunk parser, the bounds checker and the
decompressor, one chunk an instruction, and BDEC. -/

namespace Sys2Proof.Machine

/-! ### Where the block and its output are -/

/-- L = |B|: SRC_LEN for BDEC, the body after the checksum field for a frame (43_block_decoder.md R262,
46_stream_reader.md R348). -/
def blockLength (u : BlockUser) (s : State) : Nat :=
  match u with
  | .bdec => s.latch.srcLen.toNat
  | .frame _ _ => s.fbuf.length - 4

/-- B[i .. i+n), for i + n ≤ L. -/
def blockBytes (u : BlockUser) (i n : Nat) (s : State) : List Byte :=
  match u with
  | .bdec => Memory.read s.mem (s.latch.srcAddr.toNat + i) n
  | .frame _ _ => (s.fbuf.drop (4 + i)).take n

/-- out[i .. i+n). -/
def outBytes (u : BlockUser) (i n : Nat) (s : State) : List Byte :=
  match u with
  | .bdec => Memory.read s.mem (s.latch.dstAddr.toNat + i) n
  | .frame _ _ => (s.dbuf.drop i).take n

/-- out[d .. d+|bs|) <- bs. DBUF holds out[0..d), so its bytes from d on are those written now. -/
def outWrite (u : BlockUser) (d : Nat) (bs : List Byte) (s : State) : State :=
  match u with
  | .bdec => { s with mem := Memory.write s.mem (s.latch.dstAddr.toNat + d) bs }
  | .frame _ _ => { s with dbuf := s.dbuf.take d ++ bs }

/-- The capacity the caller of BlockDecode gives (43_block_decoder.md R240). -/
def blockCapacity (u : BlockUser) (s : State) : Nat :=
  match u with
  | .bdec => s.latch.dstCap.toNat
  | .frame _ _ => Config.maxBlock

/-! ### Raising -/

/-- Corrupt(pos): a BDEC reports pos, a frame fails with Corrupt(h0) (43_block_decoder.md R264, 46_stream_reader.md R348). -/
def blockCorrupt (u : BlockUser) (pos : Nat) (s : State) : State :=
  match u with
  | .bdec => raiseDst .corrupt pos s
  | .frame _ h0 => srFail .corrupt h0 s

/-- Unsupported(pos). -/
def blockUnsupported (u : BlockUser) (pos : Nat) (s : State) : State :=
  match u with
  | .bdec => raiseDst .unsupported pos s
  | .frame _ h0 => srFail .unsupported h0 s

/-- TooLarge(0) (43_block_decoder.md R242). -/
def blockTooLarge (u : BlockUser) (s : State) : State :=
  match u with
  | .bdec => raiseDst .tooLarge 0 s
  | .frame _ h0 => srFail .tooLarge h0 s

/-- DstSmall(0): RES_VAL = N for BDEC (43_block_decoder.md R243), Corrupt for a frame (46_stream_reader.md R348). -/
def blockDstSmall (u : BlockUser) (n : Nat) (s : State) : State :=
  match u with
  | .bdec => raiseDstSmall n s
  | .frame _ h0 => srFail .corrupt h0 s

/-! ### The loop -/

/-- The block is decoded: `finish(N, N)` for BDEC (43_block_decoder.md R262), the checksum and the data for a frame
(46_stream_reader.md R348). -/
def blockDone (u : BlockUser) (n : Nat) (s : State) : State :=
  match u with
  | .bdec => finish n n s
  | .frame i0 h0 => dataFrameDone i0 h0 s

/-- The head of the loop of 43_block_decoder.md R240: another chunk while s < L, else the final length check (R261). -/
def blockLoop (u : BlockUser) (c : BlockCursor) (s : State) : State :=
  if c.s < blockLength u s then { s with engine := .block c u }
  else if c.d ≠ c.n then blockCorrupt u (blockLength u s) s
  else blockDone u c.n s

/-- The prefix gave N in `used` bytes: the ceiling, the capacity, then the chunks (43_block_decoder.md R240 to R243). -/
def blockBegin (u : BlockUser) (n used : Nat) (s : State) : State :=
  if n > s.cfg.maxDecodedLen.toNat then blockTooLarge u s
  else if n > blockCapacity u s then blockDstSmall u n s
  else blockLoop u { s := used, d := 0, n := n } s

/-! ### Chunk bodies -/

/-- `LiteralBody(len, hd)` (43_block_decoder.md R251). -/
def literalBody (u : BlockUser) (c : BlockCursor) (len hd : Nat) (s : State) : State :=
  if len > c.n - c.d then blockCorrupt u c.s s
  else if len > blockLength u s - (c.s + hd) then blockCorrupt u c.s s
  else
    blockLoop u { c with s := c.s + hd + len, d := c.d + len }
      (outWrite u c.d (blockBytes u (c.s + hd) len s) s)

/-- `Decompress(off, len)` (43_block_decoder.md R260): byte by byte, in increasing order, from out[d-off .. d). -/
def decompress (u : BlockUser) (d off len : Nat) (s : State) : State :=
  outWrite u d (repeatPattern (outBytes u (d - off) off s) len) s

/-- `CopyBody(off, len, size)` (43_block_decoder.md R259). -/
def copyBody (u : BlockUser) (c : BlockCursor) (off len size : Nat) (s : State) : State :=
  if off = 0 ∨ off > c.d then blockCorrupt u c.s s
  else if len > c.n - c.d then blockCorrupt u c.s s
  else blockLoop u { c with s := c.s + size, d := c.d + len } (decompress u c.d off len s)

/-- A chunk runs only where the decoder stands at a chunk (log 21). -/
def atChunk (f : BlockCursor → BlockUser → State → State) (s : State) : Result :=
  match s.engine with
  | .block c u => .next (f c u s)
  | _ => .refused .noElementStream

/-! ### The chunks -/

/-- LIT_INLINE (43_block_decoder.md R251). -/
def execLitInline (h : BitVec 6) (s : State) : Result :=
  atChunk (fun c u => literalBody u c (literalLength h.toNat) 1) s

/-- LIT_X1 (43_block_decoder.md R252). -/
def execLitX1 (m : BitVec 8) (s : State) : Result :=
  atChunk (fun c u => literalBody u c (literalLength m.toNat) 2) s

/-- LIT_X2 (43_block_decoder.md R253). -/
def execLitX2 (m : BitVec 16) (s : State) : Result :=
  atChunk (fun c u => literalBody u c (literalLength m.toNat) 3) s

/-- LIT_X3 (43_block_decoder.md R254). -/
def execLitX3 (m : BitVec 24) (s : State) : Result :=
  atChunk (fun c u => literalBody u c (literalLength m.toNat) 4) s

/-- LIT_X4 (43_block_decoder.md R255): the length is computed without wrap-around. -/
def execLitX4 (m : BitVec 32) (s : State) : Result :=
  atChunk (fun c u => literalBody u c (literalLength m.toNat) 5) s

/-- COPY1 (43_block_decoder.md R256). -/
def execCopy1 (len : BitVec 3) (off : BitVec 11) (s : State) : Result :=
  atChunk (fun c u => copyBody u c off.toNat (copy1Length len) 2) s

/-- COPY2 (43_block_decoder.md R257). -/
def execCopy2 (len : BitVec 6) (off : BitVec 16) (s : State) : Result :=
  atChunk (fun c u => copyBody u c off.toNat (copy2Length len) 3) s

/-- COPY4 (43_block_decoder.md R258): always Unsupported, from the tag byte alone. -/
def execCopy4 (_h : BitVec 6) (s : State) : Result :=
  atChunk (fun c u => blockUnsupported u c.s) s

/-- A tag whose operand bytes run past the end of the block: Corrupt(s) (43_block_decoder.md R252 to R257, R263). -/
def chunkTruncated (c : BlockCursor) (u : BlockUser) (s : State) : State := blockCorrupt u c.s s

/-! ### BDEC -/

/-- The prefix of a block (43_block_decoder.md R240): Corrupt(0) if the block is empty, else at its first byte. -/
def prefixBegin (u : BlockUser) (s : State) : State :=
  if blockLength u s = 0 then blockCorrupt u 0 s
  else { s with engine := .varint { i := 0, x := 0#64 } (.ofBlock u) }

/-- BDEC (43_block_decoder.md R262): the region checks, then the decoder at the prefix. The chunks that follow are
instructions of their own. -/
def execBdec (s : State) : Result :=
  if regionsOk s then .next (prefixBegin .bdec s) else .next (raiseClean .badArg s)

end Sys2Proof.Machine
end

