-- ==== Sys2Proof/Machine/BlockEncoder.lean ====
section
/-! DEFINITION. The commands of the block encoder (42_block_encoder.md): MAXLEN and BENC; and ILLEGAL (40_commands.md R112). -/

namespace Sys2Proof.Machine

/-- MAXLEN (42_block_encoder.md R201). -/
def execMaxLen (s : State) : Result :=
  match maxEncodedLen s.latch.arg.toNat with
  | none => .next (raiseClean .tooLarge s)
  | some b => .next (finish 0 b s)

/-- X <- MemRead(L.SRC_ADDR, L.SRC_LEN). -/
def sourceBytes (s : State) : List Byte := Memory.read s.mem s.latch.srcAddr.toNat s.latch.srcLen.toNat

/-- BENC (42_block_encoder.md R202). -/
def execBenc (s : State) : Result :=
  if !regionsOk s then .next (raiseClean .badArg s)
  else
    match maxEncodedLen s.latch.srcLen.toNat with
    | none => .next (raiseDst .tooLarge 0 s)
    | some b =>
      if s.latch.dstCap.toNat < b then .next (raiseDstSmall b s)
      else
        let y := encodeBlock s.cfg (sourceBytes s)
        .next (finish y.length 0 { s with mem := Memory.write s.mem s.latch.dstAddr.toNat y })

/-- ILLEGAL (40_commands.md R112): `raise Illegal(0)`, whatever the opcode. -/
def execIllegal (_op : Byte) (s : State) : Result := .next (raiseClean .illegal s)

end Sys2Proof.Machine
end

