-- ==== Sys2Proof/Machine/StreamReader.lean ====
section
/-! DEFINITION. The stream reader (46_stream_reader.md): the frame types, one frame an instruction, and SR_READ, SR_RESET. -/

namespace Sys2Proof.Machine

/-! ### Frame bodies -/

/-- What a compressed frame does with its body: BlockDecode of FBUF[4..LEN) into DBUF (46_stream_reader.md R348). -/
def compressedBody (i0 h0 : DWord) (s : State) : State := prefixBegin (.frame i0 h0) { s with dbuf := [] }

/-- What an uncompressed frame does with its body (46_stream_reader.md R349). -/
def uncompressedBody (i0 h0 : DWord) (s : State) : State := dataFrameDone i0 h0 { s with dbuf := s.fbuf.drop 4 }

/-- What a stream marker does with its body (46_stream_reader.md R350). -/
def streamIdBody (i0 h0 : DWord) (s : State) : State :=
  if s.fbuf ≠ Config.magic then srFail .corrupt h0 s else readerLoop i0 { s with srPhase := .streaming }

/-- FBUF holds the whole body. A skipped body is discarded (46_stream_reader.md R352, R353). -/
def bodyDone (i0 h0 : DWord) (kind : BodyKind) (s : State) : State :=
  match kind with
  | .compressed => compressedBody i0 h0 s
  | .uncompressed => uncompressedBody i0 h0 s
  | .streamId => streamIdBody i0 h0 s
  | .skipped => readerLoop i0 s

/-- `ReadBody(len)` from where FBUF stands (46_stream_reader.md R347): the bytes offered are taken; EOS before the last is
Corrupt(h0), with those taken consumed; with neither, SR_READ waits (20_memory.md R77). -/
def readBody (i0 h0 : DWord) (kind : BodyKind) (len : Nat) (s : State) : State :=
  let bs := inPeek (len - s.fbuf.length) s
  let s' := inConsume bs.length { s with fbuf := s.fbuf ++ bs }
  if s'.fbuf.length ≥ len then bodyDone i0 h0 kind s'
  else if inAtEos s' then srFail .corrupt h0 (latchEos s')
  else { s' with engine := .body i0 h0 kind len }

/-! ### Frame headers -/

/-- A frame runs only where SR_READ has a header (log 21). -/
def atHeader (f : DWord → DWord → State → State) (s : State) : Result :=
  match s.engine with
  | .header i0 h0 _ => .next (f i0 h0 s)
  | _ => .refused .noElementStream

/-- The checks before the type dispatch (46_stream_reader.md R345, R346, R354), the marker phase for every type but 0xFF;
then the frame itself, with FBUF empty. -/
def frameGate (marker : Bool) (len : BitVec 24) (f : DWord → DWord → State → State) (i0 h0 : DWord) (s : State) : State :=
  if !marker && decide (s.srPhase = .awaitMarker) then srFail .corrupt h0 s
  else if len.toNat > Config.maxFrameLen then srFail .unsupported h0 s
  else f i0 h0 { s with fbuf := [] }

/-- CompressedFrame (46_stream_reader.md R348). -/
def compressedFrame (len : BitVec 24) (i0 h0 : DWord) (s : State) : State :=
  if len.toNat < 4 then srFail .corrupt h0 s else readBody i0 h0 .compressed len.toNat s

/-- UncompressedFrame (46_stream_reader.md R349). -/
def uncompressedFrame (len : BitVec 24) (i0 h0 : DWord) (s : State) : State :=
  if len.toNat < 4 then srFail .corrupt h0 s
  else if len.toNat - 4 > Config.maxBlock then srFail .corrupt h0 s
  else readBody i0 h0 .uncompressed len.toNat s

/-- StreamIdFrame (46_stream_reader.md R350). -/
def streamIdFrame (len : BitVec 24) (i0 h0 : DWord) (s : State) : State :=
  if len.toNat ≠ 6 then srFail .corrupt h0 s else readBody i0 h0 .streamId 6 s

/-- A skipped frame (46_stream_reader.md R352, R353). -/
def skippedFrame (len : BitVec 24) (i0 h0 : DWord) (s : State) : State := readBody i0 h0 .skipped len.toNat s

/-- FT_COMPRESSED (46_stream_reader.md R348). -/
def execFtCompressed (len : BitVec 24) (s : State) : Result := atHeader (frameGate false len (compressedFrame len)) s

/-- FT_UNCOMPRESSED (46_stream_reader.md R349). -/
def execFtUncompressed (len : BitVec 24) (s : State) : Result := atHeader (frameGate false len (uncompressedFrame len)) s

/-- FT_STREAM_ID (46_stream_reader.md R350). -/
def execFtStreamId (len : BitVec 24) (s : State) : Result := atHeader (frameGate true len (streamIdFrame len)) s

/-- FT_PADDING (46_stream_reader.md R352). -/
def execFtPadding (len : BitVec 24) (s : State) : Result := atHeader (frameGate false len (skippedFrame len)) s

/-- FT_RESERVED_UNSKIPPABLE (46_stream_reader.md R351): Unsupported(h0), the body not read. -/
def execFtReservedUnskippable (_ty : Byte) (len : BitVec 24) (s : State) : Result :=
  atHeader (frameGate false len (fun _ h0 => srFail .unsupported h0)) s

/-- FT_RESERVED_SKIPPABLE (46_stream_reader.md R353). -/
def execFtReservedSkippable (_ty : Byte) (len : BitVec 24) (s : State) : Result :=
  atHeader (frameGate false len (skippedFrame len)) s

/-- EOS inside `ReadHeader()` (46_stream_reader.md R344, R357): Eos(h0) before the first byte, Corrupt(h0) after it. -/
def headerEos (h0 : DWord) (h : List Byte) (s : State) : State :=
  srFail (if h = [] then .eos else .corrupt) h0 (latchEos s)

/-! ### The commands -/

/-- SR_READ (46_stream_reader.md R341, R342). -/
def execSrRead (s : State) : Result :=
  if !dstValid s then .next (raiseClean .badArg s)
  else if s.srErr ≠ .none then .next (raiseClean s.srErr.code s)
  else if s.latch.dstCap.toNat = 0 then .next (finish 0 0 s)
  else .next (readerLoop s.srInpos s)

/-- SR_RESET (46_stream_reader.md R369). -/
def execSrReset (s : State) : Result :=
  .next (finish s.leftover 0
    { s with
      srPhase := .awaitMarker
      srErr := .none
      leftRd := 0
      leftEnd := 0
      srInpos := 0#64
      inLatch := false })

end Sys2Proof.Machine
end

