-- ==== Sys2Proof/Machine/StreamWriter.lean ====
section
/-! DEFINITION. The stream writer (45_stream_writer.md): frame emission, and SW_WRITE, SW_FLUSH, SW_CLOSE, SW_RESET as the
actions their pseudocode lists. An action that puts bytes waits while the OUT sink does not accept them (20_memory.md R78). -/

namespace Sys2Proof.Machine

/-- The header of a data frame: TYPE, then LEN = 4 + n (45_stream_writer.md R305). -/
def frameHeader (ty : Byte) (n : Nat) : List Byte := ty :: leBytes 3 (4 + n)

/-- The bytes of `EmitFrame(U)` (45_stream_writer.md R305). -/
def frameBytes (p : Params) (data : List Byte) : List Byte :=
  let c := encodeBlock p data
  if selectCompressed p c.length data.length then frameHeader 0x00#8 c.length ++ checksumField data ++ c
  else frameHeader 0x01#8 data.length ++ checksumField data ++ data

/-- The source bytes k .. k+n-1 of the running command. -/
def sourceSlice (k n : Nat) (s : State) : List Byte := Memory.read s.mem (s.latch.srcAddr.toNat + k) n

/-- The actions of a writer command, in order, until one waits for the sink or none is left: then
`finish(resLen, o)`. `o` counts the OUT bytes put. -/
def runWriter (resLen : Nat) : List WriterOp → Nat → State → State
  | [], o, s => finish resLen o s
  | .put bs :: ops, o, s =>
    let n := outAccepts s bs.length
    if n = bs.length then runWriter resLen ops (o + n) (outPut n bs s)
    else { outPut n bs s with engine := .writer { resLen := resLen, o := o + n, todo := .put (bs.drop n) :: ops } }
  | .activate :: ops, o, s => runWriter resLen ops o { s with swState := .active }
  | .fill k n :: ops, o, s => runWriter resLen ops o { s with ibuf := s.ibuf ++ sourceSlice k n s }
  | .frame :: ops, o, s =>
    let bs := frameBytes s.cfg s.ibuf
    let n := outAccepts s bs.length
    if n = bs.length then runWriter resLen ops (o + n) { outPut n bs s with ibuf := [] }
    else
      { outPut n bs s with
        engine := .writer { resLen := resLen, o := o + n, todo := .put (bs.drop n) :: .empty :: ops } }
  | .empty :: ops, o, s => runWriter resLen ops o { s with ibuf := [] }
  | .close :: ops, o, s => runWriter resLen ops o { s with swState := .closed }

/-- A writer command that waited for the sink goes on. -/
def resumeWriter (w : WriterRun) (s : State) : State := runWriter w.resLen w.todo w.o s

/-- "if SW_STATE = UNSTARTED: EmitMarker(); SW_STATE <- ACTIVE" (45_stream_writer.md R302, R304, R308). -/
def markerOps (s : State) : List WriterOp :=
  if s.swState = .unstarted then [.put markerBytes, .activate] else []

/-- The loop of SW_WRITE (45_stream_writer.md R302, R303): IBUF holds `held` bytes and takes the source bytes from k on, n of
them; at 65536 it is framed. The first argument bounds the number of frames. -/
def fillOps : Nat → Nat → Nat → Nat → List WriterOp
  | 0, _, _, _ => []
  | fuel + 1, held, k, n =>
    let room := Config.maxBlock - held
    if n < room then [.fill k n] else .fill k room :: .frame :: fillOps fuel 0 (k + room) (n - room)

/-- "if IBUF_LEN > 0: EmitFrame(IBUF[0 .. IBUF_LEN))" (45_stream_writer.md R308). -/
def flushOps (s : State) : List WriterOp := if s.ibuf = [] then [] else [.frame]

/-- What SW_WRITE does after its checks (45_stream_writer.md R302). -/
def swWriteOps (s : State) : List WriterOp :=
  let n := s.latch.srcLen.toNat
  markerOps s ++ fillOps (n / Config.maxBlock + 2) s.ibufLen 0 n

/-- What SW_FLUSH does after its check (45_stream_writer.md R308). -/
def swFlushOps (s : State) : List WriterOp := markerOps s ++ flushOps s

/-- What SW_CLOSE does after its check (45_stream_writer.md R309). -/
def swCloseOps (s : State) : List WriterOp := swFlushOps s ++ [.close]

/-- SW_WRITE (45_stream_writer.md R302, R311). -/
def execSwWrite (s : State) : Result :=
  if !srcValid s then .next (raiseClean .badArg s)
  else if s.swState = .closed then .next (raiseClean .closed s)
  else .next (runWriter s.latch.srcLen.toNat (swWriteOps s) 0 s)

/-- SW_FLUSH (45_stream_writer.md R308, R311). -/
def execSwFlush (s : State) : Result :=
  if s.swState = .closed then .next (raiseClean .closed s)
  else .next (runWriter s.ibufLen (swFlushOps s) 0 s)

/-- SW_CLOSE (45_stream_writer.md R309, R311). -/
def execSwClose (s : State) : Result :=
  if s.swState = .closed then .next (raiseClean .closed s)
  else .next (runWriter s.ibufLen (swCloseOps s) 0 s)

/-- SW_RESET (45_stream_writer.md R310). -/
def execSwReset (s : State) : Result :=
  .next (finish s.ibufLen 0 { s with swState := .unstarted, ibuf := [] })

end Sys2Proof.Machine
end

