-- ==== Sys2Proof/Machine/Varint.lean ====
section
/-! DEFINITION. The varint engine (41_varint.md): the two byte forms, and VARINT_ENC, VARINT_DEC, VARINT_LEN. -/

namespace Sys2Proof.Machine

/-- |B| of the varint being decoded: VARINT_DEC reads min(SRC_LEN, 10) bytes (41_varint.md R187), a prefix stands in its
block. -/
def varintLimit (u : VarintUser) (s : State) : Nat :=
  match u with
  | .command => min s.latch.srcLen.toNat Config.varintMax
  | .ofBlock b => blockLength b s

/-- VarintDecode returns (0, 0) (41_varint.md R185): VARINT_DEC completes OK with (0, 0) (R187), a block's prefix is
Corrupt(0) (43_block_decoder.md R241). -/
def varintFail (u : VarintUser) (s : State) : State :=
  match u with
  | .command => finish 0 0 s
  | .ofBlock b => blockCorrupt b 0 s

/-- VarintDecode returns (x, used). -/
def varintDone (u : VarintUser) (x : DWord) (used : Nat) (s : State) : State :=
  match u with
  | .command => finish used x.toNat s
  | .ofBlock b => blockBegin b x.toNat used s

/-- A varint byte runs only where a varint is being decoded (log 21). -/
def atVarint (f : VarintCursor → VarintUser → State → State) (s : State) : Result :=
  match s.engine with
  | .varint c u => .next (f c u s)
  | _ => .refused .noElementStream

/-- A VB_CONT byte at position i: failure if i = 9 or no byte i+1 exists, else the next byte (41_varint.md R183). -/
def varintContinue (g : BitVec 7) (c : VarintCursor) (u : VarintUser) (s : State) : State :=
  if c.i ≥ 9 ∨ c.i + 1 ≥ varintLimit u s then varintFail u s
  else { s with engine := .varint { i := c.i + 1, x := c.x ||| varintGroup g c.i } u }

/-- A VB_LAST byte at position i: failure if i = 9 and b > 1, else the value (41_varint.md R184). -/
def varintFinish (g : BitVec 7) (c : VarintCursor) (u : VarintUser) (s : State) : State :=
  if c.i ≥ 9 ∧ g > 1#7 then varintFail u s
  else varintDone u (c.x ||| varintGroup g c.i) (c.i + 1) s

/-- VB_CONT (41_varint.md R183). -/
def execVbCont (g : BitVec 7) (s : State) : Result := atVarint (varintContinue g) s

/-- VB_LAST (41_varint.md R184). -/
def execVbLast (g : BitVec 7) (s : State) : Result := atVarint (varintFinish g) s

/-- VARINT_ENC (41_varint.md R186). -/
def execVarintEnc (s : State) : Result :=
  let n := varintLength s.latch.arg.toNat
  if !dstValid s then .next (raiseClean .badArg s)
  else if n > s.latch.dstCap.toNat then .next (raiseDstSmall n s)
  else
    .next (finish n 0
      { s with mem := Memory.write s.mem s.latch.dstAddr.toNat (varintEncode s.latch.arg.toNat) })

/-- VARINT_DEC (41_varint.md R187): the region check, then the decoder at the first byte; no bytes give (0, 0). -/
def execVarintDec (s : State) : Result :=
  if !srcValid s then .next (raiseClean .badArg s)
  else if s.latch.srcLen.toNat = 0 then .next (finish 0 0 s)
  else .next { s with engine := .varint { i := 0, x := 0#64 } .command }

/-- VARINT_LEN (41_varint.md R188). -/
def execVarintLen (s : State) : Result := .next (finish (varintLength s.latch.arg.toNat) 0 s)

end Sys2Proof.Machine
end

