-- ==== Sys2Proof/Machine/Dispatch.lean ====
section
/-! DEFINITION. One arm per instruction. -/

namespace Sys2Proof.Machine

def exec (i : Instr) (s : State) : Host.Outcome State Fault Refusal :=
  match i with
  | .varintEnc => Sys2Proof.Machine.execVarintEnc s
  | .varintDec => Sys2Proof.Machine.execVarintDec s
  | .varintLen => Sys2Proof.Machine.execVarintLen s
  | .maxLen => Sys2Proof.Machine.execMaxLen s
  | .benc => Sys2Proof.Machine.execBenc s
  | .bdec => Sys2Proof.Machine.execBdec s
  | .swWrite => Sys2Proof.Machine.execSwWrite s
  | .swFlush => Sys2Proof.Machine.execSwFlush s
  | .swClose => Sys2Proof.Machine.execSwClose s
  | .swReset => Sys2Proof.Machine.execSwReset s
  | .srRead => Sys2Proof.Machine.execSrRead s
  | .srReset => Sys2Proof.Machine.execSrReset s
  | .illegal op => Sys2Proof.Machine.execIllegal op s
  | .litX1 m => Sys2Proof.Machine.execLitX1 m s
  | .litX2 m => Sys2Proof.Machine.execLitX2 m s
  | .litX3 m => Sys2Proof.Machine.execLitX3 m s
  | .litX4 m => Sys2Proof.Machine.execLitX4 m s
  | .litInline h => Sys2Proof.Machine.execLitInline h s
  | .copy1 len off => Sys2Proof.Machine.execCopy1 len off s
  | .copy2 len off => Sys2Proof.Machine.execCopy2 len off s
  | .copy4 h => Sys2Proof.Machine.execCopy4 h s
  | .ftCompressed len => Sys2Proof.Machine.execFtCompressed len s
  | .ftUncompressed len => Sys2Proof.Machine.execFtUncompressed len s
  | .ftStreamId len => Sys2Proof.Machine.execFtStreamId len s
  | .ftPadding len => Sys2Proof.Machine.execFtPadding len s
  | .ftReservedUnskippable ty len => Sys2Proof.Machine.execFtReservedUnskippable ty len s
  | .ftReservedSkippable ty len => Sys2Proof.Machine.execFtReservedSkippable ty len s
  | .vbCont g => Sys2Proof.Machine.execVbCont g s
  | .vbLast g => Sys2Proof.Machine.execVbLast g s

end Sys2Proof.Machine
end

