-- ==== Sys2Proof/Machine/Fetch.lean ====
section
/-! DEFINITION. Fetching: the bytes the step decodes, at the cursors that play the part of a program counter (10_state.md
R55), and placing an instruction there. -/

namespace Sys2Proof.Machine

/-- The varint byte at position i, or none past the end. -/
def fetchVarint (c : VarintCursor) (u : VarintUser) (s : State) : List Byte :=
  let n := min 1 (varintLimit u s - c.i)
  match u with
  | .command => Memory.read s.mem (s.latch.srcAddr.toNat + c.i) n
  | .ofBlock b => blockBytes b c.i n s

/-- The bytes from the tag at s on: at most 5, the longest chunk head, and none past the end of the block. -/
def fetchTag (c : BlockCursor) (u : BlockUser) (s : State) : List Byte :=
  blockBytes u c.s (min 5 (blockLength u s - c.s)) s

/-- The rest of a frame header that InTake offers, after the bytes `h`. -/
def fetchHeader (h : List Byte) (s : State) : List Byte := inPeek (4 - h.length) s

/-- The header bytes `h` and `bs` taken (46_stream_reader.md R344). -/
def takeHeader (i0 h0 : DWord) (h bs : List Byte) (s : State) : State :=
  { inConsume bs.length s with engine := .header i0 h0 (h ++ bs) }

/-- A frame header that is not complete yet: EOS ends it, else SR_READ waits for the IN source. -/
def headerShort (h0 : DWord) (h : List Byte) (s : State) : State :=
  if inAtEos s then headerEos h0 h s else s

/-! ### Placing a word where the next step fetches (logs 13, 14) -/

/-- The next step is the engine's, not the host's. -/
def engineTurn (s : State) : State := { s with events := [] }

/-- A command word: issued by a CMD write, its operands latched. -/
def placeCommand (op : Byte) (s : State) : State := issue op (engineTurn s)

/-- Where `withFetchWord` puts the bytes of a block or a varint, and where such a block's output goes. -/
def placedSource : Word := 0x00000000#32
def placedDest : Word := 0x00000100#32

/-- A BDEC at the tag of a block that starts with `bs`, followed by what buffer memory holds; 64 bytes of output are
declared. -/
def placeChunk (bs : List Byte) (s : State) : State :=
  let l : Latch := { op := 0x12#8, srcAddr := placedSource, srcLen := 128#32, dstAddr := placedDest, dstCap := 64#32, arg := 0#64 }
  { engineTurn s with
    done := false, err := .ok, latch := l
    mem := Memory.write s.mem placedSource.toNat bs
    memBefore := Memory.write s.mem placedSource.toNat bs
    engine := .block { s := 0, d := 0, n := 64 } .bdec }

/-- An SR_READ at a frame header, the bytes `bs` next on IN. -/
def placeHeader (bs : List Byte) (s : State) : State :=
  let l : Latch := { op := 0x30#8, srcAddr := 0#32, srcLen := 0#32, dstAddr := placedDest, dstCap := 64#32, arg := 0#64 }
  { engineTurn s with
    done := false, err := .ok, latch := l
    memBefore := s.mem
    inLatch := false
    inPending := bs ++ s.inPending
    engine := .header s.srInpos s.srInpos [] }

/-- A VARINT_DEC at a byte of a varint, the bytes `bs` its source. -/
def placeVarint (bs : List Byte) (s : State) : State :=
  let l : Latch := { op := 0x02#8, srcAddr := placedSource, srcLen := 10#32, dstAddr := 0#32, dstCap := 0#32, arg := 0#64 }
  { engineTurn s with
    done := false, err := .ok, latch := l
    mem := Memory.write s.mem placedSource.toNat bs
    memBefore := Memory.write s.mem placedSource.toNat bs
    engine := .varint { i := 0, x := 0#64 } .command }

/-- The bytes of an instruction of a format, placed where the next step fetches. -/
def placeInstr (f : Format) (bs : List Byte) (s : State) : State :=
  match f with
  | .cmd => placeCommand (bs.headD 0#8) s
  | .tag => placeChunk bs s
  | .frame => placeHeader (bs.take 4) s
  | .varint => placeVarint (bs.take 1) s

end Sys2Proof.Machine
end

