-- ==== Sys2Proof/Machine/Engine.lean ====
section
/-! DEFINITION. The engine's move: the instruction at its cursor, executed (log 2). -/

namespace Sys2Proof.Machine

/-- The engine's move: the command just issued, or the next varint byte, chunk or frame header of the running command
(40_commands.md R110; 10_state.md R55). Bytes that are no complete instruction are the truncations of 43_block_decoder.md
R252 to R257, 41_varint.md R185 and 46_stream_reader.md R344. An idle engine stays as it is (70_reset_and_hazards.md R450). -/
def engineStep (s : State) : Host.Outcome State Fault Refusal :=
  match s.engine with
  | .idle => .next s
  | .dispatch => exec (decodeOpcode s.latch.op) s
  | .varint c u =>
    match decodeVarintByte (fetchVarint c u s) with
    | .ok (i, _) => exec i s
    | .error _ => .next (varintFail u s)
  | .block c u =>
    match decodeTag (fetchTag c u s) with
    | .ok (i, _) => exec i s
    | .error _ => .next (chunkTruncated c u s)
  | .writer w => .next (resumeWriter w s)
  | .header i0 h0 h =>
    let bs := fetchHeader h s
    match decodeHeader s.cfg.muMax (h ++ bs) with
    | .ok (i, _) => exec i (takeHeader i0 h0 h bs s)
    | .error _ => .next (headerShort h0 (h ++ bs) (takeHeader i0 h0 h bs s))
  | .body i0 h0 kind len => .next (readBody i0 h0 kind len s)

end Sys2Proof.Machine
end

