-- ==== Sys2Proof/Machine/Intermediate.lean ====
section
/-! DEFINITION. The intermediate states of a running command, as far as SW_STATUS and SR_STATUS show them
(70_reset_and_hazards.md R463; 93_implementation_defined.md I11; log 25). The hardware is at some point of the element the
engine is at; these are the states of 10_state.md R51 and R52 at every such point, from before its first assignment to after
its last. -/

namespace Sys2Proof.Machine

/-- A writer command passes through these states, one for each assignment to SW_STATE or IBUF_LEN (45_stream_writer.md R302,
R303, R308, R309): IBUF takes its bytes one by one. It goes no further than the OUT sink lets it (20_memory.md R78). -/
def writerStates : List WriterOp → State → List State
  | [], s => [s]
  | .put bs :: ops, s =>
    let n := outAccepts s bs.length
    s :: if n = bs.length then writerStates ops (outPut n bs s) else [outPut n bs s]
  | .activate :: ops, s => s :: writerStates ops { s with swState := .active }
  | .fill k n :: ops, s =>
    (List.range n).map (fun j => { s with ibuf := s.ibuf ++ sourceSlice k j s }) ++
      writerStates ops { s with ibuf := s.ibuf ++ sourceSlice k n s }
  | .frame :: ops, s =>
    let bs := frameBytes s.cfg s.ibuf
    let n := outAccepts s bs.length
    s :: if n = bs.length then writerStates ops { outPut n bs s with ibuf := [] } else [outPut n bs s]
  | .empty :: ops, s => s :: writerStates ops { s with ibuf := [] }
  | .close :: ops, s => s :: writerStates ops { s with swState := .closed }

/-- The element from `s` to `t` is the end of a data frame: "LEFT_RD <- 0; LEFT_END <- N" (46_stream_reader.md R348, R349),
after which SR_READ goes on or delivers and completes. -/
def dataFrameEnds (s t : State) : Bool :=
  decide (s.engine ≠ .dispatch) && (decide (t.leftEnd ≠ s.leftEnd) || (!t.busy && decide (t.err = .ok)))

/-- SR_READ passes through these states in an element: before it, at the end of a data frame between its two assignments and
before Deliver (46_stream_reader.md R343, R348, R349), and after its last assignment, still BUSY: to SR_PHASE (R350), to SR_ERR
(R340) or to LEFT_RD (R343). -/
def readerStates (s : State) : List State :=
  match engineStep s with
  | .next t =>
    s :: (if dataFrameEnds s t then [{ s with leftRd := 0 }, { s with leftRd := 0, leftEnd := t.leftEnd }] else []) ++ [t]
  | _ => [s]

/-- SW_RESET, assignment by assignment (45_stream_writer.md R310). -/
def swResetStates (s : State) : List State :=
  [s, { s with swState := .unstarted }, { s with swState := .unstarted, ibuf := [] }]

/-- SR_RESET, assignment by assignment (46_stream_reader.md R369). -/
def srResetStates (s : State) : List State :=
  [s, { s with srPhase := .awaitMarker }, { s with srPhase := .awaitMarker, srErr := .none },
    { s with srPhase := .awaitMarker, srErr := .none, leftRd := 0 },
    { s with srPhase := .awaitMarker, srErr := .none, leftRd := 0, leftEnd := 0 }]

/-- The states a command just issued passes through. The commands that touch neither the writer nor the reader
(20_memory.md R88) show both as they are. -/
def commandStates (i : Instr) (s : State) : List State :=
  match i with
  | .swWrite => if !srcValid s || decide (s.swState = .closed) then [s] else writerStates (swWriteOps s) s
  | .swFlush => if s.swState = .closed then [s] else writerStates (swFlushOps s) s
  | .swClose => if s.swState = .closed then [s] else writerStates (swCloseOps s) s
  | .swReset => swResetStates s
  | .srRead => readerStates s
  | .srReset => srResetStates s
  | .varintEnc | .varintDec | .varintLen | .maxLen | .benc | .bdec | .illegal _ => [s]
  | .litInline _ | .litX1 _ | .litX2 _ | .litX3 _ | .litX4 _ | .copy1 _ _ | .copy2 _ _ | .copy4 _ => [s]
  | .ftCompressed _ | .ftUncompressed _ | .ftStreamId _ | .ftPadding _ => [s]
  | .ftReservedUnskippable _ _ | .ftReservedSkippable _ _ | .vbCont _ | .vbLast _ => [s]

/-- The states the machine passes through in the element the engine is at. -/
def statesWithin (s : State) : List State :=
  match s.engine with
  | .idle => [s]
  | .dispatch => commandStates (decodeOpcode s.latch.op) s
  | .writer w => writerStates w.todo s
  | .varint _ .command => [s]
  | .varint _ (.ofBlock .bdec) => [s]
  | .varint _ (.ofBlock (.frame _ _)) => readerStates s
  | .block _ .bdec => [s]
  | .block _ (.frame _ _) => readerStates s
  | .header _ _ _ => readerStates s
  | .body _ _ _ _ => readerStates s

/-- The state a read of SW_STATUS or SR_STATUS shows: the state at rest; while BUSY = 1 one of the intermediate states, freely
chosen. -/
def statusState (s : State) : State :=
  if s.busy then chooseFrom s (statesWithin s) (Config.freePick s.draws) else s

end Sys2Proof.Machine
end

