-- ==== Sys2Proof/Machine/HostBus.lean ====
section
/-! DEFINITION. The host interface (10_state.md R48 to R50; 70_reset_and_hazards.md R460 to R465): the register window, host
accesses to buffer memory, and the platform's moves on the ports. -/

namespace Sys2Proof.Machine

/-! ### The register window -/

/-- The register at an aligned offset (10_state.md R48); reserved offsets read as zero. SW_STATUS and SR_STATUS show some
intermediate state while BUSY = 1 (70_reset_and_hazards.md R463). -/
def regRead (s : State) (off : Nat) : Word :=
  match off with
  | 0x00 => idImage
  | 0x04 => BitVec.setWidth 32 (BitVec.ofBool s.ie)
  | 0x08 => statusImage s
  | 0x0C => BitVec.setWidth 32 s.cmd
  | 0x10 => s.srcAddr
  | 0x14 => s.srcLen
  | 0x18 => s.dstAddr
  | 0x1C => s.dstCap
  | 0x20 => s.argLo
  | 0x24 => s.argHi
  | 0x28 => s.resLen
  | 0x2C => s.resVal.extractLsb' 0 32
  | 0x30 => s.resVal.extractLsb' 32 32
  | 0x34 => s.errPos
  | 0x38 => swStatusImage (statusState s)
  | 0x3C => srStatusImage (statusState s)
  | 0x40 => configImage s.cfg
  | 0x44 => s.cfg.maxDecodedLen
  | _ => 0#32

/-- A write to CTRL (10_state.md R32, 70_reset_and_hazards.md R452). -/
def ctrlWrite (v : Word) (s : State) : State :=
  if v.getLsbD 1 then softReset (v.getLsbD 0) s else { s with ie := v.getLsbD 0 }

/-- A write to STATUS: DONE and REJ are W1C (10_state.md R33). -/
def statusWrite (v : Word) (s : State) : State :=
  { s with done := s.done && !v.getLsbD 1, rej := s.rej && !v.getLsbD 2 }

/-- A write to the register at an aligned offset; the read-only and the reserved ones change nothing (10_state.md R48,
R50). -/
def regWrite (off : Nat) (v : Word) (s : State) : State :=
  match off with
  | 0x04 => ctrlWrite v s
  | 0x08 => statusWrite v s
  | 0x0C => cmdWrite (v.extractLsb' 0 8) s
  | 0x10 => { s with srcAddr := v }
  | 0x14 => { s with srcLen := v }
  | 0x18 => { s with dstAddr := v }
  | 0x1C => { s with dstCap := v }
  | 0x20 => { s with argLo := v }
  | 0x24 => { s with argHi := v }
  | _ => s

/-- Only naturally aligned 32-bit accesses are defined (10_state.md R49). -/
def accessDefined (off : Byte) (width : Nat) : Bool := decide (width = 4 ∧ off.toNat % 4 = 0)

/-- A host read of the window: 0 for any other width or offset (10_state.md R49). -/
def busRead (s : State) (off : Byte) (width : Nat) : Word :=
  if accessDefined off width then regRead s off.toNat else 0#32

/-- How many free choices a host read of the window draws: one for SW_STATUS or SR_STATUS while BUSY = 1 (log 25). -/
def readDraws (s : State) (off : Byte) (width : Nat) : Nat :=
  if s.busy ∧ width = 4 ∧ (off = 0x38#8 ∨ off = 0x3C#8) then 1 else 0

/-- A host write to the window: ignored for any other width or offset (10_state.md R49). -/
def busWrite (off : Byte) (width : Nat) (v : Word) (s : State) : State :=
  if accessDefined off width then regWrite off.toNat v s else s

/-! ### Buffer memory -/

/-- The instruction the running command is. -/
def runningInstr (s : State) : Instr := decodeOpcode s.latch.op

/-- The address lies in the SRC region of the running command (20_memory.md R74, R82). -/
def inRunningSrc (s : State) (a : Nat) : Bool :=
  s.busy && usesSrc (runningInstr s) && inRegion s.latch.srcAddr s.latch.srcLen a

/-- The address lies in the DST region of the running command. -/
def inRunningDst (s : State) (a : Nat) : Bool :=
  s.busy && usesDst (runningInstr s) && inRegion s.latch.dstAddr s.latch.dstCap a

/-- A host write of one byte: outside buffer memory it stops (log 17), in a region of the running command it is the race
of 70_reset_and_hazards.md R460 (log 6). -/
def hostMemWrite (a : Nat) (b : Byte) (s : State) : Result :=
  if a ≥ s.cfg.memSize then .fault .hostAddressOutOfRange
  else if inRunningSrc s a || inRunningDst s a then .refused .hostRegionRace
  else .next { s with mem := Memory.write s.mem a [b] }

/-- Buffer memory after the element the engine is at: what the command is writing now. -/
def engineMem (s : State) : List Host.Cell :=
  match engineStep s with
  | .next t => t.mem
  | _ => s.mem

/-- The bytes a host read of DST may return while BUSY = 1 (70_reset_and_hazards.md R460): the value before the command, the
value the command has written, and the one it is writing (log 7). -/
def dstReadable (a : Nat) (s : State) : List Byte :=
  [Memory.get s.memBefore a, Memory.get s.mem a, Memory.get (engineMem s) a]

/-- A host read of a DST byte while BUSY = 1: one of those, freely chosen. -/
def dstRead (a : Nat) (s : State) : Byte := (dstReadable a s).getD (Config.freePick s.draws) (Memory.get s.mem a)

/-- A host read of one byte: of DST while BUSY = 1 one of the values R460 allows, else the byte. -/
def hostMemRead (a : Nat) (s : State) : Result :=
  if a ≥ s.cfg.memSize then .fault .hostAddressOutOfRange
  else if inRunningDst s a then
    .next { s with busData := BitVec.setWidth 32 (dstRead a s), draws := s.draws + 1 }
  else .next { s with busData := BitVec.setWidth 32 (Memory.get s.mem a) }

/-! ### The moves -/

/-- A move of the host or the platform. `engine`, `wait` and `feed` are turns of the engine and stand in `step`; here they
leave the state as it is. -/
def hostAct (a : HostAction) (s : State) : Result :=
  match a with
  | .engine => .next s
  | .wait => .next s
  | .feed _ => .next s
  | .write off width v => .next (busWrite off width v s)
  | .read off width => .next { s with busData := busRead s off width, draws := s.draws + readDraws s off width }
  | .memWrite addr b => hostMemWrite addr b s
  | .memRead addr => hostMemRead addr s
  | .inOffer bs => .next (inOffer bs s)
  | .inEos => .next { s with inEos := true }
  | .outSink room => .next { s with outRoom := room }
  | .hwReset => .next (hwReset s)

end Sys2Proof.Machine
end

