-- ==== Sys2Proof/Machine/Step.lean ====
section
/-! DEFINITION. One step: the next move of the host or the platform, or the engine's (log 5). -/

namespace Sys2Proof.Machine

/-- One step of the machine. `wait` and `feed` keep their place in the list until the running command has completed. -/
def step (s : State) : Host.Outcome State Fault Refusal :=
  match s.events with
  | [] => engineStep s
  | .engine :: rest => engineStep { s with events := rest }
  | .wait :: rest => if s.busy then engineStep s else .next { s with events := rest }
  | .feed chunks :: rest => if s.busy then engineStep (inRefill chunks s) else .next { s with events := rest }
  | a :: rest => hostAct a { s with events := rest }

/-- `s` with the instruction of a table word where the next step fetches it (logs 13, 14). -/
def State.withFetchWord (s : State) (nbits w : Nat) : State :=
  placeInstr (tableFormat (BitVec.ofNat 8 (w % 2 ^ nbits))) (tableBytes nbits w) s

end Sys2Proof.Machine
end

