-- ==== Sys2Proof/Machine/Reference.lean ====
section
/-! DEFINITION. The spec's whole-sequence functions, written from their pseudocode and apart from the machine's steps, for
statements to compare the machine with: VarintDecode (41_varint.md R185), BlockDecode (43_block_decoder.md R240), the
slicing of a written byte sequence (45_stream_writer.md R303). No step calls them. -/

namespace Sys2Proof.Machine

/-! ### VarintDecode -/

/-- The loop of 41_varint.md R185 at position i with the running value x. -/
def refVarintFrom : Nat → Nat → List Byte → Nat × Nat
  | _, _, [] => (0, 0)
  | i, x, b :: bs =>
    if i ≥ 9 ∧ b.toNat > 1 then (0, 0)
    else if b.toNat < 128 then (x ||| (b.toNat % 128) <<< (7 * i), i + 1)
    else refVarintFrom (i + 1) (x ||| (b.toNat % 128) <<< (7 * i)) bs

/-- `VarintDecode(B)`: (value, consumed), consumed = 0 for a failure (41_varint.md R185). -/
def refVarintDecode (bs : List Byte) : Nat × Nat := refVarintFrom 0 0 bs

/-! ### BlockDecode -/

/-- What BlockDecode raises: the code, the position, and the size a DstSmall reports. -/
structure BlockError where
  code : Code
  pos : Nat
  needed : Nat
deriving DecidableEq, Repr

/-- Corrupt(pos). -/
def BlockError.corruptAt (pos : Nat) : BlockError := { code := .corrupt, pos := pos, needed := 0 }

/-- `Decompress(off, len)` (43_block_decoder.md R260): out[d] <- out[d - off], one byte at a time. -/
def refCopy (off : Nat) : Nat → List Byte → List Byte
  | 0, out => out
  | k + 1, out => refCopy off k (out ++ [out.getD (out.length - off) 0#8])

/-- One chunk at s, with the output so far: the position after it and the output with it, or what it raises
(43_block_decoder.md R251 to R260). -/
def refChunk (b : List Byte) (n s : Nat) (out : List Byte) : Except BlockError (Nat × List Byte) :=
  let t := (b.getD s 0#8).toNat
  let high := t / 4
  if t % 4 = 0 then
    let ext := if high < 60 then 0 else high - 59
    let len := (if high < 60 then high else leNat ((b.drop (s + 1)).take ext)) + 1
    let data := s + 1 + ext
    if data > b.length then .error (.corruptAt s)
    else if len > n - out.length then .error (.corruptAt s)
    else if len > b.length - data then .error (.corruptAt s)
    else .ok (data + len, out ++ (b.drop data).take len)
  else if t % 4 = 1 then
    let len := 4 + high % 8
    let off := t / 32 * 256 + (b.getD (s + 1) 0#8).toNat
    if s + 2 > b.length then .error (.corruptAt s)
    else if off = 0 ∨ off > out.length then .error (.corruptAt s)
    else if len > n - out.length then .error (.corruptAt s)
    else .ok (s + 2, refCopy off len out)
  else if t % 4 = 2 then
    let len := 1 + high
    let off := leNat ((b.drop (s + 1)).take 2)
    if s + 3 > b.length then .error (.corruptAt s)
    else if off = 0 ∨ off > out.length then .error (.corruptAt s)
    else if len > n - out.length then .error (.corruptAt s)
    else .ok (s + 3, refCopy off len out)
  else .error { code := .unsupported, pos := s, needed := 0 }

/-- The final length check (43_block_decoder.md R261). -/
def refEnd (b : List Byte) (n : Nat) (out : List Byte) : Except BlockError (List Byte) :=
  if out.length ≠ n then .error (.corruptAt b.length) else .ok out

/-- The loop of 43_block_decoder.md R240 at s with the output so far; N is the declared length. The third argument bounds
its rounds: every chunk has a byte. -/
def refChunks (b : List Byte) (n : Nat) : Nat → Nat → List Byte → Except BlockError (List Byte)
  | 0, _, out => refEnd b n out
  | fuel + 1, s, out =>
    if s < b.length then
      match refChunk b n s out with
      | .error e => .error e
      | .ok (s', out') => refChunks b n fuel s' out'
    else refEnd b n out

/-- `BlockDecode(B, ceiling, cap)` (43_block_decoder.md R240): the output, or what it raises. -/
def refBlockDecode (ceiling cap : Nat) (b : List Byte) : Except BlockError (List Byte) :=
  let (n, c) := refVarintDecode b
  if c = 0 then .error (.corruptAt 0)
  else if n > ceiling then .error { code := .tooLarge, pos := 0, needed := 0 }
  else if n > cap then .error { code := .dstSmall, pos := 0, needed := n }
  else refChunks b n b.length c []

/-! ### Slicing -/

/-- The frames of a byte sequence cut after every 65536th byte, and the bytes left over (45_stream_writer.md R303). The
first argument bounds the number of frames. -/
def refSlices (p : Params) : Nat → List Byte → List Byte × List Byte
  | 0, bs => ([], bs)
  | fuel + 1, bs =>
    if bs.length < Config.maxBlock then ([], bs)
    else
      let (frames, rest) := refSlices p fuel (bs.drop Config.maxBlock)
      (frameBytes p (bs.take Config.maxBlock) ++ frames, rest)

end Sys2Proof.Machine
end

