-- ==== Sys2Proof/Safety.lean ====
section
/-! DEFINITION. What counts as a proper state: the invariant that claims about every state use, and the parts of a state
that claims compare. -/

namespace Sys2Proof.Machine

/-! ### The invariant -/

/-- The writer actions a running command can have left, from IBUF_LEN = `held`: source bytes inside SRC, IBUF never over
65536 bytes, a frame never empty, CLOSED only at the end, and IBUF_LEN below 65536 then (45_stream_writer.md R303, R305,
R309). -/
def writerOpsOk (srcLen : Nat) : Nat → List WriterOp → Prop
  | held, [] => held < Config.maxBlock
  | held, .put _ :: ops => writerOpsOk srcLen held ops
  | held, .activate :: ops => writerOpsOk srcLen held ops
  | held, .close :: ops => held < Config.maxBlock ∧ ops = []
  | held, .fill k n :: ops => k + n ≤ srcLen ∧ held + n ≤ Config.maxBlock ∧ writerOpsOk srcLen (held + n) ops
  | held, .frame :: ops => 0 < held ∧ writerOpsOk srcLen 0 ops
  | _, .empty :: ops => writerOpsOk srcLen 0 ops

/-- SR_READ is running past its checks, with no leftover (46_stream_reader.md R341). -/
def ReaderRunning (s : State) : Prop :=
  s.latch.op = 0x30#8 ∧ dstValid s = true ∧ 0 < s.latch.dstCap.toNat ∧ s.srErr = .none ∧ s.leftRd = s.leftEnd

/-- The command that decodes a block is running past its checks. -/
def BlockRunning (u : BlockUser) (s : State) : Prop :=
  match u with
  | .bdec => s.latch.op = 0x12#8 ∧ regionsOk s = true
  | .frame _ _ => ReaderRunning s ∧ 4 ≤ s.fbuf.length ∧ s.fbuf.length ≤ Config.maxFrameLen

/-- The command that decodes a varint is running past its checks; a frame's block has no output yet. -/
def VarintRunning (u : VarintUser) (s : State) : Prop :=
  match u with
  | .command => s.latch.op = 0x02#8 ∧ srcValid s = true
  | .ofBlock b => BlockRunning b s ∧ (b ≠ .bdec → s.dbuf = [])

/-- The lengths a body of a kind can have (46_stream_reader.md R346, R348 to R350). -/
def BodyKind.lengthOk (kind : BodyKind) (len : Nat) : Prop :=
  match kind with
  | .compressed => 4 ≤ len ∧ len ≤ Config.maxFrameLen
  | .uncompressed => 4 ≤ len ∧ len ≤ Config.maxBlock + 4
  | .streamId => len = 6
  | .skipped => len ≤ Config.maxFrameLen

/-- The cursors of the running command are inside what it parses: s < L, d ≤ N ≤ cap (43_block_decoder.md R250, R265),
i ≤ 9 and i < |B| (41_varint.md R185), fewer than 4 header bytes, fewer than LEN body bytes (46_stream_reader.md R360). -/
def EngineInv (s : State) : Prop :=
  match s.engine with
  | .idle => True
  | .dispatch => True
  | .varint c u => VarintRunning u s ∧ c.i < varintLimit u s ∧ c.i ≤ 9 ∧ c.x.toNat < 2 ^ (7 * c.i)
  | .block c u =>
    BlockRunning u s ∧ c.s < blockLength u s ∧ c.d ≤ c.n ∧ c.n ≤ blockCapacity u s ∧
      c.n ≤ s.cfg.maxDecodedLen.toNat ∧ (u ≠ .bdec → c.d = s.dbuf.length)
  | .writer w =>
    s.latch.op ∈ [0x20#8, 0x21#8, 0x22#8] ∧ (s.latch.op = 0x20#8 → srcValid s = true) ∧ s.swState ≠ .closed ∧
      (∃ bs ops, w.todo = .put bs :: ops ∧ bs ≠ []) ∧ writerOpsOk s.latch.srcLen.toNat s.ibuf.length w.todo
  | .header _ _ h => ReaderRunning s ∧ h.length < 4
  | .body _ _ kind len => ReaderRunning s ∧ s.fbuf.length < len ∧ kind.lengthOk len

/-- An address lies in the latched destination region. -/
def inLatchedDst (s : State) (a : Nat) : Bool := inRegion s.latch.dstAddr s.latch.dstCap a

/-- How many bytes of DST the running command has written: BDEC its output so far; the others write DST in the step that
completes them (log 2). -/
def dstWritten (s : State) : Nat :=
  match s.engine with
  | .block c .bdec => c.d
  | _ => 0

/-- The bytes of the running command's DST from the d-th on are those it found (70_reset_and_hazards.md R460). -/
def DstKept (d : Nat) (s : State) : Prop :=
  usesDst (runningInstr s) = true → ∀ a, inLatchedDst s a = true → s.latch.dstAddr.toNat + d ≤ a →
    Memory.get s.mem a = Memory.get s.memBefore a

/-- The invariant every step keeps: legal parameters (00_scope.md R8), buffer memory in canonical form, no completion
record flags while BUSY (40_commands.md R110, R116), IBUF_LEN below 65536 but while a writer command
waits (10_state.md R51), LEFT_RD ≤
LEFT_END ≤ 65536 with the leftover in DBUF (10_state.md R52), the cursors inside their bounds, and the part of a running
command's DST that it has not written as it found it (70_reset_and_hazards.md R460). -/
structure Consistent (s : State) : Prop where
  legal : s.cfg.Legal
  memory : Memory.wf s.mem
  before : Memory.wf s.memBefore
  record : s.busy = true → s.done = false ∧ s.err = .ok
  ibufRest : (∀ w, s.engine ≠ .writer w) → s.ibuf.length < Config.maxBlock
  ibufMax : s.ibuf.length ≤ Config.maxBlock
  leftOrder : s.leftRd ≤ s.leftEnd
  leftMax : s.leftEnd ≤ Config.maxBlock
  leftHeld : s.leftRd < s.leftEnd → s.leftEnd ≤ s.dbuf.length
  cursors : EngineInv s
  kept : s.busy = true → DstKept (dstWritten s) s

/-! ### Turns -/

/-- In `s₀` the next move is the engine's, made from `s`: the action list is empty, or gives the engine a turn, or the host
waits for the running command, or an endless source feeds it and offers one of its chunks where no bytes are left (logs 5, 9,
19). -/
def EngineTurn (s₀ s : State) : Prop :=
  (s₀ = s ∧ s.events = []) ∨
  s₀ = { s with events := .engine :: s.events } ∨
  (s₀ = s ∧ s.busy = true ∧ ∃ rest, s.events = .wait :: rest) ∨
  (s₀.busy = true ∧ ∃ chunks rest bs, s₀.events = .feed chunks :: rest ∧
    bs = chooseFrom [] chunks (Config.freePick s₀.draws) ∧
    s = if s₀.inPending = [] then
        { s₀ with inPending := bs, inEos := s₀.inEos && bs.isEmpty, draws := s₀.draws + 1 }
      else s₀)

/-! ### Parts of a state -/

/-- The reader's state (10_state.md R52) with the IN port: equal in both. -/
def SameReader (s t : State) : Prop :=
  t.srPhase = s.srPhase ∧ t.srErr = s.srErr ∧ t.dbuf = s.dbuf ∧ t.leftRd = s.leftRd ∧ t.leftEnd = s.leftEnd ∧
    t.srInpos = s.srInpos ∧ t.fbuf = s.fbuf ∧ t.inPending = s.inPending ∧ t.inEos = s.inEos ∧ t.inLatch = s.inLatch ∧
    t.inTaken = s.inTaken

/-- The writer's state (10_state.md R51) with the OUT port: equal in both. -/
def SameWriter (s t : State) : Prop :=
  t.swState = s.swState ∧ t.ibuf = s.ibuf ∧ t.out = s.out ∧ t.outRoom = s.outRoom

/-- SW_STATUS shows the same of both (10_state.md R43). -/
def WriterShown (s u : State) : Prop := u.swState = s.swState ∧ u.ibuf.length = s.ibuf.length

/-- SR_STATUS shows the same of both (10_state.md R44). -/
def ReaderShown (s u : State) : Prop :=
  u.srPhase = s.srPhase ∧ u.srErr = s.srErr ∧ u.leftRd = s.leftRd ∧ u.leftEnd = s.leftEnd

/-- The host's registers that no engine changes: CTRL.IE, STATUS.REJ, CMD, the operand registers (10_state.md R32 to R39),
and the latched operands (40_commands.md R111). -/
def SameHostRegs (s t : State) : Prop :=
  t.ie = s.ie ∧ t.rej = s.rej ∧ t.cmd = s.cmd ∧ t.srcAddr = s.srcAddr ∧ t.srcLen = s.srcLen ∧ t.dstAddr = s.dstAddr ∧
    t.dstCap = s.dstCap ∧ t.argLo = s.argLo ∧ t.argHi = s.argHi ∧ t.latch = s.latch

/-! ### Shapes of results -/

/-- Buffer memory `m'` is `m` with the bytes `bs` at `a` and nothing else changed. -/
def MemWritten (m m' : List Host.Cell) (a : Nat) (bs : List Byte) : Prop :=
  ∀ x, Memory.get m' x = if a ≤ x ∧ x < a + bs.length then bs.getD (x - a) 0#8 else Memory.get m x

/-- The whole state after `finish(resLen, resVal)` from `s`: the record of 40_commands.md R116, nothing else changed. -/
def Finished (resLen resVal : Nat) (s : State) : State :=
  { s with
    resLen := BitVec.ofNat 32 resLen
    resVal := BitVec.ofNat 64 resVal
    errPos := 0#32
    err := .ok
    engine := .idle
    done := true }

/-- The whole state after a `raise` that touches nothing but the record (60_exceptions.md R403), with RES_VAL `resVal`. -/
def Raised (code : Code) (resVal : Nat) (s : State) : State :=
  { s with
    resLen := 0#32
    resVal := BitVec.ofNat 64 resVal
    errPos := 0#32
    err := code
    engine := .idle
    done := true }

/-- The result `r` is a next state after a `raise K(pos)` from `s` by a command that uses D (40_commands.md R116, R117): the
record, and buffer memory unchanged outside DST. Nothing is said of the bytes inside: they are any value (log 4). -/
def RaisedOverDst (code : Code) (pos : Nat) (s : State) (r : Result) : Prop :=
  ∃ m d, r = .next
      { s with
        resLen := 0#32
        resVal := 0#64
        errPos := BitVec.ofNat 32 pos
        err := code
        engine := .idle
        done := true
        mem := m
        draws := d } ∧
    ∀ x, inLatchedDst s x = false → Memory.get m x = Memory.get s.mem x

/-- SR_READ fails with a kind at h0 (46_stream_reader.md R340, R368): SR_ERR keeps the kind. -/
def ReaderFailed (e : SrErr) (h0 : DWord) (s : State) (r : Result) : Prop :=
  RaisedOverDst e.code h0.toNat { s with srErr := e } r

/-- What a chunk error is for whoever decodes the block: an error of kind `code` at `pos` for BDEC, the reader's failure at
h0 for a frame (43_block_decoder.md R264, 46_stream_reader.md R348). -/
def BlockFailed (code : Code) (e : SrErr) (u : BlockUser) (pos : Nat) (s : State) (r : Result) : Prop :=
  match u with
  | .bdec => RaisedOverDst code pos s r
  | .frame _ h0 => ReaderFailed e h0 s r

/-! ### Forms of chunks and frames -/

/-- The literal forms: length, and bytes before the data (30_encoding.md R96). -/
def literalForm : Instr → Option (Nat × Nat)
  | .litInline h => some (h.toNat + 1, 1)
  | .litX1 m => some (m.toNat + 1, 2)
  | .litX2 m => some (m.toNat + 1, 3)
  | .litX3 m => some (m.toNat + 1, 4)
  | .litX4 m => some (m.toNat + 1, 5)
  | _ => none

/-- The copy forms: offset, length, chunk size (30_encoding.md R97, R98). -/
def copyForm : Instr → Option (Nat × Nat × Nat)
  | .copy1 len off => some (off.toNat, len.toNat + 4, 2)
  | .copy2 len off => some (off.toNat, len.toNat + 1, 3)
  | _ => none

/-- LEN of a frame header (30_encoding.md R101). -/
def frameLen : Instr → Option Nat
  | .ftCompressed len | .ftUncompressed len | .ftStreamId len | .ftPadding len => some len.toNat
  | .ftReservedUnskippable _ len | .ftReservedSkippable _ len => some len.toNat
  | _ => none

/-- The frames with a body that is read: what is done with it, and LEN (46_stream_reader.md R348 to R350, R352, R353). -/
def bodyForm : Instr → Option (BodyKind × Nat)
  | .ftCompressed len => some (.compressed, len.toNat)
  | .ftUncompressed len => some (.uncompressed, len.toNat)
  | .ftStreamId len => some (.streamId, len.toNat)
  | .ftPadding len | .ftReservedSkippable _ len => some (.skipped, len.toNat)
  | _ => none

/-- A block that decodes to no bytes: a length prefix of 0, whole, in any of its ten lengths (41_varint.md R183, R184). -/
def emptyBlock (k : Nat) : List Byte := List.replicate k 0x80#8 ++ [0x00#8]

/-- A whole frame that SR_READ passes over in STREAMING: a stream marker, an empty data frame, uncompressed or compressed, a
padding or a skippable frame (70_reset_and_hazards.md R464). -/
def PassedOver (muMax : Byte) (f : List Byte) : Prop :=
  f = markerBytes ∨ f = [0x01#8, 0x04#8, 0x00#8, 0x00#8] ++ checksumField [] ∨
    (∃ k, k ≤ 9 ∧ f = 0x00#8 :: leBytes 3 (4 + (k + 1)) ++ checksumField [] ++ emptyBlock k) ∨
    ∃ ty body, (typeSkippable muMax ty ∨ ty = 0xFE#8) ∧ body.length ≤ Config.maxFrameLen ∧
      f = ty :: leBytes 3 body.length ++ body

/-- The j-th group of frames an endless source offers from `s` on, while nothing else draws free choices: one of `groups`,
freely chosen (log 9). -/
def offeredGroup (groups : List (List (List Byte))) (s : State) (j : Nat) : List (List Byte) :=
  chooseFrom [] groups (Config.freePick (s.draws + j))

/-- How many bytes its first m groups and the first q frames of the next one have. -/
def endlessLength (groups : List (List (List Byte))) (s : State) (m q : Nat) : Nat :=
  ((List.range m).map fun j => (offeredGroup groups s j).flatten.length).sum + ((offeredGroup groups s m).take q).flatten.length

/-- The 256 chunks of one byte: an endless source of these has any infinite sequence of bytes as its content
(20_memory.md R77). -/
def singleBytes : List (List Byte) := (List.range 256).map fun b => [BitVec.ofNat 8 b]

/-- The state with a frame body of n bytes taken from IN into FBUF (46_stream_reader.md R347). -/
def BodyTaken (n : Nat) (s : State) : State :=
  { s with
    fbuf := s.inPending.take n
    inPending := s.inPending.drop n
    inTaken := s.inTaken + n
    srInpos := s.srInpos + BitVec.ofNat 64 n }

/-- The frames' header and data bytes of SW_WRITE, SW_FLUSH, SW_CLOSE from UNSTARTED start with the marker
(45_stream_writer.md R304). -/
def markerOwed (s : State) : List Byte := if s.swState = .unstarted then markerBytes else []

/-- A writer's move `f` from `s` under a sink of limited room. Under a sink without limit it puts the bytes `bs` and completes
in `u`. With room for r bytes it completes in the same state if r is enough; else it puts the first r of them and stays BUSY,
and completes in `u` when it goes on under a sink without limit (20_memory.md R78, 70_reset_and_hazards.md R464). -/
def PutsWithinRoom (f : State → Result) (s : State) : Prop :=
  ∃ (u : State) (bs : List Byte), f { s with outRoom := none } = .next u ∧ u.busy = false ∧ u.outRoom = none ∧
    u.out = s.out ++ bs ∧ ∀ r : Nat,
      (bs.length ≤ r → f { s with outRoom := some r } = .next { u with outRoom := some (r - bs.length) }) ∧
      (r < bs.length → ∃ (w : WriterRun) (sw : SwState) (held : List Byte) (t : State),
        t = { s with
          swState := sw, ibuf := held, out := s.out ++ bs.take r, outRoom := some 0, engine := .writer w } ∧
        f { s with outRoom := some r } = .next t ∧ resumeWriter w { t with outRoom := none } = u)

end Sys2Proof.Machine
end

