-- ==== Sys2Proof/Certificates/Slice0/Obligations.lean ====
section
/-! DEFINITION. The statements about SNAPPY-CODEC, each from the rules its docstring names. -/

open Sys2Proof Sys2Proof.Machine

/-! ### Reset and the invariant -/

/-- The invariant holds right after reset (70_reset_and_hazards.md R450). -/
def Obligations.ResetMeetsInvariant : Prop := Consistent State.reset

/-- The register window after reset reads the reset column of 10_state.md R48, CONFIG the parameter image of R45; the
writer and reader states are those of R51, R52; IRQ = 0 (R57); the machine is idle and stays so until the host acts.
That an idle machine with no host move stays as it is, is the model's choice (log 5). -/
def Obligations.ResetRegisterValues : Prop :=
  busRead State.reset 0x00#8 4 = 0x59504E53#32 ∧
  busRead State.reset 0x40#8 4 = 0x00207F02#32 ∧
  busRead State.reset 0x44#8 4 = 0xFFFFFFFF#32 ∧
  (∀ off : Byte, off ≠ 0x00#8 → off ≠ 0x40#8 → off ≠ 0x44#8 → busRead State.reset off 4 = 0#32) ∧
  State.reset.swState = .unstarted ∧ State.reset.ibuf.length = 0 ∧
  State.reset.srPhase = .awaitMarker ∧ State.reset.srErr = .none ∧ State.reset.leftRd = 0 ∧ State.reset.leftEnd = 0 ∧
  State.reset.srInpos = 0#64 ∧ State.reset.inLatch = false ∧ State.reset.irq = false ∧
  step State.reset = .next State.reset

/-- Every step from a state that meets the invariant leads to one that meets it. -/
def Obligations.StepKeepsInvariant : Prop :=
  ∀ s t : State, Consistent s → step s = .next t → Consistent t

/-! ### Encoding -/

/-- Decoding the words of a well-formed instruction, whatever bytes follow, gives it back (30_encoding.md R90 to R102). -/
def Obligations.DecodeOfEncodeIsIdentity : Prop :=
  ∀ (muMax : Byte) (i : Instr) (rest : List Byte), muMax ≤ 0xFD#8 → i.WellFormed muMax →
    decode muMax i.format (encode i ++ rest) = .ok (i, rest)

/-- The other direction: whatever decodes is a well-formed instruction of that format, and but for the ignored bits
31:8 of a command word (30_encoding.md R90) its encoding is the bytes read. -/
def Obligations.DecodedBytesAreTheEncoding : Prop :=
  ∀ (muMax : Byte) (f : Format) (bs rest : List Byte) (i : Instr), 0x01#8 ≤ muMax → muMax ≤ 0xFD#8 →
    decode muMax f bs = .ok (i, rest) →
    i.WellFormed muMax ∧ i.format = f ∧ bs.length = (encode i).length + rest.length ∧
      (f = .cmd → bs.head? = (encode i).head?) ∧ (f ≠ .cmd → bs = encode i ++ rest)

/-- Words written out from the spec's encodings: BENC (30_encoding.md R91), the bits above 7 ignored (R90); a LIT_X2 tag of
length 257 (R96, 42_block_encoder.md R204); COPY1 and COPY2 (R97, R98, 42_block_encoder.md R205); the stream marker's header
(R101, R102); the varint bytes AC 02 (R93, 41_varint.md R183, R184). -/
def Obligations.SpecWordsDecode : Prop :=
  decode 0x7F#8 .cmd [0x11#8, 0x01#8, 0x00#8, 0x00#8] = .ok (.benc, []) ∧
  decode 0x7F#8 .cmd [0x00#8, 0x00#8, 0x00#8, 0x00#8] = .ok (.illegal 0x00#8, []) ∧
  decode 0x7F#8 .tag [0xF4#8, 0x00#8, 0x01#8] = .ok (.litX2 256#16, []) ∧
  decode 0x7F#8 .tag [0xFD#8, 0xFF#8] = .ok (.copy1 7#3 2047#11, []) ∧
  decode 0x7F#8 .tag [0x2E#8, 0x01#8, 0x00#8] = .ok (.copy2 11#6 1#16, []) ∧
  decode 0x7F#8 .frame [0xFF#8, 0x06#8, 0x00#8, 0x00#8] = .ok (.ftStreamId 6#24, []) ∧
  decode 0x7F#8 .frame [0x80#8, 0x01#8, 0x00#8, 0x00#8] = .ok (.ftReservedSkippable 0x80#8 1#24, []) ∧
  decode 0x7F#8 .varint [0xAC#8, 0x02#8] = .ok (.vbCont 0x2C#7, [0x02#8]) ∧
  decode 0x7F#8 .varint [0x02#8] = .ok (.vbLast 2#7, [])

/-- When the next move is the engine's, a step runs the instruction at the engine's cursor: the opcode just issued, the
varint byte at i, the chunk at s, the frame header of which `h` has been taken, whose remaining bytes are then consumed
(10_state.md R55, 40_commands.md R110); a writer that waited for the sink goes on (70_reset_and_hazards.md R464), and an idle
engine changes nothing. With no command running, `wait` and `feed` are over. What is one step, and the action list, are the
model's choices (logs 2, 5, 19). -/
def Obligations.StepRunsTheDecodedInstruction : Prop :=
  (∀ s₀ s : State, EngineTurn s₀ s →
    (s.engine = .dispatch → step s₀ = exec (decodeOpcode s.latch.op) s) ∧
    (∀ (c : VarintCursor) (u : VarintUser) (i : Instr) (rest : List Byte), s.engine = .varint c u →
      decodeVarintByte (fetchVarint c u s) = .ok (i, rest) → step s₀ = exec i s) ∧
    (∀ (c : BlockCursor) (u : BlockUser) (i : Instr) (rest : List Byte), s.engine = .block c u →
      decodeTag (fetchTag c u s) = .ok (i, rest) → step s₀ = exec i s) ∧
    (∀ (i0 h0 : DWord) (h bs : List Byte) (i : Instr) (rest : List Byte), s.engine = .header i0 h0 h →
      s.inLatch = false → bs = s.inPending.take (4 - h.length) →
      decodeHeader s.cfg.muMax (h ++ bs) = .ok (i, rest) →
      step s₀ = exec i
        { s with
          inPending := s.inPending.drop bs.length
          inTaken := s.inTaken + bs.length
          srInpos := s.srInpos + BitVec.ofNat 64 bs.length
          engine := .header i0 h0 (h ++ bs) }) ∧
    (∀ w : WriterRun, s.engine = .writer w → step s₀ = .next (resumeWriter w s)) ∧
    (s.engine = .idle → step s₀ = .next s)) ∧
  (∀ (s : State) (chunks : List (List Byte)) (rest : List HostAction), s.busy = false →
    step { s with events := .wait :: rest } = .next { s with events := rest } ∧
    step { s with events := .feed chunks :: rest } = .next { s with events := rest })

/-! ### The sequencer -/

/-- 40_commands.md R110 and R111: a write of v to CMD stores v[7:0]; with BUSY = 0 it clears DONE and ERR, latches every
operand register and starts the command; with BUSY = 1 it sets REJ and changes nothing else.
That the running opcode is latched beside the operands is deduced (log 15), and the action list is the model's
choice (log 5). -/
def Obligations.CmdWriteStartsOrIsRejected : Prop :=
  ∀ (s : State) (v : Word) (rest : List HostAction),
    (s.busy = false →
      ∃ l : Latch,
        step { s with events := .write 0x0C#8 4 v :: rest } =
          .next { s with
            events := rest, cmd := v.extractLsb' 0 8, done := false, err := .ok, latch := l, engine := .dispatch
            memBefore := s.mem } ∧
        l.op = v.extractLsb' 0 8 ∧ l.srcAddr = s.srcAddr ∧ l.srcLen = s.srcLen ∧ l.dstAddr = s.dstAddr ∧
        l.dstCap = s.dstCap ∧ l.arg.toNat = s.argHi.toNat * 2 ^ 32 + s.argLo.toNat) ∧
    (s.busy = true →
      step { s with events := .write 0x0C#8 4 v :: rest } =
        .next { s with events := rest, cmd := v.extractLsb' 0 8, rej := true })

/-- 40_commands.md R112: every opcode outside the table of 30_encoding.md R91, and no other, is ILLEGAL; it completes with
code 8 and a zero record, everything else unchanged. -/
def Obligations.IllegalOpcodeCompletes : Prop :=
  (∀ op : Byte, decodeOpcode op = .illegal op ↔ op ∉ assignedOpcodes) ∧
  (∀ (op : Byte) (s : State), exec (.illegal op) s = .next (Raised .illegal 0 s)) ∧
  Code.illegal.bits = 8#4

/-- 40_commands.md R113: a command that uses S or D and whose region (a, n) has n ≠ 0 and a + n > P_MEM_SIZE raises
BadArg(0) before any other change. -/
def Obligations.InvalidRegionRaisesBadArg : Prop :=
  ∀ (i : Instr) (s : State),
    (i ∈ [Instr.varintDec, .benc, .bdec, .swWrite] ∧ s.latch.srcLen.toNat ≠ 0 ∧
        s.latch.srcAddr.toNat + s.latch.srcLen.toNat > s.cfg.memSize) ∨
      (i ∈ [Instr.varintEnc, .benc, .bdec, .srRead] ∧ s.latch.dstCap.toNat ≠ 0 ∧
        s.latch.dstAddr.toNat + s.latch.dstCap.toNat > s.cfg.memSize) →
    exec i s = .next (Raised .badArg 0 s)

/-- 40_commands.md R114: BENC and BDEC with overlapping regions raise BadArg(0). -/
def Obligations.OverlappingRegionsRaiseBadArg : Prop :=
  ∀ (i : Instr) (s : State), i ∈ [Instr.benc, .bdec] →
    s.latch.srcLen.toNat > 0 → s.latch.dstCap.toNat > 0 →
    s.latch.srcAddr.toNat < s.latch.dstAddr.toNat + s.latch.dstCap.toNat →
    s.latch.dstAddr.toNat < s.latch.srcAddr.toNat + s.latch.srcLen.toNat →
    exec i s = .next (Raised .badArg 0 s)

/-! ### Varints -/

/-- 41_varint.md R188 with R181: VARINT_LEN completes with RES_LEN = k, where 2^(7(k-1)) ≤ v < 2^(7k), 1 for v < 2^7 and 10
for v ≥ 2^63; nothing but the record changes. -/
def Obligations.VarintLenCompletes : Prop :=
  ∀ s : State, ∃ k : Nat, 1 ≤ k ∧ k ≤ 10 ∧
    (1 < k → 2 ^ (7 * (k - 1)) ≤ s.latch.arg.toNat) ∧ (k < 10 → s.latch.arg.toNat < 2 ^ (7 * k)) ∧
    exec .varintLen s = .next (Finished k 0 s)

/-- 41_varint.md R186: with a valid DST of at least VarintLen(v) bytes, VARINT_ENC writes VarintEncode(v) at DST_ADDR and
completes with RES_LEN = n; with fewer it raises DstSmall(0), RES_VAL = n, DST unchanged; with an invalid DST, BadArg(0). -/
def Obligations.VarintEncCompletes : Prop :=
  ∀ s : State,
    (dstValid s = false → exec .varintEnc s = .next (Raised .badArg 0 s)) ∧
    (dstValid s = true → s.latch.dstCap.toNat < varintLength s.latch.arg.toNat →
      exec .varintEnc s = .next (Raised .dstSmall (varintLength s.latch.arg.toNat) s)) ∧
    (dstValid s = true → varintLength s.latch.arg.toNat ≤ s.latch.dstCap.toNat →
      (varintEncode s.latch.arg.toNat).length = varintLength s.latch.arg.toNat ∧
      ∃ m, exec .varintEnc s = .next (Finished (varintLength s.latch.arg.toNat) 0 { s with mem := m }) ∧
        MemWritten s.mem m s.latch.dstAddr.toNat (varintEncode s.latch.arg.toNat))

/-- 41_varint.md R187, the part of VARINT_DEC before its first byte: an invalid SRC is BadArg(0), no bytes give (0, 0), else
the decoder stands at byte 0 with x = 0. -/
def Obligations.VarintDecStarts : Prop :=
  ∀ s : State,
    (srcValid s = false → exec .varintDec s = .next (Raised .badArg 0 s)) ∧
    (srcValid s = true → s.latch.srcLen.toNat = 0 → exec .varintDec s = .next (Finished 0 0 s)) ∧
    (srcValid s = true → s.latch.srcLen.toNat ≠ 0 →
      exec .varintDec s = .next { s with engine := .varint { i := 0, x := 0#64 } .command })

/-- 41_varint.md R187: a VARINT_DEC just issued completes within 11 steps, with the value and the count of VarintDecode
over the first min(SRC_LEN, 10) source bytes (R185), and nothing but the record changed.
The number of steps follows from the model's choice of a step (log 2). -/
def Obligations.VarintDecComputesVarintDecode : Prop :=
  ∀ s : State, s.events = [] → s.engine = .dispatch → s.latch.op = 0x02#8 →
    (srcValid s = false → Host.Core.run core 11 s = .next (Raised .badArg 0 s)) ∧
    (srcValid s = true →
      Host.Core.run core 11 s =
        .next (Finished
          (refVarintDecode (Memory.read s.mem s.latch.srcAddr.toNat (min s.latch.srcLen.toNat 10))).2
          (refVarintDecode (Memory.read s.mem s.latch.srcAddr.toNat (min s.latch.srcLen.toNat 10))).1 s))

/-- 41_varint.md R183: VB_CONT at position i < 9 with a byte after it adds G << 7i to x and moves on; else the varint fails:
(0, 0) with code OK for VARINT_DEC (R187), Corrupt for a prefix (43_block_decoder.md R241). -/
def Obligations.VarintContinuationByte : Prop :=
  ∀ (g : BitVec 7) (s : State) (c : VarintCursor) (u : VarintUser), s.engine = .varint c u →
    (c.i < 9 → c.i + 1 < varintLimit u s →
      exec (.vbCont g) s =
        .next { s with engine := .varint { i := c.i + 1, x := c.x ||| (g.setWidth 64 <<< (7 * c.i)) } u }) ∧
    (9 ≤ c.i ∨ varintLimit u s ≤ c.i + 1 →
      (u = .command → exec (.vbCont g) s = .next (Finished 0 0 s)) ∧
      (∀ b, u = .ofBlock b → BlockFailed .corrupt .corrupt b 0 s (exec (.vbCont g) s)))

/-- 41_varint.md R184: VB_LAST at position i ends the varint with x | G << 7i and consumed = i + 1, which a VARINT_DEC
completes with (R187); at i = 9 with G > 1 the varint fails. -/
def Obligations.VarintLastByte : Prop :=
  ∀ (g : BitVec 7) (s : State) (c : VarintCursor) (u : VarintUser), s.engine = .varint c u → c.i ≤ 9 →
    (c.i < 9 ∨ g.toNat ≤ 1 →
      (u = .command →
        exec (.vbLast g) s =
          .next (Finished (c.i + 1) (c.x ||| (g.setWidth 64 <<< (7 * c.i))).toNat s)) ∧
      (∀ b, u = .ofBlock b →
        exec (.vbLast g) s = .next (blockBegin b (c.x ||| (g.setWidth 64 <<< (7 * c.i))).toNat (c.i + 1) s))) ∧
    (c.i = 9 ∧ 1 < g.toNat →
      (u = .command → exec (.vbLast g) s = .next (Finished 0 0 s)) ∧
      (∀ b, u = .ofBlock b → BlockFailed .corrupt .corrupt b 0 s (exec (.vbLast g) s)))

/-- 41_varint.md R189: (a) and (b) decoding an encoding, whatever follows, gives the value and VarintLen; (c) every proper
prefix of an encoding fails. -/
def Obligations.VarintLaws : Prop :=
  ∀ v : Nat, v < 2 ^ 64 →
    (∀ rest : List Byte, refVarintDecode (varintEncode v ++ rest) = (v, varintLength v)) ∧
    (∀ k : Nat, k < (varintEncode v).length → refVarintDecode ((varintEncode v).take k) = (0, 0))

/-! ### The block encoder -/

/-- 42_block_encoder.md R201 with R200: MAXLEN completes with RES_VAL = 32 + n + n/6, or raises TooLarge(0) when n or the
bound exceeds 0xFFFFFFFF. -/
def Obligations.MaxLenCompletes : Prop :=
  ∀ s : State,
    (s.latch.arg.toNat ≤ 0xFFFFFFFF ∧ 32 + s.latch.arg.toNat + s.latch.arg.toNat / 6 ≤ 0xFFFFFFFF →
      exec .maxLen s = .next (Finished 0 (32 + s.latch.arg.toNat + s.latch.arg.toNat / 6) s)) ∧
    (¬(s.latch.arg.toNat ≤ 0xFFFFFFFF ∧ 32 + s.latch.arg.toNat + s.latch.arg.toNat / 6 ≤ 0xFFFFFFFF) →
      exec .maxLen s = .next (Raised .tooLarge 0 s))

/-- 42_block_encoder.md R202: with valid, disjoint regions, BENC writes Encode(X) at DST_ADDR and completes with its length;
TooLarge(0) when the bound is NONE; DstSmall(0) with RES_VAL = b when DST_CAP < b. -/
def Obligations.BencCompletes : Prop :=
  ∀ s : State, regionsOk s = true →
    (maxEncodedLen s.latch.srcLen.toNat = none → RaisedOverDst .tooLarge 0 s (exec .benc s)) ∧
    (∀ b, maxEncodedLen s.latch.srcLen.toNat = some b →
      (s.latch.dstCap.toNat < b → exec .benc s = .next (Raised .dstSmall b s)) ∧
      (b ≤ s.latch.dstCap.toNat →
        ∃ m, exec .benc s =
            .next (Finished
              (encodeBlock s.cfg (Memory.read s.mem s.latch.srcAddr.toNat s.latch.srcLen.toNat)).length 0
              { s with mem := m }) ∧
          MemWritten s.mem m s.latch.dstAddr.toNat
            (encodeBlock s.cfg (Memory.read s.mem s.latch.srcAddr.toNat s.latch.srcLen.toNat))))

/-- 42_block_encoder.md R205: EmitCopy splits off COPY2 chunks of length 64 while L ≥ 68, then one of 60 if L is in 65..67;
what is left is a COPY2 if L ≥ 12 or off ≥ 2048, else a COPY1. -/
def Obligations.EmitCopySplitting : Prop :=
  ∀ off len : Nat, 1 ≤ off → off ≤ 65535 → 4 ≤ len →
    (68 ≤ len → emitCopy off len = 0xFE#8 :: leBytes 2 off ++ emitCopy off (len - 64)) ∧
    (64 < len → len < 68 → emitCopy off len = 0xEE#8 :: leBytes 2 off ++ emitCopy off (len - 60)) ∧
    (len ≤ 64 → 12 ≤ len ∨ 2048 ≤ off →
      emitCopy off len = BitVec.ofNat 8 ((len - 1) * 4 + 2) :: leBytes 2 off) ∧
    (len < 12 → off < 2048 →
      emitCopy off len = [BitVec.ofNat 8 (off / 256 * 32 + (len - 4) * 4 + 1), BitVec.ofNat 8 (off % 256)])

/-- 42_block_encoder.md R216, "The reference Encode of rule R203 is one such function", with R215: for every source the
reference emissions have valid tagger arguments, produce exactly the source, and stay within the bound. -/
def Obligations.ReferenceEncoderConforms : Prop :=
  ∀ (skip : Bool) (src : List Byte), planConforms src (referencePlan skip src) = true

/-- 42_block_encoder.md R217, 43_block_decoder.md R266: under either policy BlockDecode(Encode(X)) = X, and |Encode(X)| is
within MaxEncodedLen(|X|). -/
def Obligations.EncodedBlockDecodesBack : Prop :=
  ∀ (p : Params) (src : List Byte), src.length ≤ 0xFFFFFFFF →
    (∀ cap : Nat, src.length ≤ cap → refBlockDecode 0xFFFFFFFF cap (encodeBlock p src) = .ok src) ∧
    (∀ b : Nat, maxEncodedLen src.length = some b → (encodeBlock p src).length ≤ b)

/-! ### The block decoder -/

/-- 43_block_decoder.md R262, the part of BDEC before its first byte: with valid, disjoint regions and a source that is not
empty the decoder stands at byte 0 of the prefix; an empty block is Corrupt(0) (R241). -/
def Obligations.BdecStarts : Prop :=
  ∀ s : State, regionsOk s = true →
    (s.latch.srcLen.toNat ≠ 0 →
      exec .bdec s = .next { s with engine := .varint { i := 0, x := 0#64 } (.ofBlock .bdec) }) ∧
    (s.latch.srcLen.toNat = 0 → RaisedOverDst .corrupt 0 s (exec .bdec s))

/-- 43_block_decoder.md R242, R243 and R250, the prefix gave N in `used` bytes: above the ceiling, TooLarge(0); else above the
capacity, DstSmall(0) with RES_VAL = N for BDEC and Corrupt for a frame (46_stream_reader.md R348); else the first chunk. A
block that is only its prefix is Corrupt(L) if N > 0 (R261); if N = 0 it completes BDEC with no bytes (R262), and in a frame
the checksum field decides: that of no bytes leads to the next header, any other is Corrupt(h0) (46_stream_reader.md R348). -/
def Obligations.BlockPrefixChecks : Prop :=
  ∀ (u : BlockUser) (n used : Nat) (s : State),
    (s.cfg.maxDecodedLen.toNat < n →
      BlockFailed .tooLarge .tooLarge u 0 s (.next (blockBegin u n used s))) ∧
    (n ≤ s.cfg.maxDecodedLen.toNat → u = .bdec → s.latch.dstCap.toNat < n →
      blockBegin u n used s = Raised .dstSmall n s) ∧
    (∀ i0 h0, n ≤ s.cfg.maxDecodedLen.toNat → u = .frame i0 h0 → 65536 < n →
      ReaderFailed .corrupt h0 s (.next (blockBegin u n used s))) ∧
    (n ≤ s.cfg.maxDecodedLen.toNat → n ≤ blockCapacity u s → used < blockLength u s →
      blockBegin u n used s = { s with engine := .block { s := used, d := 0, n := n } u }) ∧
    (n ≤ s.cfg.maxDecodedLen.toNat → n ≤ blockCapacity u s → blockLength u s ≤ used → n ≠ 0 →
      BlockFailed .corrupt .corrupt u (blockLength u s) s (.next (blockBegin u n used s))) ∧
    (s.latch.srcLen.toNat ≤ used → blockBegin .bdec 0 used s = Finished 0 0 s) ∧
    (∀ i0 h0, 4 ≤ s.fbuf.length → s.fbuf.length - 4 ≤ used → s.dbuf = [] →
      (s.fbuf.take 4 ≠ checksumField [] → ReaderFailed .corrupt h0 s (.next (blockBegin (.frame i0 h0) 0 used s))) ∧
      (s.fbuf.take 4 = checksumField [] →
        blockBegin (.frame i0 h0) 0 used s =
          { s with leftRd := 0, leftEnd := 0, engine := .header i0 s.srInpos [] }))

/-- 43_block_decoder.md R250, R261, R262, the head of the loop: with s < L the decoder stands at the chunk at s; at the end
with d ≠ N it raises Corrupt(L); at the end with d = N a BDEC completes with RES_LEN = RES_VAL = N. A compressed frame's
checksum field is then compared with that of the data in DBUF (46_stream_reader.md R348): if they differ, Corrupt(h0); if they
agree and there are no data, the next header; else the first min(DST_CAP, N) bytes are delivered (R343). -/
def Obligations.ChunkLoopEnds : Prop :=
  ∀ (u : BlockUser) (c : BlockCursor) (s : State),
    (c.s < blockLength u s → blockLoop u c s = { s with engine := .block c u }) ∧
    (blockLength u s ≤ c.s → c.d ≠ c.n →
      BlockFailed .corrupt .corrupt u (blockLength u s) s (.next (blockLoop u c s))) ∧
    (s.latch.srcLen.toNat ≤ c.s → c.d = c.n → blockLoop .bdec c s = Finished c.n c.n s) ∧
    (∀ i0 h0, 4 ≤ s.fbuf.length → s.fbuf.length - 4 ≤ c.s → c.d = c.n →
      (s.fbuf.take 4 ≠ checksumField s.dbuf →
        ReaderFailed .corrupt h0 s (.next (blockLoop (.frame i0 h0) c s))) ∧
      (s.fbuf.take 4 = checksumField s.dbuf → s.dbuf = [] →
        blockLoop (.frame i0 h0) c s = { s with leftRd := 0, leftEnd := 0, engine := .header i0 s.srInpos [] }) ∧
      (s.fbuf.take 4 = checksumField s.dbuf → s.dbuf ≠ [] →
        ∃ m n, n = min s.latch.dstCap.toNat s.dbuf.length ∧
          blockLoop (.frame i0 h0) c s =
            Finished n (s.srInpos - i0).toNat { s with mem := m, leftRd := n, leftEnd := s.dbuf.length } ∧
          MemWritten s.mem m s.latch.dstAddr.toNat (s.dbuf.take n)))

/-- 43_block_decoder.md R251 to R255: a literal chunk that fits the declared length and the block copies its data to
out[d..d+len) and advances s and d, whichever of the five forms it has. For BDEC out is buffer memory at DST_ADDR, every
other byte of which is unchanged; for a frame it is DBUF. -/
def Obligations.LiteralChunkCompletes : Prop :=
  ∀ (i : Instr) (len hd : Nat) (s : State) (c : BlockCursor) (u : BlockUser), literalForm i = some (len, hd) →
    s.engine = .block c u → c.d + len ≤ c.n → c.s + hd + len ≤ blockLength u s →
    (u = .bdec →
      ∃ m, exec i s =
          .next (blockLoop u { s := c.s + hd + len, d := c.d + len, n := c.n } { s with mem := m }) ∧
        MemWritten s.mem m (s.latch.dstAddr.toNat + c.d)
          (Memory.read s.mem (s.latch.srcAddr.toNat + (c.s + hd)) len)) ∧
    (u ≠ .bdec →
      exec i s =
        .next (blockLoop u { s := c.s + hd + len, d := c.d + len, n := c.n }
          { s with dbuf := s.dbuf.take c.d ++ (s.fbuf.drop (4 + (c.s + hd))).take len }))

/-- 43_block_decoder.md R256, R257, R259, R260: a copy chunk with 1 ≤ off ≤ d that fits the declared length appends len
bytes, byte k of them being out[d - off + k mod off]: the pattern out[d-off..d) repeated. Every other byte of buffer memory
is unchanged. -/
def Obligations.CopyChunkCompletes : Prop :=
  ∀ (i : Instr) (off len size : Nat) (s : State) (c : BlockCursor) (u : BlockUser),
    copyForm i = some (off, len, size) → s.engine = .block c u → 1 ≤ off → off ≤ c.d → c.d + len ≤ c.n →
    (u = .bdec →
      ∃ m bs, exec i s =
          .next (blockLoop u { s := c.s + size, d := c.d + len, n := c.n } { s with mem := m }) ∧
        MemWritten s.mem m (s.latch.dstAddr.toNat + c.d) bs ∧ bs.length = len ∧
        ∀ k, k < len → bs.getD k 0#8 = Memory.get s.mem (s.latch.dstAddr.toNat + (c.d - off + k % off))) ∧
    (u ≠ .bdec → c.d = s.dbuf.length →
      ∃ bs, exec i s =
          .next (blockLoop u { s := c.s + size, d := c.d + len, n := c.n } { s with dbuf := s.dbuf ++ bs }) ∧
        bs.length = len ∧ ∀ k, k < len → bs.getD k 0#8 = s.dbuf.getD (c.d - off + k % off) 0#8)

/-- 43_block_decoder.md R251, R259, R263: a literal that would overrun N or the block, and a copy with offset 0, an offset
before the start of output, or a length that would overrun N, are Corrupt at the chunk's tag. -/
def Obligations.ChunkErrorsAreCorrupt : Prop :=
  (∀ (i : Instr) (len hd : Nat) (s : State) (c : BlockCursor) (u : BlockUser), literalForm i = some (len, hd) →
    s.engine = .block c u → c.n - c.d < len ∨ blockLength u s - (c.s + hd) < len →
    BlockFailed .corrupt .corrupt u c.s s (exec i s)) ∧
  (∀ (i : Instr) (off len size : Nat) (s : State) (c : BlockCursor) (u : BlockUser),
    copyForm i = some (off, len, size) → s.engine = .block c u → off = 0 ∨ c.d < off ∨ c.n - c.d < len →
    BlockFailed .corrupt .corrupt u c.s s (exec i s))

/-- 43_block_decoder.md R258: COPY4 is Unsupported at its tag, always. -/
def Obligations.LegacyCopyIsUnsupported : Prop :=
  ∀ (h : BitVec 6) (s : State) (c : BlockCursor) (u : BlockUser), s.engine = .block c u →
    BlockFailed .unsupported .unsupported u c.s s (exec (.copy4 h) s)

/-- 43_block_decoder.md R252 to R257: a tag whose operand bytes (1 to 4 after a literal tag with H = 60..63, 1 after a COPY1
tag, 2 after a COPY2 tag) run past the end of the block is Corrupt at the tag, whichever move gives the engine its turn. -/
def Obligations.TruncatedChunkIsCorrupt : Prop :=
  ∀ (s₀ s : State) (c : BlockCursor) (u : BlockUser) (t : Byte) (rest : List Byte), EngineTurn s₀ s →
    s.engine = .block c u → c.s < blockLength u s →
    blockBytes u c.s (min 5 (blockLength u s - c.s)) s = t :: rest →
    (t.toNat % 4 = 0 ∧ 60 ≤ t.toNat / 4 ∧ rest.length < t.toNat / 4 - 59) ∨ (t.toNat % 4 = 1 ∧ rest.length < 1) ∨
      (t.toNat % 4 = 2 ∧ rest.length < 2) →
    BlockFailed .corrupt .corrupt u c.s s (step s₀)

/-- 43_block_decoder.md R240, R262, R264: a BDEC just issued with valid, disjoint regions completes within SRC_LEN + 1
steps as BlockDecode of its source says: OK with the output at DST_ADDR and RES_LEN = RES_VAL = N; DstSmall with RES_VAL = N and
DST unchanged; or the error and the position BlockDecode raises, buffer memory outside DST unchanged.
The number of steps follows from the model's choice of a step (log 2); the bytes of DST after an error are free
(log 4). -/
def Obligations.BdecComputesBlockDecode : Prop :=
  ∀ s : State, s.events = [] → s.engine = .dispatch → s.latch.op = 0x12#8 → regionsOk s = true →
    match refBlockDecode s.cfg.maxDecodedLen.toNat s.latch.dstCap.toNat
        (Memory.read s.mem s.latch.srcAddr.toNat s.latch.srcLen.toNat) with
    | .ok out =>
      ∃ m, Host.Core.run core (s.latch.srcLen.toNat + 1) s = .next (Finished out.length out.length { s with mem := m }) ∧
        MemWritten s.mem m s.latch.dstAddr.toNat out
    | .error e =>
      if e.code = .dstSmall then
        Host.Core.run core (s.latch.srcLen.toNat + 1) s = .next (Raised .dstSmall e.needed s)
      else RaisedOverDst e.code e.pos s (Host.Core.run core (s.latch.srcLen.toNat + 1) s)

/-! ### The checksum engine -/

/-- 44_checksum.md R285, rows of its table: the check value of CRC-32C, its mask, and the field bytes. -/
def Obligations.ChecksumTableValues : Prop :=
  crc32c [] = 0x00000000#32 ∧ frameChecksum [] = 0xA282EAD8#32 ∧
  checksumField [] = [0xD8#8, 0xEA#8, 0x82#8, 0xA2#8] ∧
  crc32c [0x61#8] = 0xC1D04330#32 ∧ checksumField [0x61#8] = [0x78#8, 0x6E#8, 0xE4#8, 0x28#8] ∧
  crc32c [0x31#8, 0x32#8, 0x33#8, 0x34#8, 0x35#8, 0x36#8, 0x37#8, 0x38#8, 0x39#8] = 0xE3069283#32 ∧
  frameChecksum [0x31#8, 0x32#8, 0x33#8, 0x34#8, 0x35#8, 0x36#8, 0x37#8, 0x38#8, 0x39#8] = 0xC78AB0E5#32 ∧
  crc32c (List.replicate 32 0xFF#8) = 0x62A8AB43#32

/-- 46_stream_reader.md R359(b), Scenario D for uncompressed frames: a body whose checksum field belongs to other data, which
differ from the bytes received in at most 4 consecutive bytes, is Corrupt(h0). -/
def Obligations.DamagedRawFrameIsCorrupt : Prop :=
  ∀ (s : State) (i0 h0 : DWord) (h before sent got after rest : List Byte) (len : BitVec 24),
    s.engine = .header i0 h0 h → s.srPhase = .streaming → s.inLatch = false →
    sent.length = got.length → got.length ≤ 4 → sent ≠ got →
    len.toNat = 4 + (before ++ got ++ after).length → (before ++ got ++ after).length ≤ 65536 →
    s.inPending = checksumField (before ++ sent ++ after) ++ (before ++ got ++ after) ++ rest →
    ∃ d, ReaderFailed .corrupt h0 { BodyTaken len.toNat s with dbuf := d } (exec (.ftUncompressed len) s)

/-! ### The stream writer -/

/-- 45_stream_writer.md R305: EmitFrame puts one frame whose LEN is the length of its body and at most 76494, whose body is
the checksum field of the slice and then c, the encoded slice (TYPE 0x00), or u, the slice (TYPE 0x01). Select takes the
encoded slice iff |c| < |u| under "smaller", a tie going raw, and iff |c| < |u| - |u|/8 under "eighth" (R307). -/
def Obligations.EmitFrameIsOneFrame : Prop :=
  ∀ (p : Params) (u c : List Byte), 1 ≤ u.length → u.length ≤ 65536 → c = encodeBlock p u →
    ∃ (ty : Byte) (body : List Byte),
      frameBytes p u = ty :: leBytes 3 body.length ++ body ∧ body.length ≤ 76494 ∧ body.take 4 = checksumField u ∧
      (if (p.select = .smaller ∧ c.length < u.length) ∨ (p.select = .eighth ∧ c.length < u.length - u.length / 8) then
        ty = 0x00#8 ∧ body.drop 4 = c
      else ty = 0x01#8 ∧ body.drop 4 = u)

/-- 45_stream_writer.md R302, R303: while the sink accepts everything, SW_WRITE puts the marker if it is owed and one frame
for every 65536 bytes of IBUF and the source together, keeps the rest in IBUF, and completes with RES_LEN = SRC_LEN and
RES_VAL = the bytes put; nothing else changes. While it runs, SW_STATUS shows the state it started in, or ACTIVE with the length
that IBUF has after some number j of source bytes, no others (70_reset_and_hazards.md R463; log 25). -/
def Obligations.SwWriteCompletes : Prop :=
  ∀ s : State, s.outRoom = none → srcValid s = true → s.swState ≠ .closed → s.ibuf.length < 65536 →
    (∀ (st : SwState) (len : Nat),
      (∃ u ∈ commandStates .swWrite s, u.swState = st ∧ u.ibuf.length = len) ↔
        (st = s.swState ∧ len = s.ibuf.length) ∨
          (st = .active ∧ len ≤ 65536 ∧
            ∃ j c, j ≤ s.latch.srcLen.toNat ∧ s.ibuf.length + j = 65536 * c + len)) ∧
    ∀ data frames keep : List Byte,
      data = s.ibuf ++ Memory.read s.mem s.latch.srcAddr.toNat s.latch.srcLen.toNat →
      refSlices s.cfg data.length data = (frames, keep) →
      keep.length < 65536 ∧
      exec .swWrite s =
        .next (Finished s.latch.srcLen.toNat (markerOwed s ++ frames).length
          { s with swState := .active, ibuf := keep, out := s.out ++ (markerOwed s ++ frames) })

/-- 45_stream_writer.md R308: while the sink accepts everything, SW_FLUSH puts the marker if it is owed and IBUF as one
frame if it is not empty, and completes with RES_LEN = the data bytes framed and RES_VAL = the bytes put. While it runs,
SW_STATUS shows the state it started in, or ACTIVE with IBUF_LEN as it was or 0 (70_reset_and_hazards.md R463; log 25). -/
def Obligations.SwFlushCompletes : Prop :=
  ∀ s : State, s.outRoom = none → s.swState ≠ .closed →
    (∀ (st : SwState) (len : Nat),
      (∃ u ∈ commandStates .swFlush s, u.swState = st ∧ u.ibuf.length = len) ↔
        (st = s.swState ∧ len = s.ibuf.length) ∨ (st = .active ∧ (len = s.ibuf.length ∨ len = 0))) ∧
    ∀ frame : List Byte, frame = (if s.ibuf = [] then [] else frameBytes s.cfg s.ibuf) →
      exec .swFlush s =
        .next (Finished s.ibuf.length (markerOwed s ++ frame).length
          { s with swState := .active, ibuf := [], out := s.out ++ (markerOwed s ++ frame) })

/-- 45_stream_writer.md R309: SW_CLOSE does what SW_FLUSH does and leaves the writer CLOSED, which SW_STATUS may show too while
it runs (70_reset_and_hazards.md R463; log 25). -/
def Obligations.SwCloseCompletes : Prop :=
  ∀ s : State, s.outRoom = none → s.swState ≠ .closed →
    (∀ (st : SwState) (len : Nat),
      (∃ u ∈ commandStates .swClose s, u.swState = st ∧ u.ibuf.length = len) ↔
        (st = s.swState ∧ len = s.ibuf.length) ∨ (st = .active ∧ (len = s.ibuf.length ∨ len = 0)) ∨
          (st = .closed ∧ len = 0)) ∧
    ∀ frame : List Byte, frame = (if s.ibuf = [] then [] else frameBytes s.cfg s.ibuf) →
      exec .swClose s =
        .next (Finished s.ibuf.length (markerOwed s ++ frame).length
          { s with swState := .closed, ibuf := [], out := s.out ++ (markerOwed s ++ frame) })

/-- 45_stream_writer.md R310 and 46_stream_reader.md R369: SW_RESET and SR_RESET return their instance to its reset state and
report the bytes discarded; nothing else changes. While each runs, its status register may show the state between any two of its
assignments (70_reset_and_hazards.md R463; log 25). -/
def Obligations.InstanceResetsComplete : Prop :=
  ∀ s : State,
    commandStates .swReset s = [s, { s with swState := .unstarted }, { s with swState := .unstarted, ibuf := [] }] ∧
    commandStates .srReset s =
      [s, { s with srPhase := .awaitMarker }, { s with srPhase := .awaitMarker, srErr := .none },
        { s with srPhase := .awaitMarker, srErr := .none, leftRd := 0 },
        { s with srPhase := .awaitMarker, srErr := .none, leftRd := 0, leftEnd := 0 }] ∧
    exec .swReset s = .next (Finished s.ibuf.length 0 { s with swState := .unstarted, ibuf := [] }) ∧
    exec .srReset s =
      .next (Finished (s.leftEnd - s.leftRd) 0
        { s with srPhase := .awaitMarker, srErr := .none, leftRd := 0, leftEnd := 0, srInpos := 0#64, inLatch := false })

/-- 45_stream_writer.md R311: SW_WRITE (past its region check), SW_FLUSH and SW_CLOSE in CLOSED raise Closed(0) and change
nothing but the record. -/
def Obligations.ClosedWriterRaisesClosed : Prop :=
  ∀ (s : State), s.swState = .closed →
    (srcValid s = true → exec .swWrite s = .next (Raised .closed 0 s)) ∧
    exec .swFlush s = .next (Raised .closed 0 s) ∧ exec .swClose s = .next (Raised .closed 0 s)

/-- 20_memory.md R78, 70_reset_and_hazards.md R464: SW_WRITE, SW_FLUSH and SW_CLOSE under a sink with room for r bytes
complete as under one without limit if the bytes they owe are at most r; else each puts exactly the first r of them and stays
BUSY, and going on under a sink without limit it ends in the state it would have reached without the wait. The same holds of
any rest of a writer's actions, so of a command that goes on after a wait and waits again. What the commands do under a sink
without limit is stated beside (45_stream_writer.md R302, R308, R309). SW_STATUS shows the same states: what it may show without
the wait is shown before the wait or after it, and nothing else (R463; log 25).
That the sink accepts byte by byte is the model's choice (log 10). -/
def Obligations.StalledWriterPutsTheSameBytes : Prop :=
  (∀ (i : Instr) (s : State), i ∈ [Instr.swWrite, .swFlush, .swClose] → s.swState ≠ .closed →
    (i = .swWrite → srcValid s = true) → PutsWithinRoom (exec i) s) ∧
  (∀ (resLen o : Nat) (ops : List WriterOp) (s : State),
    PutsWithinRoom (fun t => .next (resumeWriter { resLen := resLen, o := o, todo := ops } t)) s) ∧
  ∀ (i : Instr) (s t : State) (r : Nat), i ∈ [Instr.swWrite, .swFlush, .swClose] →
    exec i { s with outRoom := some r } = .next t →
    (∀ u ∈ commandStates i { s with outRoom := some r }, ∃ v ∈ commandStates i { s with outRoom := none }, WriterShown u v) ∧
    ∀ v ∈ commandStates i { s with outRoom := none },
      (∃ u ∈ commandStates i { s with outRoom := some r }, WriterShown v u) ∨
        ∃ w, t.engine = .writer w ∧ ∃ u ∈ writerStates w.todo { t with outRoom := none }, WriterShown v u

/-! ### The stream reader -/

/-- 46_stream_reader.md R341, R342, R343, in the order of 60_exceptions.md R410: an invalid DST is BadArg(0); a sticky
condition is raised again with ERR_POS = 0; DST_CAP = 0 completes with (0, 0); leftover bytes are delivered at DST_ADDR, as many
as fit, and nothing else of buffer memory changes; with none left the reader stands at the next frame header. The code a sticky
condition is raised with is its own. -/
def Obligations.SrReadChecksThenDelivers : Prop :=
  (SrErr.corrupt.code = .corrupt ∧ SrErr.tooLarge.code = .tooLarge ∧ SrErr.unsupported.code = .unsupported ∧
    SrErr.eos.code = .eos) ∧
  ∀ s : State,
    (dstValid s = false → exec .srRead s = .next (Raised .badArg 0 s)) ∧
    (dstValid s = true → s.srErr ≠ .none → exec .srRead s = .next (Raised s.srErr.code 0 s)) ∧
    (dstValid s = true → s.srErr = .none → s.latch.dstCap.toNat = 0 → exec .srRead s = .next (Finished 0 0 s)) ∧
    (dstValid s = true → s.srErr = .none → s.latch.dstCap.toNat ≠ 0 → s.leftRd = s.leftEnd →
      exec .srRead s = .next { s with engine := .header s.srInpos s.srInpos [] }) ∧
    (dstValid s = true → s.srErr = .none → s.latch.dstCap.toNat ≠ 0 → s.leftRd < s.leftEnd →
      s.leftEnd ≤ s.dbuf.length →
      ∃ m n, n = min s.latch.dstCap.toNat (s.leftEnd - s.leftRd) ∧
        exec .srRead s = .next (Finished n 0 { s with mem := m, leftRd := s.leftRd + n }) ∧
        MemWritten s.mem m s.latch.dstAddr.toNat ((s.dbuf.drop s.leftRd).take n) ∧
        ((s.dbuf.drop s.leftRd).take n).length = n)

/-- 46_stream_reader.md R345, R346, R351, R354: in AWAIT_MARKER a header of any type but 0xFF is Corrupt(h0); else a LEN above
76494 is Unsupported(h0); else a must-understand type is Unsupported(h0), its body not read. -/
def Obligations.FrameGateErrors : Prop :=
  ∀ (i : Instr) (n : Nat) (s : State) (i0 h0 : DWord) (h : List Byte), frameLen i = some n →
    s.engine = .header i0 h0 h →
    ((∀ len, i ≠ .ftStreamId len) → s.srPhase = .awaitMarker → ReaderFailed .corrupt h0 s (exec i s)) ∧
    ((∃ len, i = .ftStreamId len) ∨ s.srPhase = .streaming → 76494 < n → ReaderFailed .unsupported h0 s (exec i s)) ∧
    (∀ ty len, i = .ftReservedUnskippable ty len → s.srPhase = .streaming → n ≤ 76494 →
      ReaderFailed .unsupported h0 { s with fbuf := [] } (exec i s))

/-- 46_stream_reader.md R352, R353: in STREAMING a padding frame and a skippable frame whose LEN bytes IN offers are consumed
and the reader stands at the next header; nothing else changes. -/
def Obligations.SkippedFramesComplete : Prop :=
  ∀ (i : Instr) (len : BitVec 24) (ty : Byte) (s : State) (i0 h0 : DWord) (h : List Byte),
    i = .ftPadding len ∨ i = .ftReservedSkippable ty len → s.engine = .header i0 h0 h → s.srPhase = .streaming →
    len.toNat ≤ 76494 → s.inLatch = false → len.toNat ≤ s.inPending.length → s.leftRd = s.leftEnd →
    exec i s =
      .next { BodyTaken len.toNat s with engine := .header i0 (s.srInpos + BitVec.ofNat 64 len.toNat) [] }

/-- 46_stream_reader.md R350: a stream marker, in either phase, with LEN = 6 and the six bytes of P_MAGIC leads to STREAMING and
the next header; with other bytes, or another LEN, it is Corrupt(h0). -/
def Obligations.StreamMarkerCompletes : Prop :=
  ∀ (s : State) (i0 h0 : DWord) (h : List Byte), s.engine = .header i0 h0 h → s.inLatch = false →
    (6 ≤ s.inPending.length → s.inPending.take 6 = [0x73#8, 0x4E#8, 0x61#8, 0x50#8, 0x70#8, 0x59#8] →
      s.leftRd = s.leftEnd →
      exec (.ftStreamId 6#24) s =
        .next { BodyTaken 6 s with srPhase := .streaming, engine := .header i0 (s.srInpos + 6#64) [] }) ∧
    (6 ≤ s.inPending.length → s.inPending.take 6 ≠ [0x73#8, 0x4E#8, 0x61#8, 0x50#8, 0x70#8, 0x59#8] →
      ReaderFailed .corrupt h0 (BodyTaken 6 s) (exec (.ftStreamId 6#24) s)) ∧
    (∀ len : BitVec 24, len ≠ 6#24 → len.toNat ≤ 76494 →
      ReaderFailed .corrupt h0 { s with fbuf := [] } (exec (.ftStreamId len) s))

/-- 46_stream_reader.md R349, R343: in STREAMING an uncompressed frame whose body IN offers and whose checksum field is that of
its n data bytes leaves them in DBUF and, if n > 0, delivers the first of them and completes with RES_VAL = the IN bytes
consumed since i0; if n = 0 the reader stands at the next header. A LEN below 4 or above 65540, or another checksum, is
Corrupt(h0). -/
def Obligations.UncompressedFrameCompletes : Prop :=
  ∀ (len : BitVec 24) (s : State) (i0 h0 : DWord) (h : List Byte), s.engine = .header i0 h0 h →
    s.srPhase = .streaming → s.inLatch = false → len.toNat ≤ 76494 →
    (len.toNat < 4 ∨ 65540 < len.toNat → ReaderFailed .corrupt h0 { s with fbuf := [] } (exec (.ftUncompressed len) s)) ∧
    (4 ≤ len.toNat → len.toNat ≤ 65540 → len.toNat ≤ s.inPending.length →
      ∀ data : List Byte, data = (s.inPending.take len.toNat).drop 4 →
        (s.inPending.take 4 ≠ checksumField data →
          ReaderFailed .corrupt h0 { BodyTaken len.toNat s with dbuf := data } (exec (.ftUncompressed len) s)) ∧
        (s.inPending.take 4 = checksumField data → len.toNat = 4 →
          exec (.ftUncompressed len) s =
            .next { BodyTaken len.toNat s with
              dbuf := data, leftRd := 0, leftEnd := 0
              engine := .header i0 (s.srInpos + BitVec.ofNat 64 len.toNat) [] }) ∧
        (s.inPending.take 4 = checksumField data → 4 < len.toNat →
          ∃ m n, n = min s.latch.dstCap.toNat data.length ∧
            exec (.ftUncompressed len) s =
              .next (Finished n (s.srInpos + BitVec.ofNat 64 len.toNat - i0).toNat
                { BodyTaken len.toNat s with mem := m, dbuf := data, leftRd := n, leftEnd := data.length }) ∧
            MemWritten s.mem m s.latch.dstAddr.toNat (data.take n)))

/-- 46_stream_reader.md R348: in STREAMING a compressed frame whose body IN offers has it in FBUF and the block decoder at the
prefix of FBUF[4..LEN), with no output yet; LEN = 4 is an empty block, Corrupt(h0), and so is LEN < 4. -/
def Obligations.CompressedFrameStarts : Prop :=
  ∀ (len : BitVec 24) (s : State) (i0 h0 : DWord) (h : List Byte), s.engine = .header i0 h0 h →
    s.srPhase = .streaming → s.inLatch = false → len.toNat ≤ 76494 →
    (len.toNat < 4 → ReaderFailed .corrupt h0 { s with fbuf := [] } (exec (.ftCompressed len) s)) ∧
    (len.toNat = 4 → 4 ≤ s.inPending.length →
      ReaderFailed .corrupt h0 { BodyTaken 4 s with dbuf := [] } (exec (.ftCompressed len) s)) ∧
    (4 < len.toNat → len.toNat ≤ s.inPending.length →
      exec (.ftCompressed len) s =
        .next { BodyTaken len.toNat s with
          dbuf := [], engine := .varint { i := 0, x := 0#64 } (.ofBlock (.frame i0 h0)) })

/-- 46_stream_reader.md R344, R347, R357, 20_memory.md R77: when IN offers fewer bytes than the header or the body still needs,
they are taken; then EOS at the first header byte is Eos(h0), EOS anywhere later in the frame is Corrupt(h0), each with the EOS
latched; and with no EOS the reader waits, in the header or in the body, of every frame whose body is read. A body whose last
bytes are offered does what it would have done offered whole at its header. That a wait is a step that only takes what is
offered is the model's choice (logs 2, 9, 20). -/
def Obligations.ReaderWaitsOrMeetsEos : Prop :=
  (∀ (s₀ s : State) (i0 h0 : DWord) (h : List Byte), EngineTurn s₀ s → s.engine = .header i0 h0 h → s.inLatch = false →
    h.length + s.inPending.length < 4 →
    ∀ t : State, t = { s with
        inPending := [], inTaken := s.inTaken + s.inPending.length
        srInpos := s.srInpos + BitVec.ofNat 64 s.inPending.length
        engine := .header i0 h0 (h ++ s.inPending) } →
      (s.inEos = false → step s₀ = .next t) ∧
      (s.inEos = true → h ++ s.inPending = [] → ReaderFailed .eos h0 { t with inLatch := true } (step s₀)) ∧
      (s.inEos = true → h ++ s.inPending ≠ [] → ReaderFailed .corrupt h0 { t with inLatch := true } (step s₀))) ∧
  (∀ (i : Instr) (kind : BodyKind) (len : Nat) (s : State) (i0 h0 : DWord) (h : List Byte), bodyForm i = some (kind, len) →
    kind.lengthOk len → kind = .streamId ∨ s.srPhase = .streaming → s.engine = .header i0 h0 h → s.inLatch = false →
    s.inPending.length < len →
      (s.inEos = false →
        exec i s = .next { BodyTaken s.inPending.length s with engine := .body i0 h0 kind len }) ∧
      (s.inEos = true →
        ReaderFailed .corrupt h0 { BodyTaken s.inPending.length s with inLatch := true } (exec i s))) ∧
  (∀ (s₀ s : State) (i0 h0 : DWord) (kind : BodyKind) (len : Nat), EngineTurn s₀ s → s.engine = .body i0 h0 kind len →
    s.inLatch = false → s.fbuf.length + s.inPending.length < len →
    ∀ t : State, t = { s with
        inPending := [], inTaken := s.inTaken + s.inPending.length
        srInpos := s.srInpos + BitVec.ofNat 64 s.inPending.length
        fbuf := s.fbuf ++ s.inPending } →
      (s.inEos = false → step s₀ = .next t) ∧
      (s.inEos = true → ReaderFailed .corrupt h0 { t with inLatch := true } (step s₀))) ∧
  (∀ (i : Instr) (kind : BodyKind) (len : Nat) (s₀ s : State) (i0 h0 : DWord) (h : List Byte), EngineTurn s₀ s →
    bodyForm i = some (kind, len) → kind.lengthOk len → kind = .streamId ∨ s.srPhase = .streaming →
    s.engine = .body i0 h0 kind len → s.inLatch = false → s.fbuf.length < len → s.fbuf.length ≤ s.inTaken →
    len ≤ s.fbuf.length + s.inPending.length →
      step s₀ = exec i
        { s with
          inPending := s.fbuf ++ s.inPending
          inTaken := s.inTaken - s.fbuf.length
          srInpos := s.srInpos - BitVec.ofNat 64 s.fbuf.length
          engine := .header i0 h0 h })

/-- 45_stream_writer.md R312, 46_stream_reader.md R359(a), for one frame: a reader in STREAMING at the frame EmitFrame(U)
completes by itself, with U in DBUF, the first min(DST_CAP, |U|) bytes of it at DST_ADDR, and exactly the frame consumed. -/
def Obligations.WriterFrameReadsBack : Prop :=
  ∀ (s : State) (i0 h0 : DWord) (u rest : List Byte), s.events = [] → s.engine = .header i0 h0 [] →
    s.srPhase = .streaming → s.inLatch = false → 0 < s.latch.dstCap.toNat → 1 ≤ u.length → u.length ≤ 65536 →
    u.length ≤ s.cfg.maxDecodedLen.toNat → s.inPending = frameBytes s.cfg u ++ rest →
    ∃ k m n, n = min s.latch.dstCap.toNat u.length ∧
      Host.Core.run core k s =
        .next (Finished n (s.srInpos + BitVec.ofNat 64 (frameBytes s.cfg u).length - i0).toNat
          { s with
            mem := m
            dbuf := u
            leftRd := n
            leftEnd := u.length
            fbuf := (frameBytes s.cfg u).drop 4
            inPending := rest
            inTaken := s.inTaken + (frameBytes s.cfg u).length
            srInpos := s.srInpos + BitVec.ofNat 64 (frameBytes s.cfg u).length }) ∧
      MemWritten s.mem m s.latch.dstAddr.toNat (u.take n)

/-! ### The whole machine -/

/-- 20_memory.md R78, "A byte once put is never withdrawn, not even by a reset", 70_reset_and_hazards.md R450 for the bytes
taken; and no step changes the build parameters (00_scope.md R8). -/
def Obligations.OutputAndParametersPersist : Prop :=
  ∀ s t : State, step s = .next t → s.out <+: t.out ∧ s.inTaken ≤ t.inTaken ∧ t.cfg = s.cfg

/-- 20_memory.md R88, 10_state.md R50, 40_commands.md R111: an engine step of a command that is not SR_READ or SR_RESET leaves
the reader as it is, of one that is not a writer command leaves the writer as it is, and none changes CTRL.IE, STATUS.REJ, CMD,
the operand registers, the latched operands or the memory kept for host reads (log 7). What SW_STATUS and SR_STATUS may show
while it runs is the other path as it is, too (70_reset_and_hazards.md R463; log 25). -/
def Obligations.EngineKeepsOtherPath : Prop :=
  ∀ s t : State, Consistent s → engineStep s = .next t →
    (s.latch.op ≠ 0x30#8 → s.latch.op ≠ 0x31#8 → SameReader s t ∧ ∀ u ∈ statesWithin s, ReaderShown s u) ∧
    (s.latch.op ∉ [0x20#8, 0x21#8, 0x22#8, 0x23#8] → SameWriter s t ∧ ∀ u ∈ statesWithin s, WriterShown s u) ∧
    SameHostRegs s t ∧ t.memBefore = s.memBefore

/-- 20_memory.md R74, 43_block_decoder.md R265: an engine step changes buffer memory only at addresses of the running command's
DST region that exist. -/
def Obligations.EngineWritesOnlyItsDestination : Prop :=
  ∀ (s t : State) (a : Nat), Consistent s → engineStep s = .next t → Memory.get t.mem a ≠ Memory.get s.mem a →
    inLatchedDst s a = true ∧ a < s.cfg.memSize

/-- No engine step stops: the only stops are a host access outside buffer memory, and a host write to a region of the running
command (70_reset_and_hazards.md R460).
Both stops are the model's choices (logs 6, 17). -/
def Obligations.StepStopsOnlyOnHostMemoryAccess : Prop :=
  ∀ s : State,
    (∃ t, step s = .next t) ∨
    (∃ a rest, s.cfg.memSize ≤ a ∧ (s.events = .memRead a :: rest ∨ ∃ b, s.events = .memWrite a b :: rest) ∧
      step s = .fault .hostAddressOutOfRange) ∨
    (∃ a b rest, s.events = .memWrite a b :: rest ∧
      (inRunningSrc s a = true ∨ inRunningDst s a = true) ∧ step s = .refused .hostRegionRace)

/-- 10_state.md R50, 40_commands.md R111, 70_reset_and_hazards.md R461: the engine's step does not depend on the operand
registers: with any other values in them it does the same and leaves those values. -/
def Obligations.OperandRegistersDoNotReachRunningCommand : Prop :=
  ∀ (s t : State) (a b c d lo hi : Word), engineStep s = .next t →
    engineStep { s with srcAddr := a, srcLen := b, dstAddr := c, dstCap := d, argLo := lo, argHi := hi } =
      .next { t with srcAddr := a, srcLen := b, dstAddr := c, dstCap := d, argLo := lo, argHi := hi }

/-! ### The host interface -/

/-- 10_state.md R33, R48, R49, R50: a write to STATUS clears DONE and REJ where it writes 1 to them, and nothing else (starting
a command and a reset clear them in their own ways); a write to a read-only or reserved offset, of another width or unaligned
changes nothing; a write to an operand register changes that register and nothing else, at once; a read changes only what the
host read, and a read of another width or unaligned returns 0. Where a read's value goes is the model's choice (log 18), and so
is the count of free choices, of which a read of SW_STATUS or SR_STATUS while BUSY = 1 draws one (logs 16, 25). -/
def Obligations.RegisterWindowAccesses : Prop :=
  ∀ (s : State) (off : Byte) (width : Nat) (v : Word) (rest : List HostAction),
    (step { s with events := .write 0x08#8 4 v :: rest } =
      .next { s with events := rest, done := s.done && !v.getLsbD 1, rej := s.rej && !v.getLsbD 2 }) ∧
    (width ≠ 4 ∨ off.toNat % 4 ≠ 0 →
      step { s with events := .write off width v :: rest } = .next { s with events := rest } ∧ busRead s off width = 0#32) ∧
    (off.toNat = 0 ∨ (0x28 ≤ off.toNat ∧ off.toNat % 4 = 0) →
      step { s with events := .write off 4 v :: rest } = .next { s with events := rest }) ∧
    step { s with events := .write 0x10#8 4 v :: rest } = .next { s with events := rest, srcAddr := v } ∧
    step { s with events := .write 0x14#8 4 v :: rest } = .next { s with events := rest, srcLen := v } ∧
    step { s with events := .write 0x18#8 4 v :: rest } = .next { s with events := rest, dstAddr := v } ∧
    step { s with events := .write 0x1C#8 4 v :: rest } = .next { s with events := rest, dstCap := v } ∧
    step { s with events := .write 0x20#8 4 v :: rest } = .next { s with events := rest, argLo := v } ∧
    step { s with events := .write 0x24#8 4 v :: rest } = .next { s with events := rest, argHi := v } ∧
    (step { s with events := .read off width :: rest } =
      .next { s with
        events := rest, busData := busRead { s with events := rest } off width
        draws := if s.busy = true ∧ width = 4 ∧ (off = 0x38#8 ∨ off = 0x3C#8) then s.draws + 1 else s.draws })

/-- 10_state.md R31 to R46, what the host reads at each offset: ID; CTRL with IE in bit 0 and SRST 0; STATUS; CMD with OPCODE in
bits 7:0; the operand registers; RES_LEN; RES_VAL, low word at 0x2C and high word at 0x30; ERR_POS; SW_STATUS, SR_STATUS and
CONFIG with their fields at their bit positions, every reserved bit 0; MAX_DLEN; and 0 at the reserved offsets. IBUF_LEN and
LEFTOVER where they fit their fields, as they do in every consistent state at rest. The numbers of the completion codes are those
of 60_exceptions.md R400, of SW_STATE those of R43, of SR_PHASE and SR_ERR those of R44.
70_reset_and_hazards.md R463: with BUSY = 1, SW_STATUS and SR_STATUS show some intermediate state of the running command: among
them is the state now, and the one after the element the engine is at; and of SR_READ no others but, at the end of a data frame,
those with LEFT_RD = 0 and LEFT_END as before or as after it. Which states these are is the model's reading of R463 (log 25), and
the field IBUF_LEN shows any value for a full IBUF of 65536 bytes (log 23). -/
def Obligations.StatusRegistersShowTheirFields : Prop :=
  (Code.ok.bits = 0#4 ∧ Code.corrupt.bits = 1#4 ∧ Code.tooLarge.bits = 2#4 ∧ Code.unsupported.bits = 3#4 ∧
    Code.closed.bits = 4#4 ∧ Code.eos.bits = 5#4 ∧ Code.badArg.bits = 6#4 ∧ Code.dstSmall.bits = 7#4 ∧
    Code.illegal.bits = 8#4) ∧
  (SwState.unstarted.bits = 0#2 ∧ SwState.active.bits = 1#2 ∧ SwState.closed.bits = 2#2) ∧
  (SrPhase.awaitMarker.bits = 0#1 ∧ SrPhase.streaming.bits = 1#1) ∧
  (SrErr.none.bits = 0#4 ∧ SrErr.corrupt.bits = 1#4 ∧ SrErr.tooLarge.bits = 2#4 ∧ SrErr.unsupported.bits = 3#4 ∧
    SrErr.eos.bits = 5#4) ∧
  ∀ s : State,
    busRead s 0x00#8 4 = 0x59504E53#32 ∧
    (busRead s 0x04#8 4).toNat = s.ie.toNat ∧
    (busRead s 0x08#8 4).toNat = s.busy.toNat + 2 * s.done.toNat + 4 * s.rej.toNat + 16 * s.err.bits.toNat ∧
    (busRead s 0x0C#8 4).toNat = s.cmd.toNat ∧
    busRead s 0x10#8 4 = s.srcAddr ∧ busRead s 0x14#8 4 = s.srcLen ∧ busRead s 0x18#8 4 = s.dstAddr ∧
    busRead s 0x1C#8 4 = s.dstCap ∧ busRead s 0x20#8 4 = s.argLo ∧ busRead s 0x24#8 4 = s.argHi ∧
    busRead s 0x28#8 4 = s.resLen ∧
    (busRead s 0x2C#8 4).toNat = s.resVal.toNat % 2 ^ 32 ∧ (busRead s 0x30#8 4).toNat = s.resVal.toNat / 2 ^ 32 ∧
    busRead s 0x34#8 4 = s.errPos ∧
    (s.busy = false → s.ibuf.length < 65536 →
      (busRead s 0x38#8 4).toNat = s.swState.bits.toNat + 65536 * s.ibuf.length) ∧
    (s.busy = false → s.leftEnd ≤ 65536 →
      (busRead s 0x3C#8 4).toNat = s.srPhase.bits.toNat + 16 * s.srErr.bits.toNat + 32768 * (s.leftEnd - s.leftRd)) ∧
    (∃ u ∈ statesWithin s, ∃ len, (u.ibuf.length < 65536 → len = u.ibuf.length) ∧
      (busRead s 0x38#8 4).toNat = u.swState.bits.toNat + 65536 * len) ∧
    (∃ u ∈ statesWithin s, (busRead s 0x3C#8 4).toNat =
      u.srPhase.bits.toNat + 16 * u.srErr.bits.toNat + 32768 * ((u.leftEnd - u.leftRd) % 131072)) ∧
    (∃ u ∈ statesWithin s, WriterShown s u ∧ ReaderShown s u) ∧
    (∀ t, engineStep s = .next t →
      (∃ u ∈ statesWithin s, WriterShown t u ∧ ReaderShown t u) ∧
      (Consistent s → s.busy = true → s.latch.op = 0x30#8 →
        (s.engine ≠ .dispatch → t.busy = false → t.err = .ok →
          ∃ u ∈ statesWithin s, u.leftRd = 0 ∧ u.leftEnd = t.leftEnd) ∧
        ∀ u ∈ statesWithin s,
          ReaderShown s u ∨ ReaderShown t u ∨
            (u.srPhase = s.srPhase ∧ u.srErr = s.srErr ∧ u.leftRd = 0 ∧ (u.leftEnd = s.leftEnd ∨ u.leftEnd = t.leftEnd)))) ∧
    (s.cfg.Legal →
      (busRead s 0x40#8 4).toNat =
        (if s.cfg.encPolicy = .conformant then 1 else 0) + (if s.cfg.encSkip = true then 2 else 0) +
          (if s.cfg.select = .eighth then 4 else 0) + 256 * s.cfg.muMax.toNat + 65536 * s.cfg.memAddrW) ∧
    busRead s 0x44#8 4 = s.cfg.maxDecodedLen ∧
    ∀ off : Byte, 0x48 ≤ off.toNat → busRead s off 4 = 0#32

/-- 70_reset_and_hazards.md R452 with R450, R451: a write to CTRL with SRST = 1 gives the reset state with IE = bit 0, keeping
the parameters, the ports' sources, the OUT bytes put and the IN bytes taken; buffer memory is unchanged outside the DST region
of a running command. With SRST = 0 only IE changes (10_state.md R32). A hardware reset (R451) does the same with IE = 0.
The fields of the model's own stay too (logs 5, 9, 10, 16, 18). -/
def Obligations.SoftResetRestoresResetState : Prop :=
  ∀ (s : State) (v : Word) (rest : List HostAction),
    (v.getLsbD 1 = true →
      ∃ m d, step { s with events := .write 0x04#8 4 v :: rest } =
          .next { State.reset with
            cfg := s.cfg, ie := v.getLsbD 0, mem := m, inPending := s.inPending, inEos := s.inEos, inTaken := s.inTaken
            out := s.out, outRoom := s.outRoom, events := rest, busData := s.busData, draws := d } ∧
        (s.busy = false → m = s.mem) ∧
        ∀ a, inLatchedDst s a = false → Memory.get m a = Memory.get s.mem a) ∧
    (v.getLsbD 1 = false →
      step { s with events := .write 0x04#8 4 v :: rest } = .next { s with events := rest, ie := v.getLsbD 0 }) ∧
    (∃ m d, step { s with events := .hwReset :: rest } =
        .next { State.reset with
          cfg := s.cfg, mem := m, inPending := s.inPending, inEos := s.inEos, inTaken := s.inTaken
          out := s.out, outRoom := s.outRoom, events := rest, busData := s.busData, draws := d } ∧
      (s.busy = false → m = s.mem) ∧
      ∀ a, inLatchedDst s a = false → Memory.get m a = Memory.get s.mem a)

/-- 70_reset_and_hazards.md R460, R465, 20_memory.md R82: a host write to a region of the running command is refused by name;
any other host write of an existing byte writes exactly it; a host read outside a running DST returns the byte and changes
nothing else; a host read of a running DST returns the byte as the command found it, as it is now, or as the element being
executed leaves it (log 7). The refusal is the one R460 allows (log 6).
20_memory.md R77, R78, R465 for the ports: offered bytes come after those offered before, an EOS not yet returned being
withdrawn by a byte and by nothing else (log 9); an offered EOS stands after them; the sink accepts what it is told to
(log 10); nothing else changes. What an endless source offers next is one of its chunks; with chunks of one byte each it can be
any byte, so that its content is any infinite sequence of bytes (log 9). -/
def Obligations.HostMemoryAccesses : Prop :=
  (∀ (s : State) (bs : List Byte) (room : Option Nat) (rest : List HostAction),
    step { s with events := .inOffer bs :: rest } =
      .next { s with
        events := rest, inPending := s.inPending ++ bs, inEos := if bs = [] then s.inEos else false } ∧
    step { s with events := .inEos :: rest } = .next { s with events := rest, inEos := true } ∧
    step { s with events := .outSink room :: rest } = .next { s with events := rest, outRoom := room }) ∧
  (∀ (chunks : List (List Byte)) (n : Nat), chunks ≠ [] → chooseFrom [] chunks n ∈ chunks) ∧
  (∀ b : Byte, ∃ n : Nat, chooseFrom [] singleBytes n = [b]) ∧
  ∀ (s : State) (a : Nat) (b : Byte) (rest : List HostAction), a < s.cfg.memSize →
    (inRunningSrc s a = true ∨ inRunningDst s a = true →
      step { s with events := .memWrite a b :: rest } = .refused .hostRegionRace) ∧
    (inRunningSrc s a = false → inRunningDst s a = false →
      ∃ m, step { s with events := .memWrite a b :: rest } = .next { s with events := rest, mem := m } ∧
        MemWritten s.mem m a [b]) ∧
    (inRunningDst s a = false →
      step { s with events := .memRead a :: rest } =
        .next { s with events := rest, busData := BitVec.setWidth 32 (Memory.get s.mem a) }) ∧
    (inRunningDst s a = true →
      ∃ x : Byte,
        step { s with events := .memRead a :: rest } =
          .next { s with events := rest, busData := BitVec.setWidth 32 x, draws := s.draws + 1 } ∧
        (x = Memory.get s.memBefore a ∨ x = Memory.get s.mem a ∨
          ∃ t, engineStep { s with events := rest } = .next t ∧ x = Memory.get t.mem a))

/-- 10_state.md R57, 60_exceptions.md R415: the interrupt output follows DONE and IE: a completion raises it iff IE = 1, and
writing 1 to DONE, clearing IE, starting a command and a reset drop it. -/
def Obligations.InterruptFollowsDoneAndEnable : Prop :=
  ∀ (s : State) (code : Code) (resLen resVal pos : Nat) (op : Byte) (v : Word),
    (s.irq = true ↔ s.done = true ∧ s.ie = true) ∧ (complete code resLen resVal pos s).irq = s.ie ∧
    (v.getLsbD 1 = true → (statusWrite v s).irq = false) ∧ (v.getLsbD 0 = false → (ctrlWrite v s).irq = false) ∧
    (issue op s).irq = false ∧ (hwReset s).irq = false

/-! ### Endless streams -/

/-- 70_reset_and_hazards.md R464, 46_stream_reader.md R340: an IN stream that offers markers, empty data frames (uncompressed
or compressed), padding and skippable frames forever keeps SR_READ BUSY forever: after any number of steps no record is written
and buffer memory is unchanged; and however many frames of the stream one counts, a number of steps is reached after which SR_READ
has taken exactly these frames and stands at the next header. The stream is any endless sequence of groups of such frames, freely
chosen from a list of groups: one group repeated, or a stream that never repeats. That an endless source is a move with such a
list is the model's choice (log 9). -/
def Obligations.EndlessSkippableStreamHangs : Prop :=
  ∀ (s : State) (groups : List (List (List Byte))) (rest : List HostAction) (i0 h0 : DWord),
    s.events = .feed (groups.map List.flatten) :: rest → groups ≠ [] →
    (∀ g ∈ groups, g ≠ [] ∧ ∀ f ∈ g, PassedOver s.cfg.muMax f) →
    s.engine = .header i0 h0 [] → s.srPhase = .streaming → s.inLatch = false → s.inPending = [] → s.leftRd = s.leftEnd →
    (∀ n : Nat, ∃ t : State, Host.Core.run core n s = .next t ∧ t.busy = true ∧ t.done = s.done ∧ t.err = s.err ∧
      t.resLen = s.resLen ∧ t.resVal = s.resVal ∧ t.errPos = s.errPos ∧ t.mem = s.mem) ∧
    ∀ m q : Nat, q ≤ (offeredGroup groups s m).length →
      ∃ (n : Nat) (t : State) (h : DWord), m ≤ n ∧ Host.Core.run core n s = .next t ∧
        t.engine = .header i0 h [] ∧ t.srPhase = .streaming ∧ t.inTaken = s.inTaken + endlessLength groups s m q ∧
        t.srInpos = s.srInpos + BitVec.ofNat 64 (endlessLength groups s m q)
end

