-- ==== Sys2Proof/Laws/Memory.lean ====
section
/-! SUPPORT. Laws of buffer memory: a read after a write, and that every operation keeps the canonical form. -/

namespace Sys2Proof.Machine

@[simp] theorem Memory.get_nil (x : Nat) : Memory.get [] x = Memory.unwritten := rfl

theorem Memory.get_cons (c : Host.Cell) (m : List Host.Cell) (x : Nat) :
    Memory.get (c :: m) x = if c.1 = x then c.2 else Memory.get m x := by
  by_cases h : c.1 = x <;> simp [Memory.get, h]

/-- Where no cell of a list stands, it reads as unwritten. -/
theorem Memory.get_of_absent {m : List Host.Cell} {x : Nat} (h : ∀ c ∈ m, c.1 ≠ x) :
    Memory.get m x = Memory.unwritten := by
  induction m with
  | nil => rfl
  | cons c m ih =>
    rw [Memory.get_cons, if_neg (h c (by simp)), ih (fun d hd => h d (by simp [hd]))]

/-- Reading two lists of cells one after the other, where the first holds no cell at `x`. -/
theorem Memory.get_append_right {m m' : List Host.Cell} {x : Nat} (h : ∀ c ∈ m, c.1 ≠ x) :
    Memory.get (m ++ m') x = Memory.get m' x := by
  induction m with
  | nil => rfl
  | cons c m ih =>
    rw [List.cons_append, Memory.get_cons, if_neg (h c (by simp)), ih (fun d hd => h d (by simp [hd]))]

/-- Reading two lists of cells one after the other, where the second holds no cell at `x`. -/
theorem Memory.get_append_left {m m' : List Host.Cell} {x : Nat} (h : ∀ c ∈ m', c.1 ≠ x) :
    Memory.get (m ++ m') x = Memory.get m x := by
  induction m with
  | nil => exact Memory.get_of_absent h
  | cons c m ih => rw [List.cons_append, Memory.get_cons, Memory.get_cons, ih]

theorem Memory.get_filter_of {m : List Host.Cell} {x : Nat} (p : Nat → Bool) (h : p x = true) :
    Memory.get (m.filter (fun c => p c.1)) x = Memory.get m x := by
  induction m with
  | nil => rfl
  | cons c m ih =>
    rw [List.filter_cons]
    split
    · rw [Memory.get_cons, Memory.get_cons, ih]
    · rename_i hc
      rw [Memory.get_cons, if_neg (fun e : c.1 = x => hc (e ▸ h)), ih]

/-- The cells of a run stand inside it. -/
theorem Memory.mem_cells {a : Nat} {bs : List Byte} {c : Host.Cell} (h : c ∈ Memory.cells a bs) :
    a ≤ c.1 ∧ c.1 < a + bs.length ∧ c.2 ≠ Memory.unwritten := by
  induction bs generalizing a with
  | nil => simp [Memory.cells] at h
  | cons b bs ih =>
    simp only [Memory.cells] at h
    split at h
    · obtain ⟨h1, h2, h3⟩ := ih h
      exact ⟨by omega, by rw [List.length_cons]; omega, h3⟩
    · rename_i hb
      rcases List.mem_cons.mp h with h | h
      · subst h; simp; exact hb
      · obtain ⟨h1, h2, h3⟩ := ih h
        exact ⟨by omega, by rw [List.length_cons]; omega, h3⟩

theorem Memory.get_cells (a : Nat) (bs : List Byte) (x : Nat) (h1 : a ≤ x) :
    Memory.get (Memory.cells a bs) x = bs.getD (x - a) Memory.unwritten := by
  induction bs generalizing a with
  | nil => simp [Memory.cells]
  | cons b bs ih =>
    simp only [Memory.cells]
    by_cases hx : x = a
    · subst hx
      split
      · rename_i hb
        rw [Memory.get_of_absent]
        · simp [hb]
        · intro c hc; have := Memory.mem_cells hc; omega
      · simp [Memory.get_cons]
    · have e : x - a = (x - (a + 1)) + 1 := by omega
      rw [e, List.getD_cons_succ, ← ih (a + 1) (by omega)]
      split
      · rfl
      · rw [Memory.get_cons, if_neg (fun h => hx h.symm)]

/-- A read after a write (20_memory.md R72, R73): inside the run the byte written, outside it what was there. -/
theorem Memory.get_write (m : List Host.Cell) (a : Nat) (bs : List Byte) (x : Nat) :
    Memory.get (Memory.write m a bs) x =
      if a ≤ x ∧ x < a + bs.length then bs.getD (x - a) 0#8 else Memory.get m x := by
  unfold Memory.write
  by_cases h1 : x < a
  · rw [Memory.get_append_left, Memory.get_append_left, if_neg (by omega)]
    · exact Memory.get_filter_of (fun n => decide (n < a)) (by simp [h1])
    · intro c hc; have := Memory.mem_cells hc; omega
    · intro c hc; simp at hc; omega
  · by_cases h2 : x < a + bs.length
    · rw [Memory.get_append_left, Memory.get_append_right, Memory.get_cells a bs x (by omega), if_pos (by omega)]
      · rfl
      · intro c hc; simp at hc; omega
      · intro c hc; simp at hc; omega
    · rw [Memory.get_append_right, if_neg (by omega)]
      · exact Memory.get_filter_of (fun n => decide (a + bs.length ≤ n)) (by simp; omega)
      · intro c hc
        rcases List.mem_append.mp hc with hc | hc
        · simp at hc; omega
        · have := Memory.mem_cells hc; omega

/-- A write as claims state it. -/
theorem Memory.memWritten_write (m : List Host.Cell) (a : Nat) (bs : List Byte) :
    MemWritten m (Memory.write m a bs) a bs := fun x => Memory.get_write m a bs x

theorem Memory.get_write_outside {m : List Host.Cell} {a : Nat} {bs : List Byte} {x : Nat}
    (h : x < a ∨ a + bs.length ≤ x) : Memory.get (Memory.write m a bs) x = Memory.get m x := by
  rw [Memory.get_write, if_neg (by omega)]

/-- The cells of a run are rising. -/
theorem Memory.cells_pairwise (a : Nat) (bs : List Byte) :
    (Memory.cells a bs).Pairwise (fun c c' => c.1 < c'.1) := by
  induction bs generalizing a with
  | nil => exact List.Pairwise.nil
  | cons b bs ih =>
    simp only [Memory.cells]
    split
    · exact ih (a + 1)
    · refine List.Pairwise.cons (fun c hc => ?_) (ih (a + 1))
      have := (Memory.mem_cells hc).1
      simp only; omega

/-- A write keeps the canonical form. -/
theorem Memory.write_wf {m : List Host.Cell} (h : Memory.wf m) (a : Nat) (bs : List Byte) :
    Memory.wf (Memory.write m a bs) := by
  refine ⟨?_, ?_⟩
  · unfold Memory.write
    rw [List.pairwise_append, List.pairwise_append]
    refine ⟨⟨h.1.filter _, Memory.cells_pairwise a bs, ?_⟩, h.1.filter _, ?_⟩
    · intro c hc d hd
      have := Memory.mem_cells hd
      simp at hc; omega
    · intro c hc d hd
      simp only [List.mem_append, List.mem_filter, decide_eq_true_eq] at hc hd
      rcases hc with hc | hc
      · omega
      · have := Memory.mem_cells hc; omega
  · intro c hc
    unfold Memory.write at hc
    simp only [List.mem_append, List.mem_filter] at hc
    rcases hc with (hc | hc) | hc
    · exact h.2 c hc.1
    · exact (Memory.mem_cells hc).2.2
    · exact h.2 c hc.1

/-- Memory with nothing listed, as after reset, has the canonical form. -/
theorem Memory.nil_wf : Memory.wf [] := ⟨List.Pairwise.nil, by simp⟩

theorem State.reset_mem_wf : Memory.wf State.reset.mem := Memory.nil_wf

/-- A byte that differs from unwritten stands in a cell, and a cell of a rising list is what its address reads as. -/
theorem Memory.get_of_mem {m : List Host.Cell} (h : m.Pairwise (fun c c' => c.1 < c'.1)) {c : Host.Cell} (hc : c ∈ m) :
    Memory.get m c.1 = c.2 := by
  induction m with
  | nil => simp at hc
  | cons d m ih =>
    rw [Memory.get_cons]
    rcases List.mem_cons.mp hc with rfl | hc'
    · simp
    · have := (List.pairwise_cons.mp h).1 c hc'
      rw [if_neg (by omega), ih (List.pairwise_cons.mp h).2 hc']

/-- Equal memories are equal data: two canonical forms that read alike are one list. -/
theorem Memory.wf_ext {m m' : List Host.Cell} (h : Memory.wf m) (h' : Memory.wf m')
    (e : ∀ x, Memory.get m x = Memory.get m' x) : m = m' := by
  induction m generalizing m' with
  | nil =>
    cases m' with
    | nil => rfl
    | cons c m' =>
      have := e c.1
      rw [Memory.get_of_mem h'.1 (by simp : c ∈ c :: m'), Memory.get_nil] at this
      exact absurd this.symm (h'.2 c (by simp))
  | cons c m ih =>
    cases m' with
    | nil =>
      have := e c.1
      rw [Memory.get_of_mem h.1 (by simp : c ∈ c :: m), Memory.get_nil] at this
      exact absurd this (h.2 c (by simp))
    | cons d m' =>
      have p := List.pairwise_cons.mp h.1
      have p' := List.pairwise_cons.mp h'.1
      have hcd : c.1 = d.1 := by
        by_contra hne
        rcases Nat.lt_or_gt_of_ne hne with hlt | hlt
        · have := e c.1
          rw [Memory.get_of_mem h.1 (by simp : c ∈ c :: m), Memory.get_of_absent] at this
          · exact h.2 c (by simp) this
          · intro x hx
            rcases List.mem_cons.mp hx with rfl | hx
            · omega
            · have := p'.1 x hx; omega
        · have := e d.1
          rw [Memory.get_of_mem h'.1 (by simp : d ∈ d :: m'), Memory.get_of_absent] at this
          · exact h'.2 d (by simp) this.symm
          · intro x hx
            rcases List.mem_cons.mp hx with rfl | hx
            · omega
            · have := p.1 x hx; omega
      have hv : c.2 = d.2 := by
        have := e c.1
        rw [Memory.get_of_mem h.1 (by simp : c ∈ c :: m), hcd,
          Memory.get_of_mem h'.1 (by simp : d ∈ d :: m')] at this
        exact this
      have hc : c = d := Prod.ext hcd hv
      subst hc
      refine congrArg (c :: ·) (ih ⟨p.2, fun x hx => h.2 x (by simp [hx])⟩ ⟨p'.2, fun x hx => h'.2 x (by simp [hx])⟩ ?_)
      intro x
      by_cases hx : c.1 = x
      · rw [Memory.get_of_absent, Memory.get_of_absent]
        · intro y hy; have := p'.1 y hy; omega
        · intro y hy; have := p.1 y hy; omega
      · have := e x
        rwa [Memory.get_cons, Memory.get_cons, if_neg hx, if_neg hx] at this

@[simp] theorem Memory.read_length (m : List Host.Cell) (a n : Nat) : (Memory.read m a n).length = n := by
  induction n generalizing a with
  | zero => rfl
  | succ n ih => simp [Memory.read, ih]

/-- Byte k of a read (20_memory.md R72). -/
theorem Memory.read_getD (m : List Host.Cell) (a n k : Nat) (d : Byte) (h : k < n) :
    (Memory.read m a n).getD k d = Memory.get m (a + k) := by
  induction n generalizing a k with
  | zero => omega
  | succ n ih =>
    cases k with
    | zero => rfl
    | succ k =>
      simp only [Memory.read, List.getD_cons_succ]
      rw [ih (a + 1) k (by omega), show a + 1 + k = a + (k + 1) by omega]

/-- A read is the bytes one by one. -/
theorem Memory.read_eq_map (m : List Host.Cell) (a n : Nat) :
    Memory.read m a n = (List.range n).map (fun k => Memory.get m (a + k)) := by
  refine List.ext_getElem (by simp) (fun k h1 h2 => ?_)
  have := Memory.read_getD m a n k 0#8 (by simpa using h1)
  simp only [List.getElem_map, List.getElem_range]
  rw [← this, List.getD_eq_getElem _ _ h1]

/-- Two reads side by side are one. -/
theorem Memory.read_append (m : List Host.Cell) (a n k : Nat) :
    Memory.read m a n ++ Memory.read m (a + n) k = Memory.read m a (n + k) := by
  induction n generalizing a with
  | zero => simp [Memory.read]
  | succ n ih =>
    rw [show n + 1 + k = (n + k) + 1 by omega]
    simp only [Memory.read, List.cons_append]
    rw [← ih (a + 1), show a + (n + 1) = a + 1 + n by omega]

/-- A read of what a write left alone. -/
theorem Memory.read_congr {m m' : List Host.Cell} {a n : Nat}
    (h : ∀ x, a ≤ x → x < a + n → Memory.get m' x = Memory.get m x) : Memory.read m' a n = Memory.read m a n := by
  rw [Memory.read_eq_map, Memory.read_eq_map]
  refine List.map_congr_left (fun k hk => h (a + k) (by omega) ?_)
  have := List.mem_range.mp hk; omega

end Sys2Proof.Machine
end

