-- ==== Sys2Proof/Laws/State.lean ====
section
/-! SUPPORT. The fields of a state after each shared update, one lemma per field, all true by unfolding; and the shared
updates in terms of one another. -/

namespace Sys2Proof.Machine

/-! ### `complete`: the completion record (40_commands.md R116) -/

@[simp] theorem complete_cfg (c : Code) (l v p : Nat) (s : State) : (complete c l v p s).cfg = s.cfg := rfl
@[simp] theorem complete_ie (c : Code) (l v p : Nat) (s : State) : (complete c l v p s).ie = s.ie := rfl
@[simp] theorem complete_done (c : Code) (l v p : Nat) (s : State) : (complete c l v p s).done = true := rfl
@[simp] theorem complete_rej (c : Code) (l v p : Nat) (s : State) : (complete c l v p s).rej = s.rej := rfl
@[simp] theorem complete_err (c : Code) (l v p : Nat) (s : State) : (complete c l v p s).err = c := rfl
@[simp] theorem complete_cmd (c : Code) (l v p : Nat) (s : State) : (complete c l v p s).cmd = s.cmd := rfl
@[simp] theorem complete_srcAddr (c : Code) (l v p : Nat) (s : State) : (complete c l v p s).srcAddr = s.srcAddr := rfl
@[simp] theorem complete_srcLen (c : Code) (l v p : Nat) (s : State) : (complete c l v p s).srcLen = s.srcLen := rfl
@[simp] theorem complete_dstAddr (c : Code) (l v p : Nat) (s : State) : (complete c l v p s).dstAddr = s.dstAddr := rfl
@[simp] theorem complete_dstCap (c : Code) (l v p : Nat) (s : State) : (complete c l v p s).dstCap = s.dstCap := rfl
@[simp] theorem complete_argLo (c : Code) (l v p : Nat) (s : State) : (complete c l v p s).argLo = s.argLo := rfl
@[simp] theorem complete_argHi (c : Code) (l v p : Nat) (s : State) : (complete c l v p s).argHi = s.argHi := rfl
@[simp] theorem complete_resLen (c : Code) (l v p : Nat) (s : State) : (complete c l v p s).resLen = BitVec.ofNat 32 l := rfl
@[simp] theorem complete_resVal (c : Code) (l v p : Nat) (s : State) : (complete c l v p s).resVal = BitVec.ofNat 64 v := rfl
@[simp] theorem complete_errPos (c : Code) (l v p : Nat) (s : State) : (complete c l v p s).errPos = BitVec.ofNat 32 p := rfl
@[simp] theorem complete_latch (c : Code) (l v p : Nat) (s : State) : (complete c l v p s).latch = s.latch := rfl
@[simp] theorem complete_engine (c : Code) (l v p : Nat) (s : State) : (complete c l v p s).engine = Engine.idle := rfl
@[simp] theorem complete_swState (c : Code) (l v p : Nat) (s : State) : (complete c l v p s).swState = s.swState := rfl
@[simp] theorem complete_ibuf (c : Code) (l v p : Nat) (s : State) : (complete c l v p s).ibuf = s.ibuf := rfl
@[simp] theorem complete_srPhase (c : Code) (l v p : Nat) (s : State) : (complete c l v p s).srPhase = s.srPhase := rfl
@[simp] theorem complete_srErr (c : Code) (l v p : Nat) (s : State) : (complete c l v p s).srErr = s.srErr := rfl
@[simp] theorem complete_dbuf (c : Code) (l v p : Nat) (s : State) : (complete c l v p s).dbuf = s.dbuf := rfl
@[simp] theorem complete_leftRd (c : Code) (l v p : Nat) (s : State) : (complete c l v p s).leftRd = s.leftRd := rfl
@[simp] theorem complete_leftEnd (c : Code) (l v p : Nat) (s : State) : (complete c l v p s).leftEnd = s.leftEnd := rfl
@[simp] theorem complete_srInpos (c : Code) (l v p : Nat) (s : State) : (complete c l v p s).srInpos = s.srInpos := rfl
@[simp] theorem complete_fbuf (c : Code) (l v p : Nat) (s : State) : (complete c l v p s).fbuf = s.fbuf := rfl
@[simp] theorem complete_mem (c : Code) (l v p : Nat) (s : State) : (complete c l v p s).mem = s.mem := rfl
@[simp] theorem complete_inPending (c : Code) (l v p : Nat) (s : State) : (complete c l v p s).inPending = s.inPending := rfl
@[simp] theorem complete_inEos (c : Code) (l v p : Nat) (s : State) : (complete c l v p s).inEos = s.inEos := rfl
@[simp] theorem complete_inLatch (c : Code) (l v p : Nat) (s : State) : (complete c l v p s).inLatch = s.inLatch := rfl
@[simp] theorem complete_inTaken (c : Code) (l v p : Nat) (s : State) : (complete c l v p s).inTaken = s.inTaken := rfl
@[simp] theorem complete_out (c : Code) (l v p : Nat) (s : State) : (complete c l v p s).out = s.out := rfl
@[simp] theorem complete_outRoom (c : Code) (l v p : Nat) (s : State) : (complete c l v p s).outRoom = s.outRoom := rfl
@[simp] theorem complete_memBefore (c : Code) (l v p : Nat) (s : State) : (complete c l v p s).memBefore = s.memBefore := rfl
@[simp] theorem complete_events (c : Code) (l v p : Nat) (s : State) : (complete c l v p s).events = s.events := rfl
@[simp] theorem complete_busData (c : Code) (l v p : Nat) (s : State) : (complete c l v p s).busData = s.busData := rfl
@[simp] theorem complete_draws (c : Code) (l v p : Nat) (s : State) : (complete c l v p s).draws = s.draws := rfl

/-! ### `issue`: an accepted CMD write (40_commands.md R110, R111) -/

@[simp] theorem issue_cfg (op : Byte) (s : State) : (issue op s).cfg = s.cfg := rfl
@[simp] theorem issue_ie (op : Byte) (s : State) : (issue op s).ie = s.ie := rfl
@[simp] theorem issue_done (op : Byte) (s : State) : (issue op s).done = false := rfl
@[simp] theorem issue_rej (op : Byte) (s : State) : (issue op s).rej = s.rej := rfl
@[simp] theorem issue_err (op : Byte) (s : State) : (issue op s).err = Code.ok := rfl
@[simp] theorem issue_cmd (op : Byte) (s : State) : (issue op s).cmd = op := rfl
@[simp] theorem issue_srcAddr (op : Byte) (s : State) : (issue op s).srcAddr = s.srcAddr := rfl
@[simp] theorem issue_srcLen (op : Byte) (s : State) : (issue op s).srcLen = s.srcLen := rfl
@[simp] theorem issue_dstAddr (op : Byte) (s : State) : (issue op s).dstAddr = s.dstAddr := rfl
@[simp] theorem issue_dstCap (op : Byte) (s : State) : (issue op s).dstCap = s.dstCap := rfl
@[simp] theorem issue_argLo (op : Byte) (s : State) : (issue op s).argLo = s.argLo := rfl
@[simp] theorem issue_argHi (op : Byte) (s : State) : (issue op s).argHi = s.argHi := rfl
@[simp] theorem issue_resLen (op : Byte) (s : State) : (issue op s).resLen = s.resLen := rfl
@[simp] theorem issue_resVal (op : Byte) (s : State) : (issue op s).resVal = s.resVal := rfl
@[simp] theorem issue_errPos (op : Byte) (s : State) : (issue op s).errPos = s.errPos := rfl
@[simp] theorem issue_latch (op : Byte) (s : State) : (issue op s).latch = latchOperands op s := rfl
@[simp] theorem issue_engine (op : Byte) (s : State) : (issue op s).engine = Engine.dispatch := rfl
@[simp] theorem issue_swState (op : Byte) (s : State) : (issue op s).swState = s.swState := rfl
@[simp] theorem issue_ibuf (op : Byte) (s : State) : (issue op s).ibuf = s.ibuf := rfl
@[simp] theorem issue_srPhase (op : Byte) (s : State) : (issue op s).srPhase = s.srPhase := rfl
@[simp] theorem issue_srErr (op : Byte) (s : State) : (issue op s).srErr = s.srErr := rfl
@[simp] theorem issue_dbuf (op : Byte) (s : State) : (issue op s).dbuf = s.dbuf := rfl
@[simp] theorem issue_leftRd (op : Byte) (s : State) : (issue op s).leftRd = s.leftRd := rfl
@[simp] theorem issue_leftEnd (op : Byte) (s : State) : (issue op s).leftEnd = s.leftEnd := rfl
@[simp] theorem issue_srInpos (op : Byte) (s : State) : (issue op s).srInpos = s.srInpos := rfl
@[simp] theorem issue_fbuf (op : Byte) (s : State) : (issue op s).fbuf = s.fbuf := rfl
@[simp] theorem issue_mem (op : Byte) (s : State) : (issue op s).mem = s.mem := rfl
@[simp] theorem issue_inPending (op : Byte) (s : State) : (issue op s).inPending = s.inPending := rfl
@[simp] theorem issue_inEos (op : Byte) (s : State) : (issue op s).inEos = s.inEos := rfl
@[simp] theorem issue_inLatch (op : Byte) (s : State) : (issue op s).inLatch = s.inLatch := rfl
@[simp] theorem issue_inTaken (op : Byte) (s : State) : (issue op s).inTaken = s.inTaken := rfl
@[simp] theorem issue_out (op : Byte) (s : State) : (issue op s).out = s.out := rfl
@[simp] theorem issue_outRoom (op : Byte) (s : State) : (issue op s).outRoom = s.outRoom := rfl
@[simp] theorem issue_memBefore (op : Byte) (s : State) : (issue op s).memBefore = s.mem := rfl
@[simp] theorem issue_events (op : Byte) (s : State) : (issue op s).events = s.events := rfl
@[simp] theorem issue_busData (op : Byte) (s : State) : (issue op s).busData = s.busData := rfl
@[simp] theorem issue_draws (op : Byte) (s : State) : (issue op s).draws = s.draws := rfl

/-! ### `scrambleDst`: DST after an error (40_commands.md R117) -/

@[simp] theorem scrambleDst_cfg (s : State) : (scrambleDst s).cfg = s.cfg := rfl
@[simp] theorem scrambleDst_ie (s : State) : (scrambleDst s).ie = s.ie := rfl
@[simp] theorem scrambleDst_done (s : State) : (scrambleDst s).done = s.done := rfl
@[simp] theorem scrambleDst_rej (s : State) : (scrambleDst s).rej = s.rej := rfl
@[simp] theorem scrambleDst_err (s : State) : (scrambleDst s).err = s.err := rfl
@[simp] theorem scrambleDst_cmd (s : State) : (scrambleDst s).cmd = s.cmd := rfl
@[simp] theorem scrambleDst_srcAddr (s : State) : (scrambleDst s).srcAddr = s.srcAddr := rfl
@[simp] theorem scrambleDst_srcLen (s : State) : (scrambleDst s).srcLen = s.srcLen := rfl
@[simp] theorem scrambleDst_dstAddr (s : State) : (scrambleDst s).dstAddr = s.dstAddr := rfl
@[simp] theorem scrambleDst_dstCap (s : State) : (scrambleDst s).dstCap = s.dstCap := rfl
@[simp] theorem scrambleDst_argLo (s : State) : (scrambleDst s).argLo = s.argLo := rfl
@[simp] theorem scrambleDst_argHi (s : State) : (scrambleDst s).argHi = s.argHi := rfl
@[simp] theorem scrambleDst_resLen (s : State) : (scrambleDst s).resLen = s.resLen := rfl
@[simp] theorem scrambleDst_resVal (s : State) : (scrambleDst s).resVal = s.resVal := rfl
@[simp] theorem scrambleDst_errPos (s : State) : (scrambleDst s).errPos = s.errPos := rfl
@[simp] theorem scrambleDst_latch (s : State) : (scrambleDst s).latch = s.latch := rfl
@[simp] theorem scrambleDst_engine (s : State) : (scrambleDst s).engine = s.engine := rfl
@[simp] theorem scrambleDst_swState (s : State) : (scrambleDst s).swState = s.swState := rfl
@[simp] theorem scrambleDst_ibuf (s : State) : (scrambleDst s).ibuf = s.ibuf := rfl
@[simp] theorem scrambleDst_srPhase (s : State) : (scrambleDst s).srPhase = s.srPhase := rfl
@[simp] theorem scrambleDst_srErr (s : State) : (scrambleDst s).srErr = s.srErr := rfl
@[simp] theorem scrambleDst_dbuf (s : State) : (scrambleDst s).dbuf = s.dbuf := rfl
@[simp] theorem scrambleDst_leftRd (s : State) : (scrambleDst s).leftRd = s.leftRd := rfl
@[simp] theorem scrambleDst_leftEnd (s : State) : (scrambleDst s).leftEnd = s.leftEnd := rfl
@[simp] theorem scrambleDst_srInpos (s : State) : (scrambleDst s).srInpos = s.srInpos := rfl
@[simp] theorem scrambleDst_fbuf (s : State) : (scrambleDst s).fbuf = s.fbuf := rfl
@[simp] theorem scrambleDst_mem (s : State) : (scrambleDst s).mem = Memory.write s.mem s.latch.dstAddr.toNat (freeBytes s.draws s.latch.dstCap.toNat) := rfl
@[simp] theorem scrambleDst_inPending (s : State) : (scrambleDst s).inPending = s.inPending := rfl
@[simp] theorem scrambleDst_inEos (s : State) : (scrambleDst s).inEos = s.inEos := rfl
@[simp] theorem scrambleDst_inLatch (s : State) : (scrambleDst s).inLatch = s.inLatch := rfl
@[simp] theorem scrambleDst_inTaken (s : State) : (scrambleDst s).inTaken = s.inTaken := rfl
@[simp] theorem scrambleDst_out (s : State) : (scrambleDst s).out = s.out := rfl
@[simp] theorem scrambleDst_outRoom (s : State) : (scrambleDst s).outRoom = s.outRoom := rfl
@[simp] theorem scrambleDst_memBefore (s : State) : (scrambleDst s).memBefore = s.memBefore := rfl
@[simp] theorem scrambleDst_events (s : State) : (scrambleDst s).events = s.events := rfl
@[simp] theorem scrambleDst_busData (s : State) : (scrambleDst s).busData = s.busData := rfl
@[simp] theorem scrambleDst_draws (s : State) : (scrambleDst s).draws = s.draws + s.latch.dstCap.toNat := rfl

/-! ### `inConsume`: InTake of n bytes (20_memory.md R77) -/

@[simp] theorem inConsume_cfg (n : Nat) (s : State) : (inConsume n s).cfg = s.cfg := rfl
@[simp] theorem inConsume_ie (n : Nat) (s : State) : (inConsume n s).ie = s.ie := rfl
@[simp] theorem inConsume_done (n : Nat) (s : State) : (inConsume n s).done = s.done := rfl
@[simp] theorem inConsume_rej (n : Nat) (s : State) : (inConsume n s).rej = s.rej := rfl
@[simp] theorem inConsume_err (n : Nat) (s : State) : (inConsume n s).err = s.err := rfl
@[simp] theorem inConsume_cmd (n : Nat) (s : State) : (inConsume n s).cmd = s.cmd := rfl
@[simp] theorem inConsume_srcAddr (n : Nat) (s : State) : (inConsume n s).srcAddr = s.srcAddr := rfl
@[simp] theorem inConsume_srcLen (n : Nat) (s : State) : (inConsume n s).srcLen = s.srcLen := rfl
@[simp] theorem inConsume_dstAddr (n : Nat) (s : State) : (inConsume n s).dstAddr = s.dstAddr := rfl
@[simp] theorem inConsume_dstCap (n : Nat) (s : State) : (inConsume n s).dstCap = s.dstCap := rfl
@[simp] theorem inConsume_argLo (n : Nat) (s : State) : (inConsume n s).argLo = s.argLo := rfl
@[simp] theorem inConsume_argHi (n : Nat) (s : State) : (inConsume n s).argHi = s.argHi := rfl
@[simp] theorem inConsume_resLen (n : Nat) (s : State) : (inConsume n s).resLen = s.resLen := rfl
@[simp] theorem inConsume_resVal (n : Nat) (s : State) : (inConsume n s).resVal = s.resVal := rfl
@[simp] theorem inConsume_errPos (n : Nat) (s : State) : (inConsume n s).errPos = s.errPos := rfl
@[simp] theorem inConsume_latch (n : Nat) (s : State) : (inConsume n s).latch = s.latch := rfl
@[simp] theorem inConsume_engine (n : Nat) (s : State) : (inConsume n s).engine = s.engine := rfl
@[simp] theorem inConsume_swState (n : Nat) (s : State) : (inConsume n s).swState = s.swState := rfl
@[simp] theorem inConsume_ibuf (n : Nat) (s : State) : (inConsume n s).ibuf = s.ibuf := rfl
@[simp] theorem inConsume_srPhase (n : Nat) (s : State) : (inConsume n s).srPhase = s.srPhase := rfl
@[simp] theorem inConsume_srErr (n : Nat) (s : State) : (inConsume n s).srErr = s.srErr := rfl
@[simp] theorem inConsume_dbuf (n : Nat) (s : State) : (inConsume n s).dbuf = s.dbuf := rfl
@[simp] theorem inConsume_leftRd (n : Nat) (s : State) : (inConsume n s).leftRd = s.leftRd := rfl
@[simp] theorem inConsume_leftEnd (n : Nat) (s : State) : (inConsume n s).leftEnd = s.leftEnd := rfl
@[simp] theorem inConsume_srInpos (n : Nat) (s : State) : (inConsume n s).srInpos = s.srInpos + BitVec.ofNat 64 n := rfl
@[simp] theorem inConsume_fbuf (n : Nat) (s : State) : (inConsume n s).fbuf = s.fbuf := rfl
@[simp] theorem inConsume_mem (n : Nat) (s : State) : (inConsume n s).mem = s.mem := rfl
@[simp] theorem inConsume_inPending (n : Nat) (s : State) : (inConsume n s).inPending = s.inPending.drop n := rfl
@[simp] theorem inConsume_inEos (n : Nat) (s : State) : (inConsume n s).inEos = s.inEos := rfl
@[simp] theorem inConsume_inLatch (n : Nat) (s : State) : (inConsume n s).inLatch = s.inLatch := rfl
@[simp] theorem inConsume_inTaken (n : Nat) (s : State) : (inConsume n s).inTaken = s.inTaken + n := rfl
@[simp] theorem inConsume_out (n : Nat) (s : State) : (inConsume n s).out = s.out := rfl
@[simp] theorem inConsume_outRoom (n : Nat) (s : State) : (inConsume n s).outRoom = s.outRoom := rfl
@[simp] theorem inConsume_memBefore (n : Nat) (s : State) : (inConsume n s).memBefore = s.memBefore := rfl
@[simp] theorem inConsume_events (n : Nat) (s : State) : (inConsume n s).events = s.events := rfl
@[simp] theorem inConsume_busData (n : Nat) (s : State) : (inConsume n s).busData = s.busData := rfl
@[simp] theorem inConsume_draws (n : Nat) (s : State) : (inConsume n s).draws = s.draws := rfl

/-! ### `latchEos`: InTake has returned EOS (20_memory.md R77) -/

@[simp] theorem latchEos_cfg (s : State) : (latchEos s).cfg = s.cfg := rfl
@[simp] theorem latchEos_ie (s : State) : (latchEos s).ie = s.ie := rfl
@[simp] theorem latchEos_done (s : State) : (latchEos s).done = s.done := rfl
@[simp] theorem latchEos_rej (s : State) : (latchEos s).rej = s.rej := rfl
@[simp] theorem latchEos_err (s : State) : (latchEos s).err = s.err := rfl
@[simp] theorem latchEos_cmd (s : State) : (latchEos s).cmd = s.cmd := rfl
@[simp] theorem latchEos_srcAddr (s : State) : (latchEos s).srcAddr = s.srcAddr := rfl
@[simp] theorem latchEos_srcLen (s : State) : (latchEos s).srcLen = s.srcLen := rfl
@[simp] theorem latchEos_dstAddr (s : State) : (latchEos s).dstAddr = s.dstAddr := rfl
@[simp] theorem latchEos_dstCap (s : State) : (latchEos s).dstCap = s.dstCap := rfl
@[simp] theorem latchEos_argLo (s : State) : (latchEos s).argLo = s.argLo := rfl
@[simp] theorem latchEos_argHi (s : State) : (latchEos s).argHi = s.argHi := rfl
@[simp] theorem latchEos_resLen (s : State) : (latchEos s).resLen = s.resLen := rfl
@[simp] theorem latchEos_resVal (s : State) : (latchEos s).resVal = s.resVal := rfl
@[simp] theorem latchEos_errPos (s : State) : (latchEos s).errPos = s.errPos := rfl
@[simp] theorem latchEos_latch (s : State) : (latchEos s).latch = s.latch := rfl
@[simp] theorem latchEos_engine (s : State) : (latchEos s).engine = s.engine := rfl
@[simp] theorem latchEos_swState (s : State) : (latchEos s).swState = s.swState := rfl
@[simp] theorem latchEos_ibuf (s : State) : (latchEos s).ibuf = s.ibuf := rfl
@[simp] theorem latchEos_srPhase (s : State) : (latchEos s).srPhase = s.srPhase := rfl
@[simp] theorem latchEos_srErr (s : State) : (latchEos s).srErr = s.srErr := rfl
@[simp] theorem latchEos_dbuf (s : State) : (latchEos s).dbuf = s.dbuf := rfl
@[simp] theorem latchEos_leftRd (s : State) : (latchEos s).leftRd = s.leftRd := rfl
@[simp] theorem latchEos_leftEnd (s : State) : (latchEos s).leftEnd = s.leftEnd := rfl
@[simp] theorem latchEos_srInpos (s : State) : (latchEos s).srInpos = s.srInpos := rfl
@[simp] theorem latchEos_fbuf (s : State) : (latchEos s).fbuf = s.fbuf := rfl
@[simp] theorem latchEos_mem (s : State) : (latchEos s).mem = s.mem := rfl
@[simp] theorem latchEos_inPending (s : State) : (latchEos s).inPending = s.inPending := rfl
@[simp] theorem latchEos_inEos (s : State) : (latchEos s).inEos = s.inEos := rfl
@[simp] theorem latchEos_inLatch (s : State) : (latchEos s).inLatch = true := rfl
@[simp] theorem latchEos_inTaken (s : State) : (latchEos s).inTaken = s.inTaken := rfl
@[simp] theorem latchEos_out (s : State) : (latchEos s).out = s.out := rfl
@[simp] theorem latchEos_outRoom (s : State) : (latchEos s).outRoom = s.outRoom := rfl
@[simp] theorem latchEos_memBefore (s : State) : (latchEos s).memBefore = s.memBefore := rfl
@[simp] theorem latchEos_events (s : State) : (latchEos s).events = s.events := rfl
@[simp] theorem latchEos_busData (s : State) : (latchEos s).busData = s.busData := rfl
@[simp] theorem latchEos_draws (s : State) : (latchEos s).draws = s.draws := rfl

/-! ### `outPut`: OutPut of n bytes (20_memory.md R78) -/

@[simp] theorem outPut_cfg (n : Nat) (bs : List Byte) (s : State) : (outPut n bs s).cfg = s.cfg := rfl
@[simp] theorem outPut_ie (n : Nat) (bs : List Byte) (s : State) : (outPut n bs s).ie = s.ie := rfl
@[simp] theorem outPut_done (n : Nat) (bs : List Byte) (s : State) : (outPut n bs s).done = s.done := rfl
@[simp] theorem outPut_rej (n : Nat) (bs : List Byte) (s : State) : (outPut n bs s).rej = s.rej := rfl
@[simp] theorem outPut_err (n : Nat) (bs : List Byte) (s : State) : (outPut n bs s).err = s.err := rfl
@[simp] theorem outPut_cmd (n : Nat) (bs : List Byte) (s : State) : (outPut n bs s).cmd = s.cmd := rfl
@[simp] theorem outPut_srcAddr (n : Nat) (bs : List Byte) (s : State) : (outPut n bs s).srcAddr = s.srcAddr := rfl
@[simp] theorem outPut_srcLen (n : Nat) (bs : List Byte) (s : State) : (outPut n bs s).srcLen = s.srcLen := rfl
@[simp] theorem outPut_dstAddr (n : Nat) (bs : List Byte) (s : State) : (outPut n bs s).dstAddr = s.dstAddr := rfl
@[simp] theorem outPut_dstCap (n : Nat) (bs : List Byte) (s : State) : (outPut n bs s).dstCap = s.dstCap := rfl
@[simp] theorem outPut_argLo (n : Nat) (bs : List Byte) (s : State) : (outPut n bs s).argLo = s.argLo := rfl
@[simp] theorem outPut_argHi (n : Nat) (bs : List Byte) (s : State) : (outPut n bs s).argHi = s.argHi := rfl
@[simp] theorem outPut_resLen (n : Nat) (bs : List Byte) (s : State) : (outPut n bs s).resLen = s.resLen := rfl
@[simp] theorem outPut_resVal (n : Nat) (bs : List Byte) (s : State) : (outPut n bs s).resVal = s.resVal := rfl
@[simp] theorem outPut_errPos (n : Nat) (bs : List Byte) (s : State) : (outPut n bs s).errPos = s.errPos := rfl
@[simp] theorem outPut_latch (n : Nat) (bs : List Byte) (s : State) : (outPut n bs s).latch = s.latch := rfl
@[simp] theorem outPut_engine (n : Nat) (bs : List Byte) (s : State) : (outPut n bs s).engine = s.engine := rfl
@[simp] theorem outPut_swState (n : Nat) (bs : List Byte) (s : State) : (outPut n bs s).swState = s.swState := rfl
@[simp] theorem outPut_ibuf (n : Nat) (bs : List Byte) (s : State) : (outPut n bs s).ibuf = s.ibuf := rfl
@[simp] theorem outPut_srPhase (n : Nat) (bs : List Byte) (s : State) : (outPut n bs s).srPhase = s.srPhase := rfl
@[simp] theorem outPut_srErr (n : Nat) (bs : List Byte) (s : State) : (outPut n bs s).srErr = s.srErr := rfl
@[simp] theorem outPut_dbuf (n : Nat) (bs : List Byte) (s : State) : (outPut n bs s).dbuf = s.dbuf := rfl
@[simp] theorem outPut_leftRd (n : Nat) (bs : List Byte) (s : State) : (outPut n bs s).leftRd = s.leftRd := rfl
@[simp] theorem outPut_leftEnd (n : Nat) (bs : List Byte) (s : State) : (outPut n bs s).leftEnd = s.leftEnd := rfl
@[simp] theorem outPut_srInpos (n : Nat) (bs : List Byte) (s : State) : (outPut n bs s).srInpos = s.srInpos := rfl
@[simp] theorem outPut_fbuf (n : Nat) (bs : List Byte) (s : State) : (outPut n bs s).fbuf = s.fbuf := rfl
@[simp] theorem outPut_mem (n : Nat) (bs : List Byte) (s : State) : (outPut n bs s).mem = s.mem := rfl
@[simp] theorem outPut_inPending (n : Nat) (bs : List Byte) (s : State) : (outPut n bs s).inPending = s.inPending := rfl
@[simp] theorem outPut_inEos (n : Nat) (bs : List Byte) (s : State) : (outPut n bs s).inEos = s.inEos := rfl
@[simp] theorem outPut_inLatch (n : Nat) (bs : List Byte) (s : State) : (outPut n bs s).inLatch = s.inLatch := rfl
@[simp] theorem outPut_inTaken (n : Nat) (bs : List Byte) (s : State) : (outPut n bs s).inTaken = s.inTaken := rfl
@[simp] theorem outPut_out (n : Nat) (bs : List Byte) (s : State) : (outPut n bs s).out = s.out ++ bs.take n := rfl
@[simp] theorem outPut_outRoom (n : Nat) (bs : List Byte) (s : State) : (outPut n bs s).outRoom = s.outRoom.map (fun r => r - n) := rfl
@[simp] theorem outPut_memBefore (n : Nat) (bs : List Byte) (s : State) : (outPut n bs s).memBefore = s.memBefore := rfl
@[simp] theorem outPut_events (n : Nat) (bs : List Byte) (s : State) : (outPut n bs s).events = s.events := rfl
@[simp] theorem outPut_busData (n : Nat) (bs : List Byte) (s : State) : (outPut n bs s).busData = s.busData := rfl
@[simp] theorem outPut_draws (n : Nat) (bs : List Byte) (s : State) : (outPut n bs s).draws = s.draws := rfl

/-! ### `resetState`: the reset values (70_reset_and_hazards.md R450) -/

@[simp] theorem resetState_cfg (s : State) : (resetState s).cfg = s.cfg := rfl
@[simp] theorem resetState_ie (s : State) : (resetState s).ie = false := rfl
@[simp] theorem resetState_done (s : State) : (resetState s).done = false := rfl
@[simp] theorem resetState_rej (s : State) : (resetState s).rej = false := rfl
@[simp] theorem resetState_err (s : State) : (resetState s).err = Code.ok := rfl
@[simp] theorem resetState_cmd (s : State) : (resetState s).cmd = 0#8 := rfl
@[simp] theorem resetState_srcAddr (s : State) : (resetState s).srcAddr = 0#32 := rfl
@[simp] theorem resetState_srcLen (s : State) : (resetState s).srcLen = 0#32 := rfl
@[simp] theorem resetState_dstAddr (s : State) : (resetState s).dstAddr = 0#32 := rfl
@[simp] theorem resetState_dstCap (s : State) : (resetState s).dstCap = 0#32 := rfl
@[simp] theorem resetState_argLo (s : State) : (resetState s).argLo = 0#32 := rfl
@[simp] theorem resetState_argHi (s : State) : (resetState s).argHi = 0#32 := rfl
@[simp] theorem resetState_resLen (s : State) : (resetState s).resLen = 0#32 := rfl
@[simp] theorem resetState_resVal (s : State) : (resetState s).resVal = 0#64 := rfl
@[simp] theorem resetState_errPos (s : State) : (resetState s).errPos = 0#32 := rfl
@[simp] theorem resetState_latch (s : State) : (resetState s).latch = Latch.reset := rfl
@[simp] theorem resetState_engine (s : State) : (resetState s).engine = Engine.idle := rfl
@[simp] theorem resetState_swState (s : State) : (resetState s).swState = SwState.unstarted := rfl
@[simp] theorem resetState_ibuf (s : State) : (resetState s).ibuf = [] := rfl
@[simp] theorem resetState_srPhase (s : State) : (resetState s).srPhase = SrPhase.awaitMarker := rfl
@[simp] theorem resetState_srErr (s : State) : (resetState s).srErr = SrErr.none := rfl
@[simp] theorem resetState_dbuf (s : State) : (resetState s).dbuf = [] := rfl
@[simp] theorem resetState_leftRd (s : State) : (resetState s).leftRd = 0 := rfl
@[simp] theorem resetState_leftEnd (s : State) : (resetState s).leftEnd = 0 := rfl
@[simp] theorem resetState_srInpos (s : State) : (resetState s).srInpos = 0#64 := rfl
@[simp] theorem resetState_fbuf (s : State) : (resetState s).fbuf = [] := rfl
@[simp] theorem resetState_mem (s : State) : (resetState s).mem = s.mem := rfl
@[simp] theorem resetState_inPending (s : State) : (resetState s).inPending = s.inPending := rfl
@[simp] theorem resetState_inEos (s : State) : (resetState s).inEos = s.inEos := rfl
@[simp] theorem resetState_inLatch (s : State) : (resetState s).inLatch = false := rfl
@[simp] theorem resetState_inTaken (s : State) : (resetState s).inTaken = s.inTaken := rfl
@[simp] theorem resetState_out (s : State) : (resetState s).out = s.out := rfl
@[simp] theorem resetState_outRoom (s : State) : (resetState s).outRoom = s.outRoom := rfl
@[simp] theorem resetState_memBefore (s : State) : (resetState s).memBefore = [] := rfl
@[simp] theorem resetState_events (s : State) : (resetState s).events = s.events := rfl
@[simp] theorem resetState_busData (s : State) : (resetState s).busData = s.busData := rfl
@[simp] theorem resetState_draws (s : State) : (resetState s).draws = s.draws := rfl

/-! ### The other completions are completions -/

theorem complete_eq_finished (l v : Nat) (s : State) : complete .ok l v 0 s = Finished l v s := rfl
theorem complete_eq_raised (c : Code) (v : Nat) (s : State) : complete c 0 v 0 s = Raised c v s := rfl
@[simp] theorem finish_eq (l v : Nat) (s : State) : finish l v s = complete .ok l v 0 s := rfl
@[simp] theorem raiseClean_eq (c : Code) (s : State) : raiseClean c s = complete c 0 0 0 s := rfl
@[simp] theorem raiseDstSmall_eq (n : Nat) (s : State) : raiseDstSmall n s = complete .dstSmall 0 n 0 s := rfl
@[simp] theorem raiseDst_eq (c : Code) (p : Nat) (s : State) : raiseDst c p s = complete c 0 0 p (scrambleDst s) := rfl
@[simp] theorem srFail_eq (e : SrErr) (p : DWord) (s : State) :
    srFail e p s = complete e.code 0 0 p.toNat (scrambleDst { s with srErr := e }) := rfl
@[simp] theorem nextFrame_eq (i0 : DWord) (s : State) :
    nextFrame i0 s = { s with engine := .header i0 s.srInpos [] } := rfl

/-! ### BUSY -/

@[simp] theorem busy_complete (c : Code) (l v p : Nat) (s : State) : (complete c l v p s).busy = false := rfl
@[simp] theorem busy_issue (op : Byte) (s : State) : (issue op s).busy = true := rfl
@[simp] theorem busy_scrambleDst (s : State) : (scrambleDst s).busy = s.busy := rfl
@[simp] theorem busy_resetState (s : State) : (resetState s).busy = false := rfl

theorem busy_eq_false_iff (s : State) : s.busy = false ↔ s.engine = .idle := by simp [State.busy]
theorem busy_eq_true_iff (s : State) : s.busy = true ↔ s.engine ≠ .idle := by simp [State.busy]

end Sys2Proof.Machine
end

