-- ==== Sys2Proof/Laws/Ops.lean ====
section
/-! SUPPORT. What the shared ways of raising an error do: the completion record, and buffer memory unchanged outside DST. -/

namespace Sys2Proof.Machine

@[simp] theorem freeBytes_length (k n : Nat) : (freeBytes k n).length = n := by
  induction n generalizing k with
  | zero => rfl
  | succ n ih => simp [freeBytes, ih]

/-- 40_commands.md R117: nothing outside DST changes. -/
theorem scrambleDst_outside {s : State} {x : Nat} (h : inLatchedDst s x = false) :
    Memory.get (scrambleDst s).mem x = Memory.get s.mem x := by
  simp only [inLatchedDst, inRegion, decide_eq_false_iff_not, not_and, not_lt] at h
  rw [scrambleDst_mem, Memory.get_write, if_neg]
  rw [freeBytes_length]; omega

theorem raiseDst_raised (c : Code) (pos : Nat) (s : State) : RaisedOverDst c pos s (.next (raiseDst c pos s)) :=
  ⟨_, _, rfl, fun _ h => scrambleDst_outside h⟩

theorem srFail_failed (e : SrErr) (h0 : DWord) (s : State) : ReaderFailed e h0 s (.next (srFail e h0 s)) :=
  raiseDst_raised e.code h0.toNat { s with srErr := e }

theorem blockCorrupt_failed (u : BlockUser) (pos : Nat) (s : State) :
    BlockFailed .corrupt .corrupt u pos s (.next (blockCorrupt u pos s)) := by
  cases u with
  | bdec => exact raiseDst_raised .corrupt pos s
  | frame i0 h0 => exact srFail_failed .corrupt h0 s

theorem blockUnsupported_failed (u : BlockUser) (pos : Nat) (s : State) :
    BlockFailed .unsupported .unsupported u pos s (.next (blockUnsupported u pos s)) := by
  cases u with
  | bdec => exact raiseDst_raised .unsupported pos s
  | frame i0 h0 => exact srFail_failed .unsupported h0 s

theorem blockTooLarge_failed (u : BlockUser) (s : State) :
    BlockFailed .tooLarge .tooLarge u 0 s (.next (blockTooLarge u s)) := by
  cases u with
  | bdec => exact raiseDst_raised .tooLarge 0 s
  | frame i0 h0 => exact srFail_failed .tooLarge h0 s

/-! ### What no raise changes -/

@[simp] theorem blockCorrupt_cfg (u : BlockUser) (pos : Nat) (s : State) : (blockCorrupt u pos s).cfg = s.cfg := by
  cases u <;> rfl
@[simp] theorem blockCorrupt_engine (u : BlockUser) (pos : Nat) (s : State) : (blockCorrupt u pos s).engine = .idle := by
  cases u <;> rfl
@[simp] theorem blockUnsupported_engine (u : BlockUser) (pos : Nat) (s : State) :
    (blockUnsupported u pos s).engine = .idle := by cases u <;> rfl
@[simp] theorem blockTooLarge_engine (u : BlockUser) (s : State) : (blockTooLarge u s).engine = .idle := by
  cases u <;> rfl
@[simp] theorem blockDstSmall_engine (u : BlockUser) (n : Nat) (s : State) : (blockDstSmall u n s).engine = .idle := by
  cases u <;> rfl

end Sys2Proof.Machine
end

