-- ==== Sys2Proof/Laws/Block.lean ====
section
/-! SUPPORT. What the shared operations of the block decoder and the varint engine do (43_block_decoder.md, 41_varint.md). -/

namespace Sys2Proof.Machine

theorem repeatPattern_length (w : List Byte) (n : Nat) (h : w ≠ []) : (repeatPattern w n).length = n := by
  induction n generalizing w with
  | zero => cases w <;> rfl
  | succ n ih =>
    cases w with
    | nil => exact absurd rfl h
    | cons b w =>
      simp only [repeatPattern, List.length_cons]
      rw [ih _ (by simp)]

/-- Byte k of a repeated pattern is byte k mod |w| of the pattern (43_block_decoder.md R260). -/
theorem repeatPattern_getD (w : List Byte) (n k : Nat) (h : w ≠ []) (hk : k < n) (d : Byte) :
    (repeatPattern w n).getD k d = w.getD (k % w.length) d := by
  induction n generalizing w k with
  | zero => omega
  | succ n ih =>
    cases w with
    | nil => exact absurd rfl h
    | cons b w =>
      simp only [repeatPattern]
      cases k with
      | zero => simp
      | succ k =>
        rw [List.getD_cons_succ, ih (w ++ [b]) k (by simp) (by omega)]
        simp only [List.length_append, List.length_cons, List.length_nil, Nat.zero_add]
        have hlt : k % (w.length + 1) < w.length + 1 := Nat.mod_lt _ (by omega)
        rw [Nat.add_mod]
        rcases Nat.lt_or_ge (k % (w.length + 1)) w.length with hl | hl
        · rw [show (k % (w.length + 1) + 1 % (w.length + 1)) % (w.length + 1) = k % (w.length + 1) + 1 by
            rw [Nat.mod_eq_of_lt (a := 1) (by omega), Nat.mod_eq_of_lt (by omega)]]
          rw [List.getD_cons_succ, List.getD_append _ _ _ _ hl]
        · have e : k % (w.length + 1) = w.length := by omega
          rw [e]
          by_cases hw : w.length = 0
          · have : w = [] := List.length_eq_zero_iff.mp hw
            subst this; simp
          · rw [Nat.mod_eq_of_lt (a := 1) (by omega), Nat.mod_self]
            rw [List.getD_append_right _ _ _ _ (Nat.le_refl _)]
            simp

/-- The head of the chunk loop: another chunk, Corrupt(L), or the end (43_block_decoder.md R250, R261). -/
theorem blockLoop_cases (u : BlockUser) (c : BlockCursor) (s : State) :
    (c.s < blockLength u s ∧ blockLoop u c s = { s with engine := .block c u }) ∨
    (blockLength u s ≤ c.s ∧ c.d ≠ c.n ∧ blockLoop u c s = blockCorrupt u (blockLength u s) s) ∨
    (blockLength u s ≤ c.s ∧ c.d = c.n ∧ blockLoop u c s = blockDone u c.n s) := by
  unfold blockLoop
  by_cases h : c.s < blockLength u s
  · exact .inl ⟨h, by rw [if_pos h]⟩
  · by_cases e : c.d = c.n
    · exact .inr (.inr ⟨by omega, e, by rw [if_neg h, if_neg (by simpa using e)]⟩)
    · exact .inr (.inl ⟨by omega, e, by rw [if_neg h, if_pos e]⟩)

/-- A literal fits, or is Corrupt at its tag (43_block_decoder.md R251). -/
theorem literalBody_cases (u : BlockUser) (c : BlockCursor) (len hd : Nat) (s : State) :
    ((c.n - c.d < len ∨ blockLength u s - (c.s + hd) < len) ∧ literalBody u c len hd s = blockCorrupt u c.s s) ∨
    (len ≤ c.n - c.d ∧ len ≤ blockLength u s - (c.s + hd) ∧
      literalBody u c len hd s =
        blockLoop u { s := c.s + hd + len, d := c.d + len, n := c.n } (outWrite u c.d (blockBytes u (c.s + hd) len s) s)) := by
  unfold literalBody
  by_cases h1 : len > c.n - c.d
  · exact .inl ⟨.inl h1, by rw [if_pos h1]⟩
  · by_cases h2 : len > blockLength u s - (c.s + hd)
    · exact .inl ⟨.inr h2, by rw [if_neg h1, if_pos h2]⟩
    · exact .inr ⟨by omega, by omega, by rw [if_neg h1, if_neg h2]⟩

/-- A copy fits, or is Corrupt at its tag (43_block_decoder.md R259). -/
theorem copyBody_cases (u : BlockUser) (c : BlockCursor) (off len size : Nat) (s : State) :
    ((off = 0 ∨ c.d < off ∨ c.n - c.d < len) ∧ copyBody u c off len size s = blockCorrupt u c.s s) ∨
    (1 ≤ off ∧ off ≤ c.d ∧ len ≤ c.n - c.d ∧
      copyBody u c off len size s =
        blockLoop u { s := c.s + size, d := c.d + len, n := c.n } (decompress u c.d off len s)) := by
  unfold copyBody
  by_cases h1 : off = 0 ∨ off > c.d
  · exact .inl ⟨h1.imp_right .inl, by rw [if_pos h1]⟩
  · by_cases h2 : len > c.n - c.d
    · exact .inl ⟨.inr (.inr h2), by rw [if_neg h1, if_pos h2]⟩
    · exact .inr ⟨by omega, by omega, by omega, by rw [if_neg h1, if_neg h2]⟩

/-- The checks after the prefix (43_block_decoder.md R242, R243). -/
theorem blockBegin_cases (u : BlockUser) (n used : Nat) (s : State) :
    (s.cfg.maxDecodedLen.toNat < n ∧ blockBegin u n used s = blockTooLarge u s) ∨
    (n ≤ s.cfg.maxDecodedLen.toNat ∧ blockCapacity u s < n ∧ blockBegin u n used s = blockDstSmall u n s) ∨
    (n ≤ s.cfg.maxDecodedLen.toNat ∧ n ≤ blockCapacity u s ∧
      blockBegin u n used s = blockLoop u { s := used, d := 0, n := n } s) := by
  unfold blockBegin
  by_cases h1 : n > s.cfg.maxDecodedLen.toNat
  · exact .inl ⟨h1, by rw [if_pos h1]⟩
  · by_cases h2 : n > blockCapacity u s
    · exact .inr (.inl ⟨by omega, h2, by rw [if_neg h1, if_pos h2]⟩)
    · exact .inr (.inr ⟨by omega, by omega, by rw [if_neg h1, if_neg h2]⟩)

/-- VarintLen counts the groups of seven bits (41_varint.md R181). -/
theorem varintLength_bounds (v : Nat) (h : v < 2 ^ 64) :
    1 ≤ varintLength v ∧ varintLength v ≤ 10 ∧ (1 < varintLength v → 2 ^ (7 * (varintLength v - 1)) ≤ v) ∧
      (varintLength v < 10 → v < 2 ^ (7 * varintLength v)) := by
  unfold varintLength
  repeat' split
  all_goals refine ⟨by omega, by omega, ?_, ?_⟩
  all_goals norm_num
  all_goals omega

end Sys2Proof.Machine
end

