-- ==== Sys2Proof/Laws/Bytes.lean ====
section
/-! SUPPORT. Laws of byte order: le_N and LE undo one another (00_scope.md R12), and the checksum field. -/

namespace Sys2Proof

@[simp] theorem leBytes_length (n v : Nat) : (leBytes n v).length = n := by
  induction n generalizing v with
  | zero => rfl
  | succ n ih => simp [leBytes, ih]

/-- LE(le_N(v)) = v mod 2^(8N). -/
theorem leNat_leBytes (n v : Nat) : leNat (leBytes n v) = v % 256 ^ n := by
  induction n generalizing v with
  | zero => simp [leBytes, leNat, Nat.mod_one]
  | succ n ih => simp only [leBytes, leNat, ih]; rw [pow_succ', Nat.mod_mul]; simp

/-- le_N(LE(B)) = B for N = |B|. -/
theorem leBytes_leNat (bs : List Byte) : leBytes bs.length (leNat bs) = bs := by
  induction bs with
  | nil => rfl
  | cons b bs ih =>
    simp only [List.length_cons, leBytes, leNat]
    rw [show (b.toNat + 256 * leNat bs) / 256 = leNat bs by omega, ih]
    congr 1
    apply BitVec.eq_of_toNat_eq
    have := b.isLt
    simp only [BitVec.toNat_ofNat]
    omega

theorem leNat_lt (bs : List Byte) : leNat bs < 256 ^ bs.length := by
  induction bs with
  | nil => simp [leNat]
  | cons b bs ih =>
    simp only [leNat, List.length_cons, pow_succ']
    omega

namespace Machine

@[simp] theorem checksumField_length (data : List Byte) : (checksumField data).length = 4 := leBytes_length 4 _

/-- A stored checksum is that of the data iff its four bytes are the checksum field (44_checksum.md R282). -/
theorem frameChecksum_eq_iff {bs data : List Byte} (h : bs.length = 4) :
    (frameChecksum data).toNat = leNat bs ↔ bs = checksumField data := by
  constructor
  · intro e
    unfold checksumField
    rw [e, ← h, leBytes_leNat]
  · rintro rfl
    unfold checksumField
    rw [leNat_leBytes, Nat.mod_eq_of_lt]
    exact (frameChecksum data).isLt

end Machine

end Sys2Proof
end

