-- ==== Sys2Proof/Laws/Reader.lean ====
section
/-! SUPPORT. What the shared operations of the stream reader do (46_stream_reader.md). -/

namespace Sys2Proof.Machine

theorem inPeek_length_le (n : Nat) (s : State) : (inPeek n s).length ≤ n := by simp [inPeek]

/-- ReadBody when IN offers the whole body (46_stream_reader.md R347). -/
theorem readBody_whole (i0 h0 : DWord) (k : BodyKind) (n : Nat) (s : State) (h : s.inLatch = false)
    (h2 : n ≤ s.inPending.length) :
    readBody i0 h0 k n { s with fbuf := [] } = bodyDone i0 h0 k (BodyTaken n s) := by
  have e : (s.inPending.take n).length = n := by simp; omega
  simp only [readBody, inPeek, inAvailable, h, List.length_nil, Nat.sub_zero, Bool.false_eq_true, if_false, e,
    inConsume_fbuf, List.nil_append]
  rw [if_pos (Nat.le_refl _)]
  simp only [inConsume, BodyTaken, h]

/-- The loop of SR_READ goes to the next frame or delivers (46_stream_reader.md R341). -/
theorem readerLoop_cases (i0 : DWord) (s : State) :
    (s.leftRd = s.leftEnd ∧ readerLoop i0 s = { s with engine := .header i0 s.srInpos [] }) ∨
      (s.leftRd ≠ s.leftEnd ∧ readerLoop i0 s = deliver i0 s) := by
  unfold readerLoop
  by_cases h : s.leftRd = s.leftEnd
  · exact .inl ⟨h, by rw [if_pos h]; rfl⟩
  · exact .inr ⟨h, by rw [if_neg h]⟩

/-- The end of a data frame: Corrupt(h0), or the data becomes the leftover (46_stream_reader.md R348, R349). -/
theorem dataFrameDone_cases (i0 h0 : DWord) (s : State) (h : 4 ≤ s.fbuf.length) :
    (s.fbuf.take 4 ≠ checksumField s.dbuf ∧ dataFrameDone i0 h0 s = srFail .corrupt h0 s) ∨
      (s.fbuf.take 4 = checksumField s.dbuf ∧
        dataFrameDone i0 h0 s = readerLoop i0 { s with leftRd := 0, leftEnd := s.dbuf.length }) := by
  have l : (s.fbuf.take 4).length = 4 := by simp; omega
  have c := frameChecksum_eq_iff (data := s.dbuf) l
  unfold dataFrameDone storedChecksum
  by_cases e : (frameChecksum s.dbuf).toNat = leNat (s.fbuf.take 4)
  · exact .inr ⟨c.mp e, by rw [if_neg (by simpa using e)]⟩
  · exact .inl ⟨fun h => e (c.mpr h), by rw [if_pos e]⟩

/-- The three outcomes of the checks before a frame (46_stream_reader.md R345, R346, R354). -/
theorem frameGate_cases (marker : Bool) (len : BitVec 24) (f : DWord → DWord → State → State) (i0 h0 : DWord) (s : State) :
    (marker = false ∧ s.srPhase = .awaitMarker ∧ frameGate marker len f i0 h0 s = srFail .corrupt h0 s) ∨
    ((marker = true ∨ s.srPhase = .streaming) ∧ Config.maxFrameLen < len.toNat ∧
      frameGate marker len f i0 h0 s = srFail .unsupported h0 s) ∨
    ((marker = true ∨ s.srPhase = .streaming) ∧ len.toNat ≤ Config.maxFrameLen ∧
      frameGate marker len f i0 h0 s = f i0 h0 { s with fbuf := [] }) := by
  unfold frameGate
  cases marker <;> cases hp : s.srPhase <;> simp <;> omega

/-! ### The cursor the reader came from does not matter: every outcome sets a new one -/

theorem readerLoop_engine (i0 : DWord) (s : State) (g : Engine) : readerLoop i0 { s with engine := g } = readerLoop i0 s := by
  unfold readerLoop; split <;> rfl

theorem dataFrameDone_engine (i0 h0 : DWord) (s : State) (g : Engine) :
    dataFrameDone i0 h0 { s with engine := g } = dataFrameDone i0 h0 s := by
  unfold dataFrameDone
  by_cases h : (frameChecksum s.dbuf).toNat ≠ storedChecksum s
  · exact (if_pos h).trans (if_pos h).symm
  · exact ((if_neg h).trans (readerLoop_engine i0 { s with leftRd := 0, leftEnd := s.dbuf.length } g)).trans (if_neg h).symm

theorem prefixBegin_engine (i0 h0 : DWord) (s : State) (g : Engine) :
    prefixBegin (.frame i0 h0) { s with engine := g } = prefixBegin (.frame i0 h0) s := by
  unfold prefixBegin
  by_cases h : blockLength (.frame i0 h0) s = 0
  · exact (if_pos h).trans (if_pos h).symm
  · exact (if_neg h).trans (if_neg h).symm

theorem bodyDone_engine (i0 h0 : DWord) (k : BodyKind) (s : State) (g : Engine) :
    bodyDone i0 h0 k { s with engine := g } = bodyDone i0 h0 k s := by
  cases k with
  | compressed => exact prefixBegin_engine i0 h0 { s with dbuf := [] } g
  | uncompressed => exact dataFrameDone_engine i0 h0 { s with dbuf := s.fbuf.drop 4 } g
  | streamId =>
    unfold bodyDone streamIdBody
    by_cases h : s.fbuf ≠ Config.magic
    · exact (if_pos h).trans (if_pos h).symm
    · exact ((if_neg h).trans (readerLoop_engine i0 { s with srPhase := .streaming } g)).trans (if_neg h).symm
  | skipped => exact readerLoop_engine i0 s g

/-- A frame past its checks reads its body (46_stream_reader.md R345, R346, R348 to R350, R352, R353). -/
theorem exec_bodyForm {i : Instr} {kind : BodyKind} {len : Nat} {s : State} {i0 h0 : DWord} {h : List Byte}
    (hi : bodyForm i = some (kind, len)) (hk : kind.lengthOk len) (hp : kind = .streamId ∨ s.srPhase = .streaming)
    (he : s.engine = .header i0 h0 h) : exec i s = .next (readBody i0 h0 kind len { s with fbuf := [] }) := by
  cases i <;> simp only [bodyForm, Option.some.injEq, Prod.mk.injEq] at hi <;>
    (try (exfalso; exact absurd hi (by simp only [reduceCtorEq, not_false_eq_true])))
  all_goals (obtain ⟨rfl, rfl⟩ := hi; simp only [BodyKind.lengthOk, Config.maxBlock, Config.maxFrameLen] at hk)
  · have hp : s.srPhase = .streaming := by simpa using hp
    simp only [exec, execFtCompressed, atHeader, he, frameGate, hp, compressedFrame, Config.maxFrameLen]
    rw [if_neg (by simp), if_neg (by omega), if_neg (by omega)]
  · have hp : s.srPhase = .streaming := by simpa using hp
    simp only [exec, execFtUncompressed, atHeader, he, frameGate, hp, uncompressedFrame, Config.maxFrameLen, Config.maxBlock]
    rw [if_neg (by simp), if_neg (by omega), if_neg (by omega), if_neg (by omega)]
  · simp only [exec, execFtStreamId, atHeader, he, frameGate, streamIdFrame, Config.maxFrameLen]
    rw [if_neg (by simp), if_neg (by omega), if_neg (by omega), hk]
  · have hp : s.srPhase = .streaming := by simpa using hp
    simp only [exec, execFtPadding, atHeader, he, frameGate, hp, skippedFrame, Config.maxFrameLen]
    rw [if_neg (by simp), if_neg (by omega)]
  · have hp : s.srPhase = .streaming := by simpa using hp
    simp only [exec, execFtReservedSkippable, atHeader, he, frameGate, hp, skippedFrame, Config.maxFrameLen]
    rw [if_neg (by simp), if_neg (by omega)]

/-- ReadBody when IN offers too little: it takes what there is, and waits, or meets EOS (46_stream_reader.md R347). -/
theorem readBody_short {i0 h0 : DWord} {k : BodyKind} {len : Nat} {s : State} (h : s.inLatch = false)
    (hn : s.fbuf.length + s.inPending.length < len) :
    readBody i0 h0 k len s =
      let t : State := { s with
        inPending := [], inTaken := s.inTaken + s.inPending.length
        srInpos := s.srInpos + BitVec.ofNat 64 s.inPending.length
        fbuf := s.fbuf ++ s.inPending }
      if s.inEos then srFail .corrupt h0 { t with inLatch := true } else { t with engine := .body i0 h0 k len } := by
  have tk : s.inPending.take (len - s.fbuf.length) = s.inPending := List.take_of_length_le (by omega)
  simp only [readBody, inPeek, inAvailable, h, tk, Bool.false_eq_true, if_false]
  rw [if_neg (by simp; omega)]
  cases hE : s.inEos <;> simp [inAtEos, latchEos, inConsume]

end Sys2Proof.Machine
end

