-- ==== Sys2Proof/Laws/Writer.lean ====
section
/-! SUPPORT. What the writer's actions do, under any OUT sink and while it accepts everything. -/

namespace Sys2Proof.Machine

theorem outAccepts_none {s : State} (h : s.outRoom = none) (n : Nat) : outAccepts s n = n := by
  simp [outAccepts, h]

theorem outPut_none {s : State} (h : s.outRoom = none) (bs : List Byte) :
    outPut bs.length bs s = { s with out := s.out ++ bs } := by
  simp [outPut, h]

/-- OutPut of bytes that are all accepted (20_memory.md R78). -/
theorem runWriter_put {s : State} (resLen : Nat) (bs : List Byte) (ops : List WriterOp) (o : Nat)
    (h : s.outRoom = none) :
    runWriter resLen (.put bs :: ops) o s = runWriter resLen ops (o + bs.length) { s with out := s.out ++ bs } := by
  rw [runWriter]
  simp only [outAccepts_none h, if_true, outPut_none h]

/-- EmitFrame of IBUF, all of it accepted (45_stream_writer.md R305). -/
theorem runWriter_frame {s : State} (resLen : Nat) (ops : List WriterOp) (o : Nat) (h : s.outRoom = none) :
    runWriter resLen (.frame :: ops) o s =
      runWriter resLen ops (o + (frameBytes s.cfg s.ibuf).length)
        { s with out := s.out ++ frameBytes s.cfg s.ibuf, ibuf := [] } := by
  rw [runWriter]
  simp only [outAccepts_none h, if_true, outPut_none h]

/-- The marker, if it is owed (45_stream_writer.md R304). -/
theorem runWriter_marker {s : State} (resLen : Nat) (ops : List WriterOp) (h : s.outRoom = none)
    (hc : s.swState ≠ .closed) :
    runWriter resLen (markerOps s ++ ops) 0 s =
      runWriter resLen ops (markerOwed s).length
        { s with swState := .active, out := s.out ++ markerOwed s } := by
  unfold markerOps markerOwed
  by_cases hs : s.swState = .unstarted
  · simp only [hs, if_true, List.cons_append, List.nil_append]
    rw [runWriter_put (h := h), runWriter]
    simp
  · have ha : s.swState = .active := by
      cases e : s.swState <;> simp_all
    simp only [if_neg hs, List.nil_append, List.length_nil, List.append_nil, ← ha]

/-- EmitFrame is OutPut of the frame, then IBUF_LEN <- 0, under every sink (45_stream_writer.md R305). -/
theorem runWriter_frame_put (resLen : Nat) (ops : List WriterOp) (o : Nat) (s : State) :
    runWriter resLen (.frame :: ops) o s = runWriter resLen (.put (frameBytes s.cfg s.ibuf) :: .empty :: ops) o s := by
  simp only [runWriter]

/-- The cursor a writer command came from does not matter: it completes, or waits with a cursor of its own. -/
theorem runWriter_engine (resLen : Nat) (ops : List WriterOp) (o : Nat) (s : State) (g : Engine) :
    runWriter resLen ops o { s with engine := g } = runWriter resLen ops o s := by
  induction ops generalizing o s with
  | nil => rfl
  | cons op ops ih =>
    cases op with
    | put bs =>
      rw [runWriter, runWriter]
      by_cases h : outAccepts s bs.length = bs.length
      · exact (if_pos h).trans ((ih _ (outPut (outAccepts s bs.length) bs s)).trans (if_pos h).symm)
      · exact (if_neg h).trans (if_neg h).symm
    | activate => exact ih o { s with swState := .active }
    | fill k n => exact ih o { s with ibuf := s.ibuf ++ sourceSlice k n s }
    | frame =>
      rw [runWriter, runWriter]
      by_cases h : outAccepts s (frameBytes s.cfg s.ibuf).length = (frameBytes s.cfg s.ibuf).length
      · exact (if_pos h).trans ((ih _ { outPut (outAccepts s (frameBytes s.cfg s.ibuf).length) (frameBytes s.cfg s.ibuf) s with
          ibuf := [] }).trans (if_pos h).symm)
      · exact (if_neg h).trans (if_neg h).symm
    | empty => exact ih o { s with ibuf := [] }
    | close => exact ih o { s with swState := .closed }

/-- The slices of a byte sequence leave less than a block (45_stream_writer.md R303). -/
theorem refSlices_keep (p : Params) (fuel : Nat) (bs : List Byte) (h : bs.length / Config.maxBlock ≤ fuel) :
    (refSlices p fuel bs).2.length < Config.maxBlock := by
  induction fuel generalizing bs with
  | zero =>
    simp only [refSlices, Config.maxBlock] at *
    omega
  | succ fuel ih =>
    simp only [refSlices]
    split
    · assumption
    · refine ih _ ?_
      simp only [List.length_drop, Config.maxBlock] at *
      omega

/-- The loop of SW_WRITE frames IBUF and the source as one sequence, cut after every 65536th byte (45_stream_writer.md
R303). -/
theorem runWriter_fill (resLen fuel refFuel : Nat) (s : State) (k n o : Nat) (h : s.outRoom = none)
    (hi : s.ibuf.length < Config.maxBlock) (hf : (s.ibuf.length + n) / Config.maxBlock < fuel)
    (hr : (s.ibuf.length + n) / Config.maxBlock ≤ refFuel) :
    runWriter resLen (fillOps fuel s.ibuf.length k n) o s =
      finish resLen (o + (refSlices s.cfg refFuel (s.ibuf ++ sourceSlice k n s)).1.length)
        { s with
          ibuf := (refSlices s.cfg refFuel (s.ibuf ++ sourceSlice k n s)).2
          out := s.out ++ (refSlices s.cfg refFuel (s.ibuf ++ sourceSlice k n s)).1 } := by
  induction fuel generalizing refFuel s k n o with
  | zero => exact absurd hf (Nat.not_lt_zero _)
  | succ fuel ih =>
    have hl : (s.ibuf ++ sourceSlice k n s).length = s.ibuf.length + n := by simp [sourceSlice]
    simp only [Config.maxBlock] at hi hf hr ih
    simp only [fillOps, Config.maxBlock]
    by_cases hn : n < 65536 - s.ibuf.length
    · rw [if_pos hn]
      have e : refSlices s.cfg refFuel (s.ibuf ++ sourceSlice k n s) = ([], s.ibuf ++ sourceSlice k n s) := by
        cases refFuel with
        | zero => rfl
        | succ m => rw [refSlices, if_pos (by rw [hl]; simp only [Config.maxBlock]; omega)]
      rw [e, runWriter, runWriter]
      simp
    · rw [if_neg hn]
      obtain ⟨m, rfl⟩ : ∃ m, refFuel = m + 1 := ⟨refFuel - 1, by omega⟩
      have cut : s.ibuf ++ sourceSlice k n s =
          (s.ibuf ++ sourceSlice k (65536 - s.ibuf.length) s) ++
            sourceSlice (k + (65536 - s.ibuf.length)) (n - (65536 - s.ibuf.length)) s := by
        unfold sourceSlice
        rw [List.append_assoc, ← Nat.add_assoc, Memory.read_append]
        congr 2
        omega
      have hb : (s.ibuf ++ sourceSlice k (65536 - s.ibuf.length) s).length = 65536 := by
        simp [sourceSlice]; omega
      have ht : (s.ibuf ++ sourceSlice k n s).take 65536 = s.ibuf ++ sourceSlice k (65536 - s.ibuf.length) s := by
        rw [cut]; exact List.take_left' hb
      have hd : (s.ibuf ++ sourceSlice k n s).drop 65536 =
          sourceSlice (k + (65536 - s.ibuf.length)) (n - (65536 - s.ibuf.length)) s := by
        rw [cut]; exact List.drop_left' hb
      rw [runWriter, runWriter_frame _ _ _ (show State.outRoom { s with ibuf := s.ibuf ++ sourceSlice k (65536 - s.ibuf.length) s } = none from h)]
      have := ih m
        { s with
          ibuf := []
          out := s.out ++ frameBytes s.cfg (s.ibuf ++ sourceSlice k (65536 - s.ibuf.length) s) }
        (k + (65536 - s.ibuf.length)) (n - (65536 - s.ibuf.length))
        (o + (frameBytes s.cfg (s.ibuf ++ sourceSlice k (65536 - s.ibuf.length) s)).length)
        h (by simp) (by simp; omega) (by simp; omega)
      simp only [List.length_nil, List.nil_append] at this
      rw [this, refSlices, if_neg (by rw [hl]; simp only [Config.maxBlock]; omega)]
      simp only [Config.maxBlock, ht, hd]
      simp [sourceSlice, Nat.add_assoc]

end Sys2Proof.Machine
end

