-- ==== Sys2Proof/Laws/Consistent.lean ====
section
/-! SUPPORT. How the shared operations keep the parts of `Consistent`: `AtRest` is `Consistent` but for the engine,
`Running` adds the clean record of a running command. -/

namespace Sys2Proof.Machine

/-- `Consistent` without the clauses about the engine, IBUF as between commands. -/
structure AtRest (s : State) : Prop where
  legal : s.cfg.Legal
  memory : Memory.wf s.mem
  before : Memory.wf s.memBefore
  ibuf : s.ibuf.length < Config.maxBlock
  leftOrder : s.leftRd ≤ s.leftEnd
  leftMax : s.leftEnd ≤ Config.maxBlock
  leftHeld : s.leftRd < s.leftEnd → s.leftEnd ≤ s.dbuf.length

/-- `AtRest` with the record of a command that runs, DONE = 0, ERR = 0 (40_commands.md R110), and its DST as it found it from
the d-th byte on (70_reset_and_hazards.md R460). -/
structure Running (d : Nat) (s : State) : Prop extends AtRest s where
  done : s.done = false
  err : s.err = .ok
  kept : DstKept d s

theorem Consistent.atRest {s} (h : Consistent s) (hw : ∀ w, s.engine ≠ .writer w) : AtRest s :=
  ⟨h.legal, h.memory, h.before, h.ibufRest hw, h.leftOrder, h.leftMax, h.leftHeld⟩
theorem Consistent.running {s} (h : Consistent s) (hw : ∀ w, s.engine ≠ .writer w) (hi : s.engine ≠ .idle) :
    Running (dstWritten s) s :=
  have hb := (busy_eq_true_iff s).mpr hi
  ⟨h.atRest hw, (h.record hb).1, (h.record hb).2, h.kept hb⟩
theorem AtRest.complete {s} (h : AtRest s) (c l v p) : Consistent (complete c l v p s) :=
  ⟨h.legal, h.memory, h.before, by simp, fun _ => h.ibuf, Nat.le_of_lt h.ibuf, h.leftOrder, h.leftMax, h.leftHeld, trivial, by simp⟩
theorem AtRest.scramble {s} (h : AtRest s) : AtRest (scrambleDst s) :=
  ⟨h.legal, Memory.write_wf h.memory _ _, h.before, h.ibuf, h.leftOrder, h.leftMax, h.leftHeld⟩
theorem AtRest.mem {s} (h : AtRest s) (a bs) : AtRest { s with mem := Memory.write s.mem a bs } :=
  ⟨h.legal, Memory.write_wf h.memory _ _, h.before, h.ibuf, h.leftOrder, h.leftMax, h.leftHeld⟩
/-- `dstWritten` of a decoder at the cursor `c`. -/
def blockWritten (u : BlockUser) (c : BlockCursor) : Nat := if u = .bdec then c.d else 0
theorem dstWritten_block {s c u} (h : s.engine = .block c u) : dstWritten s = blockWritten u c := by
  unfold dstWritten blockWritten; rw [h]; cases u <;> rfl
theorem DstKept.mono {d d' s} (h : DstKept d s) (hd : d ≤ d') : DstKept d' s :=
  fun hu a h1 h2 => h hu a h1 (by omega)
/-- Bytes written at the d-th byte of DST leave the later ones as they were. -/
theorem DstKept.write {d s} (h : DstKept d s) (bs) :
    DstKept (d + bs.length) { s with mem := Memory.write s.mem (s.latch.dstAddr.toNat + d) bs } := by
  intro hu a h1 h2
  have h2 : s.latch.dstAddr.toNat + (d + bs.length) ≤ a := h2
  refine (Memory.get_write_outside (by omega)).trans (h hu a h1 (by omega))
theorem AtRest.raiseDst {s} (h : AtRest s) (c p) : Consistent (raiseDst c p s) := h.scramble.complete _ _ _ _
theorem AtRest.srErr {s} (h : AtRest s) (e) : AtRest { s with srErr := e } :=
  ⟨h.legal, h.memory, h.before, h.ibuf, h.leftOrder, h.leftMax, h.leftHeld⟩
theorem AtRest.srFail {s} (h : AtRest s) (e p) : Consistent (srFail e p s) := (h.srErr e).raiseDst _ _
theorem AtRest.blockCorrupt {s} (h : AtRest s) (u p) : Consistent (blockCorrupt u p s) := by
  cases u; exacts [h.raiseDst _ _, h.srFail _ _]
theorem AtRest.blockUnsupported {s} (h : AtRest s) (u p) : Consistent (blockUnsupported u p s) := by
  cases u; exacts [h.raiseDst _ _, h.srFail _ _]
theorem AtRest.blockTooLarge {s} (h : AtRest s) (u) : Consistent (blockTooLarge u s) := by
  cases u; exacts [h.raiseDst _ _, h.srFail _ _]
theorem AtRest.blockDstSmall {s} (h : AtRest s) (u n) : Consistent (blockDstSmall u n s) := by
  cases u; exacts [h.complete _ _ _ _, h.srFail _ _]
theorem Running.engine {d s} (h : Running d s) (e) (hd : d ≤ dstWritten { s with engine := e })
    (hc : EngineInv { s with engine := e }) : Consistent { s with engine := e } :=
  ⟨h.legal, h.memory, h.before, fun _ => ⟨h.done, h.err⟩, fun _ => h.ibuf, Nat.le_of_lt h.ibuf, h.leftOrder, h.leftMax, h.leftHeld, hc,
    fun _ => DstKept.mono (s := s) h.kept hd⟩

theorem Running.readerLoop {s} (h : Running 0 s) (i0) (hr : s.latch.op = 0x30#8 ∧ dstValid s = true ∧ 0 < s.latch.dstCap.toNat ∧ s.srErr = .none) : Consistent (readerLoop i0 s) := by
  unfold Machine.readerLoop
  split
  · rename_i e
    exact h.engine _ (Nat.zero_le _) ⟨⟨hr.1, hr.2.1, hr.2.2.1, hr.2.2.2, e⟩, by simp⟩
  · rename_i e
    have := h.leftOrder
    simp only [deliver, finish]
    refine AtRest.complete (s := { s with mem := Memory.write s.mem s.latch.dstAddr.toNat (leftoverBytes (deliverCount s) s), leftRd := s.leftRd + deliverCount s }) ⟨h.legal, Memory.write_wf h.memory _ _, h.before, h.ibuf, ?_, h.leftMax, ?_⟩ _ _ _ _
    · simp [deliverCount, State.leftover]; omega
    · intro _; simp; exact h.leftHeld (by omega)
theorem Running.dataFrameDone {s} (h : Running 0 s) (i0 h0) (hr : ReaderRunning s) (hd : s.dbuf.length ≤ Config.maxBlock) : Consistent (dataFrameDone i0 h0 s) := by
  unfold Machine.dataFrameDone
  split
  · exact h.srFail _ _
  · exact Running.readerLoop (s := { s with leftRd := 0, leftEnd := s.dbuf.length }) ⟨⟨h.legal, h.memory, h.before, h.ibuf, by simp, hd, by simp⟩, h.done, h.err, h.kept⟩ _ ⟨hr.1, hr.2.1, hr.2.2.1, hr.2.2.2.1⟩
theorem Running.blockDone {d s} (h : Running d s) (u n) (h0 : u ≠ .bdec → d = 0) (hr : BlockRunning u s) (hd : u ≠ .bdec → s.dbuf.length ≤ Config.maxBlock) : Consistent (blockDone u n s) := by
  cases u with
  | bdec => exact h.complete _ _ _ _
  | frame i0 h0' => exact Running.dataFrameDone (h0 (by simp) ▸ h) _ _ hr.1 (hd (by simp))
theorem Running.blockLoop {d s} (h : Running d s) (u) (c : BlockCursor) (h0 : d ≤ blockWritten u c) (hr : BlockRunning u s) (h1 : c.d ≤ c.n) (h2 : c.n ≤ blockCapacity u s) (h3 : c.n ≤ s.cfg.maxDecodedLen.toNat) (h4 : u ≠ .bdec → c.d = s.dbuf.length) : Consistent (blockLoop u c s) := by
  unfold Machine.blockLoop
  split
  · rename_i e
    refine h.engine _ (by rw [dstWritten_block rfl]; exact h0) ⟨?_, ?_, h1, ?_, h3, h4⟩
    · cases u <;> exact hr
    · cases u <;> exact e
    · cases u <;> exact h2
  split
  · exact h.blockCorrupt _ _
  · refine h.blockDone _ _ (fun hu => ?_) hr (fun hu => ?_)
    · cases u with
      | bdec => exact absurd rfl hu
      | frame _ _ => exact Nat.le_zero.mp h0
    rw [← h4 hu]
    cases u with
    | bdec => exact absurd rfl hu
    | frame i0 h0 => simp [blockCapacity] at h2; simp only [Config.maxBlock] at *; omega
theorem Running.blockBegin {s} (h : Running 0 s) (u n used) (hr : BlockRunning u s) (h4 : u ≠ .bdec → s.dbuf = []) : Consistent (blockBegin u n used s) := by
  unfold Machine.blockBegin
  split
  · exact h.blockTooLarge _
  split
  · exact h.blockDstSmall _ _
  · rename_i e1 e2
    refine h.blockLoop _ _ (Nat.zero_le _) hr (by simp) (by simpa using e2) (by simpa using e1) (fun hu => by simp [h4 hu])
theorem Running.prefixBegin {s} (h : Running 0 s) (u) (hr : BlockRunning u s) (h4 : u ≠ .bdec → s.dbuf = []) : Consistent (prefixBegin u s) := by
  unfold Machine.prefixBegin
  split
  · exact h.blockCorrupt _ _
  · rename_i e
    refine h.engine _ (Nat.zero_le _) ⟨⟨?_, h4⟩, ?_, by simp, by simp⟩
    · cases u <;> exact hr
    · show 0 < varintLimit (.ofBlock u) _
      simp only [varintLimit]; cases u <;> exact Nat.pos_of_ne_zero e
theorem Running.varintFail {s} (h : Running 0 s) (u) : Consistent (varintFail u s) := by
  cases u with
  | command => exact h.complete _ _ _ _
  | ofBlock b => exact h.blockCorrupt _ _
theorem Running.varintDone {s} (h : Running 0 s) (u x used) (hr : VarintRunning u s) : Consistent (varintDone u x used s) := by
  cases u with
  | command => exact h.complete _ _ _ _
  | ofBlock b => exact h.blockBegin _ _ _ hr.1 hr.2
theorem varint_or (x : DWord) (g : BitVec 7) (i : Nat) (hi : i < 9) (hx : x.toNat < 2^(7*i)) : (x ||| varintGroup g i).toNat < 2^(7*(i+1)) := by
  have hg := g.isLt
  have lt : g.toNat * 2^(7*i) < 2^64 := 
      calc g.toNat * 2^(7*i) < 2^7 * 2^(7*i) := by apply Nat.mul_lt_mul_of_pos_right <;> simp [hg]
        _ = 2^(7 + 7*i) := by rw [pow_add]
        _ ≤ 2^64 := by apply Nat.pow_le_pow_right; simp; omega
  have e : (varintGroup g i).toNat = g.toNat * 2^(7*i) := by
    simp only [varintGroup, BitVec.toNat_shiftLeft, Nat.shiftLeft_eq, BitVec.toNat_setWidth]
    rw [Nat.mod_eq_of_lt (a := g.toNat) (by omega), Nat.mod_eq_of_lt lt]
  simp only [BitVec.toNat_or, e]
  apply Nat.or_lt_two_pow
  · calc x.toNat < 2^(7*i) := hx
      _ ≤ _ := by apply Nat.pow_le_pow_right; simp; omega
  · calc g.toNat * 2^(7*i) < 2^7 * 2^(7*i) := by apply Nat.mul_lt_mul_of_pos_right <;> simp [hg]
        _ = 2^(7*(i+1)) := by rw [← pow_add]; congr 1; omega
theorem Running.varintContinue {s} (h : Running 0 s) (g c u) (hr : VarintRunning u s) (hi : c.i ≤ 9) (hx : c.x.toNat < 2^(7*c.i)) : Consistent (varintContinue g c u s) := by
  unfold Machine.varintContinue
  split
  · exact h.varintFail _
  · rename_i e
    push Not at e
    refine h.engine _ (Nat.zero_le _) ⟨?_, ?_, by simp; omega, ?_⟩
    · cases u with
      | command => exact hr
      | ofBlock b => cases b <;> exact hr
    · have := e.2
      cases u with
      | command => exact this
      | ofBlock b => cases b <;> exact this
    · exact varint_or _ _ _ (by omega) hx
theorem Running.varintFinish {s} (h : Running 0 s) (g c u) (hr : VarintRunning u s) : Consistent (varintFinish g c u s) := by
  unfold Machine.varintFinish
  split
  · exact h.varintFail _
  · exact h.varintDone _ _ _ hr

theorem Running.outWrite {s} (u) (c : BlockCursor) (h : Running (blockWritten u c) s) (bs)
    (hd : u ≠ .bdec → s.leftRd = s.leftEnd) :
    Running (blockWritten u { c with d := c.d + bs.length }) (outWrite u c.d bs s) := by
  cases u with
  | bdec =>
    exact ⟨⟨h.legal, Memory.write_wf h.memory _ _, h.before, h.ibuf, h.leftOrder, h.leftMax, h.leftHeld⟩, h.done, h.err,
      DstKept.write (s := s) h.kept bs⟩
  | frame i0 h0 =>
    exact ⟨⟨h.legal, h.memory, h.before, h.ibuf, h.leftOrder, h.leftMax,
      fun h' => absurd (hd (by simp)) (by simp [Machine.outWrite] at h'; omega)⟩, h.done, h.err, h.kept⟩
theorem running_outWrite {s u d bs} (h : BlockRunning u s) : BlockRunning u (Machine.outWrite u d bs s) := by
  cases u <;> exact h
theorem Running.chunk {s} (u) (c c' : BlockCursor) (h : Running (blockWritten u c) s) (bs : List Byte) (hr : BlockRunning u s)
    (hd : u ≠ .bdec → c.d = s.dbuf.length) (hb : c'.d = c.d + bs.length) (h1 : c'.d ≤ c'.n)
    (h2 : c'.n ≤ blockCapacity u s) (h3 : c'.n ≤ s.cfg.maxDecodedLen.toNat) :
    Consistent (Machine.blockLoop u c' (Machine.outWrite u c.d bs s)) := by
  refine (h.outWrite u c bs ?_).blockLoop _ _ ?_ (running_outWrite hr) h1 ?_ ?_ ?_
  · intro hu; cases u with
    | bdec => exact absurd rfl hu
    | frame i0 h0 => exact hr.1.2.2.2.2
  · unfold blockWritten; split <;> simp [hb]
  · cases u <;> exact h2
  · cases u <;> exact h3
  · intro hu; cases u with
    | bdec => exact absurd rfl hu
    | frame i0 h0 =>
      have := hd hu
      simp [Machine.outWrite]; omega
theorem Running.literalBody {s} (u c len hd) (h : Running (blockWritten u c) s) (hr : BlockRunning u s) (h1 : c.d ≤ c.n) (h2 : c.n ≤ blockCapacity u s) (h3 : c.n ≤ s.cfg.maxDecodedLen.toNat) (h4 : u ≠ .bdec → c.d = s.dbuf.length) : Consistent (literalBody u c len hd s) := by
  unfold Machine.literalBody
  split
  · exact h.blockCorrupt _ _
  split
  · exact h.blockCorrupt _ _
  · rename_i e1 e2
    refine h.chunk u c _ _ hr h4 ?_ (by simp; omega) h2 h3
    cases u with
    | bdec => simp [blockBytes]
    | frame i0 h0 => have := hr.2.1; simp [blockLength, blockBytes] at e2 ⊢; omega
theorem Running.copyBody {s} (u c off len sz) (h : Running (blockWritten u c) s) (hr : BlockRunning u s) (h1 : c.d ≤ c.n) (h2 : c.n ≤ blockCapacity u s) (h3 : c.n ≤ s.cfg.maxDecodedLen.toNat) (h4 : u ≠ .bdec → c.d = s.dbuf.length) : Consistent (copyBody u c off len sz s) := by
  unfold Machine.copyBody
  split
  · exact h.blockCorrupt _ _
  split
  · exact h.blockCorrupt _ _
  · rename_i e1 e2
    unfold decompress
    refine h.chunk u c _ _ hr h4 ?_ (by simp; omega) h2 h3
    rw [repeatPattern_length]
    refine List.ne_nil_of_length_pos ?_
    cases u with
    | bdec => simp [outBytes]; omega
    | frame i0 h0 => have := h4 (by simp); simp [outBytes]; omega
theorem AtRest.inConsume {s} (h : AtRest s) (n) : AtRest (inConsume n s) := ⟨h.legal, h.memory, h.before, h.ibuf, h.leftOrder, h.leftMax, h.leftHeld⟩
theorem Running.inConsume {s} (h : Running 0 s) (n) : Running 0 (inConsume n s) := ⟨h.toAtRest.inConsume n, h.done, h.err, h.kept⟩
theorem Running.fbuf {s} (h : Running 0 s) (b) : Running 0 { s with fbuf := b } := ⟨⟨h.legal, h.memory, h.before, h.ibuf, h.leftOrder, h.leftMax, h.leftHeld⟩, h.done, h.err, h.kept⟩
theorem AtRest.latchEos {s} (h : AtRest s) : AtRest (latchEos s) := ⟨h.legal, h.memory, h.before, h.ibuf, h.leftOrder, h.leftMax, h.leftHeld⟩
theorem Running.bodyDone {s} (h : Running 0 s) (i0 h0 k len) (hr : ReaderRunning s) (hk : BodyKind.lengthOk k len) (hl : s.fbuf.length = len) : Consistent (bodyDone i0 h0 k s) := by
  cases k with
  | compressed => 
    refine Running.prefixBegin (s := { s with dbuf := [] }) ⟨⟨h.legal, h.memory, h.before, h.ibuf, h.leftOrder, h.leftMax, fun h' => absurd hr.2.2.2.2 (Nat.ne_of_lt h')⟩, h.done, h.err, h.kept⟩ _ ⟨hr, hl ▸ hk.1, hl ▸ hk.2⟩ (by simp)
  | uncompressed =>
    have m : Running 0 { s with dbuf := s.fbuf.drop 4 } := ⟨⟨h.legal, h.memory, h.before, h.ibuf, h.leftOrder, h.leftMax, fun h' => absurd hr.2.2.2.2 (Nat.ne_of_lt h')⟩, h.done, h.err, h.kept⟩
    have hr' : ReaderRunning { s with dbuf := s.fbuf.drop 4 } := hr
    have hl2 : (s.fbuf.drop 4).length ≤ Config.maxBlock := by
      have := hk.2; rw [List.length_drop, hl]; simp only [Config.maxBlock] at *; omega
    exact m.dataFrameDone i0 h0 hr' hl2
  | streamId =>
    unfold Machine.bodyDone streamIdBody
    simp only
    split
    · exact h.srFail _ _
    · exact Running.readerLoop (s := { s with srPhase := .streaming }) ⟨⟨h.legal, h.memory, h.before, h.ibuf, h.leftOrder, h.leftMax, h.leftHeld⟩, h.done, h.err, h.kept⟩ _ ⟨hr.1, hr.2.1, hr.2.2.1, hr.2.2.2.1⟩
  | skipped => exact h.readerLoop _ ⟨hr.1, hr.2.1, hr.2.2.1, hr.2.2.2.1⟩
theorem Running.readBody {s} (h : Running 0 s) (i0 h0 k len) (hr : ReaderRunning s) (hk : BodyKind.lengthOk k len) (hl : s.fbuf.length ≤ len) : Consistent (readBody i0 h0 k len s) := by
  unfold Machine.readBody
  have := inPeek_length_le (len - s.fbuf.length) s
  have hm : Running 0 (Machine.inConsume (inPeek (len - s.fbuf.length) s).length { s with fbuf := s.fbuf ++ inPeek (len - s.fbuf.length) s }) := (h.fbuf _).inConsume _
  simp only
  split
  · rename_i e
    refine hm.bodyDone i0 h0 k len hr hk ?_
    simp at e ⊢; omega
  split
  · exact hm.latchEos.srFail _ _
  · rename_i e1 e2
    exact hm.engine _ (Nat.zero_le _) ⟨hr, by simpa using e1, hk⟩
theorem Running.frameGate {s} (h : Running 0 s) (m) (len : BitVec 24) (f : DWord → DWord → State → State) (i0 h0) (hf : (¬ len.toNat > Config.maxFrameLen) → Consistent (f i0 h0 { s with fbuf := [] })) : Consistent (frameGate m len f i0 h0 s) := by
  unfold Machine.frameGate
  split
  · exact h.srFail _ _
  split
  · exact h.srFail _ _
  · exact hf (by assumption)
theorem Running.frameInstr {s t} (h : Running 0 s) (ty len i0 h0 hh) (hr : ReaderRunning s) (he : s.engine = .header i0 h0 hh) (hn : exec (Sys2Proof.frameInstr s.cfg.muMax ty len) s = .next t) : Consistent t := by
  unfold Sys2Proof.frameInstr at hn
  have hr' : ReaderRunning { s with fbuf := [] } := hr
  split at hn
  · simp only [exec, execFtCompressed, atHeader, he, Host.Outcome.next.injEq] at hn
    subst hn
    refine h.frameGate _ _ _ _ _ (fun hl => ?_)
    unfold compressedFrame
    split
    · exact (h.fbuf []).srFail _ _
    · exact (h.fbuf []).readBody _ _ _ _ hr' ⟨by omega, by omega⟩ (by simp)
  split at hn
  · simp only [exec, execFtUncompressed, atHeader, he, Host.Outcome.next.injEq] at hn
    subst hn
    refine h.frameGate _ _ _ _ _ (fun hl => ?_)
    unfold uncompressedFrame
    split
    · exact (h.fbuf []).srFail _ _
    split
    · exact (h.fbuf []).srFail _ _
    · exact (h.fbuf []).readBody _ _ _ _ hr' ⟨by omega, by omega⟩ (by simp)
  split at hn
  · simp only [exec, execFtStreamId, atHeader, he, Host.Outcome.next.injEq] at hn
    subst hn
    refine h.frameGate _ _ _ _ _ (fun hl => ?_)
    unfold streamIdFrame
    split
    · exact (h.fbuf []).srFail _ _
    · exact (h.fbuf []).readBody _ _ _ _ hr' rfl (by simp)
  split at hn
  · simp only [exec, execFtPadding, atHeader, he, Host.Outcome.next.injEq] at hn
    subst hn
    exact h.frameGate _ _ _ _ _ (fun hl => (h.fbuf []).readBody _ _ _ _ hr' (Nat.le_of_not_lt hl) (by simp))
  split at hn
  · simp only [exec, execFtReservedUnskippable, atHeader, he, Host.Outcome.next.injEq] at hn
    subst hn
    exact h.frameGate _ _ _ _ _ (fun hl => (h.fbuf []).srFail _ _)
  · simp only [exec, execFtReservedSkippable, atHeader, he, Host.Outcome.next.injEq] at hn
    subst hn
    exact h.frameGate _ _ _ _ _ (fun hl => (h.fbuf []).readBody _ _ _ _ hr' (Nat.le_of_not_lt hl) (by simp))

/-- What `Consistent` says of a state in the middle of a writer command, but for what is left to do. -/
structure WriterRunning (s : State) : Prop where
  legal : s.cfg.Legal
  memory : Memory.wf s.mem
  before : Memory.wf s.memBefore
  done : s.done = false
  err : s.err = .ok
  ibufMax : s.ibuf.length ≤ Config.maxBlock
  leftOrder : s.leftRd ≤ s.leftEnd
  leftMax : s.leftEnd ≤ Config.maxBlock
  leftHeld : s.leftRd < s.leftEnd → s.leftEnd ≤ s.dbuf.length
  op : s.latch.op ∈ [0x20#8, 0x21#8, 0x22#8]
  src : s.latch.op = 0x20#8 → srcValid s = true
theorem Running.w {d s} (h : Running d s) (h1 : s.latch.op ∈ [0x20#8, 0x21#8, 0x22#8]) (h2 : s.latch.op = 0x20#8 → srcValid s = true) : WriterRunning s :=
  ⟨h.legal, h.memory, h.before, h.done, h.err, Nat.le_of_lt h.ibuf, h.leftOrder, h.leftMax, h.leftHeld, h1, h2⟩
theorem WriterRunning.out {s} (h : WriterRunning s) (n bs) : WriterRunning (outPut n bs s) := ⟨h.legal, h.memory, h.before, h.done, h.err, h.ibufMax, h.leftOrder, h.leftMax, h.leftHeld, h.op, h.src⟩
theorem WriterRunning.ib {s} (h : WriterRunning s) (b) (hb : b.length ≤ Config.maxBlock) : WriterRunning {s with ibuf := b} := ⟨h.legal, h.memory, h.before, h.done, h.err, hb, h.leftOrder, h.leftMax, h.leftHeld, h.op, h.src⟩
theorem WriterRunning.sw {s} (h : WriterRunning s) (b) : WriterRunning {s with swState := b} := ⟨h.legal, h.memory, h.before, h.done, h.err, h.ibufMax, h.leftOrder, h.leftMax, h.leftHeld, h.op, h.src⟩
theorem usesDst_writer {op : Byte} (h : op ∈ [0x20#8, 0x21#8, 0x22#8]) : usesDst (decodeOpcode op) = false := by
  simp only [List.mem_cons, List.not_mem_nil, or_false] at h
  rcases h with rfl | rfl | rfl <;> rfl
theorem WriterRunning.stall {s} (h : WriterRunning s) (hc : s.swState ≠ .closed) (r o bs ops) (hb : bs ≠ []) (ho : writerOpsOk s.latch.srcLen.toNat s.ibuf.length (.put bs :: ops)) :
   Consistent { s with engine := .writer { resLen := r, o := o, todo := .put bs :: ops } } :=
  ⟨h.legal, h.memory, h.before, fun _ => ⟨h.done, h.err⟩, fun h => absurd rfl (h _), h.ibufMax, h.leftOrder, h.leftMax, h.leftHeld, ⟨h.op, h.src, hc, ⟨_, _, rfl, hb⟩, ho⟩, fun _ hu => absurd hu (by simp [runningInstr, usesDst_writer h.op])⟩
theorem outAccepts_le (s n) : outAccepts s n ≤ n := by unfold outAccepts; split; simp; omega
theorem WriterRunning.run (r) (ops : List WriterOp) (o) (s) (h : WriterRunning s) (hc : s.swState ≠ .closed ∨ (ops = [])) (ho : writerOpsOk s.latch.srcLen.toNat s.ibuf.length ops) : Consistent (runWriter r ops o s) := by
  induction ops generalizing o s with
  | nil =>
    exact AtRest.complete ⟨h.legal, h.memory, h.before, ho, h.leftOrder, h.leftMax, h.leftHeld⟩ _ _ _ _
  | cons op ops ih =>
    replace hc : s.swState ≠ .closed := by simpa using hc
    cases op with
    | put bs =>
      rw [runWriter]
      have := outAccepts_le s bs.length
      simp only
      split
      · exact ih _ _ (h.out _ _) (.inl hc) ho
      · exact (h.out _ _).stall hc _ _ _ _ (by simp; omega) ho
    | activate => rw [runWriter]; exact ih _ _ (h.sw _) (.inl (by simp)) ho
    | fill k n =>
      rw [runWriter]
      refine ih _ _ (h.ib _ ?_) (.inl hc) ?_
      · simp [sourceSlice]; exact ho.2.1
      · have := ho.2.2; simpa [sourceSlice] using this
    | frame =>
      rw [runWriter]
      have := outAccepts_le s (frameBytes s.cfg s.ibuf).length
      simp only
      split
      · exact ih _ _ ((h.out _ _).ib _ (by simp)) (.inl hc) ho.2
      · exact (h.out _ _).stall hc _ _ _ _ (by simp; omega) ho.2
    | empty => rw [runWriter]; exact ih _ _ (h.ib _ (by simp)) (.inl hc) ho
    | close => rw [runWriter]; exact ih _ _ (h.sw _) (.inr ho.2) (by rw [ho.2]; exact ho.1)
theorem fillOps_ok (L fuel held k n) (h1 : held < Config.maxBlock) (h2 : k + n ≤ L) (h3 : (held + n) / Config.maxBlock < fuel) : writerOpsOk L held (fillOps fuel held k n) := by
  induction fuel generalizing held k n with
  | zero => exact absurd h3 (Nat.not_lt_zero _)
  | succ f ih =>
    simp only [Config.maxBlock] at *
    unfold fillOps
    simp only [Config.maxBlock]
    split
    · exact ⟨h2, by simp only [Config.maxBlock]; omega, by simp only [writerOpsOk, Config.maxBlock]; omega⟩
    · exact ⟨by omega, by simp only [Config.maxBlock]; omega, by omega, ih _ _ _ (by omega) (by omega) (by omega)⟩
theorem marker_ok {L held ops} (s : State) (h : writerOpsOk L held ops) : writerOpsOk L held (markerOps s ++ ops) := by
  unfold markerOps; split
  · exact h
  · exact h

end Sys2Proof.Machine
end

