-- ==== Sys2Proof/Laws/Decode.lean ====
section
/-! SUPPORT. Laws of encoded fields (30_encoding.md): what the encoder packs the decoder's field reads give back, and the
other way round. -/

namespace Sys2Proof

/-- A field of N bytes comes back whole (00_scope.md R12). -/
theorem ofNat_leNat_leBytes (w n : Nat) (h : 256 ^ n = 2 ^ w) (v : BitVec w) :
    BitVec.ofNat w (leNat (leBytes n v.toNat)) = v := by
  rw [leNat_leBytes, h, Nat.mod_eq_of_lt v.isLt, BitVec.ofNat_toNat, BitVec.setWidth_eq]

/-- N bytes come back from the field they make. -/
theorem leBytes_ofNat_leNat (w n : Nat) (bs : List Byte) (h : bs.length = n) (hw : 256 ^ n = 2 ^ w) :
    leBytes n (BitVec.ofNat w (leNat bs)).toNat = bs := by
  have l := leNat_lt bs
  rw [h, hw] at l
  rw [BitVec.toNat_ofNat, Nat.mod_eq_of_lt l, ← h, leBytes_leNat]

/-! ### Tag bytes (30_encoding.md R95 to R98) -/

theorem tagKind_tagByte (h : BitVec 6) (k : BitVec 2) : tagKind (tagByte h k) = k := by revert h k; decide
theorem tagHigh_tagByte (h : BitVec 6) (k : BitVec 2) : tagHigh (tagByte h k) = h := by revert h k; decide
theorem tagByte_fields (t : Byte) : tagByte (tagHigh t) (tagKind t) = t := by revert t; decide

theorem tagKind_copy1 (o len : BitVec 3) : tagKind (o ++ len ++ 1#2) = 1#2 := by revert o len; decide
theorem copy1LenField_copy1 (o len : BitVec 3) : copy1LenField (o ++ len ++ 1#2) = len := by revert o len; decide
theorem copy1OffHigh_copy1 (o len : BitVec 3) : copy1OffHigh (o ++ len ++ 1#2) = o := by revert o len; decide
theorem copy1_fields (t : Byte) (h : tagKind t = 1#2) : copy1OffHigh t ++ copy1LenField t ++ 1#2 = t := by
  revert t; decide

/-- The two parts of an 11-bit offset (30_encoding.md R97). -/
theorem offset11_parts (off : BitVec 11) : off.extractLsb' 8 3 ++ off.extractLsb' 0 8 = off := by
  apply BitVec.eq_of_getLsbD_eq
  intro i hi
  rw [show (off.extractLsb' 8 3 ++ off.extractLsb' 0 8).getLsbD i = _ from BitVec.getLsbD_append]
  split
  · simp; omega
  · rw [BitVec.getLsbD_extractLsb', show 8 + (i - 8) = i by omega]
    simp; omega

theorem offset11_high (o : BitVec 3) (b : Byte) : (o ++ b).extractLsb' 8 3 = o := by
  apply BitVec.eq_of_getLsbD_eq
  intro i hi
  rw [BitVec.getLsbD_extractLsb', show (o ++ b).getLsbD (8 + i) = _ from BitVec.getLsbD_append]
  simp [hi]

theorem offset11_low (o : BitVec 3) (b : Byte) : (o ++ b).extractLsb' 0 8 = b := by
  apply BitVec.eq_of_getLsbD_eq
  intro i hi
  rw [BitVec.getLsbD_extractLsb', show (o ++ b).getLsbD (0 + i) = _ from BitVec.getLsbD_append]
  simp [hi]

/-! ### Varint bytes and opcodes (30_encoding.md R93, R91) -/

theorem varintInstr_cont (g : BitVec 7) : varintInstr (1#1 ++ g) = .vbCont g := by revert g; decide
theorem varintInstr_last (g : BitVec 7) : varintInstr (0#1 ++ g) = .vbLast g := by revert g; decide
theorem encode_varintInstr (b : Byte) : encode (varintInstr b) = [b] := by revert b; decide
theorem encode_decodeOpcode (op : Byte) : encode (decodeOpcode op) = encodeOpcode op := by revert op; decide
theorem decodeOpcode_format (op : Byte) : (decodeOpcode op).format = .cmd := by revert op; decide
theorem decodeOpcode_unassigned (op : Byte) (h : op ∉ assignedOpcodes) : decodeOpcode op = .illegal op := by
  revert op; decide

/-- An opcode decodes to a well-formed instruction. -/
theorem decodeOpcode_wellFormed (muMax op : Byte) : (decodeOpcode op).WellFormed muMax := by
  by_cases h : op ∈ assignedOpcodes
  · simp only [assignedOpcodes, List.mem_cons, List.not_mem_nil, or_false] at h
    rcases h with rfl | rfl | rfl | rfl | rfl | rfl | rfl | rfl | rfl | rfl | rfl | rfl <;> rfl
  · rw [decodeOpcode_unassigned op h]
    simpa [Instr.WellFormed, Instr.wellFormed] using h

end Sys2Proof
end

