-- ==== Sys2Proof/Laws/PerInstr.lean ====
section
/-! SUPPORT. Facts about every instruction as syntax, one lemma per constructor. -/

namespace Sys2Proof.Laws

/-- How many bytes an instruction is encoded in: a command word has four (30_encoding.md R90), a tag has those its form
calls for (R96 to R99), a frame header has four (R101), a varint byte is one (R93). -/
def wordLength : Instr → Nat
  | .varintEnc | .varintDec | .varintLen | .maxLen | .benc | .bdec | .swWrite | .swFlush | .swClose | .swReset
  | .srRead | .srReset | .illegal _ => 4
  | .litInline _ => 1
  | .litX1 _ => 2
  | .litX2 _ => 3
  | .litX3 _ => 4
  | .litX4 _ => 5
  | .copy1 _ _ => 2
  | .copy2 _ _ => 3
  | .copy4 _ => 1
  | .ftCompressed _ | .ftUncompressed _ | .ftStreamId _ | .ftPadding _ | .ftReservedUnskippable _ _
  | .ftReservedSkippable _ _ => 4
  | .vbCont _ | .vbLast _ => 1

namespace EncodeLength

/-- The encoder writes as many bytes as the format gives the instruction. -/
def Statement (i : Instr) : Prop := (encode i).length = wordLength i

theorem varintEnc : Statement .varintEnc := rfl
theorem varintDec : Statement .varintDec := rfl
theorem varintLen : Statement .varintLen := rfl
theorem maxLen : Statement .maxLen := rfl
theorem benc : Statement .benc := rfl
theorem bdec : Statement .bdec := rfl
theorem swWrite : Statement .swWrite := rfl
theorem swFlush : Statement .swFlush := rfl
theorem swClose : Statement .swClose := rfl
theorem swReset : Statement .swReset := rfl
theorem srRead : Statement .srRead := rfl
theorem srReset : Statement .srReset := rfl
theorem illegal (op : Byte) : Statement (.illegal op) := rfl
theorem litX1 (m : BitVec 8) : Statement (.litX1 m) := rfl
theorem litX2 (m : BitVec 16) : Statement (.litX2 m) := rfl
theorem litX3 (m : BitVec 24) : Statement (.litX3 m) := rfl
theorem litX4 (m : BitVec 32) : Statement (.litX4 m) := rfl
theorem litInline (h : BitVec 6) : Statement (.litInline h) := rfl
theorem copy1 (len : BitVec 3) (off : BitVec 11) : Statement (.copy1 len off) := rfl
theorem copy2 (len : BitVec 6) (off : BitVec 16) : Statement (.copy2 len off) := rfl
theorem copy4 (h : BitVec 6) : Statement (.copy4 h) := rfl
theorem ftCompressed (len : BitVec 24) : Statement (.ftCompressed len) := rfl
theorem ftUncompressed (len : BitVec 24) : Statement (.ftUncompressed len) := rfl
theorem ftStreamId (len : BitVec 24) : Statement (.ftStreamId len) := rfl
theorem ftPadding (len : BitVec 24) : Statement (.ftPadding len) := rfl
theorem ftReservedUnskippable (ty : Byte) (len : BitVec 24) : Statement (.ftReservedUnskippable ty len) := rfl
theorem ftReservedSkippable (ty : Byte) (len : BitVec 24) : Statement (.ftReservedSkippable ty len) := rfl
theorem vbCont (g : BitVec 7) : Statement (.vbCont g) := rfl
theorem vbLast (g : BitVec 7) : Statement (.vbLast g) := rfl

end EncodeLength

end Sys2Proof.Laws
end

