-- ==== Sys2Proof/Laws/Step.lean ====
section
/-! SUPPORT. Which move a step makes (log 5). -/

namespace Sys2Proof.Machine

/-- An endless source offers one of its chunks where no bytes are left (70_reset_and_hazards.md R464). -/
theorem inRefill_eq (chunks : List (List Byte)) (s : State) :
    inRefill chunks s =
      let bs := chooseFrom [] chunks (Config.freePick s.draws)
      if s.inPending = [] then { s with inPending := bs, inEos := s.inEos && bs.isEmpty, draws := s.draws + 1 } else s := by
  unfold inRefill inOffer
  by_cases e : s.inPending = [] <;> simp [e]

/-- What is chosen from a list that is not empty is one of its elements. -/
theorem chooseFrom_mem {α : Type} (d : α) {l : List α} (h : l ≠ []) (n : Nat) : chooseFrom d l n ∈ l := by
  induction l generalizing n with
  | nil => exact absurd rfl h
  | cons a l ih =>
    cases l with
    | nil => simp [chooseFrom]
    | cons b l =>
      cases n with
      | zero => simp [chooseFrom]
      | succ n => exact List.mem_cons_of_mem _ (ih (by simp) n)

theorem chooseFrom_map {α β : Type} (f : α → β) (d : α) (l : List α) (n : Nat) :
    chooseFrom (f d) (l.map f) n = f (chooseFrom d l n) := by
  induction l generalizing n with
  | nil => rfl
  | cons a l ih =>
    cases l with
    | nil => rfl
    | cons b l =>
      cases n with
      | zero => rfl
      | succ n => exact ih n

/-- A turn of the engine is a step of the engine. -/
theorem EngineTurn.step_eq {s₀ s : State} (h : EngineTurn s₀ s) : step s₀ = engineStep s := by
  rcases h with ⟨rfl, h⟩ | rfl | ⟨rfl, hb, rest, h⟩ | ⟨hb, chunks, rest, bs, h, rfl, hs⟩
  · simp [step, h]
  · rfl
  · simp [step, h, hb]
  · simp only [step, h, hb, if_true, inRefill_eq, hs]

end Sys2Proof.Machine
end

