-- ==== Sys2Proof/Tests/Slice0.lean ====
section
/-! SUPPORT. Tests: ill-formed terms the check refuses, words written out from the spec's encodings, one step of every
instruction against the vectors of spec/95_test_vectors.md, and for every statement with hypotheses a state and operands
that meet them. -/

namespace Sys2Proof.Tests

open Sys2Proof.Machine

/-! ### Well-formedness (30_encoding.md R91, R96, R102) -/

theorem test_wf_refuses_assigned_illegal : ¬ (Instr.illegal 0x11#8).WellFormed 0x7F#8 := by decide
theorem test_wf_accepts_unassigned_illegal : (Instr.illegal 0x00#8).WellFormed 0x7F#8 := by decide
theorem test_wf_refuses_long_inline : ¬ (Instr.litInline 60#6).WellFormed 0x7F#8 := by decide
theorem test_wf_accepts_longest_inline : (Instr.litInline 59#6).WellFormed 0x7F#8 := by decide
theorem test_wf_refuses_uncompressed_as_unskippable : ¬ (Instr.ftReservedUnskippable 0x01#8 0#24).WellFormed 0x7F#8 := by
  decide
theorem test_wf_refuses_skippable_as_unskippable : ¬ (Instr.ftReservedUnskippable 0x80#8 0#24).WellFormed 0x7F#8 := by
  decide
theorem test_wf_refuses_unskippable_as_skippable : ¬ (Instr.ftReservedSkippable 0x7F#8 0#24).WellFormed 0x7F#8 := by
  decide
theorem test_wf_refuses_padding_as_skippable : ¬ (Instr.ftReservedSkippable 0xFE#8 0#24).WellFormed 0x7F#8 := by decide
theorem test_wf_accepts_skippable_range : (Instr.ftReservedSkippable 0xFD#8 0#24).WellFormed 0x7F#8 := by decide

/-! ### Decoding: words written out from the spec's encodings -/

/-- 30_encoding.md R91: the opcode table, each opcode in bits 7:0 of the command word, the bits above ignored (R90). -/
theorem test_decode_commands :
    decodeCommand [0x01#8, 0x00#8, 0x00#8, 0x00#8] = .ok (.varintEnc, []) ∧
    decodeCommand [0x02#8, 0x00#8, 0x00#8, 0x00#8] = .ok (.varintDec, []) ∧
    decodeCommand [0x03#8, 0x00#8, 0x00#8, 0x00#8] = .ok (.varintLen, []) ∧
    decodeCommand [0x10#8, 0x00#8, 0x00#8, 0x00#8] = .ok (.maxLen, []) ∧
    decodeCommand [0x11#8, 0xFF#8, 0xFF#8, 0xFF#8] = .ok (.benc, []) ∧
    decodeCommand [0x12#8, 0x00#8, 0x00#8, 0x00#8] = .ok (.bdec, []) ∧
    decodeCommand [0x20#8, 0x00#8, 0x00#8, 0x00#8] = .ok (.swWrite, []) ∧
    decodeCommand [0x21#8, 0x00#8, 0x00#8, 0x00#8] = .ok (.swFlush, []) ∧
    decodeCommand [0x22#8, 0x00#8, 0x00#8, 0x00#8] = .ok (.swClose, []) ∧
    decodeCommand [0x23#8, 0x00#8, 0x00#8, 0x00#8] = .ok (.swReset, []) ∧
    decodeCommand [0x30#8, 0x00#8, 0x00#8, 0x00#8] = .ok (.srRead, []) ∧
    decodeCommand [0x31#8, 0x00#8, 0x00#8, 0x00#8] = .ok (.srReset, []) ∧
    decodeCommand [0x13#8, 0x00#8, 0x00#8, 0x00#8] = .ok (.illegal 0x13#8, []) ∧
    decodeCommand [0x11#8, 0x00#8, 0x00#8] = .error .shortCommand := by
  refine ⟨rfl, rfl, rfl, rfl, rfl, rfl, rfl, rfl, rfl, rfl, rfl, rfl, rfl, rfl⟩

/-- 30_encoding.md R95, R96: a literal tag is H in bits 7:2 and 00 in bits 1:0; H = 60..63 take 1..4 length bytes, least
significant first (95 BE11 to BE18). -/
theorem test_decode_literals :
    decodeTag [0xEC#8] = .ok (.litInline 59#6, []) ∧
    decodeTag [0xF0#8, 0x3C#8, 0x61#8] = .ok (.litX1 60#8, [0x61#8]) ∧
    decodeTag [0xF4#8, 0x00#8, 0x01#8] = .ok (.litX2 256#16, []) ∧
    decodeTag [0xF8#8, 0x00#8, 0x00#8, 0x01#8] = .ok (.litX3 65536#24, []) ∧
    decodeTag [0xFC#8, 0x00#8, 0x00#8, 0x00#8, 0x01#8] = .ok (.litX4 16777216#32, []) ∧
    decodeTag [0xF8#8, 0x00#8, 0x00#8] = .error .shortChunk := by
  refine ⟨rfl, rfl, rfl, rfl, rfl, rfl⟩

/-- 30_encoding.md R97 to R99: COPY1 is offset[10:8], length - 4, 01, then offset[7:0]; COPY2 is length - 1, 10, then the
offset; COPY4 is any tag with 11 (95 BE21, BE25, BE29; R258 for COPY4). -/
theorem test_decode_copies :
    decodeTag [0xE1#8, 0xFF#8] = .ok (.copy1 0#3 2047#11, []) ∧
    decodeTag [0x1D#8, 0x01#8] = .ok (.copy1 7#3 1#11, []) ∧
    decodeTag [0x2E#8, 0xFF#8, 0x07#8] = .ok (.copy2 11#6 2047#16, []) ∧
    decodeTag [0x03#8] = .ok (.copy4 0#6, []) ∧
    decodeTag [0x2E#8, 0xFF#8] = .error .shortChunk := by
  refine ⟨rfl, rfl, rfl, rfl, rfl⟩

/-- 30_encoding.md R101, R102: TYPE, then LEN in three bytes, least significant first. -/
theorem test_decode_frames :
    decodeHeader 0x7F#8 [0x00#8, 0x0D#8, 0x00#8, 0x00#8] = .ok (.ftCompressed 13#24, []) ∧
    decodeHeader 0x7F#8 [0x01#8, 0xCF#8, 0x2A#8, 0x01#8] = .ok (.ftUncompressed 76495#24, []) ∧
    decodeHeader 0x7F#8 [0xFF#8, 0x06#8, 0x00#8, 0x00#8] = .ok (.ftStreamId 6#24, []) ∧
    decodeHeader 0x7F#8 [0xFE#8, 0x03#8, 0x00#8, 0x00#8] = .ok (.ftPadding 3#24, []) ∧
    decodeHeader 0x7F#8 [0x02#8, 0x00#8, 0x00#8, 0x00#8] = .ok (.ftReservedUnskippable 0x02#8 0#24, []) ∧
    decodeHeader 0x7F#8 [0x7F#8, 0x00#8, 0x00#8, 0x00#8] = .ok (.ftReservedUnskippable 0x7F#8 0#24, []) ∧
    decodeHeader 0x7F#8 [0x80#8, 0x01#8, 0x00#8, 0x00#8] = .ok (.ftReservedSkippable 0x80#8 1#24, []) ∧
    decodeHeader 0x7F#8 [0xFD#8, 0x00#8, 0x00#8, 0x00#8] = .ok (.ftReservedSkippable 0xFD#8 0#24, []) ∧
    decodeHeader 0x7F#8 [0xFD#8, 0x00#8, 0x00#8] = .error .shortHeader := by
  refine ⟨rfl, rfl, rfl, rfl, rfl, rfl, rfl, rfl, rfl⟩

/-- 30_encoding.md R93: the continuation flag is bit 7, the group bits 6:0. -/
theorem test_decode_varint_bytes :
    decodeVarintByte [0xAC#8, 0x02#8] = .ok (.vbCont 0x2C#7, [0x02#8]) ∧
    decodeVarintByte [0x02#8] = .ok (.vbLast 0x02#7, []) ∧ decodeVarintByte [] = .error .noVarintByte := by
  refine ⟨rfl, rfl, rfl⟩

/-- A bare table word is read as log 14 says. -/
theorem test_table_words :
    decodeTableWord 8 0x11 = some .benc ∧ decodeTableWord 8 0x00 = some (.illegal 0x00#8) ∧
    decodeTableWord 8 0xF0 = some (.litX1 0#8) ∧ decodeTableWord 8 0xFF = some (.ftStreamId 0#24) ∧
    decodeTableWord 24 0x01002E = some (.copy2 11#6 256#16) := by
  refine ⟨rfl, rfl, rfl, rfl, rfl⟩

/-! ### Small states -/

/-- The latched operands of a command with opcode `op`, S = (0, srcLen), D = (0x100, dstCap). -/
def latchOf (op : Byte) (srcLen dstCap : Nat) (arg : DWord) : Latch where
  op := op
  srcAddr := 0#32
  srcLen := BitVec.ofNat 32 srcLen
  dstAddr := 0x100#32
  dstCap := BitVec.ofNat 32 dstCap
  arg := arg

/-- A command just issued with the source bytes `src`. -/
def issued (op : Byte) (src : List Byte) (dstCap : Nat) (arg : DWord) : State :=
  { State.reset with
    mem := Memory.write [] 0 src, memBefore := Memory.write [] 0 src
    latch := latchOf op src.length dstCap arg, engine := .dispatch }

/-- A BDEC of `block` at the chunk at `pos`, with `out` decoded of `n` bytes. -/
def atBdecChunk (block out : List Byte) (pos n : Nat) : State :=
  { issued 0x12#8 block 16 0#64 with
    mem := Memory.write (Memory.write [] 0 block) 0x100 out
    engine := .block { s := pos, d := out.length, n := n } .bdec }

/-- An SR_READ at a compressed frame's chunk: `block` in FBUF after four bytes, `out` decoded of `n` bytes. -/
def atFrameChunk (block out : List Byte) (pos n : Nat) : State :=
  { issued 0x30#8 [] 16 0#64 with
    srPhase := .streaming
    fbuf := [0#8, 0#8, 0#8, 0#8] ++ block
    dbuf := out
    engine := .block { s := pos, d := out.length, n := n } (.frame 0#64 0#64) }

/-- An SR_READ in a phase, at a frame header at position `pos`, with `bytes` on IN. -/
def atFrameHeader (phase : SrPhase) (pos : DWord) (bytes : List Byte) : State :=
  { issued 0x30#8 [] 64 0#64 with
    srPhase := phase
    srInpos := pos
    inPending := bytes
    engine := .header 0#64 pos [] }

/-- The same once the four header bytes have been taken. -/
def pastFrameHeader (phase : SrPhase) (bytes : List Byte) : State :=
  { atFrameHeader phase 4#64 bytes with engine := .header 0#64 0#64 [0#8, 0#8, 0#8, 0#8] }

/-- A VARINT_DEC of `src` at byte i with the value x so far. -/
def atVarintByte (src : List Byte) (i : Nat) (x : DWord) : State :=
  { issued 0x02#8 src 0 0#64 with engine := .varint { i := i, x := x } .command }

/-- A block's prefix at byte i. -/
def atPrefixByte (block : List Byte) (i : Nat) : State :=
  { issued 0x12#8 block 16 0#64 with engine := .varint { i := i, x := 0#64 } (.ofBlock .bdec) }

/-- A writer with IBUF = `held` whose sink accepts `room` bytes. -/
def writerWith (op : Byte) (sw : SwState) (held src : List Byte) (room : Option Nat) : State :=
  { issued op src 0 0#64 with swState := sw, ibuf := held, outRoom := room }

/-- The result is a next state of which `p` holds. -/
def answers (r : Result) (p : State → Bool) : Bool :=
  match r with
  | .next t => p t
  | _ => false

/-- The completion record: code, RES_LEN, RES_VAL, ERR_POS. -/
def recorded (code : Code) (resLen resVal pos : Nat) (t : State) : Bool :=
  t.done && !t.busy && decide (t.err = code) && decide (t.resLen.toNat = resLen) && decide (t.resVal.toNat = resVal) &&
    decide (t.errPos.toNat = pos)

def hello : List Byte := [0x68#8, 0x65#8, 0x6C#8, 0x6C#8, 0x6F#8]

/-- The frame of "hello" (95 W3). -/
def helloFrame : List Byte := [0x01#8, 0x09#8, 0x00#8, 0x00#8, 0xBB#8, 0x1F#8, 0x1C#8, 0x19#8] ++ hello

/-! ### One step of every instruction, with results from spec/95_test_vectors.md -/

/-- V5. -/
theorem test_varint_enc : answers (step (issued 0x01#8 [] 10 300#64))
    (fun t => recorded .ok 2 0 0 t && decide (Memory.read t.mem 0x100 3 = [0xAC#8, 0x02#8, 0x00#8])) = true := by decide

/-- V26. -/
theorem test_varint_enc_small : answers (step (issued 0x01#8 [] 1 300#64)) (recorded .dstSmall 0 2 0) = true := by decide

/-- V15. -/
theorem test_varint_dec_empty : answers (step (issued 0x02#8 [] 0 0#64)) (recorded .ok 0 0 0) = true := by decide

/-- V5, read back: the first byte, then the second. -/
theorem test_vb_cont : answers (step (atVarintByte [0xAC#8, 0x02#8] 0 0#64))
    (fun t => decide (t.engine = .varint { i := 1, x := 44#64 } .command)) = true := by decide

theorem test_vb_last : answers (step (atVarintByte [0xAC#8, 0x02#8] 1 44#64)) (recorded .ok 2 300 0) = true := by decide

/-- V7. -/
theorem test_varint_len : answers (step (issued 0x03#8 [] 0 16384#64)) (recorded .ok 3 0 0) = true := by decide

/-- BE4, BE7. -/
theorem test_maxlen : answers (step (issued 0x10#8 [] 0 100#64)) (recorded .ok 0 148 0) = true := by decide
theorem test_maxlen_too_large : answers (step (issued 0x10#8 [] 0 3681400512#64)) (recorded .tooLarge 0 0 0) = true := by
  decide

/-- BE46, "abcd". -/
theorem test_benc : answers (step (issued 0x11#8 [0x61#8, 0x62#8, 0x63#8, 0x64#8] 36 0#64))
    (fun t => recorded .ok 6 0 0 t &&
      decide (Memory.read t.mem 0x100 6 = [0x04#8, 0x0C#8, 0x61#8, 0x62#8, 0x63#8, 0x64#8])) = true := by decide

set_option maxRecDepth 20000 in
/-- BE48, the example of 42_block_encoder.md R219. -/
theorem test_encode_run : encodeBlock Params.default (List.replicate 17 0x61#8) =
    [0x11#8, 0x00#8, 0x61#8, 0x3E#8, 0x01#8, 0x00#8] := by decide

/-- BD10. -/
theorem test_bdec_empty : answers (step (issued 0x12#8 [] 16 0#64)) (recorded .corrupt 0 0 0) = true := by decide

/-- BD5 to BD8. -/
theorem test_lit_x1 : answers (step (atBdecChunk [0x02#8, 0xF0#8, 0x01#8, 0x61#8, 0x62#8] [] 1 2))
    (fun t => recorded .ok 2 2 0 t && decide (Memory.read t.mem 0x100 3 = [0x61#8, 0x62#8, 0x00#8])) = true := by decide

theorem test_lit_x2 : answers (step (atBdecChunk [0x02#8, 0xF4#8, 0x01#8, 0x00#8, 0x61#8, 0x62#8] [] 1 2))
    (fun t => recorded .ok 2 2 0 t && decide (Memory.read t.mem 0x100 3 = [0x61#8, 0x62#8, 0x00#8])) = true := by decide

theorem test_lit_x3 : answers (step (atBdecChunk [0x02#8, 0xF8#8, 0x01#8, 0x00#8, 0x00#8, 0x61#8, 0x62#8] [] 1 2))
    (fun t => recorded .ok 2 2 0 t && decide (Memory.read t.mem 0x100 3 = [0x61#8, 0x62#8, 0x00#8])) = true := by decide

theorem test_lit_x4 : answers (step (atBdecChunk [0x02#8, 0xFC#8, 0x01#8, 0x00#8, 0x00#8, 0x00#8, 0x61#8, 0x62#8] [] 1 2))
    (fun t => recorded .ok 2 2 0 t && decide (Memory.read t.mem 0x100 3 = [0x61#8, 0x62#8, 0x00#8])) = true := by decide

/-- BD2, and BD17: the literal overruns N = 0. -/
theorem test_lit_inline : answers (step (atBdecChunk [0x01#8, 0x00#8, 0x61#8] [] 1 1))
    (fun t => recorded .ok 1 1 0 t && decide (Memory.read t.mem 0x100 2 = [0x61#8, 0x00#8])) = true := by decide

theorem test_lit_inline_overrun : answers (step (atBdecChunk [0x00#8, 0x00#8] [] 1 0)) (recorded .corrupt 0 0 1) = true := by
  decide

/-- BD3, BD22. -/
theorem test_copy1 : answers (step (atBdecChunk [0x05#8, 0x00#8, 0x61#8, 0x01#8, 0x01#8] [0x61#8] 3 5))
    (fun t => recorded .ok 5 5 0 t && decide (Memory.read t.mem 0x100 6 = List.replicate 5 0x61#8 ++ [0x00#8])) = true := by
  decide

theorem test_copy1_offset_zero : answers (step (atBdecChunk [0x05#8, 0x00#8, 0x61#8, 0x01#8, 0x00#8] [0x61#8] 3 5))
    (recorded .corrupt 0 0 3) = true := by decide

/-- BD4, BD34. -/
theorem test_copy2 : answers (step (atBdecChunk
      [0x0D#8, 0x0C#8, 0x61#8, 0x62#8, 0x63#8, 0x64#8, 0x22#8, 0x04#8, 0x00#8] [0x61#8, 0x62#8, 0x63#8, 0x64#8] 6 13))
    (fun t => recorded .ok 13 13 0 t &&
      decide (Memory.read t.mem 0x104 9 =
        [0x61#8, 0x62#8, 0x63#8, 0x64#8, 0x61#8, 0x62#8, 0x63#8, 0x64#8, 0x61#8])) = true := by decide

theorem test_copy2_truncated : answers (step (atBdecChunk
      [0x0D#8, 0x0C#8, 0x61#8, 0x62#8, 0x63#8, 0x64#8, 0x22#8, 0x04#8] [0x61#8, 0x62#8, 0x63#8, 0x64#8] 6 13))
    (recorded .corrupt 0 0 6) = true := by decide

/-- BD36. -/
theorem test_copy4 : answers (step (atBdecChunk
      [0x0D#8, 0x0C#8, 0x61#8, 0x62#8, 0x63#8, 0x64#8, 0x03#8] [0x61#8, 0x62#8, 0x63#8, 0x64#8] 6 13))
    (recorded .unsupported 0 0 6) = true := by decide

/-- W3, its SW_WRITE and what its SW_CLOSE puts. -/
theorem test_sw_write : answers (step (writerWith 0x20#8 .unstarted [] hello none))
    (fun t => recorded .ok 5 10 0 t && decide (t.out = markerBytes) && decide (t.ibuf = hello) &&
      decide (t.swState = .active)) = true := by decide

/-- W8. -/
theorem test_sw_write_closed : answers (step (writerWith 0x20#8 .closed [] hello none)) (recorded .closed 0 0 0) = true := by
  decide

set_option maxRecDepth 20000 in
theorem test_sw_flush : answers (step (writerWith 0x21#8 .active hello [] none))
    (fun t => recorded .ok 5 13 0 t && decide (t.out = helloFrame) && decide (t.ibuf = [])) = true := by decide

/-- W8, its first SW_CLOSE. -/
theorem test_sw_close : answers (step (writerWith 0x22#8 .unstarted [] [] none))
    (fun t => recorded .ok 0 10 0 t && decide (t.out = markerBytes) && decide (t.swState = .closed)) = true := by decide

/-- W9. -/
theorem test_sw_reset : answers (step (writerWith 0x23#8 .active [0x61#8, 0x62#8, 0x63#8] [] none))
    (fun t => recorded .ok 3 0 0 t && decide (t.swState = .unstarted) && decide (t.ibuf = [])) = true := by decide

/-- 20_memory.md R78: with room for three bytes SW_CLOSE has put three of the ten and stays BUSY. -/
theorem test_sw_close_waits : answers (step (writerWith 0x22#8 .unstarted [] [] (some 3)))
    (fun t => t.busy && decide (t.out = [0xFF#8, 0x06#8, 0x00#8])) = true := by decide

/-- SR3, its second read: two bytes of the leftover. -/
theorem test_sr_read_leftover :
    answers (step { issued 0x30#8 [] 2 0#64 with srPhase := .streaming, dbuf := hello, leftRd := 2, leftEnd := 5 })
      (fun t => recorded .ok 2 0 0 t && decide (Memory.read t.mem 0x100 3 = [0x6C#8, 0x6C#8, 0x00#8])) = true := by decide

/-- SR35. -/
theorem test_sr_read_zero : answers (step (issued 0x30#8 [] 0 0#64)) (recorded .ok 0 0 0) = true := by decide

/-- 46_stream_reader.md R369. -/
theorem test_sr_reset :
    answers (step { issued 0x31#8 [] 0 0#64 with srErr := .corrupt, dbuf := hello, leftRd := 2, leftEnd := 5, srInpos := 9#64 })
      (fun t => recorded .ok 3 0 0 t && decide (srStatusImage t = 0#32) && decide (t.srInpos = 0#64)) = true := by decide

/-- 40_commands.md R112. -/
theorem test_illegal : answers (step (issued 0x13#8 [] 0 0#64)) (recorded .illegal 0 0 0) = true := by decide

/-- SR3, its marker, then its frame (64 bytes of room: SR7's first row). -/
theorem test_ft_stream_id : answers (step (atFrameHeader .awaitMarker 0#64 (markerBytes ++ helloFrame)))
    (fun t => decide (t.srPhase = .streaming) && decide (t.engine = .header 0#64 10#64 []) &&
      decide (t.inPending = helloFrame)) = true := by decide

/-- SR19. -/
theorem test_ft_stream_id_wrong : answers (step (atFrameHeader .awaitMarker 0#64
      [0xFF#8, 0x06#8, 0x00#8, 0x00#8, 0x73#8, 0x4E#8, 0x61#8, 0x50#8, 0x70#8, 0x5A#8]))
    (fun t => recorded .corrupt 0 0 0 t && decide (t.srErr = .corrupt)) = true := by decide

set_option maxRecDepth 20000 in
theorem test_ft_uncompressed : answers (step (atFrameHeader .streaming 10#64 helloFrame))
    (fun t => recorded .ok 5 23 0 t && decide (Memory.read t.mem 0x100 5 = hello)) = true := by decide

/-- SR21. -/
theorem test_ft_uncompressed_short : answers (step (atFrameHeader .streaming 10#64
      [0x01#8, 0x03#8, 0x00#8, 0x00#8, 0xAA#8, 0xBB#8, 0xCC#8])) (recorded .corrupt 0 0 10) = true := by decide

/-- SR23: an empty block. -/
theorem test_ft_compressed_empty : answers (step (atFrameHeader .streaming 10#64
      [0x00#8, 0x04#8, 0x00#8, 0x00#8, 0xD8#8, 0xEA#8, 0x82#8, 0xA2#8])) (recorded .corrupt 0 0 10) = true := by decide

/-- SR24: the block 00 follows; the decoder stands at its prefix. -/
theorem test_ft_compressed : answers (step (atFrameHeader .streaming 10#64
      [0x00#8, 0x05#8, 0x00#8, 0x00#8, 0xD8#8, 0xEA#8, 0x82#8, 0xA2#8, 0x00#8]))
    (fun t => decide (t.engine = .varint { i := 0, x := 0#64 } (.ofBlock (.frame 0#64 10#64)))) = true := by decide

/-- SR11, its padding frame. -/
theorem test_ft_padding : answers (step (atFrameHeader .streaming 23#64
      [0xFE#8, 0x03#8, 0x00#8, 0x00#8, 0x00#8, 0x00#8, 0x00#8]))
    (fun t => decide (t.engine = .header 0#64 30#64 []) && decide (t.inPending = [])) = true := by decide

/-- SR13. -/
theorem test_ft_unskippable : answers (step (atFrameHeader .streaming 10#64 [0x02#8, 0x00#8, 0x00#8, 0x00#8]))
    (recorded .unsupported 0 0 10) = true := by decide

/-- SR15, its skippable frame. -/
theorem test_ft_skippable : answers (step (atFrameHeader .streaming 10#64 [0x80#8, 0x01#8, 0x00#8, 0x00#8, 0xAA#8]))
    (fun t => decide (t.engine = .header 0#64 15#64 [])) = true := by decide

/-- SR17: EOS inside a header. -/
theorem test_header_eos :
    answers (step { atFrameHeader .streaming 10#64 [0x01#8, 0x09#8] with inEos := true })
      (fun t => recorded .corrupt 0 0 10 t && t.inLatch) = true := by decide

/-- The CMD write of 40_commands.md R110 from the register window, and its completion raising IRQ (10_state.md R57). -/
theorem test_cmd_write : answers (step { State.reset with argLo := 300#32, events := [.write 0x0C#8 4 0xFFFFFF03#32] })
    (fun t => t.busy && decide (t.latch.op = 0x03#8) && decide (t.latch.arg = 300#64) && decide (t.cmd = 0x03#8)) = true := by
  decide

/-! ### The host's two questions -/

/-- A table word placed where the next step fetches runs as the instruction it decodes to. -/
theorem test_fetch_word_command : answers (step (State.reset.withFetchWord 8 0x03)) (recorded .ok 1 0 0) = true := by decide
theorem test_fetch_word_chunk : answers (step (State.reset.withFetchWord 8 0x0A))
    (recorded .corrupt 0 0 0) = true := by decide
theorem test_fetch_word_frame : answers (step (State.reset.withFetchWord 8 0xFE)) (recorded .corrupt 0 0 0) = true := by decide

/-! ### States and operands that meet the hypotheses of the statements -/

/-- BD3 at its copy chunk. -/
def copyState : State := atBdecChunk [0x05#8, 0x00#8, 0x61#8, 0x01#8, 0x01#8] [0x61#8] 3 5

/-- A BDEC inside its chunks is consistent. -/
theorem test_consistent_bdec : Consistent copyState where
  legal := by decide
  memory := by decide
  before := by decide
  kept := fun _ _ _ _ h => Memory.get_write_outside (Or.inr h)
  record := fun _ => ⟨rfl, rfl⟩
  ibufRest := fun _ => by decide
  ibufMax := by decide
  leftOrder := by decide
  leftMax := by decide
  leftHeld := by decide
  cursors := ⟨⟨rfl, by decide⟩, by decide, by decide, by decide, by decide, fun h => absurd rfl h⟩

/-- An SR_READ at a frame header is consistent. -/
theorem test_consistent_reader : Consistent (atFrameHeader .streaming 10#64 helloFrame) where
  legal := by decide
  memory := by decide
  before := by decide
  kept := fun _ _ _ _ _ => rfl
  record := fun _ => ⟨rfl, rfl⟩
  ibufRest := fun _ => by decide
  ibufMax := by decide
  leftOrder := by decide
  leftMax := by decide
  leftHeld := by decide
  cursors := ⟨⟨rfl, by decide, by decide, rfl, rfl⟩, by decide⟩

theorem test_witness_StepKeepsInvariant : ∃ s t : State, Consistent s ∧ step s = .next t :=
  ⟨copyState, _, test_consistent_bdec, rfl⟩

theorem test_witness_DecodeOfEncodeIsIdentity :
    (0x7F#8 : Byte) ≤ 0xFD#8 ∧ (Instr.litInline 59#6).WellFormed 0x7F#8 ∧ (Instr.ftReservedSkippable 0xFD#8 5#24).WellFormed 0xFC#8 := by
  decide

theorem test_witness_DecodedBytesAreTheEncoding :
    (0x01#8 : Byte) ≤ 0x7F#8 ∧ (0x7F#8 : Byte) ≤ 0xFD#8 ∧
      decode 0x7F#8 .tag [0xF4#8, 0x00#8, 0x01#8, 0x61#8] = .ok (.litX2 256#16, [0x61#8]) := ⟨by decide, by decide, rfl⟩

/-- Each kind of turn; a command, a varint byte, a chunk, a header, a waiting writer, an idle engine. -/
theorem test_witness_StepRunsTheDecodedInstruction :
    EngineTurn (issued 0x11#8 [] 0 0#64) (issued 0x11#8 [] 0 0#64) ∧
    EngineTurn { copyState with events := [.engine, .hwReset] } { copyState with events := [.hwReset] } ∧
    EngineTurn { copyState with events := [.wait] } { copyState with events := [.wait] } ∧
    EngineTurn { atFrameHeader .streaming 10#64 [] with events := [.feed [helloFrame]] }
      { atFrameHeader .streaming 10#64 helloFrame with events := [.feed [helloFrame]], draws := 1 } ∧
    State.reset.engine = .idle ∧ State.reset.busy = false ∧
    { writerWith 0x21#8 .active [] [] (some 3) with engine := .writer { resLen := 0, o := 3, todo := [.put [0x04#8]] } }.engine =
      .writer { resLen := 0, o := 3, todo := [.put [0x04#8]] } ∧
    (issued 0x11#8 [] 0 0#64).engine = .dispatch ∧
    decodeVarintByte (fetchVarint { i := 0, x := 0#64 } .command (atVarintByte [0xAC#8, 0x02#8] 0 0#64)) =
      .ok (.vbCont 0x2C#7, []) ∧
    decodeTag (fetchTag { s := 3, d := 1, n := 5 } .bdec copyState) = .ok (.copy1 0#3 1#11, []) ∧
    (atFrameHeader .streaming 10#64 helloFrame).inLatch = false ∧
    decodeHeader 0x7F#8 ([] ++ (atFrameHeader .streaming 10#64 helloFrame).inPending.take (4 - 0)) =
      .ok (.ftUncompressed 9#24, []) :=
  ⟨.inl ⟨rfl, rfl⟩, .inr (.inl rfl), .inr (.inr (.inl ⟨rfl, rfl, _, rfl⟩)), .inr (.inr (.inr ⟨rfl, _, _, _, rfl, rfl, rfl⟩)),
    rfl, rfl, rfl, rfl, rfl, rfl, rfl, rfl⟩

theorem test_witness_CmdWriteStartsOrIsRejected : State.reset.busy = false ∧ copyState.busy = true := by decide

/-- A region whose last byte is one past the end of buffer memory, for a source and for a destination. -/
theorem test_witness_InvalidRegionRaisesBadArg :
    (Instr.swWrite ∈ [Instr.varintDec, .benc, .bdec, .swWrite] ∧ (2#32 : Word).toNat ≠ 0 ∧
      (0xFFFFFFFF#32 : Word).toNat + (2#32 : Word).toNat > State.reset.cfg.memSize) ∧
    srcValid { issued 0x20#8 [] 0 0#64 with latch := { latchOf 0x20#8 2 0 0#64 with srcAddr := 0xFFFFFFFF#32 } } = false ∧
    Instr.srRead ∈ [Instr.varintEnc, .benc, .bdec, .srRead] ∧
    dstValid { issued 0x30#8 [] 2 0#64 with latch := { latchOf 0x30#8 0 2 0#64 with dstAddr := 0xFFFFFFFF#32 } } = false := by
  decide

/-- Regions that share one byte. -/
theorem test_witness_OverlappingRegionsRaiseBadArg :
    (latchOf 0x11#8 0x101 1 0#64).srcLen.toNat > 0 ∧ (latchOf 0x11#8 0x101 1 0#64).dstCap.toNat > 0 ∧
    (latchOf 0x11#8 0x101 1 0#64).srcAddr.toNat < 0x100 + 1 ∧ 0x100 < (latchOf 0x11#8 0x101 1 0#64).srcAddr.toNat + 0x101 := by
  decide

/-- DST one byte too small, exactly large enough, and invalid. -/
theorem test_witness_VarintEncCompletes :
    dstValid (issued 0x01#8 [] 1 300#64) = true ∧ (1 : Nat) < varintLength 300 ∧ varintLength 300 ≤ 2 ∧
    dstValid { issued 0x01#8 [] 1 300#64 with latch := { latchOf 0x01#8 0 2 300#64 with dstAddr := 0xFFFFFFFF#32 } } = false := by
  decide

theorem test_witness_VarintDecStarts :
    srcValid (issued 0x02#8 [] 0 0#64) = true ∧ (issued 0x02#8 [] 0 0#64).latch.srcLen.toNat = 0 ∧
    srcValid (issued 0x02#8 [0x01#8] 0 0#64) = true ∧ (issued 0x02#8 [0x01#8] 0 0#64).latch.srcLen.toNat ≠ 0 ∧
    srcValid { issued 0x02#8 [0x01#8] 0 0#64 with latch := { latchOf 0x02#8 2 0 0#64 with srcAddr := 0xFFFFFFFF#32 } } = false := by
  decide

theorem test_witness_VarintDecComputesVarintDecode :
    (issued 0x02#8 [0xAC#8, 0x02#8] 0 0#64).events = [] ∧ (issued 0x02#8 [0xAC#8, 0x02#8] 0 0#64).engine = .dispatch ∧
    (issued 0x02#8 [0xAC#8, 0x02#8] 0 0#64).latch.op = 0x02#8 ∧ srcValid (issued 0x02#8 [0xAC#8, 0x02#8] 0 0#64) = true := by
  decide

/-- A byte after it, none after it, and position 9; for VARINT_DEC and for a prefix. -/
theorem test_witness_VarintContinuationByte :
    (atVarintByte [0xAC#8, 0x02#8] 0 0#64).engine = .varint { i := 0, x := 0#64 } .command ∧
    0 + 1 < varintLimit .command (atVarintByte [0xAC#8, 0x02#8] 0 0#64) ∧
    varintLimit .command (atVarintByte [0x80#8] 0 0#64) ≤ 0 + 1 ∧
    (atPrefixByte [0x80#8] 0).engine = .varint { i := 0, x := 0#64 } (.ofBlock .bdec) ∧
    varintLimit (.ofBlock .bdec) (atPrefixByte [0x80#8] 0) ≤ 0 + 1 ∧
    (atVarintByte (List.replicate 10 0xFF#8) 9 0#64).engine = .varint { i := 9, x := 0#64 } .command := by decide

/-- Position 9 with G = 1 and with G = 2. -/
theorem test_witness_VarintLastByte :
    (atVarintByte (List.replicate 9 0xFF#8 ++ [0x01#8]) 9 0#64).engine = .varint { i := 9, x := 0#64 } .command ∧
    (1#7 : BitVec 7).toNat ≤ 1 ∧ 1 < (2#7 : BitVec 7).toNat ∧
    (atPrefixByte (List.replicate 9 0xFF#8 ++ [0x02#8]) 9).engine = .varint { i := 9, x := 0#64 } (.ofBlock .bdec) := by decide

theorem test_witness_VarintLaws : (2 ^ 64 - 1 : Nat) < 2 ^ 64 ∧ 9 < (varintEncode (2 ^ 64 - 1)).length := by decide

/-- BE6 and BE7. -/
theorem test_witness_MaxLenCompletes :
    (3681400511 ≤ 0xFFFFFFFF ∧ 32 + 3681400511 + 3681400511 / 6 ≤ 0xFFFFFFFF) ∧
    ¬(3681400512 ≤ 0xFFFFFFFF ∧ 32 + 3681400512 + 3681400512 / 6 ≤ 0xFFFFFFFF) := by decide

/-- BE61, BE59 and BE60 with the bound exactly. -/
theorem test_witness_BencCompletes :
    regionsOk { issued 0x11#8 [] 0 0#64 with
      latch := { latchOf 0x11#8 3681400512 0x10000000 0#64 with dstAddr := 0xF0000000#32 } } = true ∧
    maxEncodedLen 3681400512 = none ∧
    regionsOk (issued 0x11#8 [0x61#8] 32 0#64) = true ∧ maxEncodedLen 1 = some 33 ∧
    regionsOk (issued 0x11#8 [] 32 0#64) = true ∧ maxEncodedLen 0 = some 32 := by decide

/-- Each clause at its ends: L = 68, 65 and 67, 12 with the largest COPY1 offset, 11 with the next one, 11 with it. -/
theorem test_witness_EmitCopySplitting :
    emitCopy 1 68 = [0xFE#8, 0x01#8, 0x00#8, 0x01#8, 0x01#8] ∧ emitCopy 1 65 = [0xEE#8, 0x01#8, 0x00#8, 0x05#8, 0x01#8] ∧
    emitCopy 1 67 = [0xEE#8, 0x01#8, 0x00#8, 0x0D#8, 0x01#8] ∧ emitCopy 2047 12 = [0x2E#8, 0xFF#8, 0x07#8] ∧
    emitCopy 2048 11 = [0x2A#8, 0x00#8, 0x08#8] ∧ emitCopy 2047 11 = [0xFD#8, 0xFF#8] ∧
    emitCopy 1 64 = [0xFE#8, 0x01#8, 0x00#8] := by decide

theorem test_witness_EncodedBlockDecodesBack :
    ([0x61#8] : List Byte).length ≤ 0xFFFFFFFF ∧ ([0x61#8] : List Byte).length ≤ 1 ∧ maxEncodedLen 1 = some 33 := by decide

theorem test_witness_BdecStarts :
    regionsOk (issued 0x12#8 [0x00#8] 16 0#64) = true ∧ (issued 0x12#8 [0x00#8] 16 0#64).latch.srcLen.toNat ≠ 0 ∧
    regionsOk (issued 0x12#8 [] 16 0#64) = true ∧ (issued 0x12#8 [] 16 0#64).latch.srcLen.toNat = 0 := by decide

/-- Above the ceiling, above the capacity, above a block, at the first chunk, the capacity met exactly; and a block that is only
its prefix, for BDEC and in a frame (SR24), with its checksum field and with another. -/
theorem test_witness_BlockPrefixChecks :
    copyState.cfg.maxDecodedLen.toNat < 2 ^ 32 ∧ 17 ≤ copyState.cfg.maxDecodedLen.toNat ∧ copyState.latch.dstCap.toNat < 17 ∧
    65537 ≤ copyState.cfg.maxDecodedLen.toNat ∧ 16 ≤ blockCapacity .bdec copyState ∧ 1 < blockLength .bdec copyState ∧
    blockLength .bdec (issued 0x12#8 [0x01#8] 16 0#64) ≤ 1 ∧ (issued 0x12#8 [0x00#8] 16 0#64).latch.srcLen.toNat ≤ 1 ∧
    4 ≤ ([0xD8#8, 0xEA#8, 0x82#8, 0xA2#8, 0x00#8] : List Byte).length ∧
    ([0xD8#8, 0xEA#8, 0x82#8, 0xA2#8, 0x00#8] : List Byte).length - 4 ≤ 1 ∧
    [0xD8#8, 0xEA#8, 0x82#8, 0xA2#8] = checksumField [] ∧ (atFrameChunk [0x00#8] [] 0 0).dbuf = [] ∧
    (atFrameChunk [0x00#8] [] 0 0).fbuf.take 4 ≠ checksumField [] := by
  decide

set_option maxRecDepth 20000 in
/-- Inside the block, at its end short of N, at its end with N bytes; in a frame with the checksum field of "hello", and with
another. -/
theorem test_witness_ChunkLoopEnds :
    3 < blockLength .bdec copyState ∧ blockLength .bdec copyState ≤ 5 ∧ (4 : Nat) ≠ 5 ∧ copyState.latch.srcLen.toNat ≤ 5 ∧
    (helloFrame.drop 4).take 4 = checksumField hello ∧ hello ≠ [] ∧
    (atFrameChunk [0x05#8] hello 1 5).fbuf.take 4 ≠ checksumField hello ∧ 4 ≤ (atFrameChunk [0x05#8] hello 1 5).fbuf.length ∧
    (atFrameChunk [0x05#8] hello 1 5).fbuf.length - 4 ≤ 1 := by
  decide

/-- Every literal form ending exactly at N and at the end of the block, for BDEC and for a frame. -/
theorem test_witness_LiteralChunkCompletes :
    literalForm (.litInline 0#6) = some (1, 1) ∧ literalForm (.litX1 1#8) = some (2, 2) ∧
    literalForm (.litX2 1#16) = some (2, 3) ∧ literalForm (.litX3 1#24) = some (2, 4) ∧ literalForm (.litX4 1#32) = some (2, 5) ∧
    (atBdecChunk [0x02#8, 0xF0#8, 0x01#8, 0x61#8, 0x62#8] [] 1 2).engine = .block { s := 1, d := 0, n := 2 } .bdec ∧
    1 + 2 + 2 ≤ blockLength .bdec (atBdecChunk [0x02#8, 0xF0#8, 0x01#8, 0x61#8, 0x62#8] [] 1 2) ∧
    (atFrameChunk [0x01#8, 0x00#8, 0x61#8] [] 1 1).engine = .block { s := 1, d := 0, n := 1 } (.frame 0#64 0#64) ∧
    1 + 1 + 1 ≤ blockLength (.frame 0#64 0#64) (atFrameChunk [0x01#8, 0x00#8, 0x61#8] [] 1 1) := by decide

/-- BD3's copy, off = d, ending exactly at N; the same in a frame. -/
theorem test_witness_CopyChunkCompletes :
    copyForm (.copy1 0#3 1#11) = some (1, 4, 2) ∧ copyForm (.copy2 3#6 1#16) = some (1, 4, 3) ∧
    copyState.engine = .block { s := 3, d := 1, n := 5 } .bdec ∧ 1 + 4 ≤ 5 ∧
    (atFrameChunk [0x05#8, 0x00#8, 0x61#8, 0x01#8, 0x01#8] [0x61#8] 3 5).engine =
      .block { s := 3, d := 1, n := 5 } (.frame 0#64 0#64) ∧
    1 = (atFrameChunk [0x05#8, 0x00#8, 0x61#8, 0x01#8, 0x01#8] [0x61#8] 3 5).dbuf.length := by decide

/-- A literal one byte too long for N, one too long for the block; a copy of offset 0, of offset d + 1, one byte too long. -/
theorem test_witness_ChunkErrorsAreCorrupt :
    literalForm (.litInline 4#6) = some (5, 1) ∧ 5 - 1 < 5 ∧ literalForm (.litInline 1#6) = some (2, 1) ∧
    blockLength .bdec copyState - (3 + 1) < 2 ∧ copyState.engine = .block { s := 3, d := 1, n := 5 } .bdec ∧
    copyForm (.copy1 0#3 0#11) = some (0, 4, 2) ∧ copyForm (.copy1 0#3 2#11) = some (2, 4, 2) ∧
    copyForm (.copy1 1#3 1#11) = some (1, 5, 2) ∧ 5 - 1 < 5 := by decide

theorem test_witness_LegacyCopyIsUnsupported :
    copyState.engine = .block { s := 3, d := 1, n := 5 } .bdec ∧
    (atFrameChunk [0x01#8, 0x03#8] [] 1 1).engine = .block { s := 1, d := 0, n := 1 } (.frame 0#64 0#64) := by decide

/-- The three truncations: LIT_X4 with three of its four bytes, COPY1 with none, COPY2 with one; and two turns of the engine. -/
theorem test_witness_TruncatedChunkIsCorrupt :
    EngineTurn (atBdecChunk [0x02#8, 0x01#8] [] 1 2) (atBdecChunk [0x02#8, 0x01#8] [] 1 2) ∧
    EngineTurn { atBdecChunk [0x02#8, 0x01#8] [] 1 2 with events := [.engine] } (atBdecChunk [0x02#8, 0x01#8] [] 1 2) ∧
    blockBytes .bdec 1 (min 5 (5 - 1)) (atBdecChunk [0x02#8, 0xFC#8, 0x00#8, 0x00#8, 0x00#8] [] 1 2) =
      0xFC#8 :: [0x00#8, 0x00#8, 0x00#8] ∧ (0xFC#8 : Byte).toNat % 4 = 0 ∧ 60 ≤ (0xFC#8 : Byte).toNat / 4 ∧
      3 < (0xFC#8 : Byte).toNat / 4 - 59 ∧
    blockBytes .bdec 1 (min 5 (2 - 1)) (atBdecChunk [0x02#8, 0x01#8] [] 1 2) = 0x01#8 :: [] ∧ (0x01#8 : Byte).toNat % 4 = 1 ∧
    blockBytes .bdec 1 (min 5 (3 - 1)) (atBdecChunk [0x02#8, 0x02#8, 0x00#8] [] 1 2) = 0x02#8 :: [0x00#8] ∧
      (0x02#8 : Byte).toNat % 4 = 2 :=
  ⟨.inl ⟨rfl, rfl⟩, .inr (.inl rfl), by decide, by decide, by decide, by decide, by decide, by decide, by decide, by decide⟩

/-- The three outcomes: BD2 decodes, BD39 lacks room, BD22 is corrupt. -/
theorem test_witness_BdecComputesBlockDecode :
    regionsOk (issued 0x12#8 [0x01#8, 0x00#8, 0x61#8] 16 0#64) = true ∧
    (issued 0x12#8 [0x01#8, 0x00#8, 0x61#8] 16 0#64).latch.op = 0x12#8 ∧
    refBlockDecode 0xFFFFFFFF 16 [0x01#8, 0x00#8, 0x61#8] = .ok [0x61#8] ∧
    refBlockDecode 0xFFFFFFFF 5 [0x0A#8, 0x08#8, 0x61#8, 0x62#8, 0x63#8, 0x64#8] =
      .error { code := .dstSmall, pos := 0, needed := 10 } ∧
    refBlockDecode 0xFFFFFFFF 16 [0x05#8, 0x00#8, 0x61#8, 0x01#8, 0x00#8] = .error (.corruptAt 3) :=
  ⟨by decide, rfl, rfl, rfl, rfl⟩

/-- The body "hello" with its last byte changed, the checksum that of "hello". -/
theorem test_witness_DamagedRawFrameIsCorrupt :
    ([0x6F#8] : List Byte).length = ([0x65#8] : List Byte).length ∧ ([0x6F#8] : List Byte) ≠ [0x65#8] ∧
    (9#24 : BitVec 24).toNat = 4 + ([0x68#8, 0x65#8, 0x6C#8, 0x6C#8] ++ [0x65#8] ++ ([] : List Byte)).length ∧
    (pastFrameHeader .streaming (checksumField ([0x68#8, 0x65#8, 0x6C#8, 0x6C#8] ++ [0x6F#8] ++ []) ++
      ([0x68#8, 0x65#8, 0x6C#8, 0x6C#8] ++ [0x65#8] ++ []) ++ [])).inLatch = false := ⟨rfl, by decide, rfl, rfl⟩

theorem test_witness_EmitFrameIsOneFrame :
    1 ≤ ([0x61#8] : List Byte).length ∧ (List.replicate 65536 (0x61#8 : Byte)).length ≤ 65536 :=
  ⟨by decide, by rw [List.length_replicate]⟩

theorem test_witness_SwWriteCompletes :
    (writerWith 0x20#8 .unstarted [] hello none).outRoom = none ∧ srcValid (writerWith 0x20#8 .unstarted [] hello none) = true ∧
    (writerWith 0x20#8 .unstarted [] hello none).swState ≠ .closed ∧
    refSlices Params.default 5 hello = ([], hello) := ⟨rfl, by decide, by decide, rfl⟩

theorem test_witness_SwFlushCompletes :
    (writerWith 0x21#8 .active hello [] none).outRoom = none ∧ (writerWith 0x21#8 .active hello [] none).swState ≠ .closed := by
  decide

theorem test_witness_SwCloseCompletes :
    (writerWith 0x22#8 .unstarted [] [] none).outRoom = none ∧ (writerWith 0x22#8 .unstarted [] [] none).swState ≠ .closed := by
  decide

theorem test_witness_ClosedWriterRaisesClosed :
    (writerWith 0x20#8 .closed [] hello none).swState = .closed ∧ srcValid (writerWith 0x20#8 .closed [] hello none) = true := by
  decide

/-- Each command in each state it may run in. -/
theorem test_witness_StalledWriterPutsTheSameBytes :
    srcValid (writerWith 0x20#8 .unstarted [] hello (some 3)) = true ∧
    (writerWith 0x20#8 .unstarted [] hello (some 3)).swState ≠ .closed ∧
    (writerWith 0x21#8 .active hello [] (some 0)).swState ≠ .closed ∧
    (writerWith 0x22#8 .active [] [] (some 10)).swState ≠ .closed ∧
    answers (exec .swFlush { writerWith 0x21#8 .active hello [] none with outRoom := some 3 }) (fun t => t.busy) = true := by
  decide

/-- 20_memory.md R78: a sink with room for just the ten bytes of the marker. -/
theorem test_sw_flush_fits : answers (exec .swFlush (writerWith 0x21#8 .unstarted [] [] (some 10)))
    (fun t => recorded .ok 0 10 0 t && decide (t.out = markerBytes) && decide (t.outRoom = some 0)) = true := by decide

/-- An invalid DST; a sticky condition; DST_CAP = 0; nothing left; two bytes left of five. -/
theorem test_witness_SrReadChecksThenDelivers :
    dstValid { issued 0x30#8 [] 2 0#64 with latch := { latchOf 0x30#8 0 2 0#64 with dstAddr := 0xFFFFFFFF#32 } } = false ∧
    dstValid (issued 0x30#8 [] 2 0#64) = true ∧ SrErr.eos ≠ .none ∧ (issued 0x30#8 [] 0 0#64).latch.dstCap.toNat = 0 ∧
    (issued 0x30#8 [] 2 0#64).srErr = .none ∧ (issued 0x30#8 [] 2 0#64).latch.dstCap.toNat ≠ 0 ∧
    (issued 0x30#8 [] 2 0#64).leftRd = (issued 0x30#8 [] 2 0#64).leftEnd ∧ (3 : Nat) < 5 ∧ 5 ≤ hello.length := by decide

/-- A LEN one above the limit, and the limit itself. -/
theorem test_witness_FrameGateErrors :
    frameLen (.ftUncompressed 76495#24) = some 76495 ∧ 76494 < 76495 ∧
    frameLen (.ftReservedUnskippable 0x02#8 76494#24) = some 76494 ∧
    (pastFrameHeader .awaitMarker []).engine = .header 0#64 0#64 [0#8, 0#8, 0#8, 0#8] ∧
    (pastFrameHeader .awaitMarker []).srPhase = .awaitMarker ∧ (pastFrameHeader .streaming []).srPhase = .streaming := by decide

/-- A padding frame of no bytes, and one of all the bytes IN offers. -/
theorem test_witness_SkippedFramesComplete :
    (pastFrameHeader .streaming hello).engine = .header 0#64 0#64 [0#8, 0#8, 0#8, 0#8] ∧
    (pastFrameHeader .streaming hello).srPhase = .streaming ∧ (5#24 : BitVec 24).toNat ≤ 76494 ∧
    (pastFrameHeader .streaming hello).inLatch = false ∧ (5#24 : BitVec 24).toNat ≤ hello.length ∧
    (0#24 : BitVec 24).toNat ≤ hello.length ∧
    (pastFrameHeader .streaming hello).leftRd = (pastFrameHeader .streaming hello).leftEnd := by decide

/-- The magic bytes, other bytes, another LEN. -/
theorem test_witness_StreamMarkerCompletes :
    (pastFrameHeader .awaitMarker Config.magic).inLatch = false ∧ 6 ≤ Config.magic.length ∧
    Config.magic.take 6 = [0x73#8, 0x4E#8, 0x61#8, 0x50#8, 0x70#8, 0x59#8] ∧
    (hello ++ hello).take 6 ≠ [0x73#8, 0x4E#8, 0x61#8, 0x50#8, 0x70#8, 0x59#8] ∧ 6 ≤ (hello ++ hello).length ∧
    (5#24 : BitVec 24) ≠ 6#24 ∧
    (pastFrameHeader .awaitMarker Config.magic).leftRd = (pastFrameHeader .awaitMarker Config.magic).leftEnd := by decide

set_option maxRecDepth 20000 in
/-- LEN 3 and 65541; the frames of "hello" and of no data; and one with a wrong checksum. -/
theorem test_witness_UncompressedFrameCompletes :
    (pastFrameHeader .streaming (helloFrame.drop 4)).srPhase = .streaming ∧ (3#24 : BitVec 24).toNat < 4 ∧
    65540 < (65541#24 : BitVec 24).toNat ∧ (helloFrame.drop 4).take 4 = checksumField hello ∧
    (9#24 : BitVec 24).toNat ≤ (helloFrame.drop 4).length ∧ ((helloFrame.drop 4).take 9).drop 4 = hello ∧
    [0xD8#8, 0xEA#8, 0x82#8, 0xA2#8] = checksumField [] ∧ [0#8, 0#8, 0#8, 0#8] ≠ checksumField [] := by decide

theorem test_witness_CompressedFrameStarts :
    (pastFrameHeader .streaming hello).srPhase = .streaming ∧ (3#24 : BitVec 24).toNat < 4 ∧ (4#24 : BitVec 24).toNat = 4 ∧
    4 ≤ (pastFrameHeader .streaming hello).inPending.length ∧ 4 < (5#24 : BitVec 24).toNat ∧
    (5#24 : BitVec 24).toNat ≤ (pastFrameHeader .streaming hello).inPending.length := by decide

/-- A data frame of nine body bytes of which five have been taken, and the last four are offered. -/
def inBody : State :=
  { atFrameHeader .streaming 19#64 [0x65#8, 0x6C#8, 0x6C#8, 0x6F#8] with
    fbuf := [0xBB#8, 0x1F#8, 0x1C#8, 0x19#8, 0x68#8], inTaken := 9, engine := .body 0#64 10#64 .uncompressed 9 }

set_option maxRecDepth 20000 in
/-- R347, the rest of the body of "hello": SR18's frame, completed. -/
theorem test_body_in_pieces : answers (step inBody)
    (fun t => recorded .ok 5 23 0 t && decide (Memory.read t.mem 0x100 5 = hello)) = true := by decide

/-- R464: fed the padding frame FE 00 00 00 whenever nothing is left, SR_READ goes from header to header. -/
theorem test_feed : answers (step { atFrameHeader .streaming 10#64 [] with events := [.feed [[0xFE#8, 0x00#8, 0x00#8, 0x00#8]]] })
    (fun t => t.busy && decide (t.engine = .header 0#64 14#64 []) && decide (t.inTaken = 4) &&
      decide (t.events = [.feed [[0xFE#8, 0x00#8, 0x00#8, 0x00#8]]])) = true := by decide

/-- No byte, three bytes of a header; four bytes of a body of five at its header (a longest, a shortest body), the same later;
and the last bytes of a body. -/
theorem test_witness_ReaderWaitsOrMeetsEos :
    EngineTurn (atFrameHeader .streaming 10#64 []) (atFrameHeader .streaming 10#64 []) ∧
    bodyForm (.ftCompressed 76494#24) = some (.compressed, 76494) ∧ BodyKind.lengthOk .compressed 76494 ∧
    bodyForm (.ftUncompressed 4#24) = some (.uncompressed, 4) ∧ BodyKind.lengthOk .uncompressed 4 ∧
    bodyForm (.ftStreamId 6#24) = some (.streamId, 6) ∧ BodyKind.lengthOk .streamId 6 ∧
    bodyForm (.ftPadding 1#24) = some (.skipped, 1) ∧ BodyKind.lengthOk .skipped 1 ∧
    (pastFrameHeader .streaming []).engine = .header 0#64 0#64 [0#8, 0#8, 0#8, 0#8] ∧
    (pastFrameHeader .streaming []).inPending.length < 1 ∧
    bodyForm (.ftUncompressed 9#24) = some (.uncompressed, 9) ∧ EngineTurn inBody inBody ∧
    inBody.engine = .body 0#64 10#64 .uncompressed 9 ∧ inBody.fbuf.length < 9 ∧ inBody.fbuf.length ≤ inBody.inTaken ∧
    9 ≤ inBody.fbuf.length + inBody.inPending.length ∧ 0 + (atFrameHeader .streaming 10#64 []).inPending.length < 4 ∧
    0 + (atFrameHeader .streaming 10#64 [0x01#8, 0x09#8, 0x00#8]).inPending.length < 4 ∧
    (atFrameHeader .streaming 10#64 []).inEos = false ∧
    0 + ({ atFrameHeader .streaming 10#64 [0x68#8, 0x65#8, 0x6C#8, 0x6C#8] with
      engine := .body 0#64 10#64 .skipped 5 }).inPending.length < 5 :=
  ⟨.inl ⟨rfl, rfl⟩, rfl, ⟨by decide, by decide⟩, rfl, ⟨by decide, by decide⟩, rfl, rfl, rfl, by show 1 ≤ 76494; decide, rfl,
    by decide, rfl, .inl ⟨rfl, rfl⟩, rfl, by decide, by decide, by decide, by decide, by decide, rfl, by decide⟩

/-- A padding frame, the stream marker, the two empty data frames (SR24's, and the longest), a skippable frame; and a list of two
groups. -/
theorem test_witness_EndlessSkippableStreamHangs :
    PassedOver 0x7F#8 [0xFE#8, 0x00#8, 0x00#8, 0x00#8] ∧ PassedOver 0x7F#8 markerBytes ∧
    PassedOver 0x7F#8 ([0x01#8, 0x04#8, 0x00#8, 0x00#8] ++ checksumField []) ∧
    PassedOver 0x7F#8 [0x00#8, 0x05#8, 0x00#8, 0x00#8, 0xD8#8, 0xEA#8, 0x82#8, 0xA2#8, 0x00#8] ∧
    PassedOver 0x7F#8 ([0x00#8, 0x0E#8, 0x00#8, 0x00#8] ++ checksumField [] ++ List.replicate 9 0x80#8 ++ [0x00#8]) ∧
    PassedOver 0x7F#8 [0x80#8, 0x01#8, 0x00#8, 0x00#8, 0xAA#8] ∧
    (∀ g ∈ [[[0xFE#8, 0x00#8, 0x00#8, 0x00#8]], [markerBytes, markerBytes]], g ≠ [] ∧ ∀ f ∈ g, PassedOver 0x7F#8 f) ∧
    (atFrameHeader .streaming 10#64 []).engine = .header 0#64 10#64 [] ∧ (atFrameHeader .streaming 10#64 []).inPending = [] ∧
    (atFrameHeader .streaming 10#64 []).leftRd = (atFrameHeader .streaming 10#64 []).leftEnd :=
  ⟨.inr (.inr (.inr ⟨0xFE#8, [], .inr rfl, by decide, rfl⟩)), .inl rfl, .inr (.inl rfl),
    .inr (.inr (.inl ⟨0, by decide, by decide⟩)), .inr (.inr (.inl ⟨9, by decide, by decide⟩)),
    .inr (.inr (.inr ⟨0x80#8, [0xAA#8], .inl (by decide), by decide, rfl⟩)), by
      have p : PassedOver 0x7F#8 [0xFE#8, 0x00#8, 0x00#8, 0x00#8] := .inr (.inr (.inr ⟨0xFE#8, [], .inr rfl, by decide, rfl⟩))
      have q : PassedOver 0x7F#8 markerBytes := .inl rfl
      simp [p, q], rfl, rfl, rfl⟩

/-- R464: fed SR24's empty compressed frame whenever nothing is left, SR_READ stands at the next header after two steps. -/
theorem test_feed_empty_compressed : answers
    (Host.Core.run core 2 { atFrameHeader .streaming 10#64 [] with
      events := [.feed [[0x00#8, 0x05#8, 0x00#8, 0x00#8, 0xD8#8, 0xEA#8, 0x82#8, 0xA2#8, 0x00#8]]] })
    (fun t => t.busy && decide (t.engine = .header 0#64 19#64 []) && decide (t.inTaken = 9)) = true := by decide

/-- "hello" in a frame, followed by one more byte. -/
theorem test_witness_WriterFrameReadsBack :
    (atFrameHeader .streaming 10#64 (frameBytes Params.default hello ++ [0x00#8])).events = [] ∧
    (atFrameHeader .streaming 10#64 (frameBytes Params.default hello ++ [0x00#8])).engine = .header 0#64 10#64 [] ∧
    (atFrameHeader .streaming 10#64 (frameBytes Params.default hello ++ [0x00#8])).inPending =
      frameBytes (atFrameHeader .streaming 10#64 []).cfg hello ++ [0x00#8] ∧
    1 ≤ hello.length ∧ hello.length ≤ (atFrameHeader .streaming 10#64 []).cfg.maxDecodedLen.toNat ∧
    0 < (atFrameHeader .streaming 10#64 []).latch.dstCap.toNat := ⟨rfl, rfl, rfl, by decide, by decide, by decide⟩

theorem test_witness_OutputAndParametersPersist : ∃ t : State, step (writerWith 0x22#8 .unstarted [] [] none) = .next t :=
  ⟨_, rfl⟩

/-- BDEC is no reader and no writer command; SR_READ is no writer command. -/
theorem test_witness_EngineKeepsOtherPath :
    Consistent copyState ∧ (∃ t, engineStep copyState = .next t) ∧ copyState.latch.op ≠ 0x30#8 ∧ copyState.latch.op ≠ 0x31#8 ∧
    copyState.latch.op ∉ [0x20#8, 0x21#8, 0x22#8, 0x23#8] ∧ Consistent (atFrameHeader .streaming 10#64 helloFrame) ∧
    (atFrameHeader .streaming 10#64 helloFrame).latch.op ∉ [0x20#8, 0x21#8, 0x22#8, 0x23#8] :=
  ⟨test_consistent_bdec, ⟨_, rfl⟩, by decide, by decide, by decide, test_consistent_reader, by decide⟩

theorem test_witness_EngineWritesOnlyItsDestination :
    ∃ t, Consistent copyState ∧ engineStep copyState = .next t ∧ Memory.get t.mem 0x104 ≠ Memory.get copyState.mem 0x104 :=
  ⟨_, test_consistent_bdec, rfl, by decide⟩

theorem test_witness_OperandRegistersDoNotReachRunningCommand : ∃ t, engineStep copyState = .next t := ⟨_, rfl⟩

/-- An unaligned offset, a halfword, ID, the last and the first offset above the operand registers, and their ends. -/
theorem test_witness_RegisterWindowAccesses :
    (0x0D#8 : Byte).toNat % 4 ≠ 0 ∧ (2 : Nat) ≠ 4 ∧ (0x00#8 : Byte).toNat = 0 ∧
    0x28 ≤ (0x28#8 : Byte).toNat ∧ (0x28#8 : Byte).toNat % 4 = 0 ∧ 0x28 ≤ (0xFC#8 : Byte).toNat ∧ (0xFC#8 : Byte).toNat % 4 = 0 ∧
    (0x10#8 : Byte).toNat % 4 = 0 ∧ 0x10 ≤ (0x10#8 : Byte).toNat ∧ (0x24#8 : Byte).toNat % 4 = 0 ∧ (0x24#8 : Byte).toNat < 0x28 := by
  decide

set_option maxRecDepth 20000 in
/-- A full count of buffered bytes but one, a whole block of leftover, and the default parameters; an SR_READ at the frame of
"hello", which its next element completes. -/
theorem test_witness_StatusRegistersShowTheirFields :
    (List.replicate 65535 (0#8 : Byte)).length < 65536 ∧ (65536 : Nat) ≤ 65536 ∧ State.reset.cfg.Legal ∧
    State.reset.busy = false ∧ Consistent (atFrameHeader .streaming 10#64 helloFrame) ∧
    (atFrameHeader .streaming 10#64 helloFrame).busy = true ∧ (atFrameHeader .streaming 10#64 helloFrame).latch.op = 0x30#8 ∧
    (atFrameHeader .streaming 10#64 helloFrame).engine ≠ .dispatch ∧
    answers (engineStep (atFrameHeader .streaming 10#64 helloFrame)) (fun t => !t.busy && decide (t.err = .ok)) = true :=
  ⟨by rw [List.length_replicate]; decide, Nat.le_refl _, by decide, rfl, test_consistent_reader, by decide, rfl, by decide,
    by decide⟩

/-- 45_stream_writer.md R302 with 70_reset_and_hazards.md R463: writing "hello" in UNSTARTED, SW_STATE goes to ACTIVE after the
marker and IBUF_LEN grows byte by byte. -/
theorem test_sw_write_states :
    (statesWithin (writerWith 0x20#8 .unstarted [] hello none)).map (fun u => (u.swState, u.ibuf.length)) =
      [(.unstarted, 0), (.unstarted, 0), (.active, 0), (.active, 1), (.active, 2), (.active, 3), (.active, 4), (.active, 5)] := by
  decide

set_option maxRecDepth 20000 in
/-- 46_stream_reader.md R349, R343: at the end of the frame of "hello", LEFT_RD and LEFT_END are set, then LEFT_RD advances. -/
theorem test_sr_read_states :
    (statesWithin (atFrameHeader .streaming 10#64 helloFrame)).map (fun u => (u.leftRd, u.leftEnd)) =
      [(0, 0), (0, 0), (0, 5), (5, 5)] := by decide

/-- 70_reset_and_hazards.md R463: a BDEC shows the writer and the reader as they are; the read draws a choice. -/
theorem test_status_read_busy : answers (step { copyState with swState := .active, events := [.read 0x38#8 4] })
    (fun t => decide (t.busData = 1#32) && decide (t.draws = 1)) = true := by decide

theorem test_witness_SoftResetRestoresResetState :
    (0x2#32 : Word).getLsbD 1 = true ∧ (0x1#32 : Word).getLsbD 1 = false ∧ State.reset.busy = false ∧
    inLatchedDst copyState 0xFF = false ∧ inLatchedDst copyState 0x110 = false := by decide

/-- The last byte of SRC, the first of DST, and one outside both. -/
theorem test_witness_HostMemoryAccesses :
    4 < copyState.cfg.memSize ∧ inRunningSrc copyState 4 = true ∧ inRunningDst copyState 0x100 = true ∧
    inRunningSrc copyState 5 = false ∧ inRunningDst copyState 5 = false := by decide

theorem test_witness_InterruptFollowsDoneAndEnable : (0x2#32 : Word).getLsbD 1 = true ∧ (0x2#32 : Word).getLsbD 0 = false := by
  decide

theorem test_witness_ChecksumAndIllegal : (0x13#8 : Byte) ∉ assignedOpcodes ∧ (0x31#8 : Byte) ∈ assignedOpcodes := by decide

end Sys2Proof.Tests
end

section
/-! The invariant is kept by every step (O3): by each move of the host and the platform, by each kind of engine turn, and so
by `step`. The shared operations are in the laws of `Consistent`; here they meet the moves that use them. -/

namespace Sys2Proof.Machine

/-! ### The part of a state that the invariant speaks of -/

/-- The fields `Consistent` reads, every other one at its reset value. -/
def invariantView (s : State) : State :=
  { State.reset with
    cfg := s.cfg, done := s.done, err := s.err, latch := s.latch, engine := s.engine, swState := s.swState, ibuf := s.ibuf
    srErr := s.srErr, dbuf := s.dbuf, leftRd := s.leftRd, leftEnd := s.leftEnd, fbuf := s.fbuf, mem := s.mem
    memBefore := s.memBefore }

theorem consistent_invariantView (s : State) : Consistent (invariantView s) ↔ Consistent s :=
  ⟨fun ⟨h1, h2, h3, h4, h5, h6, h7, h8, h9, h10, h11⟩ => ⟨h1, h2, h3, h4, h5, h6, h7, h8, h9, h10, h11⟩,
    fun ⟨h1, h2, h3, h4, h5, h6, h7, h8, h9, h10, h11⟩ => ⟨h1, h2, h3, h4, h5, h6, h7, h8, h9, h10, h11⟩⟩

/-- A change of fields the invariant does not read keeps it. -/
theorem Consistent.of_view {s t : State} (h : Consistent s) (e : invariantView t = invariantView s) : Consistent t :=
  (consistent_invariantView t).mp (e ▸ (consistent_invariantView s).mpr h)

/-- The invariant holds of the next state, if the result is one. -/
def NextConsistent : Result → Prop
  | .next t => Consistent t
  | .fault _ => True
  | .refused _ => True

theorem nextConsistent_iff (r : Result) : NextConsistent r ↔ ∀ t, r = .next t → Consistent t := by
  cases r <;> simp [NextConsistent]

/-! ### Moves of the host and the platform -/

theorem Consistent.events {s : State} (h : Consistent s) (rest : List HostAction) : Consistent { s with events := rest } :=
  h.of_view rfl

theorem Consistent.inOffer {s : State} (h : Consistent s) (bs : List Byte) : Consistent (inOffer bs s) := h.of_view rfl

theorem Consistent.inRefill {s : State} (h : Consistent s) (chunks : List (List Byte)) : Consistent (inRefill chunks s) := by
  unfold Machine.inRefill
  split
  · exact h.of_view rfl
  · exact h

/-- An accepted CMD write starts a command on memory as it stands (40_commands.md R110). -/
theorem Consistent.issue {s : State} (h : Consistent s) (op : Byte) (idle : s.busy = false) : Consistent (issue op s) := by
  rw [busy_eq_false_iff] at idle
  exact ⟨h.legal, h.memory, h.memory, fun _ => ⟨rfl, rfl⟩, fun _ => h.ibufRest (by simp [idle]), h.ibufMax, h.leftOrder,
    h.leftMax, h.leftHeld, trivial, fun _ _ _ _ _ => rfl⟩

theorem Consistent.cmdWrite {s : State} (h : Consistent s) (op : Byte) : Consistent (cmdWrite op s) := by
  unfold Machine.cmdWrite
  split
  · exact h.of_view rfl
  · exact h.issue op (by simpa using ‹¬ s.busy = true›)

/-- DONE is only cleared, so it stays 0 while BUSY = 1 (10_state.md R33). -/
theorem Consistent.statusWrite {s : State} (h : Consistent s) (v : Word) : Consistent (statusWrite v s) :=
  have record : (Machine.statusWrite v s).busy = true → (Machine.statusWrite v s).done = false ∧ s.err = .ok := fun hb => by
    have := h.record hb
    simp [Machine.statusWrite, this]
  ⟨h.legal, h.memory, h.before, record, h.ibufRest, h.ibufMax, h.leftOrder, h.leftMax, h.leftHeld, h.cursors, h.kept⟩

/-- An abandoned command changes no parameter and keeps buffer memory canonical (70_reset_and_hazards.md R451). -/
theorem Consistent.abandon {s : State} (h : Consistent s) :
    (abandon s).cfg.Legal ∧ Memory.wf (abandon s).mem := by
  unfold Machine.abandon
  split
  · exact ⟨h.legal, Memory.write_wf h.memory _ _⟩
  · exact ⟨h.legal, h.memory⟩

/-- The reset values meet the invariant, whatever state they replace (70_reset_and_hazards.md R450). -/
theorem consistent_resetState {s : State} (legal : s.cfg.Legal) (memory : Memory.wf s.mem) : Consistent (resetState s) :=
  ⟨legal, memory, Memory.nil_wf, by simp, by simp, by simp, by simp, by simp, by simp, trivial, by simp⟩

theorem Consistent.hwReset {s : State} (h : Consistent s) : Consistent (hwReset s) :=
  consistent_resetState h.abandon.1 h.abandon.2

theorem Consistent.ctrlWrite {s : State} (h : Consistent s) (v : Word) : Consistent (ctrlWrite v s) := by
  unfold Machine.ctrlWrite
  split
  · exact h.hwReset.of_view rfl
  · exact h.of_view rfl

theorem Consistent.regWrite {s : State} (h : Consistent s) (off : Nat) (v : Word) : Consistent (regWrite off v s) := by
  unfold Machine.regWrite
  split
  · exact h.ctrlWrite v
  · exact h.statusWrite v
  · exact h.cmdWrite _
  all_goals exact h.of_view rfl

theorem Consistent.busWrite {s : State} (h : Consistent s) (off : Byte) (width : Nat) (v : Word) :
    Consistent (busWrite off width v s) := by
  unfold Machine.busWrite
  split
  · exact h.regWrite _ v
  · exact h

/-- A byte written outside the running command's DST leaves DST as the command found it. -/
theorem Consistent.mem_outside {s : State} (h : Consistent s) {a : Nat} (b : Byte) (out : inRunningDst s a = false) :
    Consistent { s with mem := Memory.write s.mem a [b] } := by
  refine ⟨h.legal, Memory.write_wf h.memory _ _, h.before, h.record, h.ibufRest, h.ibufMax, h.leftOrder, h.leftMax,
    h.leftHeld, h.cursors, fun hb uses x inside past => ?_⟩
  have hx : x ≠ a := by
    rintro rfl
    have running : inRunningDst s x = true := by
      simp only [inRunningDst, Bool.and_eq_true]
      exact ⟨⟨hb, uses⟩, inside⟩
    simp [out] at running
  exact (Memory.get_write_outside (by simp; omega)).trans (h.kept hb uses x inside past)

theorem Consistent.hostMemWrite {s : State} (h : Consistent s) (a : Nat) (b : Byte) : NextConsistent (hostMemWrite a b s) := by
  unfold Machine.hostMemWrite
  split
  · trivial
  split
  · trivial
  · rename_i race
    exact h.mem_outside b (by simp at race; exact race.2)

theorem Consistent.hostMemRead {s : State} (h : Consistent s) (a : Nat) : NextConsistent (hostMemRead a s) := by
  unfold Machine.hostMemRead
  split
  · trivial
  split
  all_goals exact h.of_view rfl

theorem Consistent.hostAct {s : State} (h : Consistent s) (a : HostAction) : NextConsistent (hostAct a s) := by
  cases a with
  | engine | wait | feed => exact h
  | write off width v => exact h.busWrite off width v
  | memWrite addr b => exact h.hostMemWrite addr b
  | memRead addr => exact h.hostMemRead addr
  | inOffer bs => exact h.inOffer bs
  | hwReset => exact h.hwReset
  | read | inEos | outSink => exact h.of_view rfl

/-! ### A command just issued -/

/-- An opcode is the one its command has (30_encoding.md R91). -/
theorem opcode_of_decodeOpcode {op code : Byte} {i : Instr} (h : decodeOpcode op = i) (hi : encode i = encodeOpcode code) :
    op = code := by
  have := encode_decodeOpcode op
  rw [h, hi] at this
  exact (List.cons.inj this).1.symm

theorem Running.execVarintEnc {s : State} (h : Running 0 s) : NextConsistent (execVarintEnc s) := by
  unfold Machine.execVarintEnc
  dsimp only
  split
  · exact h.complete _ _ _ _
  split
  · exact h.complete _ _ _ _
  · exact (h.mem _ _).complete _ _ _ _

theorem Running.execVarintDec {s : State} (h : Running 0 s) (op : s.latch.op = 0x02#8) : NextConsistent (execVarintDec s) := by
  unfold Machine.execVarintDec
  split
  · exact h.complete _ _ _ _
  split
  · exact h.complete _ _ _ _
  · rename_i checked len
    have valid : srcValid s = true := by simpa using checked
    have room : 0 < varintLimit .command s := by simp [varintLimit]; omega
    exact h.engine _ (Nat.zero_le _) ⟨⟨op, valid⟩, room, by simp, by simp⟩

theorem Running.execMaxLen {s : State} (h : Running 0 s) : NextConsistent (execMaxLen s) := by
  unfold Machine.execMaxLen
  split
  all_goals exact h.complete _ _ _ _

theorem Running.execBenc {s : State} (h : Running 0 s) : NextConsistent (execBenc s) := by
  unfold Machine.execBenc
  split
  · exact h.complete _ _ _ _
  split
  · exact h.raiseDst _ _
  split
  · exact h.complete _ _ _ _
  · exact (h.mem _ _).complete _ _ _ _

theorem Running.execBdec {s : State} (h : Running 0 s) (op : s.latch.op = 0x12#8) : NextConsistent (execBdec s) := by
  unfold Machine.execBdec
  split
  · rename_i regions
    exact h.prefixBegin .bdec ⟨op, regions⟩ (by simp)
  · exact h.complete _ _ _ _

theorem Running.execSrRead {s : State} (h : Running 0 s) (op : s.latch.op = 0x30#8) : NextConsistent (execSrRead s) := by
  unfold Machine.execSrRead
  split
  · exact h.complete _ _ _ _
  split
  · exact h.complete _ _ _ _
  split
  · exact h.complete _ _ _ _
  · rename_i valid sticky cap
    exact h.readerLoop _ ⟨op, by simpa using valid, Nat.pos_of_ne_zero cap, by simpa using sticky⟩

/-- The reader's reset leaves nothing to deliver (46_stream_reader.md R369). -/
theorem Running.execSrReset {s : State} (h : Running 0 s) : NextConsistent (execSrReset s) :=
  AtRest.complete
    (s := { s with srPhase := .awaitMarker, srErr := .none, leftRd := 0, leftEnd := 0, srInpos := 0#64, inLatch := false })
    ⟨h.legal, h.memory, h.before, h.ibuf, Nat.le_refl _, Nat.zero_le _, fun lt => absurd lt (Nat.lt_irrefl _)⟩ _ _ _ _

/-- The writer's reset empties IBUF (45_stream_writer.md R310). -/
theorem Running.execSwReset {s : State} (h : Running 0 s) : NextConsistent (execSwReset s) :=
  AtRest.complete (s := { s with swState := .unstarted, ibuf := [] })
    ⟨h.legal, h.memory, h.before, by simp, h.leftOrder, h.leftMax, h.leftHeld⟩ _ _ _ _

/-- SW_FLUSH frames IBUF only where it holds bytes; `ops` goes on with it empty (45_stream_writer.md R308). -/
theorem swFlushOps_ok {s : State} (hi : s.ibuf.length < Config.maxBlock) {ops : List WriterOp}
    (ho : ∀ held, held < Config.maxBlock → writerOpsOk s.latch.srcLen.toNat held ops) :
    writerOpsOk s.latch.srcLen.toNat s.ibuf.length (swFlushOps s ++ ops) := by
  unfold swFlushOps
  rw [List.append_assoc]
  apply marker_ok
  unfold flushOps
  split
  · exact ho _ hi
  · exact ⟨List.length_pos_of_ne_nil ‹_›, ho 0 (by simp)⟩

theorem Running.execSwWrite {s : State} (h : Running 0 s) (op : s.latch.op = 0x20#8) : NextConsistent (execSwWrite s) := by
  unfold Machine.execSwWrite
  split
  · exact h.complete _ _ _ _
  split
  · exact h.complete _ _ _ _
  · rename_i valid opened
    have room := h.ibuf
    have fills := fillOps_ok s.latch.srcLen.toNat (s.latch.srcLen.toNat / Config.maxBlock + 2) s.ibuf.length 0
      s.latch.srcLen.toNat room (by omega) (by simp only [Config.maxBlock] at *; omega)
    exact WriterRunning.run _ _ _ _ (h.w (by simp [op]) (fun _ => by simpa using valid)) (.inl opened) (marker_ok s fills)

theorem Running.execSwFlush {s : State} (h : Running 0 s) (op : s.latch.op = 0x21#8) : NextConsistent (execSwFlush s) := by
  unfold Machine.execSwFlush
  split
  · exact h.complete _ _ _ _
  · rename_i opened
    have ops := swFlushOps_ok h.ibuf (ops := []) fun _ lt => lt
    exact WriterRunning.run _ _ _ _ (h.w (by simp [op]) (by simp [op])) (.inl opened) (by simpa using ops)

theorem Running.execSwClose {s : State} (h : Running 0 s) (op : s.latch.op = 0x22#8) : NextConsistent (execSwClose s) := by
  unfold Machine.execSwClose
  split
  · exact h.complete _ _ _ _
  · rename_i opened
    have ops := swFlushOps_ok h.ibuf (ops := [.close]) fun _ lt => ⟨lt, rfl⟩
    exact WriterRunning.run _ _ _ _ (h.w (by simp [op]) (by simp [op])) (.inl opened) ops

/-- A command of F-CMD, executed while its own opcode is latched, keeps the invariant. -/
theorem Running.execCommand {s : State} (h : Running 0 s) : NextConsistent (exec (decodeOpcode s.latch.op) s) := by
  have cmd := decodeOpcode_format s.latch.op
  have opcode : ∀ code, encode (decodeOpcode s.latch.op) = encodeOpcode code → s.latch.op = code :=
    fun _ => opcode_of_decodeOpcode rfl
  cases hi : decodeOpcode s.latch.op <;> rw [hi] at cmd opcode
  case varintEnc => exact h.execVarintEnc
  case varintDec => exact h.execVarintDec (opcode _ rfl)
  case varintLen => exact h.complete _ _ _ _
  case maxLen => exact h.execMaxLen
  case benc => exact h.execBenc
  case bdec => exact h.execBdec (opcode _ rfl)
  case swWrite => exact h.execSwWrite (opcode _ rfl)
  case swFlush => exact h.execSwFlush (opcode _ rfl)
  case swClose => exact h.execSwClose (opcode _ rfl)
  case swReset => exact h.execSwReset
  case srRead => exact h.execSrRead (opcode _ rfl)
  case srReset => exact h.execSrReset
  case illegal => exact h.complete _ _ _ _
  all_goals cases cmd

/-! ### Chunks and varint bytes -/

theorem decodeLiteral_format {h : BitVec 6} {bs rest : List Byte} {i : Instr} (hd : decodeLiteral h bs = .ok (i, rest)) :
    i.format = .tag := by
  unfold decodeLiteral at hd
  repeat' split at hd
  all_goals cases hd
  all_goals rfl

theorem decodeCopy1_format {t : Byte} {bs rest : List Byte} {i : Instr} (hd : decodeCopy1 t bs = .ok (i, rest)) :
    i.format = .tag := by
  unfold decodeCopy1 at hd
  split at hd
  all_goals cases hd
  rfl

theorem decodeCopy2_format {t : Byte} {bs rest : List Byte} {i : Instr} (hd : decodeCopy2 t bs = .ok (i, rest)) :
    i.format = .tag := by
  unfold decodeCopy2 at hd
  split at hd
  all_goals cases hd
  rfl

/-- Whatever the tag decoder answers is a chunk (30_encoding.md R95). -/
theorem decodeTag_format {bs rest : List Byte} {i : Instr} (hd : decodeTag bs = .ok (i, rest)) : i.format = .tag := by
  unfold decodeTag at hd
  split at hd
  · cases hd
  split at hd
  · exact decodeLiteral_format hd
  split at hd
  · exact decodeCopy1_format hd
  split at hd
  · exact decodeCopy2_format hd
  · cases hd
    rfl

theorem atChunk_block {s : State} {c : BlockCursor} {u : BlockUser} (he : s.engine = .block c u)
    (f : BlockCursor → BlockUser → State → State) : atChunk f s = .next (f c u s) := by
  simp only [atChunk, he]

/-- A chunk is a literal, a copy, or the unsupported COPY4 (30_encoding.md R96 to R99). -/
theorem chunk_forms {i : Instr} (hi : i.format = .tag) :
    (∃ len hd, literalForm i = some (len, hd)) ∨ (∃ off len size, copyForm i = some (off, len, size)) ∨
      ∃ h, i = .copy4 h := by
  cases i
  case litInline | litX1 | litX2 | litX3 | litX4 => exact .inl ⟨_, _, rfl⟩
  case copy1 | copy2 => exact .inr (.inl ⟨_, _, _, rfl⟩)
  case copy4 h => exact .inr (.inr ⟨h, rfl⟩)
  all_goals cases hi

theorem exec_literalForm {i : Instr} {len hd : Nat} {c : BlockCursor} {u : BlockUser} {s : State}
    (hi : literalForm i = some (len, hd)) (he : s.engine = .block c u) :
    exec i s = .next (literalBody u c len hd s) := by
  cases i <;> cases hi
  all_goals exact atChunk_block he _

theorem exec_copyForm {i : Instr} {off len size : Nat} {c : BlockCursor} {u : BlockUser} {s : State}
    (hi : copyForm i = some (off, len, size)) (he : s.engine = .block c u) :
    exec i s = .next (copyBody u c off len size s) := by
  cases i <;> cases hi
  all_goals
    rw [Nat.add_comm]
    exact atChunk_block he _

/-- A varint byte at the engine's cursor goes on or ends (41_varint.md R183, R184). -/
theorem exec_varintInstr_cases (b : Byte) {c : VarintCursor} {u : VarintUser} {s : State} (he : s.engine = .varint c u) :
    (∃ g, exec (varintInstr b) s = .next (varintContinue g c u s)) ∨
    (∃ g, exec (varintInstr b) s = .next (varintFinish g c u s)) := by
  unfold varintInstr
  split
  · exact .inl ⟨b.extractLsb' 0 7, by simp only [exec, execVbCont, atVarint, he]⟩
  · exact .inr ⟨b.extractLsb' 0 7, by simp only [exec, execVbLast, atVarint, he]⟩

/-! ### Turns of the engine -/

/-- A running command that is at no chunk and no writer's wait has written nothing to DST yet. -/
theorem Consistent.running_unwritten {s : State} (h : Consistent s) {e : Engine} (he : s.engine = e) (busy : e ≠ .idle)
    (noWriter : ∀ w, e ≠ .writer w) (noBlock : ∀ c u, e ≠ .block c u) : Running 0 s := by
  subst he
  have unwritten : dstWritten s = 0 := by
    unfold dstWritten
    split
    · exact absurd ‹_› (noBlock _ _)
    · rfl
  exact unwritten ▸ h.running noWriter busy

theorem Consistent.varintTurn {s : State} (h : Consistent s) {c : VarintCursor} {u : VarintUser}
    (he : s.engine = .varint c u) : NextConsistent (engineStep s) := by
  have running := h.running_unwritten he nofun nofun nofun
  have cursors := h.cursors
  simp only [EngineInv, he] at cursors
  obtain ⟨user, -, position, value⟩ := cursors
  simp only [engineStep, he]
  cases fetchVarint c u s with
  | nil => exact running.varintFail u
  | cons b rest =>
    simp only [decodeVarintByte]
    obtain ⟨g, e⟩ | ⟨g, e⟩ := exec_varintInstr_cases b he
    · rw [e]
      exact running.varintContinue g c u user position value
    · rw [e]
      exact running.varintFinish g c u user

theorem Consistent.blockTurn {s : State} (h : Consistent s) {c : BlockCursor} {u : BlockUser} (he : s.engine = .block c u) :
    NextConsistent (engineStep s) := by
  have running : Running (blockWritten u c) s := dstWritten_block he ▸ h.running (by simp [he]) (by simp [he])
  have cursors := h.cursors
  simp only [EngineInv, he] at cursors
  obtain ⟨user, -, output, capacity, ceiling, dbuf⟩ := cursors
  simp only [engineStep, he]
  split
  · rename_i i _ decoded
    obtain ⟨len, hd, form⟩ | ⟨off, len, size, form⟩ | ⟨high, rfl⟩ := chunk_forms (decodeTag_format decoded)
    · rw [exec_literalForm form he]
      exact running.literalBody u c len hd user output capacity ceiling dbuf
    · rw [exec_copyForm form he]
      exact running.copyBody u c off len size user output capacity ceiling dbuf
    · rw [show exec (.copy4 high) s = .next (blockUnsupported u c.s s) from atChunk_block he _]
      exact running.blockUnsupported u c.s
  · exact running.blockCorrupt u c.s

theorem Consistent.writerTurn {s : State} (h : Consistent s) {w : WriterRun} (he : s.engine = .writer w) :
    Consistent (resumeWriter w s) := by
  have record := h.record ((busy_eq_true_iff s).mpr (by simp [he]))
  have cursors := h.cursors
  simp only [EngineInv, he] at cursors
  obtain ⟨op, src, opened, -, ops⟩ := cursors
  exact WriterRunning.run _ _ _ _
    ⟨h.legal, h.memory, h.before, record.1, record.2, h.ibufMax, h.leftOrder, h.leftMax, h.leftHeld, op, src⟩
    (.inl opened) ops

/-- A header that does not decode has fewer than four bytes (30_encoding.md R101). -/
theorem length_of_decodeHeader_error {muMax : Byte} {bs : List Byte} {e : DecodeError} (h : decodeHeader muMax bs = .error e) :
    bs.length < 4 := by
  match bs with
  | [] | [_] | [_, _] | [_, _, _] => simp
  | _ :: _ :: _ :: _ :: _ => cases h

/-- Whatever the header decoder answers is the frame of a TYPE and a LEN (30_encoding.md R102). -/
theorem frameInstr_of_decodeHeader {muMax : Byte} {bs rest : List Byte} {i : Instr}
    (h : decodeHeader muMax bs = .ok (i, rest)) : ∃ ty len, i = frameInstr muMax ty len := by
  unfold decodeHeader at h
  split at h
  · cases h
    exact ⟨_, _, rfl⟩
  · cases h

theorem Running.takeHeader {s : State} (h : Running 0 s) (i0 h0 : DWord) (hs bs : List Byte) :
    Running 0 (takeHeader i0 h0 hs bs s) :=
  ⟨⟨h.legal, h.memory, h.before, h.ibuf, h.leftOrder, h.leftMax, h.leftHeld⟩, h.done, h.err, h.kept⟩

theorem Consistent.headerTurn {s : State} (h : Consistent s) {i0 h0 : DWord} {hs : List Byte}
    (he : s.engine = .header i0 h0 hs) : NextConsistent (engineStep s) := by
  have taken := (h.running_unwritten he nofun nofun nofun).takeHeader i0 h0 hs (fetchHeader hs s)
  have cursors := h.cursors
  simp only [EngineInv, he] at cursors
  obtain ⟨reader, -⟩ := cursors
  simp only [engineStep, he]
  split
  · rename_i i _ hd
    obtain ⟨ty, len, rfl⟩ := frameInstr_of_decodeHeader hd
    exact (nextConsistent_iff _).mpr fun t next => taken.frameInstr ty len i0 h0 _ reader rfl next
  · rename_i hd
    unfold headerShort
    split
    · exact taken.latchEos.srFail _ _
    · exact taken.engine (.header i0 h0 (hs ++ fetchHeader hs s)) (Nat.zero_le _) ⟨reader, length_of_decodeHeader_error hd⟩

theorem Consistent.bodyTurn {s : State} (h : Consistent s) {i0 h0 : DWord} {kind : BodyKind} {len : Nat}
    (he : s.engine = .body i0 h0 kind len) : Consistent (readBody i0 h0 kind len s) := by
  have running := h.running_unwritten he nofun nofun nofun
  have cursors := h.cursors
  simp only [EngineInv, he] at cursors
  obtain ⟨reader, short, lengths⟩ := cursors
  exact running.readBody i0 h0 kind len reader lengths (Nat.le_of_lt short)

/-- Every turn of the engine keeps the invariant. -/
theorem Consistent.engineStep {s : State} (h : Consistent s) : NextConsistent (engineStep s) := by
  cases he : s.engine with
  | idle =>
    simp only [Machine.engineStep, he]
    exact h
  | dispatch =>
    simp only [Machine.engineStep, he]
    exact (h.running_unwritten he nofun nofun nofun).execCommand
  | varint c u => exact h.varintTurn he
  | block c u => exact h.blockTurn he
  | writer w =>
    simp only [Machine.engineStep, he]
    exact h.writerTurn he
  | header i0 h0 hs => exact h.headerTurn he
  | body i0 h0 kind len =>
    simp only [Machine.engineStep, he]
    exact h.bodyTurn he

/-- Every step keeps the invariant. -/
theorem Consistent.step {s : State} (h : Consistent s) : NextConsistent (step s) := by
  unfold Machine.step
  split
  · exact h.engineStep
  · exact (h.events _).engineStep
  · split
    · exact h.engineStep
    · exact h.events _
  · split
    · exact (h.inRefill _).engineStep
    · exact h.events _
  · exact (h.events _).hostAct _

/-- Settles O3: the invariant is kept by each move of the host and by each kind of engine turn. -/
theorem stepKeepsInvariant : Obligations.StepKeepsInvariant :=
  fun s t h next => (nextConsistent_iff (step s)).mp h.step t next

end Sys2Proof.Machine
end

section
/-! What a turn of the engine runs (O7), what the host's accesses to the register window do (O55), what a reset leaves (O57),
and how the interrupt output follows DONE and IE (O59). -/

namespace Sys2Proof.Machine

/-! ### A turn of the engine runs what its cursor decodes to -/

theorem step_wait_idle {s : State} (rest : List HostAction) (idle : s.busy = false) :
    step { s with events := .wait :: rest } = .next { s with events := rest } := by
  have idle' : State.busy { s with events := .wait :: rest } = false := idle
  simp only [step, idle', Bool.false_eq_true, if_false]

theorem step_feed_idle {s : State} (chunks : List (List Byte)) (rest : List HostAction) (idle : s.busy = false) :
    step { s with events := .feed chunks :: rest } = .next { s with events := rest } := by
  have idle' : State.busy { s with events := .feed chunks :: rest } = false := idle
  simp only [step, idle', Bool.false_eq_true, if_false]

theorem engineStep_dispatch {s : State} (cursor : s.engine = .dispatch) :
    engineStep s = exec (decodeOpcode s.latch.op) s := by
  simp only [engineStep, cursor]

theorem engineStep_varint {s : State} {c : VarintCursor} {u : VarintUser} {i : Instr} {rest : List Byte}
    (cursor : s.engine = .varint c u) (decoded : decodeVarintByte (fetchVarint c u s) = .ok (i, rest)) :
    engineStep s = exec i s := by
  simp only [engineStep, cursor, decoded]

theorem engineStep_block {s : State} {c : BlockCursor} {u : BlockUser} {i : Instr} {rest : List Byte}
    (cursor : s.engine = .block c u) (decoded : decodeTag (fetchTag c u s) = .ok (i, rest)) : engineStep s = exec i s := by
  simp only [engineStep, cursor, decoded]

theorem engineStep_writer (w : WriterRun) {s : State} (cursor : s.engine = .writer w) :
    engineStep s = .next (resumeWriter w s) := by
  simp only [engineStep, cursor]

theorem engineStep_idle {s : State} (cursor : s.engine = .idle) : engineStep s = .next s := by
  simp only [engineStep, cursor]

/-- What is left of a header comes from IN while the EOS latch is clear (46_stream_reader.md R344). -/
theorem fetchHeader_eq {s : State} (h : List Byte) (unlatched : s.inLatch = false) :
    fetchHeader h s = s.inPending.take (4 - h.length) := by
  simp only [fetchHeader, inPeek, inAvailable, unlatched, Bool.false_eq_true, if_false]

theorem engineStep_header {s : State} {i0 h0 : DWord} {h : List Byte} {i : Instr} {rest : List Byte}
    (cursor : s.engine = .header i0 h0 h) (decoded : decodeHeader s.cfg.muMax (h ++ fetchHeader h s) = .ok (i, rest)) :
    engineStep s = exec i (takeHeader i0 h0 h (fetchHeader h s) s) := by
  simp only [engineStep, cursor, decoded]

/-- Settles O7: an engine turn is `engineStep`, which runs what the cursor decodes to. -/
theorem stepRunsTheDecodedInstruction : Obligations.StepRunsTheDecodedInstruction := by
  unfold Obligations.StepRunsTheDecodedInstruction
  refine ⟨fun s₀ s turn => ?_, fun s chunks rest idle => ⟨step_wait_idle rest idle, step_feed_idle chunks rest idle⟩⟩
  rw [turn.step_eq]
  refine ⟨engineStep_dispatch, fun _ _ _ _ => engineStep_varint, fun _ _ _ _ => engineStep_block, ?_,
    fun w => engineStep_writer w, engineStep_idle⟩
  intro i0 h0 h bs i rest cursor unlatched taken decoded
  rw [← fetchHeader_eq h unlatched] at taken
  subst taken
  exact engineStep_header cursor decoded

/-! ### The register window -/

theorem step_write (s : State) (off : Byte) (width : Nat) (v : Word) (rest : List HostAction) :
    step { s with events := .write off width v :: rest } = .next (busWrite off width v { s with events := rest }) := rfl

theorem busWrite_ctrl (v : Word) (s : State) : busWrite 0x04#8 4 v s = ctrlWrite v s := rfl

theorem accessDefined_false {off : Byte} {width : Nat} (h : width ≠ 4 ∨ off.toNat % 4 ≠ 0) :
    accessDefined off width = false := by
  simp only [accessDefined, decide_eq_false_iff_not]
  omega

/-- An access of another width, or unaligned, writes nothing (10_state.md R49). -/
theorem busWrite_undefined {off : Byte} {width : Nat} (h : width ≠ 4 ∨ off.toNat % 4 ≠ 0) (v : Word) (s : State) :
    busWrite off width v s = s := by
  simp only [busWrite, accessDefined_false h, Bool.false_eq_true, if_false]

/-- And it reads 0 (10_state.md R49). -/
theorem busRead_undefined {off : Byte} {width : Nat} (h : width ≠ 4 ∨ off.toNat % 4 ≠ 0) (s : State) :
    busRead s off width = 0#32 := by
  simp only [busRead, accessDefined_false h, Bool.false_eq_true, if_false]

/-- ID, and the registers from RES_LEN on, are not written (10_state.md R48, R50). -/
theorem regWrite_readOnly {off : Nat} (h : off = 0 ∨ 0x28 ≤ off) (v : Word) (s : State) : regWrite off v s = s := by
  unfold regWrite
  split
  case h_10 => rfl
  all_goals omega

theorem busWrite_readOnly {off : Byte} (h : off.toNat = 0 ∨ (0x28 ≤ off.toNat ∧ off.toNat % 4 = 0)) (v : Word)
    (s : State) : busWrite off 4 v s = s := by
  unfold busWrite
  rw [regWrite_readOnly (h.imp_right And.left), ite_self]

/-- A read of SW_STATUS or SR_STATUS while BUSY = 1 draws one free choice (log 25). -/
theorem draws_add_readDraws (s : State) (off : Byte) (width : Nat) :
    s.draws + readDraws s off width =
      if s.busy = true ∧ width = 4 ∧ (off = 0x38#8 ∨ off = 0x3C#8) then s.draws + 1 else s.draws := by
  unfold readDraws
  split
  all_goals rfl

/-- Settles O55: a register write is `busWrite`, a register read `busRead`. -/
theorem registerWindowAccesses : Obligations.RegisterWindowAccesses := by
  unfold Obligations.RegisterWindowAccesses
  intro s off width v rest
  refine ⟨rfl, fun undefined => ⟨?_, busRead_undefined undefined s⟩, fun readOnly => ?_, rfl, rfl, rfl, rfl, rfl, rfl, ?_⟩
  · rw [step_write, busWrite_undefined undefined]
  · rw [step_write, busWrite_readOnly readOnly]
  · rw [← draws_add_readDraws]
    rfl

/-! ### Reset -/

/-- Abandoning a running command changes memory inside its DST, and the count of free bytes (70_reset_and_hazards.md R451). -/
theorem abandon_eq (s : State) :
    ∃ m d, abandon s = { s with mem := m, draws := d } ∧ (s.busy = false → m = s.mem) ∧
      ∀ a, inLatchedDst s a = false → Memory.get m a = Memory.get s.mem a := by
  unfold abandon
  split
  · rename_i running
    refine ⟨_, _, rfl, fun idle => ?_, fun a outside => scrambleDst_outside outside⟩
    simp [idle] at running
  · exact ⟨s.mem, s.draws, rfl, fun _ => rfl, fun _ _ => rfl⟩

/-- A reset is the reset state on the memory that `abandon` leaves (70_reset_and_hazards.md R450, R451). -/
theorem hwReset_eq (s : State) :
    ∃ m d, hwReset s = resetState { s with mem := m, draws := d } ∧ (s.busy = false → m = s.mem) ∧
      ∀ a, inLatchedDst s a = false → Memory.get m a = Memory.get s.mem a := by
  obtain ⟨m, d, abandoned, idle, outside⟩ := abandon_eq s
  exact ⟨m, d, congrArg resetState abandoned, idle, outside⟩

/-- Settles O57: a write to CTRL is a reset with IE from bit 0, or only sets IE. -/
theorem softResetRestoresResetState : Obligations.SoftResetRestoresResetState := by
  unfold Obligations.SoftResetRestoresResetState
  intro s v rest
  obtain ⟨m, d, reset, idle, outside⟩ := hwReset_eq { s with events := rest }
  refine ⟨fun srst => ⟨m, d, ?_, idle, outside⟩, fun srst => ?_, m, d, congrArg _ reset, idle, outside⟩
  · rw [step_write, busWrite_ctrl, ctrlWrite, if_pos srst, softReset, reset]
    rfl
  · rw [step_write, busWrite_ctrl, ctrlWrite, if_neg (Bool.eq_false_iff.mp srst)]

/-! ### The interrupt output -/

theorem irq_ctrlWrite_clear {v : Word} (h : v.getLsbD 0 = false) (s : State) : (ctrlWrite v s).irq = false := by
  have ie : (ctrlWrite v s).ie = false := by
    unfold ctrlWrite
    split
    all_goals exact h
  rw [State.irq, ie, Bool.and_false]

/-- Settles O59: IRQ is DONE and IE, so it follows each change of either. -/
theorem interruptFollowsDoneAndEnable : Obligations.InterruptFollowsDoneAndEnable := by
  unfold Obligations.InterruptFollowsDoneAndEnable
  intro s code resLen resVal pos op v
  refine ⟨Bool.and_eq_true_iff, rfl, fun clear => ?_, fun clear => irq_ctrlWrite_clear clear s, rfl, rfl⟩
  simp only [State.irq, statusWrite, clear, Bool.not_true, Bool.and_false, Bool.false_and]

end Sys2Proof.Machine
end

section
/-! What a running command reads: the latched operands, never the operand registers (O54). Whatever other values stand in the
operand registers, each operation of the engine does the same and leaves those values. -/

namespace Sys2Proof.Machine

/-- The values of the six operand registers (10_state.md R35 to R39). -/
structure OperandRegs where
  srcAddr : Word
  srcLen : Word
  dstAddr : Word
  dstCap : Word
  argLo : Word
  argHi : Word

/-- `s` with these values in the operand registers. -/
def OperandRegs.into (r : OperandRegs) (s : State) : State :=
  { s with
    srcAddr := r.srcAddr, srcLen := r.srcLen, dstAddr := r.dstAddr, dstCap := r.dstCap
    argLo := r.argLo, argHi := r.argHi }

theorem OperandRegs.into_engine (r : OperandRegs) (s : State) : (r.into s).engine = s.engine := rfl
theorem OperandRegs.into_latch (r : OperandRegs) (s : State) : (r.into s).latch = s.latch := rfl

/-- An operation that neither reads nor changes the operand registers. -/
def OperandFree (f : State → State) : Prop := ∀ (r : OperandRegs) (s : State), f (r.into s) = r.into (f s)

/-- A result with other values in the operand registers of its next state. -/
def OperandRegs.intoNext (r : OperandRegs) : Result → Result
  | .next t => .next (r.into t)
  | .fault e => .fault e
  | .refused e => .refused e

/-- A meaning that neither reads nor changes the operand registers. -/
def OperandFreeResult (f : State → Result) : Prop :=
  ∀ (r : OperandRegs) (s : State), f (r.into s) = r.intoNext (f s)

/-! ### How such operations are put together -/

theorem OperandFree.comp {f g : State → State} (hf : OperandFree f) (hg : OperandFree g) :
    OperandFree fun s => f (g s) := fun r s => (congrArg f (hg r s)).trans (hf r (g s))

theorem OperandFree.ite {c : State → Prop} {inst : ∀ s, Decidable (c s)} {f g : State → State}
    (hf : OperandFree f) (hg : OperandFree g)
    (hc : ∀ (r : OperandRegs) s, c (r.into s) ↔ c s := by exact fun _ _ => Iff.rfl) :
    OperandFree fun s => if c s then f s else g s := fun r s => by
  by_cases h : c s
  · simp only [h, (hc r s).mpr h, if_true, hf r s]
  · simp only [h, mt (hc r s).mp h, if_false, hg r s]

theorem OperandFreeResult.ite {c : State → Prop} {inst : ∀ s, Decidable (c s)} {f g : State → Result}
    (hf : OperandFreeResult f) (hg : OperandFreeResult g)
    (hc : ∀ (r : OperandRegs) s, c (r.into s) ↔ c s := by exact fun _ _ => Iff.rfl) :
    OperandFreeResult fun s => if c s then f s else g s := fun r s => by
  by_cases h : c s
  · simp only [h, (hc r s).mpr h, if_true, hf r s]
  · simp only [h, mt (hc r s).mp h, if_false, hg r s]

theorem OperandFree.next {f : State → State} (hf : OperandFree f) : OperandFreeResult fun s => .next (f s) :=
  fun r s => congrArg Host.Outcome.next (hf r s)

/-! ### Completions -/

theorem operandFree_complete (c : Code) (l v p : Nat) : OperandFree (complete c l v p) := fun _ _ => rfl
theorem operandFree_srFail (e : SrErr) (p : DWord) : OperandFree (srFail e p) := fun _ _ => rfl

/-! ### The block decoder and the varint engine -/

theorem operandFree_blockCorrupt (u : BlockUser) (p : Nat) : OperandFree (blockCorrupt u p) := by
  cases u <;> exact fun _ _ => rfl

theorem operandFree_blockUnsupported (u : BlockUser) (p : Nat) : OperandFree (blockUnsupported u p) := by
  cases u <;> exact fun _ _ => rfl

theorem operandFree_blockTooLarge (u : BlockUser) : OperandFree (blockTooLarge u) := by
  cases u <;> exact fun _ _ => rfl

theorem operandFree_blockDstSmall (u : BlockUser) (n : Nat) : OperandFree (blockDstSmall u n) := by
  cases u <;> exact fun _ _ => rfl

theorem operandFree_outWrite (u : BlockUser) (d : Nat) (bs : List Byte) : OperandFree (outWrite u d bs) := by
  cases u <;> exact fun _ _ => rfl

theorem operandFree_readerLoop (i0 : DWord) : OperandFree (readerLoop i0) :=
  .ite (fun _ _ => rfl) fun _ _ => rfl

theorem operandFree_dataFrameDone (i0 h0 : DWord) : OperandFree (dataFrameDone i0 h0) :=
  .ite (operandFree_srFail _ _) fun r s =>
    operandFree_readerLoop i0 r { s with leftRd := 0, leftEnd := s.dbuf.length }

theorem operandFree_blockDone (u : BlockUser) (n : Nat) : OperandFree (blockDone u n) := by
  cases u with
  | bdec => exact operandFree_complete _ _ _ _
  | frame i0 h0 => exact operandFree_dataFrameDone i0 h0

theorem operandFree_blockLoop (u : BlockUser) (c : BlockCursor) : OperandFree (blockLoop u c) :=
  .ite (fun _ _ => rfl) <|
    .ite (fun r s => operandFree_blockCorrupt u (blockLength u s) r s) (operandFree_blockDone u c.n)

theorem operandFree_blockBegin (u : BlockUser) (n used : Nat) : OperandFree (blockBegin u n used) :=
  .ite (operandFree_blockTooLarge u) <| .ite (operandFree_blockDstSmall u n) (operandFree_blockLoop u _)

theorem operandFree_literalBody (u : BlockUser) (c : BlockCursor) (len hd : Nat) :
    OperandFree (literalBody u c len hd) :=
  .ite (operandFree_blockCorrupt u c.s) <|
    .ite (operandFree_blockCorrupt u c.s) <|
      (operandFree_blockLoop u _).comp fun r s => operandFree_outWrite u c.d (blockBytes u (c.s + hd) len s) r s

theorem operandFree_decompress (u : BlockUser) (d off len : Nat) : OperandFree (decompress u d off len) :=
  fun r s => operandFree_outWrite u d (repeatPattern (outBytes u (d - off) off s) len) r s

theorem operandFree_copyBody (u : BlockUser) (c : BlockCursor) (off len size : Nat) :
    OperandFree (copyBody u c off len size) :=
  .ite (operandFree_blockCorrupt u c.s) <|
    .ite (operandFree_blockCorrupt u c.s) <| (operandFree_blockLoop u _).comp (operandFree_decompress u c.d off len)

theorem operandFree_prefixBegin (u : BlockUser) : OperandFree (prefixBegin u) :=
  .ite (operandFree_blockCorrupt u 0) fun _ _ => rfl

theorem operandFree_varintFail (u : VarintUser) : OperandFree (varintFail u) := by
  cases u with
  | command => exact operandFree_complete _ _ _ _
  | ofBlock b => exact operandFree_blockCorrupt b 0

theorem operandFree_varintDone (u : VarintUser) (x : DWord) (used : Nat) : OperandFree (varintDone u x used) := by
  cases u with
  | command => exact operandFree_complete _ _ _ _
  | ofBlock b => exact operandFree_blockBegin b x.toNat used

theorem operandFree_varintContinue (g : BitVec 7) (c : VarintCursor) (u : VarintUser) :
    OperandFree (varintContinue g c u) :=
  .ite (operandFree_varintFail u) fun _ _ => rfl

theorem operandFree_varintFinish (g : BitVec 7) (c : VarintCursor) (u : VarintUser) :
    OperandFree (varintFinish g c u) :=
  .ite (operandFree_varintFail u) (operandFree_varintDone u _ _)

/-! ### The stream reader -/

theorem operandFree_bodyDone (i0 h0 : DWord) (kind : BodyKind) : OperandFree (bodyDone i0 h0 kind) := by
  cases kind with
  | compressed => exact fun r s => operandFree_prefixBegin (.frame i0 h0) r { s with dbuf := [] }
  | uncompressed => exact fun r s => operandFree_dataFrameDone i0 h0 r { s with dbuf := s.fbuf.drop 4 }
  | streamId =>
    exact .ite (operandFree_srFail _ _) fun r s => operandFree_readerLoop i0 r { s with srPhase := .streaming }
  | skipped => exact operandFree_readerLoop i0

theorem operandFree_readBody (i0 h0 : DWord) (kind : BodyKind) (len : Nat) : OperandFree (readBody i0 h0 kind len) :=
  .ite
    (fun r s =>
      let bs := inPeek (len - s.fbuf.length) s
      operandFree_bodyDone i0 h0 kind r (inConsume bs.length { s with fbuf := s.fbuf ++ bs })) <|
    .ite (fun _ _ => rfl) fun _ _ => rfl

theorem operandFree_frameGate (marker : Bool) (len : BitVec 24) {f : DWord → DWord → State → State} (i0 h0 : DWord)
    (hf : OperandFree (f i0 h0)) : OperandFree (frameGate marker len f i0 h0) :=
  .ite (operandFree_srFail _ _) <|
    .ite (operandFree_srFail _ _) fun r s => hf r { s with fbuf := [] }

theorem operandFree_compressedFrame (len : BitVec 24) (i0 h0 : DWord) : OperandFree (compressedFrame len i0 h0) :=
  .ite (operandFree_srFail _ _) (operandFree_readBody i0 h0 _ _)

theorem operandFree_uncompressedFrame (len : BitVec 24) (i0 h0 : DWord) : OperandFree (uncompressedFrame len i0 h0) :=
  .ite (operandFree_srFail _ _) <|
    .ite (operandFree_srFail _ _) (operandFree_readBody i0 h0 _ _)

theorem operandFree_streamIdFrame (len : BitVec 24) (i0 h0 : DWord) : OperandFree (streamIdFrame len i0 h0) :=
  .ite (operandFree_srFail _ _) (operandFree_readBody i0 h0 _ _)

theorem operandFree_headerShort (h0 : DWord) (h : List Byte) : OperandFree (headerShort h0 h) :=
  .ite (fun _ _ => rfl) fun _ _ => rfl

theorem operandFree_takeHeader (i0 h0 : DWord) (h bs : List Byte) : OperandFree (takeHeader i0 h0 h bs) :=
  fun _ _ => rfl

/-! ### The stream writer -/

theorem operandFree_runWriter (resLen : Nat) (ops : List WriterOp) (o : Nat) :
    OperandFree (runWriter resLen ops o) := by
  induction ops generalizing o with
  | nil => exact operandFree_complete _ _ _ _
  | cons op ops ih =>
    cases op with
    | put bs => exact .ite (fun r s => ih _ r (outPut (outAccepts s bs.length) bs s)) fun _ _ => rfl
    | activate => exact fun r s => ih o r { s with swState := .active }
    | fill k n => exact fun r s => ih o r { s with ibuf := s.ibuf ++ sourceSlice k n s }
    | frame =>
      exact .ite
        (fun r s =>
          let bs := frameBytes s.cfg s.ibuf
          ih _ r { outPut (outAccepts s bs.length) bs s with ibuf := [] })
        fun _ _ => rfl
    | empty => exact fun r s => ih o r { s with ibuf := [] }
    | close => exact fun r s => ih o r { s with swState := .closed }

/-! ### The instructions -/

theorem operandFree_atVarint {f : VarintCursor → VarintUser → State → State} (hf : ∀ c u, OperandFree (f c u)) :
    OperandFreeResult (atVarint f) := fun r s => by
  unfold atVarint
  rw [r.into_engine]
  split
  · exact (hf _ _).next r s
  · rfl

theorem operandFree_atChunk {f : BlockCursor → BlockUser → State → State} (hf : ∀ c u, OperandFree (f c u)) :
    OperandFreeResult (atChunk f) := fun r s => by
  unfold atChunk
  rw [r.into_engine]
  split
  · exact (hf _ _).next r s
  · rfl

theorem operandFree_atHeader {f : DWord → DWord → State → State} (hf : ∀ i0 h0, OperandFree (f i0 h0)) :
    OperandFreeResult (atHeader f) := fun r s => by
  unfold atHeader
  rw [r.into_engine]
  split
  · exact (hf _ _).next r s
  · rfl

/-- A frame header runs its frame behind the checks (46_stream_reader.md R345, R346). -/
theorem operandFree_frame {marker : Bool} {len : BitVec 24} {f : DWord → DWord → State → State}
    (hf : ∀ i0 h0, OperandFree (f i0 h0)) : OperandFreeResult (atHeader (frameGate marker len f)) :=
  operandFree_atHeader fun i0 h0 => operandFree_frameGate marker len i0 h0 (hf i0 h0)

theorem operandFree_execMaxLen : OperandFreeResult execMaxLen := fun r s => by
  unfold execMaxLen
  rw [r.into_latch]
  split
  all_goals rfl

theorem operandFree_execBenc : OperandFreeResult execBenc :=
  .ite (fun _ _ => rfl) fun r s => by
    rw [r.into_latch]
    split
    · rfl
    split
    · rfl
    · rfl

theorem operandFree_execVarintEnc : OperandFreeResult execVarintEnc :=
  .ite (fun _ _ => rfl) <| .ite (fun _ _ => rfl) fun _ _ => rfl

theorem operandFree_execVarintDec : OperandFreeResult execVarintDec :=
  .ite (fun _ _ => rfl) <| .ite (fun _ _ => rfl) fun _ _ => rfl

theorem operandFree_execBdec : OperandFreeResult execBdec :=
  .ite (operandFree_prefixBegin .bdec).next fun _ _ => rfl

theorem operandFree_execSwWrite : OperandFreeResult execSwWrite :=
  .ite (fun _ _ => rfl) <| .ite (fun _ _ => rfl) fun r s =>
    (operandFree_runWriter _ (swWriteOps s) 0).next r s

theorem operandFree_execSwFlush : OperandFreeResult execSwFlush :=
  .ite (fun _ _ => rfl) fun r s => (operandFree_runWriter _ (swFlushOps s) 0).next r s

theorem operandFree_execSwClose : OperandFreeResult execSwClose :=
  .ite (fun _ _ => rfl) fun r s => (operandFree_runWriter _ (swCloseOps s) 0).next r s

theorem operandFree_execSrRead : OperandFreeResult execSrRead :=
  .ite (fun _ _ => rfl) <| .ite (fun _ _ => rfl) <|
    .ite (fun _ _ => rfl) fun r s => (operandFree_readerLoop s.srInpos).next r s

/-- Every instruction ignores the operand registers: its operands are the latched ones (40_commands.md R111). -/
theorem operandFree_exec (i : Instr) : OperandFreeResult (exec i) := by
  cases i with
  | varintEnc => exact operandFree_execVarintEnc
  | varintDec => exact operandFree_execVarintDec
  | maxLen => exact operandFree_execMaxLen
  | benc => exact operandFree_execBenc
  | bdec => exact operandFree_execBdec
  | swWrite => exact operandFree_execSwWrite
  | swFlush => exact operandFree_execSwFlush
  | swClose => exact operandFree_execSwClose
  | srRead => exact operandFree_execSrRead
  | varintLen | swReset | srReset | illegal => exact fun _ _ => rfl
  | litX1 | litX2 | litX3 | litX4 | litInline => exact operandFree_atChunk fun c u => operandFree_literalBody u c _ _
  | copy1 | copy2 => exact operandFree_atChunk fun c u => operandFree_copyBody u c _ _ _
  | copy4 => exact operandFree_atChunk fun c u => operandFree_blockUnsupported u c.s
  | ftCompressed len => exact operandFree_frame fun i0 h0 => operandFree_compressedFrame len i0 h0
  | ftUncompressed len => exact operandFree_frame fun i0 h0 => operandFree_uncompressedFrame len i0 h0
  | ftStreamId len => exact operandFree_frame fun i0 h0 => operandFree_streamIdFrame len i0 h0
  | ftPadding | ftReservedSkippable => exact operandFree_frame fun i0 h0 => operandFree_readBody i0 h0 .skipped _
  | ftReservedUnskippable => exact operandFree_frame fun _ h0 => operandFree_srFail _ h0
  | vbCont g => exact operandFree_atVarint fun c u => operandFree_varintContinue g c u
  | vbLast g => exact operandFree_atVarint fun c u => operandFree_varintFinish g c u

/-- The engine's move ignores the operand registers, wherever the running command stands. -/
theorem operandFree_engineStep : OperandFreeResult engineStep := fun r s => by
  unfold engineStep
  rw [r.into_engine]
  cases s.engine with
  | idle => rfl
  | dispatch => exact operandFree_exec (decodeOpcode s.latch.op) r s
  | varint c u =>
    have fetched : fetchVarint c u (r.into s) = fetchVarint c u s := rfl
    dsimp only
    rw [fetched]
    split
    · exact operandFree_exec _ r s
    · exact (operandFree_varintFail u).next r s
  | block c u =>
    have fetched : fetchTag c u (r.into s) = fetchTag c u s := rfl
    dsimp only
    rw [fetched]
    split
    · exact operandFree_exec _ r s
    · exact (operandFree_blockCorrupt u c.s).next r s
  | writer w => exact (operandFree_runWriter w.resLen w.todo w.o).next r s
  | header i0 h0 h =>
    have decoded : decodeHeader (r.into s).cfg.muMax (h ++ fetchHeader h (r.into s)) =
      decodeHeader s.cfg.muMax (h ++ fetchHeader h s) := rfl
    dsimp only
    rw [decoded]
    split
    · exact operandFree_exec _ r (takeHeader i0 h0 h (fetchHeader h s) s)
    · exact ((operandFree_headerShort h0 _).comp (operandFree_takeHeader i0 h0 h (fetchHeader h s))).next r s
  | body i0 h0 kind len => exact (operandFree_readBody i0 h0 kind len).next r s

/-- Settles O54: the engine's step ignores the operand registers, so it gives the same with any values in them. -/
theorem operandRegistersDoNotReachRunningCommand : Obligations.OperandRegistersDoNotReachRunningCommand := by
  unfold Obligations.OperandRegistersDoNotReachRunningCommand
  intro s t a b c d lo hi next
  have same := operandFree_engineStep ⟨a, b, c, d, lo, hi⟩ s
  rw [next] at same
  exact same

end Sys2Proof.Machine
end

section
/-! What the host reads at every offset of the register window (O56): the fields of each register as a number, and which
intermediate states SW_STATUS and SR_STATUS can show while a command runs. -/

namespace Sys2Proof.Machine

/-! ### Registers as numbers -/

/-- Two fields side by side, as a number. -/
theorem toNat_append_eq_add {m n : Nat} (x : BitVec m) (y : BitVec n) : (x ++ y).toNat = x.toNat * 2 ^ n + y.toNat := by
  rw [BitVec.toNat_append, ← Nat.shiftLeft_add_eq_or_of_lt y.isLt, Nat.shiftLeft_eq]

/-- The high word of a 64-bit value (10_state.md R41). -/
theorem toNat_extract_high (v : DWord) : (v.extractLsb' 32 32).toNat = v.toNat / 2 ^ 32 := by
  have := v.isLt
  rw [BitVec.extractLsb'_toNat, Nat.shiftRight_eq_div_pow]
  omega

/-- STATUS (10_state.md R33). -/
theorem toNat_statusImage (s : State) :
    (statusImage s).toNat = s.busy.toNat + 2 * s.done.toNat + 4 * s.rej.toNat + 16 * s.err.bits.toNat := by
  simp only [statusImage, toNat_append_eq_add, BitVec.toNat_ofBool, BitVec.toNat_ofNat]
  omega

/-- SW_STATUS (10_state.md R43). -/
theorem toNat_swStatusImage (s : State) :
    (swStatusImage s).toNat = s.swState.bits.toNat + 65536 * (ibufLenField s).toNat := by
  simp only [swStatusImage, toNat_append_eq_add, BitVec.toNat_ofNat]
  omega

/-- IBUF_LEN fits its field but for a full IBUF (10_state.md R43, R51). -/
theorem toNat_ibufLenField {s : State} (h : s.ibuf.length < 65536) : (ibufLenField s).toNat = s.ibuf.length := by
  have short : s.ibufLen < Config.maxBlock := h
  rw [ibufLenField, if_pos short, BitVec.toNat_ofNat]
  exact Nat.mod_eq_of_lt h

/-- SR_STATUS (10_state.md R44). -/
theorem toNat_srStatusImage (s : State) :
    (srStatusImage s).toNat =
      s.srPhase.bits.toNat + 16 * s.srErr.bits.toNat + 32768 * ((s.leftEnd - s.leftRd) % 131072) := by
  simp only [srStatusImage, toNat_append_eq_add, BitVec.toNat_ofNat, State.leftover]
  omega

/-- CONFIG (10_state.md R45). -/
theorem toNat_configImage {p : Params} (h : p.Legal) :
    (configImage p).toNat =
      (if p.encPolicy = .conformant then 1 else 0) + (if p.encSkip = true then 2 else 0) +
        (if p.select = .eighth then 4 else 0) + 256 * p.muMax.toNat + 65536 * p.memAddrW := by
  obtain ⟨_, width, _⟩ := h
  have bit (b : Bool) : b.toNat = if b = true then 1 else 0 := by cases b <;> rfl
  simp only [configImage, toNat_append_eq_add, BitVec.toNat_ofBool, BitVec.toNat_ofNat, bit, decide_eq_true_eq]
  split_ifs
  all_goals omega

/-- The reserved offsets read 0 (10_state.md R46). -/
theorem regRead_reserved (s : State) {off : Nat} (h : 0x48 ≤ off) : regRead s off = 0#32 := by
  unfold regRead
  split
  case h_19 => rfl
  all_goals omega

theorem busRead_reserved (s : State) {off : Byte} (h : 0x48 ≤ off.toNat) : busRead s off 4 = 0#32 := by
  unfold busRead
  rw [regRead_reserved s h, ite_self]

/-! ### What the status registers show -/

/-- SW_STATUS and SR_STATUS show the same of both. -/
def SameShown (s u : State) : Prop := WriterShown s u ∧ ReaderShown s u

theorem SameShown.refl (s : State) : SameShown s s := ⟨⟨rfl, rfl⟩, rfl, rfl, rfl, rfl⟩

theorem SameShown.symm {s u : State} (h : SameShown s u) : SameShown u s := by
  obtain ⟨⟨h1, h2⟩, h3, h4, h5, h6⟩ := h
  exact ⟨⟨h1.symm, h2.symm⟩, h3.symm, h4.symm, h5.symm, h6.symm⟩

/-! ### The operations that change nothing the status registers show -/

/-- An operation on no part of the writer or the reader (20_memory.md R88). -/
def KeepsShown (f : State → State) : Prop := ∀ s, SameShown s (f s)

theorem KeepsShown.ite {c : State → Prop} {inst : ∀ s, Decidable (c s)} {f g : State → State} (hf : KeepsShown f)
    (hg : KeepsShown g) : KeepsShown fun s => if c s then f s else g s := fun s => by
  dsimp only
  split
  · exact hf s
  · exact hg s

theorem keepsShown_blockLoop (c : BlockCursor) : KeepsShown (blockLoop .bdec c) :=
  .ite SameShown.refl <| .ite SameShown.refl SameShown.refl

theorem keepsShown_blockBegin (n used : Nat) : KeepsShown (blockBegin .bdec n used) :=
  .ite SameShown.refl <| .ite SameShown.refl (keepsShown_blockLoop _)

theorem keepsShown_literalBody (c : BlockCursor) (len hd : Nat) : KeepsShown (literalBody .bdec c len hd) :=
  .ite SameShown.refl <| .ite SameShown.refl fun _ => keepsShown_blockLoop _ _

theorem keepsShown_copyBody (c : BlockCursor) (off len size : Nat) : KeepsShown (copyBody .bdec c off len size) :=
  .ite SameShown.refl <| .ite SameShown.refl fun _ => keepsShown_blockLoop _ _

theorem keepsShown_prefixBegin : KeepsShown (prefixBegin .bdec) := .ite SameShown.refl SameShown.refl

/-- The varints that are not in a frame's body. -/
def VarintUser.OutsideFrame (u : VarintUser) : Prop := u = .command ∨ u = .ofBlock .bdec

theorem keepsShown_varintFail {u : VarintUser} (hu : u.OutsideFrame) : KeepsShown (varintFail u) := by
  rcases hu with rfl | rfl
  all_goals exact SameShown.refl

theorem keepsShown_varintContinue (g : BitVec 7) (c : VarintCursor) {u : VarintUser} (hu : u.OutsideFrame) :
    KeepsShown (varintContinue g c u) :=
  .ite (keepsShown_varintFail hu) SameShown.refl

theorem keepsShown_varintFinish (g : BitVec 7) (c : VarintCursor) {u : VarintUser} (hu : u.OutsideFrame) :
    KeepsShown (varintFinish g c u) := by
  refine .ite (keepsShown_varintFail hu) ?_
  rcases hu with rfl | rfl
  · exact SameShown.refl
  · exact keepsShown_blockBegin _ _

/-- The result, if it is a next state, shows the same as `s`. -/
def NextShows (s : State) : Result → Prop
  | .next t => SameShown s t
  | .fault _ => True
  | .refused _ => True

theorem nextShows_execVarintEnc (s : State) : NextShows s (execVarintEnc s) := by
  unfold execVarintEnc
  dsimp only
  split
  · exact SameShown.refl s
  split
  all_goals exact SameShown.refl s

theorem nextShows_execVarintDec (s : State) : NextShows s (execVarintDec s) := by
  unfold execVarintDec
  split
  · exact SameShown.refl s
  split
  all_goals exact SameShown.refl s

theorem nextShows_execMaxLen (s : State) : NextShows s (execMaxLen s) := by
  unfold execMaxLen
  split
  all_goals exact SameShown.refl s

theorem nextShows_execBenc (s : State) : NextShows s (execBenc s) := by
  unfold execBenc
  split
  · exact SameShown.refl s
  split
  · exact SameShown.refl s
  split
  all_goals exact SameShown.refl s

theorem nextShows_execBdec (s : State) : NextShows s (execBdec s) := by
  unfold execBdec
  split
  · exact keepsShown_prefixBegin s
  · exact SameShown.refl s

/-- A varint byte outside a frame's body shows nothing new (41_varint.md R187, 43_block_decoder.md R262). -/
theorem nextShows_varintTurn {s : State} {c : VarintCursor} {u : VarintUser} (he : s.engine = .varint c u)
    (hu : u.OutsideFrame) : NextShows s (engineStep s) := by
  simp only [engineStep, he]
  cases fetchVarint c u s with
  | nil => exact keepsShown_varintFail hu s
  | cons b rest =>
    simp only [decodeVarintByte]
    obtain ⟨g, e⟩ | ⟨g, e⟩ := exec_varintInstr_cases b he
    · rw [e]
      exact keepsShown_varintContinue g c hu s
    · rw [e]
      exact keepsShown_varintFinish g c hu s

/-- A chunk of BDEC shows nothing new (43_block_decoder.md R262). -/
theorem nextShows_bdecTurn {s : State} {c : BlockCursor} (he : s.engine = .block c .bdec) : NextShows s (engineStep s) := by
  simp only [engineStep, he]
  split
  · rename_i decoded
    obtain ⟨len, hd, form⟩ | ⟨off, len, size, form⟩ | ⟨high, rfl⟩ := chunk_forms (decodeTag_format decoded)
    · rw [exec_literalForm form he]
      exact keepsShown_literalBody c len hd s
    · rw [exec_copyForm form he]
      exact keepsShown_copyBody c off len size s
    · rw [show exec (.copy4 high) s = .next (blockUnsupported .bdec c.s s) from atChunk_block he _]
      exact SameShown.refl s
  · exact SameShown.refl s

/-! ### The states of the writer -/

/-- Among a writer command's states is the one it starts from. -/
theorem self_mem_writerStates (ops : List WriterOp) (s : State) : s ∈ writerStates ops s := by
  induction ops generalizing s with
  | nil => exact List.mem_singleton_self s
  | cons op ops ih =>
    cases op with
    | fill k n =>
      have start : { s with ibuf := s.ibuf ++ sourceSlice k 0 s } = s := by simp [sourceSlice, Memory.read]
      cases n with
      | zero => exact (congrArg (s ∈ writerStates ops ·) start).mpr (ih s)
      | succ n => exact List.mem_append_left _ (List.mem_map.mpr ⟨0, List.mem_range.mpr n.succ_pos, start⟩)
    | put | activate | frame | empty | close => exact List.mem_cons_self

/-- What a writer command shows where it completes or waits is among its states. -/
theorem exists_writerStates_runWriter (resLen : Nat) (ops : List WriterOp) (o : Nat) (s : State) :
    ∃ u ∈ writerStates ops s, SameShown (runWriter resLen ops o s) u := by
  induction ops generalizing o s with
  | nil => exact ⟨s, List.mem_singleton_self s, .refl s⟩
  | cons op ops ih =>
    cases op with
    | put bs =>
      rw [runWriter, writerStates]
      dsimp only
      split
      · obtain ⟨u, mem, shown⟩ := ih (o + outAccepts s bs.length) (outPut (outAccepts s bs.length) bs s)
        exact ⟨u, List.mem_cons_of_mem _ mem, shown⟩
      · exact ⟨_, List.mem_cons_of_mem _ (List.mem_singleton_self _), .refl _⟩
    | activate =>
      obtain ⟨u, mem, shown⟩ := ih o { s with swState := .active }
      exact ⟨u, List.mem_cons_of_mem _ mem, shown⟩
    | fill k n =>
      obtain ⟨u, mem, shown⟩ := ih o { s with ibuf := s.ibuf ++ sourceSlice k n s }
      exact ⟨u, List.mem_append_right _ mem, shown⟩
    | frame =>
      rw [runWriter, writerStates]
      dsimp only
      split
      · obtain ⟨u, mem, shown⟩ := ih _ _
        exact ⟨u, List.mem_cons_of_mem _ mem, shown⟩
      · exact ⟨_, List.mem_cons_of_mem _ (List.mem_singleton_self _), .refl _⟩
    | empty =>
      obtain ⟨u, mem, shown⟩ := ih o { s with ibuf := [] }
      exact ⟨u, List.mem_cons_of_mem _ mem, shown⟩
    | close =>
      obtain ⟨u, mem, shown⟩ := ih o { s with swState := .closed }
      exact ⟨u, List.mem_cons_of_mem _ mem, shown⟩

/-! ### The states of the reader -/

/-- The state before the element, at the end of a data frame those between its assignments, and the state after it
(46_stream_reader.md R348, R349). -/
theorem mem_readerStates {s t : State} (next : engineStep s = .next t) (u : State) :
    u ∈ readerStates s ↔
      u = s ∨
        (dataFrameEnds s t = true ∧ (u = { s with leftRd := 0 } ∨ u = { s with leftRd := 0, leftEnd := t.leftEnd })) ∨
        u = t := by
  unfold readerStates
  rw [next]
  dsimp only
  split
  · rename_i ends
    simp [ends, or_assoc]
  · rename_i ends
    simp [ends]

theorem self_mem_readerStates (s : State) : s ∈ readerStates s := by
  unfold readerStates
  split
  · exact List.mem_append_left _ List.mem_cons_self
  · exact List.mem_singleton_self s

theorem next_mem_readerStates {s t : State} (next : engineStep s = .next t) : t ∈ readerStates s :=
  (mem_readerStates next t).mpr (.inr (.inr rfl))

/-! ### Among the states of an element are the one before it and the one after it -/

/-- What the result shows, if it is a next state, is what one of these states shows. -/
def NextAmong (l : List State) : Result → Prop
  | .next t => ∃ u ∈ l, SameShown t u
  | .fault _ => True
  | .refused _ => True

theorem nextAmong_of_mem {l : List State} {r : Result} (h : ∀ t, r = .next t → t ∈ l) : NextAmong l r := by
  cases r with
  | next t => exact ⟨t, h t rfl, .refl t⟩
  | fault | refused => trivial

theorem NextShows.among {s : State} {l : List State} {r : Result} (h : NextShows s r) (mem : s ∈ l) : NextAmong l r := by
  cases r with
  | next t => exact ⟨s, mem, h.symm⟩
  | fault | refused => trivial

theorem self_mem_commandStates (i : Instr) (s : State) : s ∈ commandStates i s := by
  cases i with
  | swWrite | swFlush | swClose =>
    unfold commandStates
    dsimp only
    split
    · exact List.mem_singleton_self s
    · exact self_mem_writerStates _ s
  | srRead => exact self_mem_readerStates s
  | swReset | srReset => exact List.mem_cons_self
  | _ => exact List.mem_singleton_self s

/-- A writer command past its checks shows one of the states of its actions. -/
theorem nextAmong_runWriter {l : List State} {ops : List WriterOp} {s : State} (runs : l = writerStates ops s)
    (resLen : Nat) : NextAmong l (.next (runWriter resLen ops 0 s)) :=
  runs ▸ exists_writerStates_runWriter resLen ops 0 s

theorem nextAmong_swWrite (s : State) : NextAmong (commandStates .swWrite s) (execSwWrite s) := by
  have start := self_mem_commandStates .swWrite s
  unfold execSwWrite
  split
  · exact ⟨s, start, .refl s⟩
  split
  · exact ⟨s, start, .refl s⟩
  · rename_i valid opened
    exact nextAmong_runWriter (if_neg (by simpa [opened] using valid)) _

theorem nextAmong_swFlush (s : State) : NextAmong (commandStates .swFlush s) (execSwFlush s) := by
  unfold execSwFlush
  split
  · exact ⟨s, self_mem_commandStates .swFlush s, .refl s⟩
  · exact nextAmong_runWriter (if_neg ‹_›) _

theorem nextAmong_swClose (s : State) : NextAmong (commandStates .swClose s) (execSwClose s) := by
  unfold execSwClose
  split
  · exact ⟨s, self_mem_commandStates .swClose s, .refl s⟩
  · exact nextAmong_runWriter (if_neg ‹_›) _

/-- A command just issued shows, after its step, one of its states. -/
theorem nextAmong_dispatch {s : State} (he : s.engine = .dispatch) :
    NextAmong (commandStates (decodeOpcode s.latch.op) s) (engineStep s) := by
  have runs := engineStep_dispatch he
  have start := self_mem_commandStates (decodeOpcode s.latch.op) s
  have cmd := decodeOpcode_format s.latch.op
  cases hi : decodeOpcode s.latch.op <;> rw [hi] at runs start cmd
  case varintEnc => exact runs ▸ (nextShows_execVarintEnc s).among start
  case varintDec => exact runs ▸ (nextShows_execVarintDec s).among start
  case maxLen => exact runs ▸ (nextShows_execMaxLen s).among start
  case benc => exact runs ▸ (nextShows_execBenc s).among start
  case bdec => exact runs ▸ (nextShows_execBdec s).among start
  case swWrite => exact runs ▸ nextAmong_swWrite s
  case swFlush => exact runs ▸ nextAmong_swFlush s
  case swClose => exact runs ▸ nextAmong_swClose s
  case srRead => exact nextAmong_of_mem fun t => next_mem_readerStates
  case varintLen | illegal => exact runs ▸ ⟨s, start, .refl s⟩
  case swReset => exact runs ▸ ⟨_, List.mem_of_getElem? (i := 2) rfl, .refl _⟩
  case srReset => exact runs ▸ ⟨_, List.mem_of_getElem? (i := 4) rfl, .refl _⟩
  all_goals cases cmd

/-- The state now is one of the states within the element. -/
theorem self_mem_statesWithin (s : State) : s ∈ statesWithin s := by
  unfold statesWithin
  cases s.engine with
  | idle => exact List.mem_singleton_self s
  | dispatch => exact self_mem_commandStates _ s
  | varint c u =>
    match u with
    | .command | .ofBlock .bdec => exact List.mem_singleton_self s
    | .ofBlock (.frame _ _) => exact self_mem_readerStates s
  | block c u =>
    cases u with
    | bdec => exact List.mem_singleton_self s
    | frame => exact self_mem_readerStates s
  | writer w => exact self_mem_writerStates _ s
  | header | body => exact self_mem_readerStates s

/-- What the next state shows is among what the states within the element show. -/
theorem nextAmong_statesWithin (s : State) : NextAmong (statesWithin s) (engineStep s) := by
  have start := self_mem_statesWithin s
  have reader : NextAmong (readerStates s) (engineStep s) := nextAmong_of_mem fun t => next_mem_readerStates
  cases he : s.engine with
  | idle =>
    rw [engineStep_idle he]
    exact ⟨s, start, .refl s⟩
  | dispatch =>
    simp only [statesWithin, he]
    exact nextAmong_dispatch he
  | varint c u =>
    match u with
    | .command => exact (nextShows_varintTurn he (.inl rfl)).among start
    | .ofBlock .bdec => exact (nextShows_varintTurn he (.inr rfl)).among start
    | .ofBlock (.frame i0 h0) =>
      simp only [statesWithin, he]
      exact reader
  | block c u =>
    cases u with
    | bdec => exact (nextShows_bdecTurn he).among start
    | frame i0 h0 =>
      simp only [statesWithin, he]
      exact reader
  | writer w =>
    simp only [statesWithin, engineStep_writer w he, he]
    exact exists_writerStates_runWriter _ _ _ s
  | header | body =>
    simp only [statesWithin, he]
    exact reader

/-! ### What a status read shows -/

theorem statusState_idle {s : State} (idle : s.busy = false) : statusState s = s := by
  simp only [statusState, idle, Bool.false_eq_true, if_false]

/-- A status read shows one of the states within the element (70_reset_and_hazards.md R463). -/
theorem statusState_mem (s : State) : statusState s ∈ statesWithin s := by
  unfold statusState
  split
  · exact chooseFrom_mem s (List.ne_nil_of_mem (self_mem_statesWithin s)) _
  · exact self_mem_statesWithin s

/-! ### The reader's states while SR_READ runs -/

/-- SR_READ is the only command with its opcode, so whatever element the engine is at is the reader's. -/
theorem statesWithin_srRead {s : State} (h : Consistent s) (busy : s.busy = true) (op : s.latch.op = 0x30#8) :
    statesWithin s = readerStates s := by
  have cursors := h.cursors
  unfold statesWithin
  cases he : s.engine with
  | idle => exact absurd he ((busy_eq_true_iff s).mp busy)
  | dispatch =>
    dsimp only
    rw [op]
    rfl
  | writer w =>
    simp only [EngineInv, he, op] at cursors
    obtain ⟨opcode, -⟩ := cursors
    exact absurd opcode (by decide)
  | varint c u =>
    match u with
    | .command =>
      simp only [EngineInv, he, VarintRunning, op] at cursors
      obtain ⟨⟨opcode, -⟩, -⟩ := cursors
      exact absurd opcode (by decide)
    | .ofBlock .bdec =>
      simp only [EngineInv, he, VarintRunning, BlockRunning, op] at cursors
      obtain ⟨⟨⟨opcode, -⟩, -⟩, -⟩ := cursors
      exact absurd opcode (by decide)
    | .ofBlock (.frame i0 h0) => rfl
  | block c u =>
    cases u with
    | bdec =>
      simp only [EngineInv, he, BlockRunning, op] at cursors
      obtain ⟨⟨opcode, -⟩, -⟩ := cursors
      exact absurd opcode (by decide)
    | frame i0 h0 => rfl
  | header i0 h0 hs => rfl
  | body i0 h0 kind len => rfl

/-- SR_READ shows nothing but the state before the element and after it and, at the end of a data frame, those between its two
assignments (46_stream_reader.md R348, R349). -/
theorem readerStates_shown {s t u : State} (next : engineStep s = .next t) (mem : u ∈ readerStates s) :
    ReaderShown s u ∨ ReaderShown t u ∨
      (u.srPhase = s.srPhase ∧ u.srErr = s.srErr ∧ u.leftRd = 0 ∧ (u.leftEnd = s.leftEnd ∨ u.leftEnd = t.leftEnd)) := by
  obtain rfl | ⟨-, rfl | rfl⟩ | rfl := (mem_readerStates next u).mp mem
  · exact .inl ⟨rfl, rfl, rfl, rfl⟩
  · exact .inr (.inr ⟨rfl, rfl, rfl, .inl rfl⟩)
  · exact .inr (.inr ⟨rfl, rfl, rfl, .inr rfl⟩)
  · exact .inr (.inl ⟨rfl, rfl, rfl, rfl⟩)

/-- A completion with code OK past the issue is the end of a data frame, just before Deliver (46_stream_reader.md R343). -/
theorem exists_readerStates_delivering {s t : State} (next : engineStep s = .next t) (past : s.engine ≠ .dispatch)
    (done : t.busy = false) (ok : t.err = .ok) : ∃ u ∈ readerStates s, u.leftRd = 0 ∧ u.leftEnd = t.leftEnd := by
  have ends : dataFrameEnds s t = true := by simp [dataFrameEnds, past, done, ok]
  exact ⟨_, (mem_readerStates next _).mpr (.inr (.inl ⟨ends, .inr rfl⟩)), rfl, rfl⟩

/-! ### The status registers as the host reads them -/

theorem swStatus_idle {s : State} (idle : s.busy = false) (short : s.ibuf.length < 65536) :
    (busRead s 0x38#8 4).toNat = s.swState.bits.toNat + 65536 * s.ibuf.length := by
  change (swStatusImage (statusState s)).toNat = _
  rw [statusState_idle idle, toNat_swStatusImage, toNat_ibufLenField short]

theorem srStatus_idle {s : State} (idle : s.busy = false) (fits : s.leftEnd ≤ 65536) :
    (busRead s 0x3C#8 4).toNat = s.srPhase.bits.toNat + 16 * s.srErr.bits.toNat + 32768 * (s.leftEnd - s.leftRd) := by
  change (srStatusImage (statusState s)).toNat = _
  rw [statusState_idle idle, toNat_srStatusImage, Nat.mod_eq_of_lt (by omega)]

/-- What the next state shows is what some state within the element shows, and of SR_READ nothing else is shown but what the
end of a data frame passes through. -/
theorem statesWithin_next {s t : State} (next : engineStep s = .next t) :
    (∃ u ∈ statesWithin s, WriterShown t u ∧ ReaderShown t u) ∧
      (Consistent s → s.busy = true → s.latch.op = 0x30#8 →
        (s.engine ≠ .dispatch → t.busy = false → t.err = .ok →
          ∃ u ∈ statesWithin s, u.leftRd = 0 ∧ u.leftEnd = t.leftEnd) ∧
        ∀ u ∈ statesWithin s,
          ReaderShown s u ∨ ReaderShown t u ∨
            (u.srPhase = s.srPhase ∧ u.srErr = s.srErr ∧ u.leftRd = 0 ∧
              (u.leftEnd = s.leftEnd ∨ u.leftEnd = t.leftEnd))) := by
  refine ⟨?_, fun consistent busy op => ?_⟩
  · have among := nextAmong_statesWithin s
    rw [next] at among
    exact among
  · rw [statesWithin_srRead consistent busy op]
    exact ⟨exists_readerStates_delivering next, fun u => readerStates_shown next⟩

/-- Settles O56: each register's image as a number, and the states within the element for the two that move while BUSY = 1. -/
theorem statusRegistersShowTheirFields : Obligations.StatusRegistersShowTheirFields := by
  unfold Obligations.StatusRegistersShowTheirFields
  refine ⟨by decide, by decide, by decide, by decide, fun s => ⟨rfl, ?_, toNat_statusImage s, ?_, rfl, rfl, rfl, rfl, rfl, rfl,
    rfl, ?_, ?_, rfl, swStatus_idle, srStatus_idle, ?_, ?_, ⟨s, self_mem_statesWithin s, SameShown.refl s⟩,
    fun t => statesWithin_next, toNat_configImage, rfl, fun off => busRead_reserved s⟩⟩
  · change (BitVec.setWidth 32 (BitVec.ofBool s.ie)).toNat = _
    rw [BitVec.toNat_setWidth_of_le (by decide), BitVec.toNat_ofBool]
  · change (BitVec.setWidth 32 s.cmd).toNat = _
    rw [BitVec.toNat_setWidth_of_le (by decide)]
  · exact BitVec.extractLsb'_toNat 0 32 s.resVal
  · exact toNat_extract_high s.resVal
  · exact ⟨_, statusState_mem s, _, toNat_ibufLenField, toNat_swStatusImage _⟩
  · exact ⟨_, statusState_mem s, toNat_srStatusImage _⟩

end Sys2Proof.Machine
end

section
/-! How many bytes the encoders put: a varint has VarintLen bytes (41_varint.md R181), and a block keeps the bound of
42_block_encoder.md R200 under either policy. BENC and VARINT_ENC write no more than these to DST. -/

namespace Sys2Proof.Machine

/-! ### Varints -/

theorem length_varintBytes_le_fuel (fuel v : Nat) : (varintBytes fuel v).length ≤ fuel := by
  induction fuel generalizing v with
  | zero => exact Nat.le_refl 0
  | succ fuel ih =>
    rw [varintBytes]
    split
    · simp
    · simpa using ih (v / 128)

/-- A value of at most k groups of seven bits has at most k bytes. -/
theorem length_varintBytes_le {k v : Nat} (fuel : Nat) (pos : 1 ≤ k) (h : v < 2 ^ (7 * k)) :
    (varintBytes fuel v).length ≤ k := by
  induction fuel generalizing k v with
  | zero => exact Nat.zero_le k
  | succ fuel ih =>
    rw [varintBytes]
    split
    · simpa using pos
    · obtain ⟨j, rfl⟩ : ∃ j, k = j + 1 := ⟨k - 1, by omega⟩
      have cut : 2 ^ (7 * (j + 1)) = 128 * 2 ^ (7 * j) := by rw [Nat.mul_succ, Nat.pow_add, Nat.mul_comm]
      have more : 1 ≤ j := by
        by_contra none
        obtain rfl : j = 0 := by omega
        omega
      simpa using ih more (by omega : v / 128 < 2 ^ (7 * j))

theorem length_varintEncode_le (v : DWord) : (varintEncode v.toNat).length ≤ varintLength v.toNat := by
  obtain ⟨pos, -, -, below⟩ := varintLength_bounds v.toNat v.isLt
  by_cases long : varintLength v.toNat < 10
  · exact length_varintBytes_le _ pos (below long)
  · exact (length_varintBytes_le_fuel _ _).trans (by simp only [Config.varintMax]; omega)

/-! ### Taggers: a literal has few bytes more than its data, a copy fewer than it stands for -/

theorem length_literalHeader_le (m : Nat) : (literalHeader m).length ≤ 1 + (m + 1) / 60 := by
  unfold literalHeader
  repeat' split
  all_goals
    simp only [List.length_cons, List.length_nil, leBytes_length]
    omega

theorem length_emitLiteral_le (bs : List Byte) : (emitLiteral bs).length ≤ bs.length + bs.length / 60 + 1 := by
  have header := length_literalHeader_le (bs.length - 1)
  rw [emitLiteral, List.length_append]
  omega

theorem length_copy2Chunk (off len : Nat) : (copy2Chunk off len).length = 3 := by simp [copy2Chunk]

theorem length_emitCopyLast_le (off len : Nat) : (emitCopyLast off len).length ≤ 3 := by
  unfold emitCopyLast
  split
  · exact (length_copy2Chunk off len).le
  · simp [copy1Chunk]

theorem length_emitCopyTail_lt (off : Nat) {len : Nat} (h : 4 ≤ len) : (emitCopyTail off len).length < len := by
  unfold emitCopyTail
  split
  · have last := length_emitCopyLast_le off (len - 60)
    rw [List.length_append, length_copy2Chunk]
    omega
  · have last := length_emitCopyLast_le off len
    omega

theorem length_emitCopy_lt (off : Nat) {len : Nat} (h : 4 ≤ len) : (emitCopy off len).length < len := by
  unfold emitCopy
  generalize len / 64 = fuel
  induction fuel generalizing len with
  | zero => exact length_emitCopyTail_lt off h
  | succ fuel ih =>
    rw [emitCopyLoop]
    split
    · have rest := ih (len := len - 64) (by omega)
      rw [List.length_append, length_copy2Chunk]
      omega
    · exact length_emitCopyTail_lt off h

/-! ### The match-finder -/

theorem extendMatch_bounds (blk : Nat → Byte) (n fuel i : Nat) {t : Nat} (h : t ≤ n) :
    t ≤ extendMatch blk n fuel i t ∧ extendMatch blk n fuel i t ≤ n := by
  induction fuel generalizing i t with
  | zero => exact ⟨Nat.le_refl t, h⟩
  | succ fuel ih =>
    rw [extendMatch]
    split
    · have := ih (i + 1) (t := t + 1) (by omega)
      omega
    · exact ⟨Nat.le_refl t, h⟩

@[simp] theorem length_slice (blk : Nat → Byte) (a b : Nat) : (slice blk a b).length = b - a := by simp [slice]

theorem length_remainder_le (e : MatchEnv) (a : Nat) :
    (emitAll (e.remainder a)).length ≤ (e.n - a) + (e.n - a) / 60 + 1 := by
  unfold MatchEnv.remainder
  split
  · have literal := length_emitLiteral_le (slice e.blk a e.n)
    simpa [emitAll, emitOp] using literal
  · simp [emitAll]

/-- The position a label of the match-finder stands at is past what is emitted, and at REPEAT four bytes match there. -/
def MatchState.Ahead (e : MatchEnv) (nextEmit : Nat) : MatchState → Prop
  | .scan s _ _ => nextEmit ≤ s
  | .again s _ => s = nextEmit ∧ s + 4 ≤ e.n

/-- How many literals may still come that no copy of the same round makes up for. -/
def MatchState.spareLiterals : MatchState → Nat
  | .scan _ _ _ => 2
  | .again _ _ => 1

/-- Every literal but the last is followed by a copy, which makes up for its header byte (42_block_encoder.md R210 to R213). -/
theorem length_matchFind_le (e : MatchEnv) (long : Config.minNonlitBlock ≤ e.n) (fuel : Nat) (st : MatchState)
    (htab : HashTable) (nextEmit : Nat) (ahead : st.Ahead e nextEmit) :
    (emitAll (matchFind e fuel st htab nextEmit)).length ≤
      (e.n - nextEmit) + (e.n - nextEmit) / 60 + st.spareLiterals := by
  have limit : e.sLimit + 15 = e.n := by
    simp only [MatchEnv.sLimit, Config.inputMargin, Config.minNonlitBlock] at long ⊢
    omega
  induction fuel generalizing st htab nextEmit with
  | zero =>
    have spare : 1 ≤ st.spareLiterals := by cases st <;> simp [MatchState.spareLiterals]
    exact (length_remainder_le e nextEmit).trans (by omega)
  | succ fuel ih =>
    cases st with
    | scan s skip nextHash =>
      simp only [MatchState.Ahead] at ahead
      simp only [matchFind]
      split
      · exact (length_remainder_le e nextEmit).trans (by simp [MatchState.spareLiterals])
      split
      · exact ih (.scan _ _ _) _ _ (Nat.le_add_right_of_le ahead)
      · have literal := length_emitLiteral_le (slice e.blk nextEmit s)
        have repeats := ih (.again s (htab.look nextHash)) (htab.put nextHash s) s ⟨rfl, by omega⟩
        simp only [emitAll, emitOp, List.length_append, length_slice, MatchState.spareLiterals] at literal repeats ⊢
        omega
    | again base candidate =>
      obtain ⟨rfl, fits⟩ := ahead
      obtain ⟨low, high⟩ := extendMatch_bounds e.blk e.n e.n (candidate + 4) fits
      simp only [matchFind, emitAll, emitOp, List.length_append, MatchState.spareLiterals]
      generalize extendMatch e.blk e.n e.n (candidate + 4) (base + 4) = s at low high ⊢
      have copy := length_emitCopy_lt (base - candidate) (len := s - base) (by omega)
      refine (Nat.add_le_add_left (m := (e.n - s) + (e.n - s) / 60 + 2) ?_ _).trans (by omega)
      split
      · exact (length_remainder_le e s).trans (by omega)
      split
      · exact (ih (.again s _) _ s ⟨rfl, by omega⟩).trans (by simp [MatchState.spareLiterals])
      · exact ih (.scan (s + 1) _ _) _ s (Nat.le_succ s)

theorem length_subBlockPlan_le (skipOn : Bool) (bs : List Byte) :
    (emitAll (subBlockPlan skipOn bs)).length ≤ bs.length + bs.length / 60 + 2 := by
  unfold subBlockPlan
  split
  · have literal := length_emitLiteral_le bs
    simp only [emitAll, emitOp, List.append_nil]
    omega
  · exact length_matchFind_le _ (Nat.le_of_not_lt ‹_›) _ (.scan 1 32 _) _ 0 (Nat.zero_le 1)

/-! ### The bound -/

theorem emitAll_append (l l' : List EmitOp) : emitAll (l ++ l') = emitAll l ++ emitAll l' := by
  induction l with
  | nil => rfl
  | cons op ops ih => simp [emitAll, ih]

/-- A plan made sub-block by sub-block costs at most what each of them costs (42_block_encoder.md R203). -/
theorem length_subBlocks_plan_le {plan : List Byte → List EmitOp}
    (each : ∀ bs, (emitAll (plan bs)).length ≤ bs.length + bs.length / 60 + 2) (fuel : Nat) (src : List Byte) :
    (emitAll ((subBlocks fuel src).flatMap plan)).length ≤ src.length + src.length / 60 + 2 * fuel := by
  induction fuel generalizing src with
  | zero => simp [subBlocks, emitAll]
  | succ fuel ih =>
    rw [subBlocks]
    split
    · simp [emitAll]
    · have head := each (src.take Config.maxBlock)
      have tail := ih (src.drop Config.maxBlock)
      simp only [List.flatMap_cons, emitAll_append, List.length_append, List.length_take, List.length_drop] at head tail ⊢
      omega

theorem literalPlan_eq_flatMap (src : List Byte) :
    literalPlan src = (subBlocks (src.length / Config.maxBlock + 1) src).flatMap fun bs => [.lit bs] := by
  rw [literalPlan, List.map_eq_flatMap]

theorem eq_of_maxEncodedLen {n b : Nat} (bound : maxEncodedLen n = some b) : b = 32 + n + n / 6 := by
  unfold maxEncodedLen at bound
  repeat' split at bound
  all_goals cases bound
  rfl

theorem length_encodeWith_le {src : List Byte} {b : Nat} (bound : maxEncodedLen src.length = some b)
    {plan : List Byte → List EmitOp} (each : ∀ bs, (emitAll (plan bs)).length ≤ bs.length + bs.length / 60 + 2) :
    (encodeWith ((subBlocks (src.length / Config.maxBlock + 1) src).flatMap plan) src).length ≤ b := by
  have lengthPrefix := length_varintBytes_le_fuel Config.varintMax src.length
  have blocks := length_subBlocks_plan_le each (src.length / Config.maxBlock + 1) src
  have value := eq_of_maxEncodedLen bound
  simp only [encodeWith, varintEncode, List.length_append, Config.varintMax, Config.maxBlock] at lengthPrefix blocks ⊢
  omega

/-- A block is no longer than the bound of its source (42_block_encoder.md R200, R216). -/
theorem length_encodeBlock_le (p : Params) {src : List Byte} {b : Nat} (bound : maxEncodedLen src.length = some b) :
    (encodeBlock p src).length ≤ b := by
  unfold encodeBlock
  cases p.encPolicy with
  | reference => exact length_encodeWith_le bound (length_subBlockPlan_le p.encSkip)
  | conformant =>
    dsimp only
    unfold conformantPlan
    split
    · rename_i conforms
      unfold planConforms at conforms
      rw [bound] at conforms
      simp only [Bool.and_eq_true, decide_eq_true_eq] at conforms
      exact conforms.2
    · rw [literalPlan_eq_flatMap]
      refine length_encodeWith_le bound fun bs => ?_
      have literal := length_emitLiteral_le bs
      simp only [emitAll, emitOp, List.append_nil]
      omega

end Sys2Proof.Machine
end

section
/-! What a turn of the engine may touch: its footprint, read off the element the engine is at, and that every turn stays
within it. From it: the bytes of buffer memory a step may change (O52), what no step takes back (O50), the path a command does
not use (O51), and that the engine never stops (O53). -/

namespace Sys2Proof.Machine

/-! ### Footprints -/

/-- What may be touched: the reader path, the writer path, bytes of buffer memory. -/
structure Footprint where
  reader : Prop
  writer : Prop
  mem : Nat → Prop

/-- From `s` to `t` nothing outside the footprint is touched; and nothing at all of what no engine changes: the parameters, the
host's registers, the latched operands, the memory kept for host reads, the bytes already put and taken. -/
def Within (F : Footprint) (s t : State) : Prop :=
  (t.cfg = s.cfg ∧ SameHostRegs s t ∧ t.memBefore = s.memBefore) ∧
    (s.out <+: t.out ∧ (¬ F.writer → SameWriter s t)) ∧
    (s.inTaken ≤ t.inTaken ∧ (¬ F.reader → SameReader s t)) ∧
    ∀ a, ¬ F.mem a → Memory.get t.mem a = Memory.get s.mem a

/-- The result is a next state, within the footprint. -/
def NextWithin (F : Footprint) (s : State) (r : Result) : Prop := ∃ t, r = .next t ∧ Within F s t

/-- The latched DST region is in the footprint. -/
def DstIn (F : Footprint) (s : State) : Prop := ∀ a, inLatchedDst s a = true → F.mem a

/-- The reader path and the latched DST region are in the footprint. -/
def ReaderIn (F : Footprint) (s : State) : Prop := F.reader ∧ DstIn F s

/-- What the decoder of a block touches is in the footprint: DST, and for a frame's block the reader path. -/
def BlockIn (F : Footprint) (u : BlockUser) (s : State) : Prop := (u ≠ .bdec → F.reader) ∧ DstIn F s

/-- What the decoder of a varint touches is in the footprint. -/
def VarintIn (F : Footprint) (u : VarintUser) (s : State) : Prop := ∀ b, u = .ofBlock b → BlockIn F b s

/-- The bytes of BDEC's output from the cursor to the declared length are in the footprint. -/
def OutputIn (F : Footprint) (u : BlockUser) (c : BlockCursor) (s : State) : Prop :=
  u = .bdec → ∀ a, s.latch.dstAddr.toNat + c.d ≤ a → a < s.latch.dstAddr.toNat + c.n → F.mem a

theorem SameHostRegs.refl (s : State) : SameHostRegs s s := ⟨rfl, rfl, rfl, rfl, rfl, rfl, rfl, rfl, rfl, rfl⟩
theorem SameReader.refl (s : State) : SameReader s s := ⟨rfl, rfl, rfl, rfl, rfl, rfl, rfl, rfl, rfl, rfl, rfl⟩
theorem SameWriter.refl (s : State) : SameWriter s s := ⟨rfl, rfl, rfl, rfl⟩

theorem SameHostRegs.trans {s t u : State} (h : SameHostRegs s t) (h' : SameHostRegs t u) : SameHostRegs s u := by
  obtain ⟨a1, a2, a3, a4, a5, a6, a7, a8, a9, a10⟩ := h
  obtain ⟨b1, b2, b3, b4, b5, b6, b7, b8, b9, b10⟩ := h'
  exact ⟨b1.trans a1, b2.trans a2, b3.trans a3, b4.trans a4, b5.trans a5, b6.trans a6, b7.trans a7, b8.trans a8, b9.trans a9,
    b10.trans a10⟩

theorem SameReader.trans {s t u : State} (h : SameReader s t) (h' : SameReader t u) : SameReader s u := by
  obtain ⟨a1, a2, a3, a4, a5, a6, a7, a8, a9, a10, a11⟩ := h
  obtain ⟨b1, b2, b3, b4, b5, b6, b7, b8, b9, b10, b11⟩ := h'
  exact ⟨b1.trans a1, b2.trans a2, b3.trans a3, b4.trans a4, b5.trans a5, b6.trans a6, b7.trans a7, b8.trans a8, b9.trans a9,
    b10.trans a10, b11.trans a11⟩

theorem SameWriter.trans {s t u : State} (h : SameWriter s t) (h' : SameWriter t u) : SameWriter s u := by
  obtain ⟨a1, a2, a3, a4⟩ := h
  obtain ⟨b1, b2, b3, b4⟩ := h'
  exact ⟨b1.trans a1, b2.trans a2, b3.trans a3, b4.trans a4⟩

theorem SameReader.shown {s t : State} (h : SameReader s t) : ReaderShown s t := by
  obtain ⟨phase, err, -, rd, last, -⟩ := h
  exact ⟨phase, err, rd, last⟩

theorem SameWriter.shown {s t : State} (h : SameWriter s t) : WriterShown s t := by
  obtain ⟨state, ibuf, -⟩ := h
  exact ⟨state, congrArg List.length ibuf⟩

section
variable {F : Footprint}

theorem Within.refl (s : State) : Within F s s :=
  ⟨⟨rfl, .refl s, rfl⟩, ⟨List.prefix_rfl, fun _ => .refl s⟩, ⟨Nat.le_refl _, fun _ => .refl s⟩, fun _ _ => rfl⟩

theorem Within.trans {s t u : State} (h : Within F s t) (h' : Within F t u) : Within F s u := by
  obtain ⟨⟨cfg, regs, before⟩, ⟨out, writer⟩, ⟨taken, reader⟩, mem⟩ := h
  obtain ⟨⟨cfg', regs', before'⟩, ⟨out', writer'⟩, ⟨taken', reader'⟩, mem'⟩ := h'
  exact ⟨⟨cfg'.trans cfg, regs.trans regs', before'.trans before⟩,
    ⟨out.trans out', fun no => (writer no).trans (writer' no)⟩,
    ⟨taken.trans taken', fun no => (reader no).trans (reader' no)⟩, fun a no => (mem' a no).trans (mem a no)⟩

/-- The states agree on all that is not the reader's. -/
def OffReader (s t : State) : Prop :=
  (t.cfg = s.cfg ∧ SameHostRegs s t ∧ t.memBefore = s.memBefore) ∧ SameWriter s t ∧ t.mem = s.mem

theorem OffReader.refl (s : State) : OffReader s s := ⟨⟨rfl, .refl s, rfl⟩, .refl s, rfl⟩

theorem within_reader {s t : State} (reader : F.reader) (rest : OffReader s t)
    (taken : s.inTaken ≤ t.inTaken := by exact Nat.le_refl _) : Within F s t := by
  obtain ⟨fixed, writer, mem⟩ := rest
  obtain ⟨-, -, out, -⟩ := id writer
  exact ⟨fixed, ⟨out ▸ List.prefix_rfl, fun _ => writer⟩, ⟨taken, fun no => absurd reader no⟩, fun a _ => by rw [mem]⟩

/-- The states agree on all that is not the writer's. -/
def OffWriter (s t : State) : Prop :=
  (t.cfg = s.cfg ∧ SameHostRegs s t ∧ t.memBefore = s.memBefore) ∧ SameReader s t ∧ t.mem = s.mem

theorem OffWriter.refl (s : State) : OffWriter s s := ⟨⟨rfl, .refl s, rfl⟩, .refl s, rfl⟩

theorem within_writer {s t : State} (writer : F.writer) (rest : OffWriter s t)
    (out : s.out <+: t.out := by exact List.prefix_rfl) : Within F s t := by
  obtain ⟨fixed, reader, mem⟩ := rest
  have taken : t.inTaken = s.inTaken := by
    obtain ⟨-, -, -, -, -, -, -, -, -, -, taken⟩ := reader
    exact taken
  exact ⟨fixed, ⟨out, fun no => absurd writer no⟩, ⟨taken.ge, fun _ => reader⟩, fun a _ => by rw [mem]⟩

/-! ### Buffer memory -/

theorem within_memWrite {s : State} {a : Nat} {bs : List Byte} (mem : ∀ x, a ≤ x → x < a + bs.length → F.mem x) :
    Within F s { s with mem := Memory.write s.mem a bs } :=
  ⟨⟨rfl, .refl s, rfl⟩, ⟨List.prefix_rfl, fun _ => .refl s⟩, ⟨Nat.le_refl _, fun _ => .refl s⟩, fun x no =>
    Memory.get_write_outside (by
      by_contra inside
      exact no (mem x (by omega) (by omega)))⟩

/-- Bytes written from the start of DST that fit into it. -/
theorem within_dstWrite {s : State} (dst : DstIn F s) {bs : List Byte} (fits : bs.length ≤ s.latch.dstCap.toNat) :
    Within F s { s with mem := Memory.write s.mem s.latch.dstAddr.toNat bs } :=
  within_memWrite fun x low high => dst x (by
    simp only [inLatchedDst, inRegion, decide_eq_true_eq]
    omega)

theorem within_scrambleDst {s : State} (dst : DstIn F s) : Within F s (scrambleDst s) :=
  within_dstWrite dst (bs := freeBytes s.draws s.latch.dstCap.toNat) (by simp)

/-! ### Completions: the record is in every footprint -/

theorem within_complete (c : Code) (l v p : Nat) (s : State) : Within F s (complete c l v p s) := .refl s

theorem within_raiseDst (c : Code) (p : Nat) {s : State} (dst : DstIn F s) : Within F s (raiseDst c p s) :=
  (within_scrambleDst dst).trans (within_complete c 0 0 p _)

theorem within_srFail (e : SrErr) (p : DWord) {s : State} (reader : ReaderIn F s) : Within F s (srFail e p s) :=
  (within_reader (t := { s with srErr := e }) reader.1 (.refl s)).trans (within_raiseDst e.code p.toNat reader.2)

theorem BlockIn.frame {i0 h0 : DWord} {s : State} (h : BlockIn F (.frame i0 h0) s) : ReaderIn F s := ⟨h.1 nofun, h.2⟩

theorem ReaderIn.block {s : State} (h : ReaderIn F s) (u : BlockUser) : BlockIn F u s := ⟨fun _ => h.1, h.2⟩

theorem within_blockCorrupt {u : BlockUser} (p : Nat) {s : State} (block : BlockIn F u s) : Within F s (blockCorrupt u p s) := by
  cases u with
  | bdec => exact within_raiseDst _ _ block.2
  | frame => exact within_srFail _ _ block.frame

theorem within_blockUnsupported {u : BlockUser} (p : Nat) {s : State} (block : BlockIn F u s) :
    Within F s (blockUnsupported u p s) := by
  cases u with
  | bdec => exact within_raiseDst _ _ block.2
  | frame => exact within_srFail _ _ block.frame

theorem within_blockTooLarge {u : BlockUser} {s : State} (block : BlockIn F u s) : Within F s (blockTooLarge u s) := by
  cases u with
  | bdec => exact within_raiseDst _ _ block.2
  | frame => exact within_srFail _ _ block.frame

theorem within_blockDstSmall {u : BlockUser} (n : Nat) {s : State} (block : BlockIn F u s) :
    Within F s (blockDstSmall u n s) := by
  cases u with
  | bdec => exact within_complete _ _ _ _ s
  | frame => exact within_srFail _ _ block.frame

/-! ### The end of a data frame -/

theorem length_leftoverBytes_le (s : State) : (leftoverBytes (deliverCount s) s).length ≤ s.latch.dstCap.toNat := by
  simp only [leftoverBytes, deliverCount, List.length_take]
  omega

/-- Deliver writes at most DST_CAP bytes (46_stream_reader.md R343). -/
theorem within_deliver (i0 : DWord) {s : State} (reader : ReaderIn F s) : Within F s (deliver i0 s) :=
  (within_dstWrite reader.2 (length_leftoverBytes_le s)).trans (within_reader reader.1 (.refl { s with mem := _ }))

theorem within_readerLoop (i0 : DWord) {s : State} (reader : ReaderIn F s) : Within F s (readerLoop i0 s) := by
  obtain ⟨-, e⟩ | ⟨-, e⟩ := readerLoop_cases i0 s
  · rw [e]
    exact .refl s
  · rw [e]
    exact within_deliver i0 reader

theorem within_dataFrameDone (i0 h0 : DWord) {s : State} (reader : ReaderIn F s) : Within F s (dataFrameDone i0 h0 s) := by
  unfold dataFrameDone
  split
  · exact within_srFail _ _ reader
  · exact (within_reader (t := { s with leftRd := 0, leftEnd := s.dbuf.length }) reader.1 (.refl s)).trans
      (within_readerLoop i0 reader)

/-! ### The block decoder and the varint engine -/

theorem within_blockDone {u : BlockUser} (n : Nat) {s : State} (block : BlockIn F u s) : Within F s (blockDone u n s) := by
  cases u with
  | bdec => exact within_complete _ _ _ _ s
  | frame i0 h0 => exact within_dataFrameDone i0 h0 block.frame

theorem within_blockLoop {u : BlockUser} (c : BlockCursor) {s : State} (block : BlockIn F u s) :
    Within F s (blockLoop u c s) := by
  obtain ⟨-, e⟩ | ⟨-, -, e⟩ | ⟨-, -, e⟩ := blockLoop_cases u c s
  · rw [e]
    exact .refl s
  · rw [e]
    exact within_blockCorrupt _ block
  · rw [e]
    exact within_blockDone _ block

theorem within_blockBegin {u : BlockUser} (n used : Nat) {s : State} (block : BlockIn F u s) :
    Within F s (blockBegin u n used s) := by
  obtain ⟨-, e⟩ | ⟨-, -, e⟩ | ⟨-, -, e⟩ := blockBegin_cases u n used s
  · rw [e]
    exact within_blockTooLarge block
  · rw [e]
    exact within_blockDstSmall n block
  · rw [e]
    exact within_blockLoop _ block

/-- Output bytes up to the declared length, then the head of the loop (43_block_decoder.md R265). -/
theorem within_chunk {u : BlockUser} {c : BlockCursor} (c' : BlockCursor) {bs : List Byte} {s : State}
    (block : BlockIn F u s) (output : OutputIn F u c s) (fits : u = .bdec → bs.length ≤ c.n - c.d) :
    Within F s (blockLoop u c' (outWrite u c.d bs s)) := by
  cases u with
  | bdec =>
    have fits := fits rfl
    have written : Within F s (outWrite .bdec c.d bs s) :=
      within_memWrite fun x low high => output rfl x low (by omega)
    exact written.trans (within_blockLoop c' block)
  | frame i0 h0 =>
    have written : Within F s (outWrite (.frame i0 h0) c.d bs s) := within_reader block.frame.1 (.refl s)
    exact written.trans (within_blockLoop c' block)

theorem within_literalBody {u : BlockUser} {c : BlockCursor} (len hd : Nat) {s : State} (block : BlockIn F u s)
    (output : OutputIn F u c s) : Within F s (literalBody u c len hd s) := by
  obtain ⟨-, e⟩ | ⟨fits, -, e⟩ := literalBody_cases u c len hd s
  · rw [e]
    exact within_blockCorrupt _ block
  · rw [e]
    refine within_chunk _ block output ?_
    rintro rfl
    simpa [blockBytes] using fits

theorem within_copyBody {u : BlockUser} {c : BlockCursor} (off len size : Nat) {s : State} (block : BlockIn F u s)
    (output : OutputIn F u c s) : Within F s (copyBody u c off len size s) := by
  obtain ⟨-, e⟩ | ⟨pos, -, fits, e⟩ := copyBody_cases u c off len size s
  · rw [e]
    exact within_blockCorrupt _ block
  · rw [e]
    refine within_chunk _ block output ?_
    rintro rfl
    rw [repeatPattern_length _ _ (List.ne_nil_of_length_pos (by simpa [outBytes] using Nat.lt_of_succ_le pos))]
    exact fits

theorem within_prefixBegin {u : BlockUser} {s : State} (block : BlockIn F u s) : Within F s (prefixBegin u s) := by
  unfold prefixBegin
  split
  · exact within_blockCorrupt 0 block
  · exact .refl s

theorem within_varintFail {u : VarintUser} {s : State} (user : VarintIn F u s) : Within F s (varintFail u s) := by
  cases u with
  | command => exact within_complete _ _ _ _ s
  | ofBlock b => exact within_blockCorrupt 0 (user b rfl)

theorem within_varintDone {u : VarintUser} (x : DWord) (used : Nat) {s : State} (user : VarintIn F u s) :
    Within F s (varintDone u x used s) := by
  cases u with
  | command => exact within_complete _ _ _ _ s
  | ofBlock b => exact within_blockBegin _ _ (user b rfl)

theorem within_varintContinue (g : BitVec 7) (c : VarintCursor) {u : VarintUser} {s : State} (user : VarintIn F u s) :
    Within F s (varintContinue g c u s) := by
  unfold varintContinue
  split
  · exact within_varintFail user
  · exact .refl s

theorem within_varintFinish (g : BitVec 7) (c : VarintCursor) {u : VarintUser} {s : State} (user : VarintIn F u s) :
    Within F s (varintFinish g c u s) := by
  unfold varintFinish
  split
  · exact within_varintFail user
  · exact within_varintDone _ _ user

/-! ### The stream reader -/

theorem within_bodyDone (i0 h0 : DWord) (kind : BodyKind) {s : State} (reader : ReaderIn F s) :
    Within F s (bodyDone i0 h0 kind s) := by
  cases kind with
  | compressed =>
    exact (within_reader (t := { s with dbuf := [] }) reader.1 (.refl s)).trans
      (within_prefixBegin (ReaderIn.block reader _))
  | uncompressed =>
    exact (within_reader (t := { s with dbuf := s.fbuf.drop 4 }) reader.1 (.refl s)).trans
      (within_dataFrameDone i0 h0 reader)
  | streamId =>
    unfold bodyDone streamIdBody
    dsimp only
    split
    · exact within_srFail _ _ reader
    · exact (within_reader (t := { s with srPhase := .streaming }) reader.1 (.refl s)).trans (within_readerLoop i0 reader)
  | skipped => exact within_readerLoop i0 reader

theorem within_inConsume (n : Nat) {s : State} (reader : F.reader) : Within F s (inConsume n s) :=
  within_reader reader (.refl s) (Nat.le_add_right _ n)

theorem within_latchEos {s : State} (reader : F.reader) : Within F s (latchEos s) := within_reader reader (.refl s)

theorem within_readBody (i0 h0 : DWord) (kind : BodyKind) (len : Nat) {s : State} (reader : ReaderIn F s) :
    Within F s (readBody i0 h0 kind len s) := by
  unfold readBody
  dsimp only
  generalize inPeek (len - s.fbuf.length) s = bs
  have taken : Within F s (inConsume bs.length { s with fbuf := s.fbuf ++ bs }) :=
    (within_reader (t := { s with fbuf := s.fbuf ++ bs }) reader.1 (.refl s)).trans (within_inConsume _ reader.1)
  split
  · exact taken.trans (within_bodyDone i0 h0 kind reader)
  split
  · exact taken.trans ((within_latchEos reader.1).trans (within_srFail _ _ reader))
  · exact taken

theorem within_frameGate (marker : Bool) (len : BitVec 24) {f : DWord → DWord → State → State} (i0 h0 : DWord) {s : State}
    (reader : ReaderIn F s) (frame : Within F { s with fbuf := [] } (f i0 h0 { s with fbuf := [] })) :
    Within F s (frameGate marker len f i0 h0 s) := by
  obtain ⟨-, -, e⟩ | ⟨-, -, e⟩ | ⟨-, -, e⟩ := frameGate_cases marker len f i0 h0 s
  · rw [e]
    exact within_srFail _ _ reader
  · rw [e]
    exact within_srFail _ _ reader
  · rw [e]
    exact (within_reader (t := { s with fbuf := [] }) reader.1 (.refl s)).trans frame

theorem within_compressedFrame (len : BitVec 24) (i0 h0 : DWord) {s : State} (reader : ReaderIn F s) :
    Within F s (compressedFrame len i0 h0 s) := by
  unfold compressedFrame
  split
  · exact within_srFail _ _ reader
  · exact within_readBody i0 h0 _ _ reader

theorem within_uncompressedFrame (len : BitVec 24) (i0 h0 : DWord) {s : State} (reader : ReaderIn F s) :
    Within F s (uncompressedFrame len i0 h0 s) := by
  unfold uncompressedFrame
  split
  · exact within_srFail _ _ reader
  split
  · exact within_srFail _ _ reader
  · exact within_readBody i0 h0 _ _ reader

theorem within_streamIdFrame (len : BitVec 24) (i0 h0 : DWord) {s : State} (reader : ReaderIn F s) :
    Within F s (streamIdFrame len i0 h0 s) := by
  unfold streamIdFrame
  split
  · exact within_srFail _ _ reader
  · exact within_readBody i0 h0 _ _ reader

theorem within_headerShort (h0 : DWord) (h : List Byte) {s : State} (reader : ReaderIn F s) :
    Within F s (headerShort h0 h s) := by
  unfold headerShort
  split
  · exact (within_latchEos reader.1).trans (within_srFail _ _ reader)
  · exact .refl s

/-- Whatever the type of the frame is, its header runs it behind the checks (46_stream_reader.md R345 to R353). -/
theorem nextWithin_frameInstr (muMax ty : Byte) (len : BitVec 24) {s : State} {i0 h0 : DWord} {h : List Byte}
    (he : s.engine = .header i0 h0 h) (reader : ReaderIn F s) : NextWithin F s (exec (frameInstr muMax ty len) s) := by
  have gated : ∀ marker {f : DWord → DWord → State → State},
      Within F { s with fbuf := [] } (f i0 h0 { s with fbuf := [] }) → NextWithin F s (atHeader (frameGate marker len f) s) :=
    fun marker f frame =>
      ⟨frameGate marker len f i0 h0 s, by simp only [atHeader, he], within_frameGate marker len i0 h0 reader frame⟩
  have reader' : ReaderIn F { s with fbuf := [] } := reader
  unfold frameInstr
  split
  · exact gated false (within_compressedFrame len i0 h0 reader')
  split
  · exact gated false (within_uncompressedFrame len i0 h0 reader')
  split
  · exact gated true (within_streamIdFrame len i0 h0 reader')
  split
  · exact gated false (within_readBody i0 h0 .skipped _ reader')
  split
  · exact gated false (f := fun _ h0 => srFail .unsupported h0) (within_srFail .unsupported h0 reader')
  · exact gated false (within_readBody i0 h0 .skipped _ reader')

/-! ### The stream writer -/

theorem within_outPut (n : Nat) (bs : List Byte) {s : State} (writer : F.writer) : Within F s (outPut n bs s) :=
  within_writer writer (.refl s) (List.prefix_append _ _)

theorem within_runWriter (resLen : Nat) (ops : List WriterOp) (o : Nat) (s : State) (writer : F.writer) :
    Within F s (runWriter resLen ops o s) := by
  have ownState : ∀ (sw : SwState) (ib : List Byte) (s : State), Within F s { s with swState := sw, ibuf := ib } :=
    fun sw ib s => within_writer writer (.refl s)
  induction ops generalizing o s with
  | nil => exact within_complete _ _ _ _ s
  | cons op ops ih =>
    cases op with
    | put bs =>
      rw [runWriter]
      dsimp only
      split
      · exact (within_outPut _ bs writer).trans (ih _ _)
      · exact within_outPut (s := s) (outAccepts s bs.length) bs writer
    | activate => exact (ownState .active s.ibuf s).trans (ih o _)
    | fill k n => exact (ownState s.swState (s.ibuf ++ sourceSlice k n s) s).trans (ih o _)
    | frame =>
      rw [runWriter]
      dsimp only
      split
      · exact ((within_outPut _ _ writer).trans (ownState s.swState [] _)).trans (ih _ _)
      · exact within_outPut (s := s) (outAccepts s (frameBytes s.cfg s.ibuf).length) (frameBytes s.cfg s.ibuf) writer
    | empty => exact (ownState s.swState [] s).trans (ih o _)
    | close => exact (ownState .closed s.ibuf s).trans (ih o _)

/-! ### The commands -/

theorem nextWithin_raiseClean (c : Code) (s : State) : NextWithin F s (.next (raiseClean c s)) :=
  ⟨_, rfl, within_complete c 0 0 0 s⟩

theorem nextWithin_execVarintEnc {s : State} (dst : dstValid s = true → DstIn F s) : NextWithin F s (execVarintEnc s) := by
  unfold execVarintEnc
  dsimp only
  split
  · exact nextWithin_raiseClean _ s
  split
  · exact ⟨_, rfl, within_complete _ _ _ _ s⟩
  · rename_i invalid small
    have fits : (varintEncode s.latch.arg.toNat).length ≤ s.latch.dstCap.toNat :=
      (length_varintEncode_le s.latch.arg).trans (Nat.le_of_not_lt small)
    exact ⟨_, rfl, (within_dstWrite (dst (by simpa using invalid)) fits).trans (within_complete _ _ _ _ _)⟩

theorem nextWithin_execVarintDec (s : State) : NextWithin F s (execVarintDec s) := by
  unfold execVarintDec
  split
  · exact nextWithin_raiseClean _ s
  split
  all_goals exact ⟨_, rfl, .refl s⟩

theorem nextWithin_execMaxLen (s : State) : NextWithin F s (execMaxLen s) := by
  unfold execMaxLen
  split
  all_goals exact ⟨_, rfl, within_complete _ _ _ _ s⟩

theorem dstValid_of_regionsOk {s : State} (h : regionsOk s = true) : dstValid s = true := by
  simp only [regionsOk, Bool.and_eq_true] at h
  exact h.1.2

/-- BENC writes the block, which is no longer than the capacity it asks for (42_block_encoder.md R200, R202). -/
theorem nextWithin_execBenc {s : State} (dst : dstValid s = true → DstIn F s) : NextWithin F s (execBenc s) := by
  unfold execBenc
  split
  · exact nextWithin_raiseClean _ s
  rename_i regions
  have dst := dst (dstValid_of_regionsOk (by simpa using regions))
  split
  · exact ⟨_, rfl, within_raiseDst _ _ dst⟩
  rename_i b bound
  split
  · exact ⟨_, rfl, within_complete _ _ _ _ s⟩
  · rename_i small
    have bound : maxEncodedLen (sourceBytes s).length = some b := by rwa [sourceBytes, Memory.read_length]
    exact ⟨_, rfl, (within_dstWrite dst ((length_encodeBlock_le s.cfg bound).trans (Nat.le_of_not_lt small))).trans
      (within_complete _ _ _ _ _)⟩

theorem nextWithin_execBdec {s : State} (dst : dstValid s = true → DstIn F s) : NextWithin F s (execBdec s) := by
  unfold execBdec
  split
  · rename_i regions
    exact ⟨_, rfl, within_prefixBegin (u := .bdec) ⟨fun no => absurd rfl no, dst (dstValid_of_regionsOk regions)⟩⟩
  · exact nextWithin_raiseClean _ s

theorem nextWithin_execSwWrite (s : State) (writer : F.writer) : NextWithin F s (execSwWrite s) := by
  unfold execSwWrite
  split
  · exact nextWithin_raiseClean _ s
  split
  · exact nextWithin_raiseClean _ s
  · exact ⟨_, rfl, within_runWriter _ _ _ s writer⟩

theorem nextWithin_execSwFlush (s : State) (writer : F.writer) : NextWithin F s (execSwFlush s) := by
  unfold execSwFlush
  split
  · exact nextWithin_raiseClean _ s
  · exact ⟨_, rfl, within_runWriter _ _ _ s writer⟩

theorem nextWithin_execSwClose (s : State) (writer : F.writer) : NextWithin F s (execSwClose s) := by
  unfold execSwClose
  split
  · exact nextWithin_raiseClean _ s
  · exact ⟨_, rfl, within_runWriter _ _ _ s writer⟩

theorem nextWithin_execSrRead {s : State} (reader : F.reader) (dst : dstValid s = true → DstIn F s) :
    NextWithin F s (execSrRead s) := by
  unfold execSrRead
  split
  · exact nextWithin_raiseClean _ s
  split
  · exact nextWithin_raiseClean _ s
  split
  · exact ⟨_, rfl, within_complete _ _ _ _ s⟩
  · rename_i valid _ _
    exact ⟨_, rfl, within_readerLoop _ ⟨reader, dst (by simpa using valid)⟩⟩

/-- A command just issued touches DST only where it is valid, the reader path only as a reader command, and the writer path
only as a writer command (20_memory.md R88, 40_commands.md R113). -/
theorem nextWithin_command {s : State} (reader : s.latch.op ∈ [0x30#8, 0x31#8] → F.reader)
    (writer : s.latch.op ∈ [0x20#8, 0x21#8, 0x22#8, 0x23#8] → F.writer) (dst : dstValid s = true → DstIn F s) :
    NextWithin F s (exec (decodeOpcode s.latch.op) s) := by
  have cmd := decodeOpcode_format s.latch.op
  have opcode : ∀ code, encode (decodeOpcode s.latch.op) = encodeOpcode code → s.latch.op = code :=
    fun _ => opcode_of_decodeOpcode rfl
  cases hi : decodeOpcode s.latch.op <;> rw [hi] at cmd opcode
  case varintEnc => exact nextWithin_execVarintEnc dst
  case varintDec => exact nextWithin_execVarintDec s
  case maxLen => exact nextWithin_execMaxLen s
  case benc => exact nextWithin_execBenc dst
  case bdec => exact nextWithin_execBdec dst
  case swWrite => exact nextWithin_execSwWrite s (writer (by simp [opcode 0x20#8 rfl]))
  case swFlush => exact nextWithin_execSwFlush s (writer (by simp [opcode 0x21#8 rfl]))
  case swClose => exact nextWithin_execSwClose s (writer (by simp [opcode 0x22#8 rfl]))
  case swReset => exact ⟨_, rfl, within_writer (writer (by simp [opcode 0x23#8 rfl])) (.refl s)⟩
  case srRead => exact nextWithin_execSrRead (reader (by simp [opcode 0x30#8 rfl])) dst
  case srReset => exact ⟨_, rfl, within_reader (reader (by simp [opcode 0x31#8 rfl])) (.refl s)⟩
  case varintLen | illegal => exact ⟨_, rfl, .refl s⟩
  all_goals cases cmd

/-! ### The turns of the engine -/

theorem nextWithin_varintTurn {s : State} {c : VarintCursor} {u : VarintUser} (he : s.engine = .varint c u)
    (user : VarintIn F u s) : NextWithin F s (engineStep s) := by
  simp only [engineStep, he]
  cases fetchVarint c u s with
  | nil => exact ⟨_, rfl, within_varintFail user⟩
  | cons b rest =>
    simp only [decodeVarintByte]
    obtain ⟨g, e⟩ | ⟨g, e⟩ := exec_varintInstr_cases b he
    · rw [e]
      exact ⟨_, rfl, within_varintContinue g c user⟩
    · rw [e]
      exact ⟨_, rfl, within_varintFinish g c user⟩

theorem nextWithin_blockTurn {s : State} {c : BlockCursor} {u : BlockUser} (he : s.engine = .block c u)
    (block : BlockIn F u s) (output : OutputIn F u c s) : NextWithin F s (engineStep s) := by
  simp only [engineStep, he]
  split
  · rename_i decoded
    obtain ⟨len, hd, form⟩ | ⟨off, len, size, form⟩ | ⟨high, rfl⟩ := chunk_forms (decodeTag_format decoded)
    · rw [exec_literalForm form he]
      exact ⟨_, rfl, within_literalBody len hd block output⟩
    · rw [exec_copyForm form he]
      exact ⟨_, rfl, within_copyBody off len size block output⟩
    · rw [show exec (.copy4 high) s = .next (blockUnsupported u c.s s) from atChunk_block he _]
      exact ⟨_, rfl, within_blockUnsupported c.s block⟩
  · exact ⟨_, rfl, within_blockCorrupt c.s block⟩

theorem nextWithin_headerTurn {s : State} {i0 h0 : DWord} {h : List Byte} (he : s.engine = .header i0 h0 h)
    (reader : ReaderIn F s) : NextWithin F s (engineStep s) := by
  have taken : Within F s (takeHeader i0 h0 h (fetchHeader h s) s) :=
    within_inConsume (s := s) (fetchHeader h s).length reader.1
  simp only [engineStep, he]
  split
  · rename_i decoded
    obtain ⟨ty, len, rfl⟩ := frameInstr_of_decodeHeader decoded
    obtain ⟨t, e, frame⟩ := nextWithin_frameInstr (F := F) s.cfg.muMax ty len
      (s := takeHeader i0 h0 h (fetchHeader h s) s) rfl reader
    exact ⟨t, e, taken.trans frame⟩
  · exact ⟨_, rfl, taken.trans (within_headerShort h0 _ reader)⟩

end

/-! ### The footprint of a turn -/

/-- What the element the engine is at may touch. -/
def footprint (s : State) : Footprint :=
  match s.engine with
  | .idle => { reader := False, writer := False, mem := fun _ => False }
  | .dispatch =>
    { reader := s.latch.op ∈ [0x30#8, 0x31#8], writer := s.latch.op ∈ [0x20#8, 0x21#8, 0x22#8, 0x23#8]
      mem := fun a => dstValid s = true ∧ inLatchedDst s a = true }
  | .varint _ .command => { reader := False, writer := False, mem := fun _ => False }
  | .varint _ (.ofBlock u) => { reader := u ≠ .bdec, writer := False, mem := fun a => inLatchedDst s a = true }
  | .block c u =>
    { reader := u ≠ .bdec, writer := False
      mem := fun a => inLatchedDst s a = true ∨
        (u = .bdec ∧ s.latch.dstAddr.toNat + c.d ≤ a ∧ a < s.latch.dstAddr.toNat + c.n) }
  | .writer _ => { reader := False, writer := True, mem := fun _ => False }
  | .header _ _ _ => { reader := True, writer := False, mem := fun a => inLatchedDst s a = true }
  | .body _ _ _ _ => { reader := True, writer := False, mem := fun a => inLatchedDst s a = true }

/-- Every turn of the engine has a next state, within the footprint of the element it is at. -/
theorem engineStep_within (s : State) : NextWithin (footprint s) s (engineStep s) := by
  cases he : s.engine with
  | idle =>
    rw [engineStep_idle he]
    exact ⟨_, rfl, .refl s⟩
  | dispatch =>
    rw [engineStep_dispatch he]
    simp only [footprint, he]
    exact nextWithin_command id id fun valid a inside => ⟨valid, inside⟩
  | varint c u =>
    cases u with
    | command =>
      simp only [footprint, he]
      exact nextWithin_varintTurn he nofun
    | ofBlock b =>
      simp only [footprint, he]
      refine nextWithin_varintTurn he fun b' same => ?_
      cases same
      exact ⟨id, fun a inside => inside⟩
  | block c u =>
    simp only [footprint, he]
    exact nextWithin_blockTurn he ⟨id, fun a inside => .inl inside⟩ fun bdec a low high => .inr ⟨bdec, low, high⟩
  | writer w =>
    rw [engineStep_writer w he]
    simp only [footprint, he]
    exact ⟨_, rfl, within_runWriter _ _ _ s trivial⟩
  | header i0 h0 h =>
    simp only [footprint, he]
    exact nextWithin_headerTurn he ⟨trivial, fun a inside => inside⟩
  | body i0 h0 kind len =>
    simp only [footprint, he, engineStep]
    exact ⟨_, rfl, within_readBody i0 h0 kind len ⟨trivial, fun a inside => inside⟩⟩

theorem Within.of_engineStep {s t : State} (next : engineStep s = .next t) : Within (footprint s) s t := by
  obtain ⟨t', e, within⟩ := engineStep_within s
  rw [next] at e
  cases e
  exact within

end Sys2Proof.Machine
end

section
/-! What follows from the footprint of a turn: O52, O50, O51 and O53. -/

namespace Sys2Proof.Machine

/-! ### Buffer memory (O52) -/

theorem lt_memSize_of_dstValid {s : State} {a : Nat} (valid : dstValid s = true) (inside : inLatchedDst s a = true) :
    a < s.cfg.memSize := by
  simp only [dstValid, regionValid, inLatchedDst, inRegion, decide_eq_true_eq] at valid inside
  omega

theorem BlockRunning.dstValid {u : BlockUser} {s : State} (h : BlockRunning u s) : dstValid s = true := by
  cases u with
  | bdec =>
    obtain ⟨-, regions⟩ := h
    exact dstValid_of_regionsOk regions
  | frame =>
    obtain ⟨⟨-, valid, -⟩, -⟩ := h
    exact valid

/-- The bytes a turn may change are those of the running command's DST, which is valid (40_commands.md R113,
43_block_decoder.md R265). -/
theorem Consistent.dst_of_footprint {s : State} (h : Consistent s) {a : Nat} (mem : (footprint s).mem a) :
    dstValid s = true ∧ inLatchedDst s a = true := by
  have cursors := h.cursors
  unfold EngineInv at cursors
  unfold footprint at mem
  cases he : s.engine with
  | idle | writer =>
    simp only [he] at mem
  | dispatch =>
    simp only [he] at mem
    exact mem
  | varint c u =>
    cases u with
    | command => simp only [he] at mem
    | ofBlock b =>
      simp only [he] at mem cursors
      obtain ⟨⟨block, -⟩, -⟩ := cursors
      exact ⟨block.dstValid, mem⟩
  | block c u =>
    simp only [he] at mem cursors
    obtain ⟨block, -, -, capacity, -⟩ := cursors
    refine ⟨block.dstValid, ?_⟩
    obtain inside | ⟨rfl, low, high⟩ := mem
    · exact inside
    · simp only [blockCapacity] at capacity
      simp only [inLatchedDst, inRegion, decide_eq_true_eq]
      omega
  | header | body =>
    simp only [he] at mem cursors
    obtain ⟨⟨-, valid, -⟩, -⟩ := cursors
    exact ⟨valid, mem⟩

/-- Settles O52: a turn stays within its footprint, whose bytes are those of a valid DST. -/
theorem engineWritesOnlyItsDestination : Obligations.EngineWritesOnlyItsDestination := by
  unfold Obligations.EngineWritesOnlyItsDestination
  intro s t a consistent next changed
  obtain ⟨-, -, -, mem⟩ := Within.of_engineStep next
  obtain ⟨valid, inside⟩ := consistent.dst_of_footprint (not_imp_comm.mp (mem a) changed)
  exact ⟨inside, lt_memSize_of_dstValid valid inside⟩

/-! ### The bytes put and taken, and the parameters (O50) -/

/-- No byte put is withdrawn, none taken is given back, no parameter changes (20_memory.md R78, 70_reset_and_hazards.md R450,
00_scope.md R8). -/
def Persists (s t : State) : Prop := s.out <+: t.out ∧ s.inTaken ≤ t.inTaken ∧ t.cfg = s.cfg

theorem Persists.refl (s : State) : Persists s s := ⟨List.prefix_rfl, Nat.le_refl _, rfl⟩

theorem Persists.trans {s t u : State} (h : Persists s t) (h' : Persists t u) : Persists s u := by
  obtain ⟨out, taken, cfg⟩ := h
  obtain ⟨out', taken', cfg'⟩ := h'
  exact ⟨out.trans out', taken.trans taken', cfg'.trans cfg⟩

theorem Within.persists {F : Footprint} {s t : State} (h : Within F s t) : Persists s t := by
  obtain ⟨⟨cfg, -⟩, ⟨out, -⟩, ⟨taken, -⟩, -⟩ := h
  exact ⟨out, taken, cfg⟩

theorem persists_engineStep {s t : State} (next : engineStep s = .next t) : Persists s t := (Within.of_engineStep next).persists

theorem persists_inRefill (chunks : List (List Byte)) (s : State) : Persists s (inRefill chunks s) := by
  unfold inRefill
  split
  all_goals exact .refl s

theorem persists_abandon (s : State) : Persists s (abandon s) := by
  unfold abandon
  split
  all_goals exact .refl s

/-- A reset keeps the bytes put, the bytes taken and the parameters (70_reset_and_hazards.md R450). -/
theorem persists_hwReset (s : State) : Persists s (hwReset s) := persists_abandon s

theorem persists_ctrlWrite (v : Word) (s : State) : Persists s (ctrlWrite v s) := by
  unfold ctrlWrite
  split
  · exact persists_hwReset s
  · exact .refl s

theorem persists_cmdWrite (op : Byte) (s : State) : Persists s (cmdWrite op s) := by
  unfold cmdWrite
  split
  all_goals exact .refl s

theorem persists_regWrite (off : Nat) (v : Word) (s : State) : Persists s (regWrite off v s) := by
  unfold regWrite
  split
  · exact persists_ctrlWrite v s
  · exact .refl s
  · exact persists_cmdWrite _ s
  all_goals exact .refl s

theorem persists_busWrite (off : Byte) (width : Nat) (v : Word) (s : State) : Persists s (busWrite off width v s) := by
  unfold busWrite
  split
  · exact persists_regWrite _ v s
  · exact .refl s

theorem persists_hostMemWrite {s t : State} {a : Nat} {b : Byte} (next : hostMemWrite a b s = .next t) : Persists s t := by
  unfold hostMemWrite at next
  repeat' split at next
  all_goals cases next
  exact .refl s

theorem persists_hostMemRead {s t : State} {a : Nat} (next : hostMemRead a s = .next t) : Persists s t := by
  unfold hostMemRead at next
  repeat' split at next
  all_goals cases next
  all_goals exact .refl s

theorem persists_hostAct {s t : State} {a : HostAction} (next : hostAct a s = .next t) : Persists s t := by
  cases a with
  | memWrite addr b => exact persists_hostMemWrite next
  | memRead addr => exact persists_hostMemRead next
  | write off width v =>
    cases next
    exact persists_busWrite off width v s
  | hwReset =>
    cases next
    exact persists_hwReset s
  | engine | wait | feed | read | inOffer | inEos | outSink =>
    cases next
    exact .refl s

/-- A step is a turn of the engine, the end of a wait or a feed, or a move of the host or the platform (log 5). -/
theorem step_cases (s : State) :
    (∃ s', Persists s s' ∧ step s = engineStep s') ∨ (∃ rest, step s = .next { s with events := rest }) ∨
      ∃ a rest, s.events = a :: rest ∧ step s = hostAct a { s with events := rest } := by
  unfold step
  split
  · exact .inl ⟨s, .refl s, rfl⟩
  · rename_i rest _
    exact .inl ⟨{ s with events := rest }, .refl s, rfl⟩
  · split
    · exact .inl ⟨s, .refl s, rfl⟩
    · exact .inr (.inl ⟨_, rfl⟩)
  · split
    · exact .inl ⟨_, persists_inRefill _ s, rfl⟩
    · exact .inr (.inl ⟨_, rfl⟩)
  · exact .inr (.inr ⟨_, _, ‹_›, rfl⟩)

/-- Settles O50: no turn of the engine and no move of the host or the platform takes back a byte or changes a parameter. -/
theorem outputAndParametersPersist : Obligations.OutputAndParametersPersist := by
  unfold Obligations.OutputAndParametersPersist
  intro s t next
  obtain ⟨s', before, e⟩ | ⟨rest, e⟩ | ⟨a, rest, -, e⟩ := step_cases s
  · exact before.trans (persists_engineStep (e ▸ next))
  · cases e.symm.trans next
    exact Persists.refl s
  · exact persists_hostAct (s := { s with events := rest }) (e ▸ next)

/-! ### The stops (O53) -/

/-- A host write to buffer memory stops outside it and in a region of the running command (70_reset_and_hazards.md R460). -/
theorem hostMemWrite_cases (a : Nat) (b : Byte) (s : State) :
    (∃ t, hostMemWrite a b s = .next t) ∨
    (s.cfg.memSize ≤ a ∧ hostMemWrite a b s = .fault .hostAddressOutOfRange) ∨
    ((inRunningSrc s a = true ∨ inRunningDst s a = true) ∧ hostMemWrite a b s = .refused .hostRegionRace) := by
  unfold hostMemWrite
  split
  · exact .inr (.inl ⟨‹_›, rfl⟩)
  split
  · exact .inr (.inr ⟨by simpa using ‹(inRunningSrc s a || inRunningDst s a) = true›, rfl⟩)
  · exact .inl ⟨_, rfl⟩

/-- A host read of buffer memory stops outside it. -/
theorem hostMemRead_cases (a : Nat) (s : State) :
    (∃ t, hostMemRead a s = .next t) ∨ (s.cfg.memSize ≤ a ∧ hostMemRead a s = .fault .hostAddressOutOfRange) := by
  unfold hostMemRead
  split
  · exact .inr ⟨‹_›, rfl⟩
  split
  all_goals exact .inl ⟨_, rfl⟩

/-- Settles O53: the engine always has a next state, and so has every move of the host but its two accesses to memory. -/
theorem stepStopsOnlyOnHostMemoryAccess : Obligations.StepStopsOnlyOnHostMemoryAccess := by
  unfold Obligations.StepStopsOnlyOnHostMemoryAccess
  intro s
  obtain ⟨s', -, e⟩ | ⟨rest, e⟩ | ⟨action, rest, events, e⟩ := step_cases s
  · obtain ⟨t, next, -⟩ := engineStep_within s'
    exact .inl ⟨t, e.trans next⟩
  · exact .inl ⟨_, e⟩
  rw [e]
  cases action with
  | memWrite a b =>
    obtain next | ⟨outside, stop⟩ | ⟨inside, stop⟩ := hostMemWrite_cases a b { s with events := rest }
    · exact .inl next
    · exact .inr (.inl ⟨a, rest, outside, .inr ⟨b, events⟩, stop⟩)
    · exact .inr (.inr ⟨a, b, rest, events, inside, stop⟩)
  | memRead a =>
    obtain next | ⟨outside, stop⟩ := hostMemRead_cases a { s with events := rest }
    · exact .inl next
    · exact .inr (.inl ⟨a, rest, outside, .inl events, stop⟩)
  | engine | wait | feed | write | read | inOffer | inEos | outSink | hwReset => exact .inl ⟨_, rfl⟩

/-! ### The path a command does not use (O51) -/

/-- Only SR_READ and SR_RESET touch the reader path (20_memory.md R88). -/
theorem Consistent.reader_of_footprint {s : State} (h : Consistent s) (reader : (footprint s).reader) :
    s.latch.op ∈ [0x30#8, 0x31#8] := by
  have cursors := h.cursors
  unfold EngineInv at cursors
  unfold footprint at reader
  have running : ReaderRunning s → s.latch.op ∈ [0x30#8, 0x31#8] := by
    rintro ⟨op, -⟩
    simp [op]
  cases he : s.engine with
  | idle | writer => simp only [he] at reader
  | dispatch =>
    simp only [he] at reader
    exact reader
  | varint c u =>
    match u with
    | .command => simp only [he] at reader
    | .ofBlock .bdec =>
      simp only [he] at reader
      exact absurd rfl reader
    | .ofBlock (.frame _ _) =>
      simp only [he] at cursors
      obtain ⟨⟨⟨read, -⟩, -⟩, -⟩ := cursors
      exact running read
  | block c u =>
    match u with
    | .bdec =>
      simp only [he] at reader
      exact absurd rfl reader
    | .frame _ _ =>
      simp only [he] at cursors
      obtain ⟨⟨read, -⟩, -⟩ := cursors
      exact running read
  | header | body =>
    simp only [he] at cursors
    obtain ⟨read, -⟩ := cursors
    exact running read

/-- Only a writer command touches the writer path (20_memory.md R88). -/
theorem Consistent.writer_of_footprint {s : State} (h : Consistent s) (writer : (footprint s).writer) :
    s.latch.op ∈ [0x20#8, 0x21#8, 0x22#8, 0x23#8] := by
  have cursors := h.cursors
  unfold EngineInv at cursors
  unfold footprint at writer
  cases he : s.engine with
  | idle | block | header | body => simp only [he] at writer
  | varint c u => cases u <;> simp only [he] at writer
  | dispatch =>
    simp only [he] at writer
    exact writer
  | writer w =>
    simp only [he] at cursors
    obtain ⟨op, -⟩ := cursors
    exact List.mem_append_left [0x23#8] op

theorem ReaderShown.refl (s : State) : ReaderShown s s := ⟨rfl, rfl, rfl, rfl⟩
theorem WriterShown.refl (s : State) : WriterShown s s := ⟨rfl, rfl⟩

theorem ReaderShown.trans {s t u : State} (h : ReaderShown s t) (h' : ReaderShown t u) : ReaderShown s u := by
  obtain ⟨a1, a2, a3, a4⟩ := h
  obtain ⟨b1, b2, b3, b4⟩ := h'
  exact ⟨b1.trans a1, b2.trans a2, b3.trans a3, b4.trans a4⟩

/-- One action of a writer command shows the reader as it is, and so do those after it from some such state. -/
theorem readerShown_writerOp {op : WriterOp} {ops : List WriterOp} {s u : State} (mem : u ∈ writerStates (op :: ops) s) :
    ReaderShown s u ∨ ∃ s', ReaderShown s s' ∧ u ∈ writerStates ops s' := by
  cases op with
  | put | frame =>
    rw [writerStates] at mem
    obtain rfl | later := List.mem_cons.mp mem
    · exact .inl (.refl u)
    split at later
    · refine .inr ⟨_, ?_, later⟩
      exact .refl s
    · exact .inl (List.mem_singleton.mp later ▸ .refl s)
  | fill k n =>
    obtain filling | later := List.mem_append.mp mem
    · obtain ⟨j, -, rfl⟩ := List.mem_map.mp filling
      exact .inl (.refl s)
    · refine .inr ⟨_, ?_, later⟩
      exact .refl s
  | activate | empty | close =>
    obtain rfl | later := List.mem_cons.mp mem
    · exact .inl (.refl u)
    · refine .inr ⟨_, ?_, later⟩
      exact .refl s

theorem readerShown_writerStates {ops : List WriterOp} {s u : State} (mem : u ∈ writerStates ops s) : ReaderShown s u := by
  induction ops generalizing s with
  | nil => exact List.mem_singleton.mp mem ▸ .refl s
  | cons op ops ih =>
    obtain shown | ⟨s', same, later⟩ := readerShown_writerOp mem
    · exact shown
    · exact same.trans (ih later)

/-- The reader's states show the writer as it is, where the step leaves it so. -/
theorem writerShown_readerStates {s t u : State} (next : engineStep s = .next t) (same : SameWriter s t)
    (mem : u ∈ readerStates s) : WriterShown s u := by
  obtain rfl | ⟨-, rfl | rfl⟩ | rfl := (mem_readerStates next u).mp mem
  · exact .refl u
  · exact .refl s
  · exact .refl s
  · exact same.shown

theorem readerShown_swResetStates {s u : State} (mem : u ∈ swResetStates s) : ReaderShown s u := by
  simp only [swResetStates, List.mem_cons, List.not_mem_nil, or_false] at mem
  obtain rfl | rfl | rfl := mem
  · exact .refl u
  all_goals exact .refl s

theorem writerShown_srResetStates {s u : State} (mem : u ∈ srResetStates s) : WriterShown s u := by
  simp only [srResetStates, List.mem_cons, List.not_mem_nil, or_false] at mem
  obtain rfl | rfl | rfl | rfl | rfl := mem
  · exact .refl u
  all_goals exact .refl s

/-- No command but SR_READ and SR_RESET shows another reader than it found (70_reset_and_hazards.md R463). -/
theorem readerShown_commandStates {s u : State} (off : s.latch.op ∉ [0x30#8, 0x31#8])
    (mem : u ∈ commandStates (decodeOpcode s.latch.op) s) : ReaderShown s u := by
  have opcode : ∀ code, encode (decodeOpcode s.latch.op) = encodeOpcode code → s.latch.op = code :=
    fun _ => opcode_of_decodeOpcode rfl
  cases hi : decodeOpcode s.latch.op <;> rw [hi] at mem opcode
  case swWrite | swFlush | swClose =>
    unfold commandStates at mem
    dsimp only at mem
    split at mem
    · exact List.mem_singleton.mp mem ▸ .refl s
    · exact readerShown_writerStates mem
  case swReset => exact readerShown_swResetStates mem
  case srRead => exact absurd (by simp [opcode 0x30#8 rfl]) off
  case srReset => exact absurd (by simp [opcode 0x31#8 rfl]) off
  all_goals exact List.mem_singleton.mp mem ▸ .refl s

/-- No command but the writer's shows another writer than it found (70_reset_and_hazards.md R463). -/
theorem writerShown_commandStates {s u : State} (off : s.latch.op ∉ [0x20#8, 0x21#8, 0x22#8, 0x23#8])
    (reader : u ∈ readerStates s → WriterShown s u) (mem : u ∈ commandStates (decodeOpcode s.latch.op) s) :
    WriterShown s u := by
  have opcode : ∀ code, encode (decodeOpcode s.latch.op) = encodeOpcode code → s.latch.op = code :=
    fun _ => opcode_of_decodeOpcode rfl
  cases hi : decodeOpcode s.latch.op <;> rw [hi] at mem opcode
  case swWrite => exact absurd (by simp [opcode 0x20#8 rfl]) off
  case swFlush => exact absurd (by simp [opcode 0x21#8 rfl]) off
  case swClose => exact absurd (by simp [opcode 0x22#8 rfl]) off
  case swReset => exact absurd (by simp [opcode 0x23#8 rfl]) off
  case srRead => exact reader mem
  case srReset => exact writerShown_srResetStates mem
  all_goals exact List.mem_singleton.mp mem ▸ .refl s

/-- The states within an element that is not the reader's show the reader as it is. -/
theorem readerShown_statesWithin {s u : State} (off : ¬ (footprint s).reader) (mem : u ∈ statesWithin s) : ReaderShown s u := by
  have still : u ∈ [s] → ReaderShown s u := fun mem => List.mem_singleton.mp mem ▸ .refl s
  unfold footprint at off
  unfold statesWithin at mem
  cases he : s.engine with
  | idle =>
    simp only [he] at mem
    exact still mem
  | dispatch =>
    simp only [he] at mem off
    exact readerShown_commandStates off mem
  | writer w =>
    simp only [he] at mem
    exact readerShown_writerStates mem
  | varint c u =>
    match u with
    | .command | .ofBlock .bdec =>
      simp only [he] at mem
      exact still mem
    | .ofBlock (.frame _ _) =>
      simp only [he] at off
      exact absurd nofun off
  | block c u =>
    match u with
    | .bdec =>
      simp only [he] at mem
      exact still mem
    | .frame _ _ =>
      simp only [he] at off
      exact absurd nofun off
  | header | body =>
    simp only [he] at off
    exact absurd trivial off

/-- The states within an element that is not the writer's show the writer as it is. -/
theorem writerShown_statesWithin {s t u : State} (next : engineStep s = .next t) (off : ¬ (footprint s).writer)
    (mem : u ∈ statesWithin s) : WriterShown s u := by
  obtain ⟨-, ⟨-, same⟩, -, -⟩ := Within.of_engineStep next
  have reader : u ∈ readerStates s → WriterShown s u := writerShown_readerStates next (same off)
  have still : u ∈ [s] → WriterShown s u := fun mem => List.mem_singleton.mp mem ▸ .refl s
  unfold footprint at off
  unfold statesWithin at mem
  cases he : s.engine with
  | idle =>
    simp only [he] at mem
    exact still mem
  | dispatch =>
    simp only [he] at mem off
    exact writerShown_commandStates off reader mem
  | writer w =>
    simp only [he] at off
    exact absurd trivial off
  | varint c u =>
    match u with
    | .command | .ofBlock .bdec =>
      simp only [he] at mem
      exact still mem
    | .ofBlock (.frame _ _) =>
      simp only [he] at mem
      exact reader mem
  | block c u =>
    match u with
    | .bdec =>
      simp only [he] at mem
      exact still mem
    | .frame _ _ =>
      simp only [he] at mem
      exact reader mem
  | header | body =>
    simp only [he] at mem
    exact reader mem

/-- Settles O51: a turn stays within its footprint, which has the path of its command only. -/
theorem engineKeepsOtherPath : Obligations.EngineKeepsOtherPath := by
  unfold Obligations.EngineKeepsOtherPath
  intro s t consistent next
  obtain ⟨⟨-, regs, before⟩, ⟨-, writer⟩, ⟨-, reader⟩, -⟩ := Within.of_engineStep next
  refine ⟨fun read reset => ?_, fun op => ?_, regs, before⟩
  · have off : ¬ (footprint s).reader := fun reader => by simpa [read, reset] using consistent.reader_of_footprint reader
    exact ⟨reader off, fun u => readerShown_statesWithin off⟩
  · have off : ¬ (footprint s).writer := fun writer => op (consistent.writer_of_footprint writer)
    exact ⟨writer off, fun u => writerShown_statesWithin next off⟩

end Sys2Proof.Machine
end

section
/-! A writer command under a sink of limited room (O41): it puts the bytes it would put without the limit, in the same order,
waits where the room ends, and from there comes to the same end; SW_STATUS shows the same states on the way. -/

namespace Sys2Proof.Machine

/-! ### Where the room ends -/

theorem outAccepts_enough {s : State} {r n : Nat} (room : s.outRoom = some r) (enough : n ≤ r) : outAccepts s n = n := by
  simp [outAccepts, room, enough]

theorem outAccepts_short {s : State} {r n : Nat} (room : s.outRoom = some r) (short : r < n) : outAccepts s n = r := by
  simp only [outAccepts, room]
  omega

theorem runWriter_put_enough {s : State} {r : Nat} {bs : List Byte} (resLen : Nat) (ops : List WriterOp) (o : Nat)
    (room : s.outRoom = some r) (enough : bs.length ≤ r) :
    runWriter resLen (.put bs :: ops) o s =
      runWriter resLen ops (o + bs.length) { s with out := s.out ++ bs, outRoom := some (r - bs.length) } := by
  rw [runWriter]
  simp only [outAccepts_enough room enough, if_true, outPut, room, Option.map_some, List.take_length]

theorem runWriter_put_short {s : State} {r : Nat} {bs : List Byte} (resLen : Nat) (ops : List WriterOp) (o : Nat)
    (room : s.outRoom = some r) (short : r < bs.length) :
    runWriter resLen (.put bs :: ops) o s =
      { s with
        out := s.out ++ bs.take r, outRoom := some 0
        engine := .writer { resLen := resLen, o := o + r, todo := .put (bs.drop r) :: ops } } := by
  rw [runWriter]
  simp only [outAccepts_short room short, if_neg short.ne, outPut, room, Option.map_some, Nat.sub_self]

/-- The bytes that waited, put under a sink without limit: the command goes on as if it had not waited. -/
theorem runWriter_put_resumes {r : Nat} {bs : List Byte} (resLen : Nat) (ops : List WriterOp) (o : Nat) (le : r ≤ bs.length)
    (s : State) (g : Engine) :
    runWriter resLen (.put (bs.drop r) :: ops) (o + r) { s with out := s.out ++ bs.take r, outRoom := none, engine := g } =
      runWriter resLen ops (o + bs.length) { s with out := s.out ++ bs, outRoom := none } := by
  have count : o + r + (bs.drop r).length = o + bs.length := by
    rw [List.length_drop]
    omega
  have bytes : s.out ++ bs.take r ++ bs.drop r = s.out ++ bs := by rw [List.append_assoc, List.take_append_drop]
  rw [runWriter_put _ _ _ _ rfl]
  dsimp only
  rw [count, bytes]
  exact runWriter_engine resLen ops _ { s with out := s.out ++ bs, outRoom := none } g

/-! ### The bytes put (R78, R464) -/

/-- An update of the writer's own state is not seen by the sink. -/
theorem PutsWithinRoom.update {f g : State → Result} {s : State} (sw : SwState) (ib : List Byte)
    (h : PutsWithinRoom f { s with swState := sw, ibuf := ib })
    (same : ∀ room, g { s with outRoom := room } = f { s with swState := sw, ibuf := ib, outRoom := room }) :
    PutsWithinRoom g s := by
  obtain ⟨u, bs, next, idle, unlimited, out, limited⟩ := h
  refine ⟨u, bs, (same none).trans next, idle, unlimited, out, fun r => ?_⟩
  obtain ⟨enough, short⟩ := limited r
  refine ⟨fun le => (same (some r)).trans (enough le), fun lt => ?_⟩
  obtain ⟨w, sw', held, t, rfl, waits, resumes⟩ := short lt
  exact ⟨w, sw', held, _, rfl, (same (some r)).trans waits, resumes⟩

/-- The rest of a writer command from its cursor on, as a move. -/
def writerMove (resLen : Nat) (ops : List WriterOp) (o : Nat) (s : State) : Result := .next (runWriter resLen ops o s)

/-- OutPut of `bs`, then the rest: the room is first used up by `bs`. -/
theorem PutsWithinRoom.put {resLen : Nat} {ops : List WriterOp} {o : Nat} {s : State} (bs : List Byte)
    (rest : PutsWithinRoom (writerMove resLen ops (o + bs.length)) { s with out := s.out ++ bs }) :
    PutsWithinRoom (writerMove resLen (.put bs :: ops) o) s := by
  obtain ⟨u, more, next, idle, unlimited, out, limited⟩ := rest
  have whole : runWriter resLen ops (o + bs.length) { s with out := s.out ++ bs, outRoom := none } = u :=
    Host.Outcome.next.inj next
  refine ⟨u, bs ++ more, ?_, idle, unlimited, by simpa using out, fun r => ?_⟩
  · exact congrArg Host.Outcome.next ((runWriter_put _ _ _ _ rfl).trans whole)
  rw [List.length_append]
  by_cases enough : bs.length ≤ r
  · have put := runWriter_put_enough (s := { s with outRoom := some r }) resLen ops o rfl enough
    obtain ⟨completes, waits⟩ := limited (r - bs.length)
    refine ⟨fun le => ?_, fun lt => ?_⟩
    · rw [← Nat.sub_sub]
      exact (congrArg Host.Outcome.next put).trans (completes (by omega))
    · obtain ⟨w, sw, held, t, rfl, waits, resumes⟩ := waits (by omega)
      refine ⟨w, sw, held, _, ?_, (congrArg Host.Outcome.next put).trans waits, resumes⟩
      rw [List.take_append, List.take_of_length_le enough, List.append_assoc]
  · have short : r < bs.length := Nat.lt_of_not_le enough
    have put := runWriter_put_short (s := { s with outRoom := some r }) resLen ops o rfl short
    refine ⟨fun le => absurd le (by omega), fun _ =>
      ⟨{ resLen := resLen, o := o + r, todo := .put (bs.drop r) :: ops }, s.swState, s.ibuf, _, rfl, ?_, ?_⟩⟩
    · rw [List.take_append_of_le_length short.le]
      exact congrArg Host.Outcome.next put
    · rw [List.take_append_of_le_length short.le]
      exact (runWriter_put_resumes resLen ops o short.le s _).trans whole

/-- Whatever is left of a writer command, it puts its bytes within the room there is. -/
theorem putsWithinRoom_runWriter (resLen : Nat) (ops : List WriterOp) (o : Nat) (s : State) :
    PutsWithinRoom (writerMove resLen ops o) s := by
  induction ops generalizing o s with
  | nil =>
    refine ⟨finish resLen o { s with outRoom := none }, [], rfl, rfl, rfl, by simp, fun r => ⟨fun _ => rfl, fun lt => ?_⟩⟩
    exact absurd lt (Nat.not_lt_zero r)
  | cons op ops ih =>
    cases op with
    | put bs => exact .put bs (ih _ _)
    | activate => exact .update .active s.ibuf (ih o _) fun _ => rfl
    | fill k n => exact .update s.swState (s.ibuf ++ sourceSlice k n s) (ih o _) fun _ => rfl
    | frame =>
      have emptied : PutsWithinRoom (writerMove resLen (.empty :: ops) (o + (frameBytes s.cfg s.ibuf).length))
          { s with out := s.out ++ frameBytes s.cfg s.ibuf } := .update s.swState [] (ih _ _) fun _ => rfl
      refine .update s.swState s.ibuf (.put (frameBytes s.cfg s.ibuf) emptied) fun room => ?_
      exact congrArg Host.Outcome.next (runWriter_frame_put _ _ _ { s with outRoom := room })
    | empty => exact .update s.swState [] (ih o _) fun _ => rfl
    | close => exact .update .closed s.ibuf (ih o _) fun _ => rfl

/-! ### The states shown (R463) -/

theorem WriterShown.symm {s u : State} (h : WriterShown s u) : WriterShown u s := ⟨h.1.symm, h.2.symm⟩

theorem WriterShown.trans {s u v : State} (h : WriterShown s u) (h' : WriterShown u v) : WriterShown s v :=
  ⟨h'.1.trans h.1, h'.2.trans h.2⟩

/-- Each state of the one list shows the same as some state of the other. -/
def ShowsAmong (l l' : List State) : Prop := ∀ u ∈ l, ∃ v ∈ l', WriterShown u v

theorem ShowsAmong.of_subset {l l' : List State} (h : l ⊆ l') : ShowsAmong l l' := fun u mem => ⟨u, h mem, .refl u⟩

theorem ShowsAmong.trans {l l' l'' : List State} (h : ShowsAmong l l') (h' : ShowsAmong l' l'') : ShowsAmong l l'' := by
  intro u mem
  obtain ⟨v, mem, shown⟩ := h u mem
  obtain ⟨w, mem, shown'⟩ := h' v mem
  exact ⟨w, mem, shown.trans shown'⟩

theorem ShowsAmong.append {l l' m m' : List State} (h : ShowsAmong l l') (h' : ShowsAmong m m') :
    ShowsAmong (l ++ m) (l' ++ m') := by
  intro u mem
  obtain mem | mem := List.mem_append.mp mem
  · obtain ⟨v, mem, shown⟩ := h u mem
    exact ⟨v, List.mem_append_left m' mem, shown⟩
  · obtain ⟨v, mem, shown⟩ := h' u mem
    exact ⟨v, List.mem_append_right l' mem, shown⟩

theorem showsAmong_singleton {a b : State} (h : WriterShown a b) : ShowsAmong [a] [b] :=
  fun _ mem => ⟨b, List.mem_singleton_self b, List.mem_singleton.mp mem ▸ h⟩

theorem showsAmong_cons {a : State} {l m : List State} :
    ShowsAmong (a :: l) m ↔ (∃ v ∈ m, WriterShown a v) ∧ ShowsAmong l m := List.forall_mem_cons

theorem showsAmong_map {f g : Nat → State} (h : ∀ j, WriterShown (f j) (g j)) (l : List Nat) :
    ShowsAmong (l.map f) (l.map g) := by
  intro u mem
  obtain ⟨j, inside, rfl⟩ := List.mem_map.mp mem
  exact ⟨g j, List.mem_map_of_mem inside, h j⟩

/-- The states a writer command that waits in `t` passes through when it goes on under a sink without limit. -/
def resumedStates (t : State) : List State :=
  match t.engine with
  | .writer w => writerStates w.todo { t with outRoom := none }
  | _ => []

theorem resumedStates_writer {t : State} {w : WriterRun} (waits : t.engine = .writer w) :
    resumedStates t = writerStates w.todo { t with outRoom := none } := by simp only [resumedStates, waits]

theorem mem_resumedStates {t u : State} (mem : u ∈ resumedStates t) :
    ∃ w, t.engine = .writer w ∧ u ∈ writerStates w.todo { t with outRoom := none } := by
  unfold resumedStates at mem
  split at mem
  · exact ⟨_, ‹_›, mem⟩
  · exact absurd mem List.not_mem_nil

/-- With the limit nothing is shown that is not shown without it, and what is shown without it is shown before the wait or,
going on from `t`, after it. -/
def ShownAcrossWait (limited unlimited : List State) (t : State) : Prop :=
  ShowsAmong limited unlimited ∧ ShowsAmong unlimited (limited ++ resumedStates t)

/-- What `ShownAcrossWait` says of the actions `ops` from `s` with any room. -/
def OpsShownAcrossWait (resLen : Nat) (ops : List WriterOp) (o : Nat) (s : State) : Prop :=
  ∀ r, ShownAcrossWait (writerStates ops { s with outRoom := some r }) (writerStates ops { s with outRoom := none })
    (runWriter resLen ops o { s with outRoom := some r })

/-- States before the first action that put bytes, with the limit and without it. -/
theorem ShownAcrossWait.prepend {p q l l' : List State} {t : State} (h : ShownAcrossWait l l' t) (forth : ShowsAmong p q)
    (back : ShowsAmong q p) : ShownAcrossWait (p ++ l) (q ++ l') t := by
  obtain ⟨nothingElse, all⟩ := h
  refine ⟨forth.append nothingElse, ?_⟩
  rw [List.append_assoc]
  exact back.append all

/-- A state that differs in the room only. -/
theorem ShownAcrossWait.cons {l l' : List State} {t : State} (s : State) (r : Nat) (h : ShownAcrossWait l l' t) :
    ShownAcrossWait ({ s with outRoom := some r } :: l) ({ s with outRoom := none } :: l') t :=
  h.prepend (p := [{ s with outRoom := some r }]) (q := [{ s with outRoom := none }]) (showsAmong_singleton ⟨rfl, rfl⟩)
    (showsAmong_singleton ⟨rfl, rfl⟩)

theorem ShownAcrossWait.congr {l l' m m' : List State} {t : State} (h : ShownAcrossWait l l' t) (hl : ShowsAmong l m)
    (hm : ShowsAmong m l) (hl' : ShowsAmong l' m') (hm' : ShowsAmong m' l') : ShownAcrossWait m m' t := by
  obtain ⟨nothingElse, all⟩ := h
  exact ⟨hm.trans (nothingElse.trans hl'), hm'.trans (all.trans (hl.append (.of_subset (List.Subset.refl _))))⟩

theorem writerStates_put_none {s : State} (bs : List Byte) (ops : List WriterOp) (room : s.outRoom = none) :
    writerStates (.put bs :: ops) s = s :: writerStates ops { s with out := s.out ++ bs } := by
  rw [writerStates]
  simp only [outAccepts_none room, if_true, outPut_none room]

theorem writerStates_frame_none {s : State} (ops : List WriterOp) (room : s.outRoom = none) :
    writerStates (.frame :: ops) s = s :: writerStates ops { s with out := s.out ++ frameBytes s.cfg s.ibuf, ibuf := [] } := by
  rw [writerStates]
  simp only [outAccepts_none room, if_true, outPut_none room]

/-- The cursor a writer command came from is carried along by its states. -/
theorem writerStates_engine (ops : List WriterOp) (s : State) (g : Engine) (room : s.outRoom = none) :
    writerStates ops { s with engine := g } = (writerStates ops s).map fun u => { u with engine := g } := by
  induction ops generalizing s with
  | nil => rfl
  | cons op ops ih =>
    have cons : ∀ {l l' : List State}, l = l'.map (fun u => { u with engine := g }) →
        { s with engine := g } :: l = (s :: l').map fun u => { u with engine := g } := congrArg _
    cases op with
    | put bs =>
      rw [writerStates_put_none _ _ room, writerStates_put_none (s := { s with engine := g }) _ _ room]
      exact cons (ih { s with out := s.out ++ bs } room)
    | activate => exact cons (ih { s with swState := .active } room)
    | fill k n =>
      rw [writerStates, writerStates, List.map_append, List.map_map]
      exact congrArg _ (ih { s with ibuf := s.ibuf ++ sourceSlice k n s } room)
    | frame =>
      rw [writerStates_frame_none _ room, writerStates_frame_none (s := { s with engine := g }) _ room]
      exact cons (ih { s with out := s.out ++ frameBytes s.cfg s.ibuf, ibuf := [] } room)
    | empty => exact cons (ih { s with ibuf := [] } room)
    | close => exact cons (ih { s with swState := .closed } room)

theorem showsAmong_writerStates_engine (ops : List WriterOp) (s : State) (g : Engine) (room : s.outRoom = none) :
    ShowsAmong (writerStates ops s) (writerStates ops { s with engine := g }) := by
  rw [writerStates_engine ops s g room]
  exact fun u mem => ⟨{ u with engine := g }, List.mem_map.mpr ⟨u, mem, rfl⟩, rfl, rfl⟩

theorem writerStates_put_enough {s : State} {r : Nat} {bs : List Byte} (ops : List WriterOp) (room : s.outRoom = some r)
    (enough : bs.length ≤ r) :
    writerStates (.put bs :: ops) s =
      s :: writerStates ops { s with out := s.out ++ bs, outRoom := some (r - bs.length) } := by
  rw [writerStates]
  simp only [outAccepts_enough room enough, if_true, outPut, room, Option.map_some, List.take_length]

theorem writerStates_put_short {s : State} {r : Nat} {bs : List Byte} (ops : List WriterOp) (room : s.outRoom = some r)
    (short : r < bs.length) : writerStates (.put bs :: ops) s = [s, outPut r bs s] := by
  rw [writerStates]
  simp only [outAccepts_short room short, if_neg short.ne]

/-- OutPut shows nothing, so a wait in it splits the states in two (20_memory.md R78). -/
theorem OpsShownAcrossWait.put {resLen : Nat} {ops : List WriterOp} {o : Nat} {s : State} (bs : List Byte)
    (rest : OpsShownAcrossWait resLen ops (o + bs.length) { s with out := s.out ++ bs }) :
    OpsShownAcrossWait resLen (.put bs :: ops) o s := by
  intro r
  have start : WriterShown { s with outRoom := some r } { s with outRoom := none } := ⟨rfl, rfl⟩
  rw [writerStates_put_none (s := { s with outRoom := none }) bs ops rfl]
  by_cases enough : bs.length ≤ r
  · rw [writerStates_put_enough _ rfl enough, runWriter_put_enough _ _ _ rfl enough]
    exact (rest (r - bs.length)).prepend (showsAmong_singleton start) (showsAmong_singleton start.symm)
  · have short : r < bs.length := Nat.lt_of_not_le enough
    rw [writerStates_put_short _ rfl short, runWriter_put_short _ _ _ rfl short]
    have before : ShowsAmong [{ s with outRoom := some r }, outPut r bs { s with outRoom := some r }]
        [{ s with outRoom := none }] :=
      showsAmong_cons.mpr ⟨⟨_, List.mem_singleton_self _, start⟩, showsAmong_singleton start⟩
    have after : ShowsAmong (writerStates ops { s with out := s.out ++ bs, outRoom := none })
        (resumedStates { s with
          out := s.out ++ bs.take r, outRoom := some 0
          engine := .writer { resLen := resLen, o := o + r, todo := .put (bs.drop r) :: ops } }) := by
      rw [resumedStates_writer rfl, writerStates_put_none _ _ rfl]
      dsimp only
      rw [List.append_assoc, List.take_append_drop]
      exact (showsAmong_writerStates_engine ops { s with out := s.out ++ bs, outRoom := none } _ rfl).trans
        (.of_subset (List.subset_cons_self _ _))
    exact ⟨before.trans (.of_subset (by simp)),
      ((showsAmong_singleton start.symm).trans (.of_subset (by simp))).append after⟩

/-- EmitFrame shows what OutPut of the frame and then IBUF_LEN <- 0 show (45_stream_writer.md R305). -/
theorem showsAmong_frame_put (ops : List WriterOp) (s : State) :
    ShowsAmong (writerStates (.frame :: ops) s) (writerStates (.put (frameBytes s.cfg s.ibuf) :: .empty :: ops) s) ∧
      ShowsAmong (writerStates (.put (frameBytes s.cfg s.ibuf) :: .empty :: ops) s) (writerStates (.frame :: ops) s) := by
  by_cases whole : outAccepts s (frameBytes s.cfg s.ibuf).length = (frameBytes s.cfg s.ibuf).length
  · simp only [writerStates, whole, if_true]
    refine ⟨.of_subset (by simp), ?_⟩
    rw [showsAmong_cons, showsAmong_cons]
    exact ⟨⟨s, List.mem_cons_self, .refl s⟩, ⟨s, List.mem_cons_self, rfl, rfl⟩, .of_subset (List.subset_cons_self _ _)⟩
  · simp only [writerStates, whole, if_false]
    exact ⟨.of_subset (List.Subset.refl _), .of_subset (List.Subset.refl _)⟩

theorem OpsShownAcrossWait.empty {resLen : Nat} {ops : List WriterOp} {o : Nat} {s : State}
    (rest : OpsShownAcrossWait resLen ops o { s with ibuf := [] }) : OpsShownAcrossWait resLen (.empty :: ops) o s :=
  fun r => (rest r).cons s r

theorem OpsShownAcrossWait.frame {resLen : Nat} {ops : List WriterOp} {o : Nat} {s : State}
    (h : OpsShownAcrossWait resLen (.put (frameBytes s.cfg s.ibuf) :: .empty :: ops) o s) :
    OpsShownAcrossWait resLen (.frame :: ops) o s := by
  intro r
  obtain ⟨forth, back⟩ := showsAmong_frame_put ops { s with outRoom := some r }
  obtain ⟨forth', back'⟩ := showsAmong_frame_put ops { s with outRoom := none }
  rw [runWriter_frame_put]
  exact (h r).congr back forth back' forth'

/-- Whatever is left of a writer command, a wait shows nothing else and leaves nothing out. -/
theorem opsShownAcrossWait (resLen : Nat) (ops : List WriterOp) (o : Nat) (s : State) :
    OpsShownAcrossWait resLen ops o s := by
  have start : ∀ (s : State) r, WriterShown { s with outRoom := some r } { s with outRoom := none } := fun _ _ => ⟨rfl, rfl⟩
  induction ops generalizing o s with
  | nil =>
    exact fun r => ⟨showsAmong_singleton (start s r), (showsAmong_singleton (start s r).symm).trans
      (.of_subset (List.subset_append_left _ _))⟩
  | cons op ops ih =>
    cases op with
    | put bs => exact .put bs (ih _ _)
    | activate => exact fun r => (ih o { s with swState := .active } r).cons s r
    | fill k n =>
      refine fun r => (ih o { s with ibuf := s.ibuf ++ sourceSlice k n s } r).prepend (showsAmong_map (fun j => ?_) _)
        (showsAmong_map (fun j => ?_) _)
      all_goals exact ⟨rfl, rfl⟩
    | frame => exact .frame (.put _ (.empty (ih _ _)))
    | empty => exact .empty (ih _ _)
    | close => exact fun r => (ih o { s with swState := .closed } r).cons s r

/-! ### The commands -/

/-- SW_WRITE, SW_FLUSH and SW_CLOSE are refused by a check and show the state as it is, or run actions that do not depend on
the sink (45_stream_writer.md R302, R308, R309, R311). -/
theorem writerCommand_cases {i : Instr} (hi : i ∈ [Instr.swWrite, .swFlush, .swClose]) (s : State) :
    ((s.swState = .closed ∨ (i = .swWrite ∧ srcValid s = false)) ∧
      ∀ room, commandStates i { s with outRoom := room } = [{ s with outRoom := room }]) ∨
    ∃ resLen ops, (∀ room, exec i { s with outRoom := room } = writerMove resLen ops 0 { s with outRoom := room }) ∧
      ∀ room, commandStates i { s with outRoom := room } = writerStates ops { s with outRoom := room } := by
  simp only [List.mem_cons, List.not_mem_nil, or_false] at hi
  by_cases closed : s.swState = .closed
  · refine .inl ⟨.inl closed, fun room => ?_⟩
    obtain rfl | rfl | rfl := hi
    · exact if_pos (by simp [closed])
    · exact if_pos closed
    · exact if_pos closed
  obtain rfl | rfl | rfl := hi
  · cases valid : srcValid s with
    | false =>
      have invalid : ∀ room, srcValid { s with outRoom := room } = false := fun _ => valid
      exact .inl ⟨.inr ⟨rfl, rfl⟩, fun room => if_pos (by simp [invalid room])⟩
    | true =>
      have checked : ¬ (!srcValid s) = true := by simp [valid]
      refine .inr ⟨s.latch.srcLen.toNat, swWriteOps s, fun room => (if_neg checked).trans (if_neg closed), fun room => if_neg ?_⟩
      simp [closed, show srcValid { s with outRoom := room } = true from valid]
  · exact .inr ⟨s.ibufLen, swFlushOps s, fun _ => if_neg closed, fun _ => if_neg closed⟩
  · exact .inr ⟨s.ibufLen, swCloseOps s, fun _ => if_neg closed, fun _ => if_neg closed⟩

/-- Settles O41: by induction over the actions left, for the bytes put and for the states shown. -/
theorem stalledWriterPutsTheSameBytes : Obligations.StalledWriterPutsTheSameBytes := by
  unfold Obligations.StalledWriterPutsTheSameBytes
  refine ⟨fun i s hi opened valid => ?_, fun resLen o ops s => putsWithinRoom_runWriter resLen ops o s,
    fun i s t r hi next => ?_⟩
  · obtain ⟨closed | ⟨write, invalid⟩, -⟩ | ⟨resLen, ops, runs, -⟩ := writerCommand_cases hi s
    · exact absurd closed opened
    · simp [valid write] at invalid
    · exact (putsWithinRoom_runWriter resLen ops 0 s).update s.swState s.ibuf runs
  · obtain ⟨-, states⟩ | ⟨resLen, ops, runs, states⟩ := writerCommand_cases hi s
    · rw [states, states]
      have start : WriterShown { s with outRoom := some r } { s with outRoom := none } := ⟨rfl, rfl⟩
      exact ⟨showsAmong_singleton start, fun v mem => .inl (showsAmong_singleton start.symm v mem)⟩
    · obtain ⟨nothingElse, all⟩ := opsShownAcrossWait resLen ops 0 s r
      rw [states, states]
      rw [runs] at next
      cases next
      refine ⟨nothingElse, fun v mem => ?_⟩
      obtain ⟨u, shows, shown⟩ := all v mem
      obtain before | after := List.mem_append.mp shows
      · exact .inl ⟨u, before, shown⟩
      · obtain ⟨w, waits, mem⟩ := mem_resumedStates after
        exact .inr ⟨w, waits, u, mem, shown⟩

end Sys2Proof.Machine
end

section
/-! Decoding and encoding undo one another (O4, O5), format by format (30_encoding.md): the well-formed instructions of a
format are what its field decoder gives, each from the fields its encoding writes; a tag's form is fixed by K and H. -/

namespace Sys2Proof.Machine

/-! ### Bytes and fields -/

theorem leBytes_one (b : Byte) : leBytes 1 b.toNat = [b] := by simp [leBytes]

/-- Equal fields make equal answers. -/
theorem decoded_congr {α : Type} (f : α → Instr) {a b : α} (h : a = b) (rest : List Byte) :
    (.ok (f a, rest) : Decoded) = .ok (f b, rest) := h ▸ rfl

/-- H = 60..63 announce extension bytes, every other H is a length (30_encoding.md R96). -/
theorem inlineLengthFits_iff (h : BitVec 6) : inlineLengthFits h ↔ h ≠ 60#6 ∧ h ≠ 61#6 ∧ h ≠ 62#6 ∧ h ≠ 63#6 := by
  revert h; decide

/-- The reserved TYPEs are those without a row of their own (30_encoding.md R102). -/
theorem reservedType_iff (ty : Byte) :
    (0x02#8 ≤ ty ∧ ty ≤ 0xFD#8) ↔ ty ≠ 0x00#8 ∧ ty ≠ 0x01#8 ∧ ty ≠ 0xFF#8 ∧ ty ≠ 0xFE#8 := by
  revert ty; decide

/-! ### Frame headers (30_encoding.md R101, R102) -/

theorem frameInstr_reserved {muMax ty : Byte} (low : 0x02#8 ≤ ty) (high : ty ≤ 0xFD#8) (len : BitVec 24) :
    frameInstr muMax ty len =
      if ty ≤ muMax then .ftReservedUnskippable ty len else .ftReservedSkippable ty len := by
  obtain ⟨not00, not01, notFF, notFE⟩ := (reservedType_iff ty).mp ⟨low, high⟩
  rw [frameInstr, if_neg not00, if_neg not01, if_neg notFF, if_neg notFE]

theorem frameInstr_wellFormed (muMax ty : Byte) (len : BitVec 24) : (frameInstr muMax ty len).WellFormed muMax := by
  unfold frameInstr
  split_ifs with is00 is01 isFF isFE unskippable
  · rfl
  · rfl
  · rfl
  · rfl
  all_goals obtain ⟨low, high⟩ := (reservedType_iff ty).mpr ⟨is00, is01, isFF, isFE⟩
  · exact decide_eq_true ⟨low, unskippable⟩
  · exact decide_eq_true ⟨low, BitVec.not_le.mp unskippable, high⟩

theorem frameInstr_format (muMax ty : Byte) (len : BitVec 24) : (frameInstr muMax ty len).format = .frame := by
  unfold frameInstr
  split_ifs <;> rfl

theorem encode_frameInstr (muMax ty : Byte) (len : BitVec 24) :
    encode (frameInstr muMax ty len) = ty :: leBytes 3 len.toNat := by
  unfold frameInstr
  split_ifs with is00 is01 isFF isFE
  · rw [is00]; rfl
  · rw [is01]; rfl
  · rw [isFF]; rfl
  · rw [isFE]; rfl
  all_goals rfl

/-- A well-formed frame header is what `frameInstr` makes of its TYPE and LEN. -/
theorem exists_frameInstr_eq {muMax : Byte} {i : Instr} (hm : muMax ≤ 0xFD#8) (hi : i.format = .frame)
    (wf : i.WellFormed muMax) : ∃ ty len, frameInstr muMax ty len = i := by
  cases i
  case ftCompressed len => exact ⟨0x00#8, len, rfl⟩
  case ftUncompressed len => exact ⟨0x01#8, len, rfl⟩
  case ftStreamId len => exact ⟨0xFF#8, len, rfl⟩
  case ftPadding len => exact ⟨0xFE#8, len, rfl⟩
  case ftReservedUnskippable ty len =>
    obtain ⟨low, unskippable⟩ : typeUnskippable muMax ty := of_decide_eq_true wf
    exact ⟨ty, len, by rw [frameInstr_reserved low (BitVec.le_trans unskippable hm), if_pos unskippable]⟩
  case ftReservedSkippable ty len =>
    obtain ⟨low, skippable, high⟩ : typeSkippable muMax ty := of_decide_eq_true wf
    exact ⟨ty, len, by rw [frameInstr_reserved low high, if_neg (BitVec.not_le.mpr skippable)]⟩
  all_goals cases hi

theorem decodeHeader_encode {muMax : Byte} {i : Instr} (hm : muMax ≤ 0xFD#8) (hi : i.format = .frame)
    (wf : i.WellFormed muMax) (rest : List Byte) : decodeHeader muMax (encode i ++ rest) = .ok (i, rest) := by
  obtain ⟨ty, len, rfl⟩ := exists_frameInstr_eq hm hi wf
  rw [encode_frameInstr]
  exact decoded_congr (frameInstr muMax ty) (ofNat_leNat_leBytes 24 3 rfl len) rest

theorem encode_of_decodeHeader {muMax : Byte} {bs rest : List Byte} {i : Instr}
    (hd : decodeHeader muMax bs = .ok (i, rest)) : i.WellFormed muMax ∧ i.format = .frame ∧ bs = encode i ++ rest := by
  unfold decodeHeader at hd
  split at hd
  case h_1 ty l0 l1 l2 _ =>
    cases hd
    refine ⟨frameInstr_wellFormed .., frameInstr_format .., ?_⟩
    rw [encode_frameInstr, leBytes_ofNat_leNat 24 3 [l0, l1, l2] rfl rfl]
    rfl
  case h_2 => cases hd

/-! ### Varint bytes (30_encoding.md R93) -/

theorem varintInstr_wellFormed (muMax b : Byte) : (varintInstr b).WellFormed muMax := by
  unfold varintInstr
  split <;> rfl

theorem varintInstr_format (b : Byte) : (varintInstr b).format = .varint := by
  unfold varintInstr
  split <;> rfl

theorem decodeVarintByte_encode {i : Instr} (hi : i.format = .varint) (rest : List Byte) :
    decodeVarintByte (encode i ++ rest) = .ok (i, rest) := by
  cases i
  case vbCont g => exact decoded_congr id (varintInstr_cont g) rest
  case vbLast g => exact decoded_congr id (varintInstr_last g) rest
  all_goals cases hi

theorem encode_of_decodeVarintByte {muMax : Byte} {bs rest : List Byte} {i : Instr}
    (hd : decodeVarintByte bs = .ok (i, rest)) : i.WellFormed muMax ∧ i.format = .varint ∧ bs = encode i ++ rest := by
  cases bs with
  | nil => cases hd
  | cons b bs =>
    cases hd
    exact ⟨varintInstr_wellFormed .., varintInstr_format b, by rw [encode_varintInstr]; rfl⟩

/-! ### Command words (30_encoding.md R90, R91) -/

/-- A well-formed command is what its opcode selects. -/
theorem exists_decodeOpcode_eq {muMax : Byte} {i : Instr} (hi : i.format = .cmd) (wf : i.WellFormed muMax) :
    ∃ op, encode i = encodeOpcode op ∧ decodeOpcode op = i := by
  cases i
  case illegal op => exact ⟨op, rfl, decodeOpcode_unassigned op (of_decide_eq_true wf)⟩
  case varintEnc | varintDec | varintLen | maxLen | benc | bdec | swWrite | swFlush | swClose | swReset | srRead
    | srReset => exact ⟨_, rfl, rfl⟩
  all_goals cases hi

theorem decodeCommand_encode {muMax : Byte} {i : Instr} (hi : i.format = .cmd) (wf : i.WellFormed muMax)
    (rest : List Byte) : decodeCommand (encode i ++ rest) = .ok (i, rest) := by
  obtain ⟨op, encoded, rfl⟩ := exists_decodeOpcode_eq hi wf
  rw [encoded]
  rfl

theorem opcode_of_decodeCommand {bs rest : List Byte} {i : Instr} (hd : decodeCommand bs = .ok (i, rest)) :
    ∃ op b1 b2 b3, bs = op :: b1 :: b2 :: b3 :: rest ∧ i = decodeOpcode op := by
  unfold decodeCommand at hd
  split at hd
  · cases hd
    exact ⟨_, _, _, _, rfl, rfl⟩
  · cases hd

/-! ### Tags: the form K and H select (30_encoding.md R95) -/

theorem decodeTag_literal (h : BitVec 6) (bs : List Byte) :
    decodeTag (tagByte h 0#2 :: bs) = decodeLiteral h bs := by
  simp [decodeTag, tagKind_tagByte, tagHigh_tagByte]

theorem decodeTag_copy1 (o len : BitVec 3) (b : Byte) (bs : List Byte) :
    decodeTag ((o ++ len ++ 1#2) :: b :: bs) = .ok (.copy1 len (o ++ b), bs) := by
  simp [decodeTag, decodeCopy1, tagKind_copy1, copy1LenField_copy1, copy1OffHigh_copy1]

theorem decodeTag_copy2 (h : BitVec 6) (b1 b2 : Byte) (bs : List Byte) :
    decodeTag (tagByte h 2#2 :: b1 :: b2 :: bs) = .ok (.copy2 h (BitVec.ofNat 16 (leNat [b1, b2])), bs) := by
  simp [decodeTag, decodeCopy2, tagKind_tagByte, tagHigh_tagByte]

theorem decodeTag_copy4 (h : BitVec 6) (bs : List Byte) : decodeTag (tagByte h 3#2 :: bs) = .ok (.copy4 h, bs) := by
  simp [decodeTag, tagKind_tagByte, tagHigh_tagByte]

theorem decodeLiteral_inline {h : BitVec 6} (fits : inlineLengthFits h) (bs : List Byte) :
    decodeLiteral h bs = .ok (.litInline h, bs) := by
  obtain ⟨not60, not61, not62, not63⟩ := (inlineLengthFits_iff h).mp fits
  unfold decodeLiteral
  rw [if_neg not60, if_neg not61, if_neg not62, if_neg not63]

theorem decodeTag_encode {muMax : Byte} {i : Instr} (hi : i.format = .tag) (wf : i.WellFormed muMax) (rest : List Byte) :
    decodeTag (encode i ++ rest) = .ok (i, rest) := by
  cases i
  case litInline h => exact (decodeTag_literal h rest).trans (decodeLiteral_inline (of_decide_eq_true wf) rest)
  case litX1 m =>
    rw [encode, leBytes_one]
    exact decodeTag_literal ..
  case litX2 m =>
    exact (decodeTag_literal ..).trans (decoded_congr .litX2 (ofNat_leNat_leBytes 16 2 rfl m) rest)
  case litX3 m =>
    exact (decodeTag_literal ..).trans (decoded_congr .litX3 (ofNat_leNat_leBytes 24 3 rfl m) rest)
  case litX4 m =>
    exact (decodeTag_literal ..).trans (decoded_congr .litX4 (ofNat_leNat_leBytes 32 4 rfl m) rest)
  case copy1 len off =>
    exact (decodeTag_copy1 ..).trans (decoded_congr (.copy1 len) (offset11_parts off) rest)
  case copy2 len off =>
    exact (decodeTag_copy2 ..).trans (decoded_congr (.copy2 len) (ofNat_leNat_leBytes 16 2 rfl off) rest)
  case copy4 h => exact decodeTag_copy4 h rest
  all_goals cases hi

/-! ### Tags: the bytes a form was read from -/

theorem encode_of_decodeLiteral {muMax : Byte} {h : BitVec 6} {bs rest : List Byte} {i : Instr}
    (hd : decodeLiteral h bs = .ok (i, rest)) : i.WellFormed muMax ∧ tagByte h 0#2 :: bs = encode i ++ rest := by
  unfold decodeLiteral at hd
  split_ifs at hd with is60 is61 is62 is63
  case neg =>
    cases hd
    exact ⟨decide_eq_true ((inlineLengthFits_iff h).mpr ⟨is60, is61, is62, is63⟩), rfl⟩
  all_goals
    subst h
    split at hd
    all_goals cases hd
    refine ⟨rfl, ?_⟩
    rw [encode]
  · rw [leBytes_one]; rfl
  · rw [leBytes_ofNat_leNat 16 2 _ rfl rfl]; rfl
  · rw [leBytes_ofNat_leNat 24 3 _ rfl rfl]; rfl
  · rw [leBytes_ofNat_leNat 32 4 _ rfl rfl]; rfl

theorem encode_of_decodeCopy1 {muMax t : Byte} {bs rest : List Byte} {i : Instr} (kind : tagKind t = 1#2)
    (hd : decodeCopy1 t bs = .ok (i, rest)) : i.WellFormed muMax ∧ t :: bs = encode i ++ rest := by
  cases bs with
  | nil => cases hd
  | cons b bs =>
    cases hd
    refine ⟨rfl, ?_⟩
    rw [encode, offset11_high, offset11_low, copy1_fields t kind]
    rfl

theorem encode_of_decodeCopy2 {muMax t : Byte} {bs rest : List Byte} {i : Instr} (kind : tagKind t = 2#2)
    (hd : decodeCopy2 t bs = .ok (i, rest)) : i.WellFormed muMax ∧ t :: bs = encode i ++ rest := by
  unfold decodeCopy2 at hd
  split at hd
  case h_1 b1 b2 _ =>
    cases hd
    refine ⟨rfl, ?_⟩
    rw [encode, leBytes_ofNat_leNat 16 2 [b1, b2] rfl rfl, ← kind, tagByte_fields]
    rfl
  case h_2 => cases hd

/-- K = 3 is what the tag decoder's three tests leave. -/
theorem tagKind_eq_three : ∀ {k : BitVec 2}, k ≠ 0#2 → k ≠ 1#2 → k ≠ 2#2 → k = 3#2 := by decide

theorem encode_of_decodeTag {muMax : Byte} {bs rest : List Byte} {i : Instr} (hd : decodeTag bs = .ok (i, rest)) :
    i.WellFormed muMax ∧ bs = encode i ++ rest := by
  unfold decodeTag at hd
  split at hd
  case h_1 => cases hd
  case h_2 t bs =>
    split_ifs at hd with is0 is1 is2
    · obtain ⟨wf, bytes⟩ := encode_of_decodeLiteral (muMax := muMax) hd
      rw [← is0, tagByte_fields] at bytes
      exact ⟨wf, bytes⟩
    · exact encode_of_decodeCopy1 is1 hd
    · exact encode_of_decodeCopy2 is2 hd
    · cases hd
      refine ⟨rfl, ?_⟩
      rw [encode, ← tagKind_eq_three is0 is1 is2, tagByte_fields]
      rfl

/-! ### Every format -/

/-- Settles O4: in each format the decoder reads back the fields the encoder wrote. -/
theorem decodeOfEncodeIsIdentity : Obligations.DecodeOfEncodeIsIdentity := by
  unfold Obligations.DecodeOfEncodeIsIdentity
  intro muMax i rest hm wf
  cases hi : i.format with
  | cmd => exact decodeCommand_encode hi wf rest
  | tag => exact decodeTag_encode hi wf rest
  | frame => exact decodeHeader_encode hm hi wf rest
  | varint => exact decodeVarintByte_encode hi rest

/-- But for a command word, what decodes is well formed, of the decoder's format, and encodes to the bytes read. -/
theorem encode_of_decode {muMax : Byte} {f : Format} {bs rest : List Byte} {i : Instr} (notCmd : f ≠ .cmd)
    (hd : decode muMax f bs = .ok (i, rest)) : i.WellFormed muMax ∧ i.format = f ∧ bs = encode i ++ rest := by
  cases f with
  | cmd => exact absurd rfl notCmd
  | tag =>
    obtain ⟨wf, bytes⟩ := encode_of_decodeTag hd
    exact ⟨wf, decodeTag_format hd, bytes⟩
  | frame => exact encode_of_decodeHeader hd
  | varint => exact encode_of_decodeVarintByte hd

/-- Settles O5: a command word's opcode byte is read from its head, every other element's bytes are its encoding. -/
theorem decodedBytesAreTheEncoding : Obligations.DecodedBytesAreTheEncoding := by
  unfold Obligations.DecodedBytesAreTheEncoding
  intro muMax f bs rest i _ _ hd
  by_cases isCmd : f = .cmd
  · subst isCmd
    obtain ⟨op, b1, b2, b3, rfl, rfl⟩ := opcode_of_decodeCommand hd
    rw [encode_decodeOpcode]
    refine ⟨decodeOpcode_wellFormed muMax op, decodeOpcode_format op, ?_, fun _ => rfl, fun h => absurd rfl h⟩
    simp only [encodeOpcode, List.length_cons, List.length_nil]
    omega
  · obtain ⟨wf, format, bytes⟩ := encode_of_decode isCmd hd
    exact ⟨wf, format, by rw [bytes, List.length_append], fun h => absurd h isCmd, fun _ => bytes⟩

/-- Settles O6: each word is short and closed, and the decoder of its format evaluates on it. -/
theorem specWordsDecode : Obligations.SpecWordsDecode := by
  unfold Obligations.SpecWordsDecode
  exact ⟨rfl, rfl, rfl, rfl, rfl, rfl, rfl, rfl, rfl⟩

end Sys2Proof.Machine
end

section
/-! The sequencer (O8 to O11; 40_commands.md R110 to R114): what a write of CMD does, what ILLEGAL does, and that every
command with a region of buffer memory checks its regions before it does anything else. -/

namespace Sys2Proof.Machine

/-! ### A write of CMD -/

theorem busWrite_cmd (v : Word) (s : State) : busWrite 0x0C#8 4 v s = cmdWrite (v.extractLsb' 0 8) s := rfl

theorem cmdWrite_idle (op : Byte) {s : State} (idle : s.busy = false) : cmdWrite op s = issue op s := by
  simp only [cmdWrite, idle, Bool.false_eq_true, if_false]

theorem cmdWrite_busy (op : Byte) {s : State} (busy : s.busy = true) : cmdWrite op s = rejectIssue op s := by
  simp only [cmdWrite, busy, if_true]

/-- 30_encoding.md R104: the operand ARG. -/
theorem toNat_argOperand (s : State) : (argOperand s).toNat = s.argHi.toNat * 2 ^ 32 + s.argLo.toNat :=
  toNat_append_eq_add s.argHi s.argLo

/-- Settles O8: the write is `issue` while idle, with the latch `latchOperands`, and `rejectIssue` while busy. -/
theorem cmdWriteStartsOrIsRejected : Obligations.CmdWriteStartsOrIsRejected := by
  unfold Obligations.CmdWriteStartsOrIsRejected
  intro s v rest
  rw [step_write, busWrite_cmd]
  refine ⟨fun idle => ?_, fun busy => ?_⟩
  · refine ⟨latchOperands (v.extractLsb' 0 8) s, ?_, rfl, rfl, rfl, rfl, rfl, toNat_argOperand s⟩
    rw [cmdWrite_idle _ (s := { s with events := rest }) idle]
    rfl
  · rw [cmdWrite_busy _ (s := { s with events := rest }) busy]
    rfl

/-! ### ILLEGAL -/

/-- ILLEGAL is well-formed only with an unassigned opcode, and what is decoded is well-formed. -/
theorem decodeOpcode_eq_illegal_iff (op : Byte) : decodeOpcode op = .illegal op ↔ op ∉ assignedOpcodes := by
  refine ⟨fun decoded => ?_, decodeOpcode_unassigned op⟩
  have wf := decodeOpcode_wellFormed 0#8 op
  rw [decoded] at wf
  exact of_decide_eq_true wf

theorem exec_illegal (op : Byte) (s : State) : exec (.illegal op) s = .next (Raised .illegal 0 s) := rfl

/-- Settles O9: ILLEGAL raises its code whatever the opcode. -/
theorem illegalOpcodeCompletes : Obligations.IllegalOpcodeCompletes := by
  unfold Obligations.IllegalOpcodeCompletes
  exact ⟨decodeOpcode_eq_illegal_iff, exec_illegal, rfl⟩

/-! ### The region checks come first -/

theorem regionValid_eq_false_iff (p : Params) (a n : Word) :
    regionValid p a n = false ↔ n.toNat ≠ 0 ∧ a.toNat + n.toNat > p.memSize := by
  simp only [regionValid, decide_eq_false_iff_not, not_or, not_le, gt_iff_lt, ne_eq]

theorem regionsOk_eq_false_iff (s : State) :
    regionsOk s = false ↔ srcValid s = false ∨ dstValid s = false ∨ regionsOverlap s.latch = true := by
  simp only [regionsOk, Bool.and_eq_false_iff, Bool.not_eq_false', or_assoc]

/-- A command with both regions raises BadArg if they do not pass (40_commands.md R113, R114). -/
theorem exec_regionsBad {i : Instr} {s : State} (hi : i ∈ [Instr.benc, .bdec]) (bad : regionsOk s = false) :
    exec i s = .next (Raised .badArg 0 s) := by
  simp only [List.mem_cons, List.not_mem_nil, or_false] at hi
  obtain rfl | rfl := hi
  · simp only [exec, execBenc, bad, Bool.not_false, if_true, raiseClean_eq, complete_eq_raised]
  · simp only [exec, execBdec, bad, Bool.false_eq_true, if_false, raiseClean_eq, complete_eq_raised]

/-- A command that uses S raises BadArg if S is invalid (40_commands.md R113). -/
theorem exec_srcInvalid {i : Instr} {s : State} (hi : i ∈ [Instr.varintDec, .benc, .bdec, .swWrite])
    (invalid : srcValid s = false) : exec i s = .next (Raised .badArg 0 s) := by
  have regions : regionsOk s = false := (regionsOk_eq_false_iff s).mpr (.inl invalid)
  simp only [List.mem_cons, List.not_mem_nil, or_false] at hi
  obtain rfl | rfl | rfl | rfl := hi
  · simp only [exec, execVarintDec, invalid, Bool.not_false, if_true, raiseClean_eq, complete_eq_raised]
  · exact exec_regionsBad (by simp) regions
  · exact exec_regionsBad (by simp) regions
  · simp only [exec, execSwWrite, invalid, Bool.not_false, if_true, raiseClean_eq, complete_eq_raised]

/-- A command that uses D raises BadArg if D is invalid (40_commands.md R113). -/
theorem exec_dstInvalid {i : Instr} {s : State} (hi : i ∈ [Instr.varintEnc, .benc, .bdec, .srRead])
    (invalid : dstValid s = false) : exec i s = .next (Raised .badArg 0 s) := by
  have regions : regionsOk s = false := (regionsOk_eq_false_iff s).mpr (.inr (.inl invalid))
  simp only [List.mem_cons, List.not_mem_nil, or_false] at hi
  obtain rfl | rfl | rfl | rfl := hi
  · simp only [exec, execVarintEnc, invalid, Bool.not_false, if_true, raiseClean_eq, complete_eq_raised]
  · exact exec_regionsBad (by simp) regions
  · exact exec_regionsBad (by simp) regions
  · simp only [exec, execSrRead, invalid, Bool.not_false, if_true, raiseClean_eq, complete_eq_raised]

/-- Settles O10: a region past the end of buffer memory is invalid, and each of its commands checks that first. -/
theorem invalidRegionRaisesBadArg : Obligations.InvalidRegionRaisesBadArg := by
  unfold Obligations.InvalidRegionRaisesBadArg
  rintro i s (⟨usesSrc, beyond⟩ | ⟨usesDst, beyond⟩)
  · exact exec_srcInvalid usesSrc ((regionValid_eq_false_iff ..).mpr beyond)
  · exact exec_dstInvalid usesDst ((regionValid_eq_false_iff ..).mpr beyond)

/-- Settles O11: the four conditions are `regionsOverlap`, which `regionsOk` excludes. -/
theorem overlappingRegionsRaiseBadArg : Obligations.OverlappingRegionsRaiseBadArg := by
  unfold Obligations.OverlappingRegionsRaiseBadArg
  intro i s hi src dst srcStart dstStart
  have overlap : regionsOverlap s.latch = true := decide_eq_true ⟨src, dst, srcStart, dstStart⟩
  exact exec_regionsBad hi ((regionsOk_eq_false_iff s).mpr (.inr (.inr overlap)))

end Sys2Proof.Machine
end

section
/-! Runs of the machine (log 5): with no move of the host left, each step is the engine's, and a completed command is where
a run stays. -/

namespace Sys2Proof.Machine

theorem step_noEvents {s : State} (noEvents : s.events = []) : step s = engineStep s :=
  EngineTurn.step_eq (.inl ⟨rfl, noEvents⟩)

theorem run_succ_of_next {s t : State} (next : step s = .next t) (k : Nat) :
    Host.Core.run core (k + 1) s = Host.Core.run core k t := by
  have next' : core.step s = .next t := next
  simp only [Host.Core.run, next']

theorem run_idle {s : State} (noEvents : s.events = []) (idle : s.engine = .idle) (k : Nat) :
    Host.Core.run core k s = .next s := by
  induction k with
  | zero => rfl
  | succ k ih => rw [run_succ_of_next ((step_noEvents noEvents).trans (engineStep_idle idle)), ih]

/-- Once a step has completed the command, the rest of the run changes nothing. -/
theorem run_succ_of_completed {s t : State} (next : step s = .next t) (noEvents : t.events = []) (idle : t.engine = .idle)
    (k : Nat) : Host.Core.run core (k + 1) s = .next t := by
  rw [run_succ_of_next next, run_idle noEvents idle]

end Sys2Proof.Machine
end

section
/-! VarintEncode and VarintDecode (O18; 41_varint.md R180, R181, R185, R189): an encoding is a run of bytes with bit 7 set,
one for each group of seven bits but the highest, and then a byte with bit 7 clear. -/

namespace Sys2Proof.Machine

/-! ### VarintLen is the number of bytes of VarintEncode -/

/-- A value of at least k groups of seven bits has at least k bytes. -/
theorem le_length_varintBytes {k fuel v : Nat} (room : k ≤ fuel) (h : 1 < k → 2 ^ (7 * (k - 1)) ≤ v) :
    k ≤ (varintBytes fuel v).length := by
  induction k generalizing fuel v with
  | zero => exact Nat.zero_le _
  | succ k ih =>
    obtain ⟨fuel, rfl⟩ : ∃ f, fuel = f + 1 := ⟨fuel - 1, by omega⟩
    rw [varintBytes]
    obtain rfl | more := Nat.eq_zero_or_pos k
    · split <;> exact Nat.le_add_left ..
    · have large : 2 ^ (7 * (k - 1)) * 128 ≤ v := by
        have := h (by omega)
        rwa [show 7 * (k + 1 - 1) = 7 * (k - 1) + 7 by omega, Nat.pow_add] at this
      have pos : 0 < 2 ^ (7 * (k - 1)) := Nat.two_pow_pos _
      rw [if_neg (by omega), List.length_cons]
      have := ih (fuel := fuel) (v := v / 128) (by omega) fun _ => (Nat.le_div_iff_mul_le (by omega)).mpr large
      omega

theorem length_varintEncode {v : Nat} (h : v < 2 ^ 64) : (varintEncode v).length = varintLength v := by
  obtain ⟨-, most, above, -⟩ := varintLength_bounds v h
  exact Nat.le_antisymm (length_varintEncode_le (BitVec.ofNatLT v h)) (le_length_varintBytes most above)

/-! ### The steps of VarintDecode -/

/-- A byte with bit 7 clear ends the varint, or is too large at the tenth place. -/
theorem refVarintFrom_last (i x : Nat) {b : Byte} (last : b.toNat < 128) (bs : List Byte) :
    refVarintFrom i x (b :: bs) = if i ≥ 9 ∧ b.toNat > 1 then (0, 0) else (x ||| b.toNat <<< (7 * i), i + 1) := by
  rw [refVarintFrom, if_pos last, Nat.mod_eq_of_lt last]

/-- A byte with bit 7 set adds its group and moves on. -/
theorem refVarintFrom_continue {i : Nat} (inside : i < 9) (x : Nat) {b : Byte} (continues : 128 ≤ b.toNat)
    (bs : List Byte) : refVarintFrom i x (b :: bs) = refVarintFrom (i + 1) (x ||| (b.toNat % 128) <<< (7 * i)) bs := by
  rw [refVarintFrom, if_neg (by omega), if_neg (by omega)]

/-- Without a byte whose bit 7 is clear the decoding fails. -/
theorem refVarintFrom_unterminated (i x : Nat) {bs : List Byte} (continues : ∀ b ∈ bs, 128 ≤ b.toNat) :
    refVarintFrom i x bs = (0, 0) := by
  induction bs generalizing i x with
  | nil => rfl
  | cons b bs ih =>
    obtain ⟨head, tail⟩ := List.forall_mem_cons.mp continues
    by_cases inside : i < 9
    · rw [refVarintFrom_continue inside x head, ih _ _ tail]
    · rw [refVarintFrom, if_pos (by omega)]

/-! ### Decoding an encoding -/

/-- The byte of a value's highest group of seven bits. -/
theorem refVarintFrom_highestGroup {i v : Nat} (short : v < 128) (fits : i < 9 ∨ v ≤ 1) (x : Nat) (rest : List Byte) :
    refVarintFrom i x (BitVec.ofNat 8 v :: rest) = (x ||| v <<< (7 * i), i + 1) := by
  have byte : (BitVec.ofNat 8 v).toNat = v := by rw [BitVec.toNat_ofNat]; omega
  rw [refVarintFrom_last i x (by omega), byte, if_neg (by omega)]

/-- The lowest group of seven bits of a value, joined with the groups above it. -/
theorem group_or_rest (v i : Nat) : (v % 128) <<< (7 * i) ||| (v / 128) <<< (7 * (i + 1)) = v <<< (7 * i) := by
  have joined : v % 128 ||| (v / 128) <<< 7 = v := by
    rw [Nat.or_comm, ← Nat.shiftLeft_add_eq_or_of_lt (Nat.mod_lt v (by omega)), Nat.shiftLeft_eq]
    omega
  rw [show 7 * (i + 1) = 7 + 7 * i by omega, Nat.shiftLeft_add, ← Nat.shiftLeft_or_distrib, joined]

/-- From position i on, the bytes of a value that still fits 64 bits there give the value, shifted to its place. -/
theorem refVarintFrom_varintBytes {fuel i : Nat} (place : i + fuel = 9) {v : Nat} (fits : v < 2 ^ (64 - 7 * i)) (x : Nat)
    (rest : List Byte) : refVarintFrom i x (varintBytes (fuel + 1) v ++ rest) =
      (x ||| v <<< (7 * i), i + (varintBytes (fuel + 1) v).length) := by
  induction fuel generalizing i v x with
  | zero =>
    obtain rfl : i = 9 := by omega
    have small : v < 2 := fits
    rw [varintBytes, if_pos (by omega)]
    exact refVarintFrom_highestGroup (by omega) (.inr (by omega)) x rest
  | succ fuel ih =>
    rw [varintBytes]
    split
    case isTrue short => exact refVarintFrom_highestGroup short (.inl (by omega)) x rest
    case isFalse long =>
      have byte : (BitVec.ofNat 8 (v % 128 + 128)).toNat = v % 128 + 128 := by rw [BitVec.toNat_ofNat]; omega
      have fits' : v / 128 < 2 ^ (64 - 7 * (i + 1)) := by
        rw [show 64 - 7 * i = 64 - 7 * (i + 1) + 7 by omega, Nat.pow_add] at fits
        omega
      rw [List.cons_append, refVarintFrom_continue (by omega) _ (by omega), byte, ih (by omega) fits', Nat.add_mod_right,
        Nat.mod_mod, Nat.or_assoc, group_or_rest, List.length_cons, Nat.add_assoc, Nat.add_comm 1]

/-- Every byte of an encoding but its last has bit 7 set. -/
theorem continues_of_mem_take_varintBytes {fuel v k : Nat} (proper : k < (varintBytes fuel v).length) :
    ∀ b ∈ (varintBytes fuel v).take k, 128 ≤ b.toNat := by
  induction fuel generalizing v k with
  | zero => exact absurd proper (Nat.not_lt_zero k)
  | succ fuel ih =>
    rw [varintBytes] at proper ⊢
    cases k with
    | zero => exact nofun
    | succ k =>
      split at proper
      case isTrue short => simp at proper
      case isFalse long =>
        rw [if_neg long, List.take_succ_cons, List.forall_mem_cons]
        refine ⟨?_, ih (Nat.lt_of_succ_lt_succ proper)⟩
        rw [BitVec.toNat_ofNat]
        omega

/-- Settles O18: the encoding gives back its value group by group, and cut short it has no byte that ends it. -/
theorem varintLaws : Obligations.VarintLaws := by
  unfold Obligations.VarintLaws
  intro v h
  refine ⟨fun rest => ?_, fun k proper => refVarintFrom_unterminated 0 0 (continues_of_mem_take_varintBytes proper)⟩
  have decoded := refVarintFrom_varintBytes (fuel := 9) (i := 0) rfl h 0 rest
  have length : (varintBytes (9 + 1) v).length = varintLength v := length_varintEncode h
  rwa [length, Nat.zero_or, Nat.mul_zero, Nat.shiftLeft_zero, Nat.zero_add] at decoded

end Sys2Proof.Machine
end

section
/-! The varint engine (O12 to O17; 41_varint.md R183 to R188): the two byte forms where the engine stands at a varint, the
three commands, and the run of a VARINT_DEC, which follows VarintDecode byte by byte. -/

namespace Sys2Proof.Machine

/-! ### The two byte forms (R183, R184) -/

theorem exec_vbCont (g : BitVec 7) {c : VarintCursor} {u : VarintUser} {s : State} (cursor : s.engine = .varint c u) :
    exec (.vbCont g) s = .next (varintContinue g c u s) := by
  simp only [exec, execVbCont, atVarint, cursor]

theorem exec_vbLast (g : BitVec 7) {c : VarintCursor} {u : VarintUser} {s : State} (cursor : s.engine = .varint c u) :
    exec (.vbLast g) s = .next (varintFinish g c u s) := by
  simp only [exec, execVbLast, atVarint, cursor]

theorem varintContinue_more (g : BitVec 7) {c : VarintCursor} {u : VarintUser} {s : State} (inside : c.i < 9)
    (more : c.i + 1 < varintLimit u s) :
    varintContinue g c u s = { s with engine := .varint { i := c.i + 1, x := c.x ||| varintGroup g c.i } u } :=
  if_neg (by omega)

theorem varintContinue_fails (g : BitVec 7) {c : VarintCursor} {u : VarintUser} {s : State}
    (ends : 9 ≤ c.i ∨ varintLimit u s ≤ c.i + 1) : varintContinue g c u s = varintFail u s :=
  if_pos ends

theorem varintFinish_fits {g : BitVec 7} {c : VarintCursor} (fits : c.i < 9 ∨ g.toNat ≤ 1) (u : VarintUser) (s : State) :
    varintFinish g c u s = varintDone u (c.x ||| varintGroup g c.i) (c.i + 1) s :=
  if_neg fun ⟨tenth, large⟩ => fits.elim (Nat.not_lt.mpr tenth) (Nat.not_le.mpr large)

theorem varintFinish_fails {g : BitVec 7} {c : VarintCursor} (tenth : 9 ≤ c.i) (large : 1 < g.toNat) (u : VarintUser)
    (s : State) : varintFinish g c u s = varintFail u s :=
  if_pos ⟨tenth, large⟩

theorem varintFail_command (s : State) : varintFail .command s = Finished 0 0 s := rfl

theorem varintDone_command (x : DWord) (used : Nat) (s : State) :
    varintDone .command x used s = Finished used x.toNat s := rfl

theorem varintDone_ofBlock (b : BlockUser) (x : DWord) (used : Nat) (s : State) :
    varintDone (.ofBlock b) x used s = blockBegin b x.toNat used s := rfl

/-- What a varint that fails means for either user (41_varint.md R187, 43_block_decoder.md R241). -/
theorem varintFail_outcomes (u : VarintUser) (s : State) :
    (u = .command → Host.Outcome.next (varintFail u s) = (.next (Finished 0 0 s) : Result)) ∧
      (∀ b, u = .ofBlock b → BlockFailed .corrupt .corrupt b 0 s (.next (varintFail u s))) := by
  refine ⟨?_, ?_⟩
  · rintro rfl
    rw [varintFail_command]
  · rintro b rfl
    exact blockCorrupt_failed b 0 s

/-- Settles O16: VB_CONT is `varintContinue`, in its two cases. -/
theorem varintContinuationByte : Obligations.VarintContinuationByte := by
  unfold Obligations.VarintContinuationByte
  intro g s c u cursor
  rw [exec_vbCont g cursor]
  refine ⟨fun inside more => ?_, fun ends => ?_⟩
  · rw [varintContinue_more g inside more]
    rfl
  · rw [varintContinue_fails g ends]
    exact varintFail_outcomes u s

/-- Settles O17: VB_LAST is `varintFinish`, in its two cases. -/
theorem varintLastByte : Obligations.VarintLastByte := by
  unfold Obligations.VarintLastByte
  intro g s c u cursor _
  rw [exec_vbLast g cursor]
  refine ⟨fun fits => ?_, fun ⟨tenth, large⟩ => ?_⟩
  · rw [varintFinish_fits fits]
    refine ⟨?_, ?_⟩
    · rintro rfl
      rw [varintDone_command]
      rfl
    · rintro b rfl
      rw [varintDone_ofBlock]
      rfl
  · rw [varintFinish_fails tenth.ge large]
    exact varintFail_outcomes u s

/-! ### The three commands (R186 to R188) -/

theorem exec_varintLen (s : State) : exec .varintLen s = .next (Finished (varintLength s.latch.arg.toNat) 0 s) := rfl

/-- Settles O12: the count is VarintLen, whose bounds say which it is. -/
theorem varintLenCompletes : Obligations.VarintLenCompletes := by
  unfold Obligations.VarintLenCompletes
  intro s
  obtain ⟨least, most, above, below⟩ := varintLength_bounds s.latch.arg.toNat s.latch.arg.isLt
  exact ⟨_, least, most, above, below, exec_varintLen s⟩

theorem exec_varintEnc_small {s : State} (valid : dstValid s = true)
    (small : s.latch.dstCap.toNat < varintLength s.latch.arg.toNat) :
    exec .varintEnc s = .next (Raised .dstSmall (varintLength s.latch.arg.toNat) s) := by
  simp only [exec, execVarintEnc, valid, Bool.not_true, Bool.false_eq_true, if_false]
  rw [if_pos small, raiseDstSmall_eq, complete_eq_raised]

theorem exec_varintEnc_fits {s : State} (valid : dstValid s = true)
    (fits : varintLength s.latch.arg.toNat ≤ s.latch.dstCap.toNat) :
    exec .varintEnc s = .next (Finished (varintLength s.latch.arg.toNat) 0
      { s with mem := Memory.write s.mem s.latch.dstAddr.toNat (varintEncode s.latch.arg.toNat) }) := by
  simp only [exec, execVarintEnc, valid, Bool.not_true, Bool.false_eq_true, if_false]
  rw [if_neg (Nat.not_lt.mpr fits), finish_eq, complete_eq_finished]

/-- Settles O13: the region check, the room, and the write, in this order. -/
theorem varintEncCompletes : Obligations.VarintEncCompletes := by
  unfold Obligations.VarintEncCompletes
  intro s
  refine ⟨exec_dstInvalid (by simp), exec_varintEnc_small, fun valid fits => ?_⟩
  exact ⟨length_varintEncode s.latch.arg.isLt, _, exec_varintEnc_fits valid fits, Memory.memWritten_write _ _ _⟩

theorem exec_varintDec_empty {s : State} (valid : srcValid s = true) (empty : s.latch.srcLen.toNat = 0) :
    exec .varintDec s = .next (Finished 0 0 s) := by
  simp only [exec, execVarintDec, valid, empty, Bool.not_true, Bool.false_eq_true, if_false, if_true, finish_eq,
    complete_eq_finished]

theorem exec_varintDec_nonempty {s : State} (valid : srcValid s = true) (nonempty : s.latch.srcLen.toNat ≠ 0) :
    exec .varintDec s = .next { s with engine := .varint { i := 0, x := 0#64 } .command } := by
  simp only [exec, execVarintDec, valid, nonempty, Bool.not_true, Bool.false_eq_true, if_false]

/-- Settles O14: the region check, then the empty source, then the first byte. -/
theorem varintDecStarts : Obligations.VarintDecStarts := by
  unfold Obligations.VarintDecStarts
  exact fun s => ⟨exec_srcInvalid (by simp), exec_varintDec_empty, exec_varintDec_nonempty⟩

/-! ### A turn of VARINT_DEC is a step of VarintDecode (R185) -/

theorem toNat_groupBits (b : Byte) : (b.extractLsb' 0 7).toNat = b.toNat % 128 := by
  rw [BitVec.extractLsb'_toNat, Nat.shiftRight_zero]

/-- Bit 7 of a varint byte tells its form (30_encoding.md R93). -/
theorem bit7_eq_one_iff (b : Byte) : b.extractLsb' 7 1 = 1#1 ↔ 128 ≤ b.toNat := by
  have := b.isLt
  rw [← BitVec.toNat_inj, BitVec.extractLsb'_toNat, Nat.shiftRight_eq_div_pow]
  simp only [BitVec.toNat_ofNat]
  omega

theorem varintInstr_of_continues {b : Byte} (h : 128 ≤ b.toNat) : varintInstr b = .vbCont (b.extractLsb' 0 7) :=
  if_pos ((bit7_eq_one_iff b).mpr h)

theorem varintInstr_of_last {b : Byte} (h : b.toNat < 128) : varintInstr b = .vbLast (b.extractLsb' 0 7) :=
  if_neg fun one => Nat.not_le.mpr h ((bit7_eq_one_iff b).mp one)

/-- Where the group fits 64 bits, the running value is the one VarintDecode computes without a bound. -/
theorem toNat_or_varintGroup {g : BitVec 7} {i : Nat} (x : DWord) (tenth : i ≤ 9) (fits : i < 9 ∨ g.toNat ≤ 1) :
    (x ||| varintGroup g i).toNat = x.toNat ||| g.toNat <<< (7 * i) := by
  have group : g.toNat * 2 ^ (7 * i) < 2 ^ 64 := by
    obtain inside | small := fits
    · calc g.toNat * 2 ^ (7 * i) < 2 ^ 7 * 2 ^ (7 * i) := Nat.mul_lt_mul_of_pos_right g.isLt (Nat.two_pow_pos _)
        _ = 2 ^ (7 + 7 * i) := (Nat.pow_add ..).symm
        _ ≤ 2 ^ 64 := Nat.pow_le_pow_right (by omega) (by omega)
    · calc g.toNat * 2 ^ (7 * i) ≤ 1 * 2 ^ 63 := Nat.mul_le_mul small (Nat.pow_le_pow_right (by omega) (by omega))
        _ < 2 ^ 64 := by norm_num
  have low : g.toNat % 2 ^ 64 = g.toNat := Nat.mod_eq_of_lt (g.isLt.trans (by norm_num))
  rw [BitVec.toNat_or, varintGroup, BitVec.toNat_shiftLeft, BitVec.toNat_setWidth, low, Nat.shiftLeft_eq,
    Nat.mod_eq_of_lt group]

theorem varintLimit_command_le (s : State) : varintLimit .command s ≤ 10 := Nat.min_le_right ..

/-- The byte a VARINT_DEC stands at is the source's. -/
theorem fetchVarint_command {c : VarintCursor} {s : State} (inside : c.i < varintLimit .command s) :
    fetchVarint c .command s = [Memory.get s.mem (s.latch.srcAddr.toNat + c.i)] := by
  have one : min 1 (varintLimit .command s - c.i) = 1 := by omega
  simp only [fetchVarint, one]
  rfl

section
variable {s : State} {i : Nat} {x : DWord} {b : Byte} (noEvents : s.events = [])
  (cursor : s.engine = .varint { i := i, x := x } .command) (inside : i < varintLimit .command s)
  (byte : Memory.get s.mem (s.latch.srcAddr.toNat + i) = b)
include noEvents cursor inside byte

theorem step_varint_command : step s = exec (varintInstr b) s := by
  have fetched : fetchVarint { i := i, x := x } .command s = [b] := byte ▸ fetchVarint_command inside
  rw [step_noEvents noEvents]
  exact engineStep_varint cursor (rest := []) (by rw [fetched]; rfl)

/-- A byte with bit 7 clear completes the command with what VarintDecode gives there. -/
theorem step_varint_last (last : b.toNat < 128) (bs : List Byte) :
    step s = .next (Finished (refVarintFrom i x.toNat (b :: bs)).2 (refVarintFrom i x.toNat (b :: bs)).1 s) := by
  have group : (b.extractLsb' 0 7).toNat = b.toNat := (toNat_groupBits b).trans (Nat.mod_eq_of_lt last)
  have tenth : i ≤ 9 := by have := varintLimit_command_le s; omega
  rw [step_varint_command noEvents cursor inside byte, varintInstr_of_last last, exec_vbLast _ cursor,
    refVarintFrom_last _ _ last]
  split
  case isTrue large =>
    rw [varintFinish_fails large.1 (group ▸ large.2)]
    rfl
  case isFalse small =>
    have fits : i < 9 ∨ (b.extractLsb' 0 7).toNat ≤ 1 := by omega
    rw [varintFinish_fits fits, varintDone_command, toNat_or_varintGroup x tenth fits, group]

/-- A byte with bit 7 set and none after it fails. -/
theorem step_varint_cut (continues : 128 ≤ b.toNat) (cut : i + 1 = varintLimit .command s) :
    step s = .next (Finished 0 0 s) := by
  rw [step_varint_command noEvents cursor inside byte, varintInstr_of_continues continues, exec_vbCont _ cursor,
    varintContinue_fails _ (.inr cut.ge), varintFail_command]

/-- A byte with bit 7 set and one after it moves on. -/
theorem step_varint_continue (continues : 128 ≤ b.toNat) (more : i + 1 < varintLimit .command s) :
    step s = .next { s with
      engine := .varint { i := i + 1, x := x ||| varintGroup (b.extractLsb' 0 7) i } .command } := by
  have place : i < 9 := by have := varintLimit_command_le s; omega
  rw [step_varint_command noEvents cursor inside byte, varintInstr_of_continues continues, exec_vbCont _ cursor,
    varintContinue_more _ place more]

end

/-! ### The run of VARINT_DEC (R187) -/

/-- From position i with n + 1 bytes left, VARINT_DEC completes within n + 1 steps with what VarintDecode makes of them. -/
theorem run_varint_command {n i : Nat} {x : DWord} {s : State} (noEvents : s.events = [])
    (cursor : s.engine = .varint { i := i, x := x } .command) (left : i + (n + 1) = varintLimit .command s) (k : Nat) :
    Host.Core.run core (n + 1 + k) s = .next (Finished
      (refVarintFrom i x.toNat (Memory.read s.mem (s.latch.srcAddr.toNat + i) (n + 1))).2
      (refVarintFrom i x.toNat (Memory.read s.mem (s.latch.srcAddr.toNat + i) (n + 1))).1 s) := by
  induction n generalizing i x s with
  | zero =>
    rw [Nat.add_right_comm, Memory.read, Memory.read]
    generalize byte : Memory.get s.mem (s.latch.srcAddr.toNat + i) = b
    by_cases last : b.toNat < 128
    · exact run_succ_of_completed (step_varint_last noEvents cursor (by omega) byte last []) noEvents rfl _
    · have continues : 128 ≤ b.toNat := Nat.not_lt.mp last
      rw [refVarintFrom_unterminated i _ (bs := [b]) (by simpa using continues)]
      exact run_succ_of_completed (step_varint_cut noEvents cursor (by omega) byte continues (by omega)) noEvents rfl _
  | succ n ih =>
    rw [Nat.add_right_comm, Memory.read]
    generalize byte : Memory.get s.mem (s.latch.srcAddr.toNat + i) = b
    by_cases last : b.toNat < 128
    · exact run_succ_of_completed (step_varint_last noEvents cursor (by omega) byte last _) noEvents rfl _
    · have continues : 128 ≤ b.toNat := Nat.not_lt.mp last
      have place : i < 9 := by have := varintLimit_command_le s; omega
      have more : i + 1 + (n + 1) = varintLimit .command s := by omega
      have next := step_varint_continue noEvents cursor (by omega) byte continues (by omega)
      rw [refVarintFrom_continue place _ continues, ← toNat_groupBits, ← toNat_or_varintGroup x place.le (.inl place)]
      exact (run_succ_of_next next _).trans (ih noEvents rfl more)

/-- Settles O15: by induction on the bytes left, each turn of the engine is one step of VarintDecode. -/
theorem varintDecComputesVarintDecode : Obligations.VarintDecComputesVarintDecode := by
  unfold Obligations.VarintDecComputesVarintDecode
  intro s noEvents issued op
  have start : step s = exec .varintDec s := by
    rw [step_noEvents noEvents, engineStep_dispatch issued, op]
    rfl
  refine ⟨fun invalid => ?_, fun valid => ?_⟩
  · exact run_succ_of_completed (start.trans (exec_srcInvalid (by simp) invalid)) noEvents rfl 10
  · by_cases empty : s.latch.srcLen.toNat = 0
    · rw [empty]
      exact run_succ_of_completed (start.trans (exec_varintDec_empty valid empty)) noEvents rfl 10
    · obtain ⟨n, bytes⟩ : ∃ n, min s.latch.srcLen.toNat 10 = n + 1 := Nat.exists_eq_add_one.mpr (by omega)
      obtain ⟨k, steps⟩ : ∃ k, 10 = n + 1 + k := Nat.exists_eq_add_of_le (by omega)
      refine (run_succ_of_next (start.trans (exec_varintDec_nonempty valid empty)) 10).trans ?_
      rw [bytes, steps]
      exact run_varint_command (s := { s with engine := .varint { i := 0, x := 0#64 } .command }) noEvents rfl
        ((Nat.zero_add _).trans bytes.symm) k

end Sys2Proof.Machine
end

section
/-! The commands of the block encoder (O19, O20; 42_block_encoder.md R200 to R202), and the splitting of copies (O21;
R205). -/

namespace Sys2Proof.Machine

/-! ### MAXLEN and BENC -/

theorem maxEncodedLen_eq_some {n : Nat} (h : n ≤ 0xFFFFFFFF ∧ 32 + n + n / 6 ≤ 0xFFFFFFFF) :
    maxEncodedLen n = some (32 + n + n / 6) := by
  rw [maxEncodedLen, if_neg (by omega), if_neg (by omega)]

theorem maxEncodedLen_eq_none {n : Nat} (h : ¬(n ≤ 0xFFFFFFFF ∧ 32 + n + n / 6 ≤ 0xFFFFFFFF)) :
    maxEncodedLen n = none := by
  rw [maxEncodedLen]
  split
  · rfl
  · rw [if_pos (by omega)]

theorem exec_maxLen_bounded {b : Nat} {s : State} (bound : maxEncodedLen s.latch.arg.toNat = some b) :
    exec .maxLen s = .next (Finished 0 b s) := by
  simp only [exec, execMaxLen, bound, finish_eq, complete_eq_finished]

theorem exec_maxLen_unbounded {s : State} (none : maxEncodedLen s.latch.arg.toNat = none) :
    exec .maxLen s = .next (Raised .tooLarge 0 s) := by
  simp only [exec, execMaxLen, none, raiseClean_eq, complete_eq_raised]

/-- Settles O19: MAXLEN answers what the bound of its operand is. -/
theorem maxLenCompletes : Obligations.MaxLenCompletes := by
  unfold Obligations.MaxLenCompletes
  exact fun s => ⟨fun small => exec_maxLen_bounded (maxEncodedLen_eq_some small),
    fun large => exec_maxLen_unbounded (maxEncodedLen_eq_none large)⟩

theorem exec_benc_unbounded {s : State} (regions : regionsOk s = true)
    (none : maxEncodedLen s.latch.srcLen.toNat = none) : exec .benc s = .next (raiseDst .tooLarge 0 s) := by
  simp only [exec, execBenc, regions, none, Bool.not_true, Bool.false_eq_true, if_false]

theorem exec_benc_small {b : Nat} {s : State} (regions : regionsOk s = true)
    (bound : maxEncodedLen s.latch.srcLen.toNat = some b) (small : s.latch.dstCap.toNat < b) :
    exec .benc s = .next (Raised .dstSmall b s) := by
  simp only [exec, execBenc, regions, bound, small, Bool.not_true, Bool.false_eq_true, if_false, if_true,
    raiseDstSmall_eq, complete_eq_raised]

theorem exec_benc_fits {b : Nat} {s : State} (regions : regionsOk s = true)
    (bound : maxEncodedLen s.latch.srcLen.toNat = some b) (fits : b ≤ s.latch.dstCap.toNat) :
    exec .benc s = .next (Finished (encodeBlock s.cfg (sourceBytes s)).length 0
      { s with mem := Memory.write s.mem s.latch.dstAddr.toNat (encodeBlock s.cfg (sourceBytes s)) }) := by
  simp only [exec, execBenc, regions, bound, Nat.not_lt.mpr fits, Bool.not_true, Bool.false_eq_true, if_false,
    finish_eq, complete_eq_finished]

/-- Settles O20: past the region checks BENC answers what the bound is and whether DST holds it. -/
theorem bencCompletes : Obligations.BencCompletes := by
  unfold Obligations.BencCompletes
  refine fun s regions => ⟨fun none => ?_, fun b bound => ⟨exec_benc_small regions bound, fun fits => ?_⟩⟩
  · rw [exec_benc_unbounded regions none]
    exact raiseDst_raised .tooLarge 0 s
  · exact ⟨_, exec_benc_fits regions bound fits, Memory.memWritten_write _ _ _⟩

/-! ### The copy tagger -/

theorem emitCopyLoop_of_lt_68 (fuel off : Nat) {len : Nat} (short : len < 68) :
    emitCopyLoop fuel off len = emitCopyTail off len := by
  cases fuel with
  | zero => rfl
  | succ fuel => rw [emitCopyLoop, if_neg (by omega)]

/-- While L ≥ 68 the tagger splits off 64 bytes. -/
theorem emitCopy_of_ge_68 (off : Nat) {len : Nat} (long : 68 ≤ len) :
    emitCopy off len = copy2Chunk off 64 ++ emitCopy off (len - 64) := by
  have rounds : len / 64 = (len - 64) / 64 + 1 := by omega
  rw [emitCopy, rounds, emitCopyLoop, if_pos long, emitCopy]

theorem emitCopy_of_le_64 (off : Nat) {len : Nat} (short : len ≤ 64) : emitCopy off len = emitCopyLast off len := by
  rw [emitCopy, emitCopyLoop_of_lt_68 _ _ (by omega), emitCopyTail, if_neg (by omega)]

/-- A length of 65 to 67 is split into 60 and the rest. -/
theorem emitCopy_of_lt_68 (off : Nat) {len : Nat} (long : 64 < len) (short : len < 68) :
    emitCopy off len = copy2Chunk off 60 ++ emitCopy off (len - 60) := by
  rw [emitCopy, emitCopyLoop_of_lt_68 _ _ short, emitCopyTail, if_pos long, emitCopy_of_le_64 off (by omega)]

theorem emitCopyLast_eq_copy2Chunk {off len : Nat} (h : 12 ≤ len ∨ 2048 ≤ off) :
    emitCopyLast off len = copy2Chunk off len := if_pos h

theorem emitCopyLast_eq_copy1Chunk {off len : Nat} (short : len < 12) (near : off < 2048) :
    emitCopyLast off len = copy1Chunk off len := if_neg (by omega)

/-- Settles O21: the loop, the split into 60 and the rest, and the last chunk, each where its threshold says. -/
theorem emitCopySplitting : Obligations.EmitCopySplitting := by
  unfold Obligations.EmitCopySplitting
  intro off len _ _ _
  refine ⟨emitCopy_of_ge_68 off, emitCopy_of_lt_68 off, fun short two => ?_, fun short near => ?_⟩
  · rw [emitCopy_of_le_64 off short, emitCopyLast_eq_copy2Chunk two, copy2Chunk]
  · have low : BitVec.ofNat 8 off = BitVec.ofNat 8 (off % 256) := by
      apply BitVec.eq_of_toNat_eq
      simp
    rw [emitCopy_of_le_64 off (by omega), emitCopyLast_eq_copy1Chunk short near, copy1Chunk, low]

end Sys2Proof.Machine
end

section
/-! The reference match-finder (O22; 42_block_encoder.md R206 to R216): an invariant of its two labels, from which its
emissions have valid arguments and produce the block, and so sub-block by sub-block the source. -/

namespace Sys2Proof.Machine

/-! ### What emissions produce (R216 (1), (2)) -/

/-- After the output `out` the taggers accept the emissions `plan`, which bring the output to `out'`. -/
def Produces (out : List Byte) (plan : List EmitOp) (out' : List Byte) : Prop :=
  planOk out.length plan = true ∧ runPlan out plan = out'

theorem opOk_lit_iff {done : Nat} {bs : List Byte} :
    opOk done (.lit bs) = true ↔ 1 ≤ bs.length ∧ bs.length ≤ 2 ^ 32 := decide_eq_true_iff

theorem opOk_copy_iff {done off len : Nat} :
    opOk done (.copy off len) = true ↔ 1 ≤ off ∧ off ≤ 65535 ∧ 4 ≤ len ∧ off ≤ done := decide_eq_true_iff

theorem length_applyOp {out : List Byte} {op : EmitOp} (ok : opOk out.length op = true) :
    (applyOp out op).length = out.length + opSize op := by
  cases op with
  | lit bs => exact List.length_append
  | copy off len =>
    obtain ⟨pos, -, -, inside⟩ := opOk_copy_iff.mp ok
    have pattern : out.drop (out.length - off) ≠ [] := List.ne_nil_of_length_pos (by rw [List.length_drop]; omega)
    rw [applyOp, List.length_append, repeatPattern_length _ _ pattern, opSize]

theorem produces_nil (out : List Byte) : Produces out [] out := ⟨rfl, rfl⟩

theorem produces_cons_iff {out out' : List Byte} {op : EmitOp} {ops : List EmitOp} :
    Produces out (op :: ops) out' ↔ opOk out.length op = true ∧ Produces (applyOp out op) ops out' := by
  simp only [Produces, planOk, runPlan, Bool.and_eq_true, and_assoc]
  exact and_congr_right fun ok => by rw [length_applyOp ok]

theorem Produces.append {out mid out' : List Byte} {plan plan' : List EmitOp} (first : Produces out plan mid)
    (second : Produces mid plan' out') : Produces out (plan ++ plan') out' := by
  induction plan generalizing out with
  | nil =>
    obtain ⟨-, rfl⟩ := first
    exact second
  | cons op ops ih =>
    obtain ⟨ok, rest⟩ := produces_cons_iff.mp first
    exact produces_cons_iff.mpr ⟨ok, ih rest⟩

theorem produces_singleton_lit (out : List Byte) {bs : List Byte} (nonempty : 1 ≤ bs.length)
    (short : bs.length ≤ 2 ^ 32) : Produces out [.lit bs] (out ++ bs) :=
  produces_cons_iff.mpr ⟨opOk_lit_iff.mpr ⟨nonempty, short⟩, produces_nil _⟩

theorem planConforms_iff {src : List Byte} {plan : List EmitOp} :
    planConforms src plan = true ↔
      Produces [] plan src ∧ ∀ b, maxEncodedLen src.length = some b → (encodeWith plan src).length ≤ b := by
  unfold planConforms Produces
  cases maxEncodedLen src.length <;> simp

/-! ### Bytes of a block -/

theorem slice_append (blk : Nat → Byte) {a b c : Nat} (low : a ≤ b) (high : b ≤ c) :
    slice blk a b ++ slice blk b c = slice blk a c := by
  have split : List.range' a (b - a) ++ List.range' b (c - b) = List.range' a (c - a) := by
    have join := List.range'_append_1 (s := a) (m := b - a) (n := c - b)
    rwa [show a + (b - a) = b by omega, show b - a + (c - b) = c - a by omega] at join
  rw [slice, slice, ← List.map_append, split, slice]

theorem slice_self (blk : Nat → Byte) (a : Nat) : slice blk a a = [] := by
  rw [slice, Nat.sub_self, List.range'_zero, List.map_nil]

theorem slice_eq_cons (blk : Nat → Byte) {a b : Nat} (h : a < b) : slice blk a b = blk a :: slice blk (a + 1) b := by
  rw [slice, show b - a = b - (a + 1) + 1 by omega, List.range'_succ, List.map_cons, slice]

theorem slice_succ (blk : Nat → Byte) {a b : Nat} (h : a ≤ b) : slice blk a (b + 1) = slice blk a b ++ [blk b] := by
  rw [← slice_append blk h (Nat.le_succ b), slice_eq_cons blk (Nat.lt_succ_self b), slice_self]

theorem drop_slice (blk : Nat → Byte) {c b : Nat} (h : c ≤ b) : (slice blk 0 b).drop c = slice blk c b := by
  rw [← slice_append blk (Nat.zero_le c) h]
  exact List.drop_left' (length_slice blk 0 c)

/-- The bytes from i and from j on agree, over `len` bytes. -/
def Matches (blk : Nat → Byte) (i j len : Nat) : Prop := ∀ k < len, blk (i + k) = blk (j + k)

theorem Matches.cons {blk : Nat → Byte} {i j len : Nat} (head : blk i = blk j)
    (tail : Matches blk (i + 1) (j + 1) len) : Matches blk i j (len + 1) := by
  intro k inside
  cases k with
  | zero => exact head
  | succ k =>
    have next := tail k (by omega)
    rwa [Nat.add_right_comm i, Nat.add_right_comm j] at next

theorem Matches.tail {blk : Nat → Byte} {i j len : Nat} (m : Matches blk i j (len + 1)) :
    Matches blk (i + 1) (j + 1) len := by
  intro k inside
  rw [Nat.add_assoc, Nat.add_assoc, Nat.add_comm 1]
  exact m (k + 1) (by omega)

theorem Matches.append {blk : Nat → Byte} {i j len len' : Nat} (first : Matches blk i j len)
    (second : Matches blk (i + len) (j + len) len') : Matches blk i j (len + len') := by
  intro k inside
  obtain early | late := Nat.lt_or_ge k len
  · exact first k early
  · have next := second (k - len) (by omega)
    rwa [show i + len + (k - len) = i + k by omega, show j + len + (k - len) = j + k by omega] at next

/-- Equal fingerprints are four equal bytes (R207, R210). -/
theorem matches_of_load32_eq {blk : Nat → Byte} {i j : Nat} (h : load32 blk i = load32 blk j) : Matches blk i j 4 := by
  have bytes : [blk i, blk (i + 1), blk (i + 2), blk (i + 3)] = [blk j, blk (j + 1), blk (j + 2), blk (j + 3)] := by
    rw [← leBytes_leNat [blk i, _, _, _], ← leBytes_leNat [blk j, _, _, _]]
    exact congrArg (leBytes 4) h
  simp only [List.cons.injEq, and_true] at bytes
  obtain ⟨b0, b1, b2, b3⟩ := bytes
  intro k inside
  interval_cases k
  · exact b0
  · exact b1
  · exact b2
  · exact b3

/-- Extend goes forward only over equal bytes (R211). -/
theorem extendMatch_matches (blk : Nat → Byte) (n fuel i t : Nat) :
    Matches blk i t (extendMatch blk n fuel i t - t) := by
  induction fuel generalizing i t with
  | zero =>
    rw [extendMatch, Nat.sub_self]
    exact nofun
  | succ fuel ih =>
    rw [extendMatch]
    split
    case isTrue more =>
      obtain ⟨inside, equal⟩ := more
      obtain ⟨forward, -⟩ := extendMatch_bounds blk n fuel (i + 1) (t := t + 1) inside
      rw [show extendMatch blk n fuel (i + 1) (t + 1) - t = extendMatch blk n fuel (i + 1) (t + 1) - (t + 1) + 1 by omega]
      exact (ih (i + 1) (t + 1)).cons equal
    case isFalse =>
      rw [Nat.sub_self]
      exact nofun

/-- The pattern of a copy whose source matches repeats the block's own bytes (R211: the match may overlap its source). -/
theorem repeatPattern_slice {blk : Nat → Byte} {c b len : Nat} (before : c < b) (m : Matches blk c b len) :
    repeatPattern (slice blk c b) len = slice blk b (b + len) := by
  induction len generalizing c b with
  | zero => rw [repeatPattern, Nat.add_zero, slice_self]
  | succ len ih =>
    have head : blk c = blk b := m 0 (Nat.succ_pos len)
    rw [slice_eq_cons blk before, repeatPattern, head, ← slice_succ blk (by omega : c + 1 ≤ b),
      ih (by omega) m.tail, slice_eq_cons blk (by omega : b < b + (len + 1)), Nat.add_right_comm b 1 len,
      Nat.add_assoc b len 1]

/-! ### The hash table (R209, R215) -/

/-- Every entry is a position before s. -/
def HashTable.Below (t : HashTable) (s : Nat) : Prop := ∀ h, t.look h < s

theorem HashTable.below_replicate (tsize : Nat) : HashTable.Below (Array.replicate tsize 0) 1 := by
  intro h
  rw [HashTable.look, Array.getD_eq_getD_getElem?, Array.getElem?_replicate]
  split <;> exact Nat.one_pos

theorem HashTable.Below.mono {t : HashTable} {s s' : Nat} (below : t.Below s) (le : s ≤ s') : t.Below s' :=
  fun h => (below h).trans_le le

theorem HashTable.Below.put {t : HashTable} {s p : Nat} (below : t.Below s) (before : p < s) (h : Nat) :
    (t.put h p).Below s := by
  intro k
  have old := below k
  simp only [HashTable.look, HashTable.put, Array.getD_eq_getD_getElem?, Array.getElem?_setIfInBounds] at old ⊢
  repeat' split
  · exact before
  · exact Nat.zero_lt_of_lt before
  · exact old

/-! ### The match-finder (R206, R210 to R213) -/

section
variable {blk : Nat → Byte} {out out' : List Byte} {ops : List EmitOp}

/-- A literal flushes the pending bytes. -/
theorem produces_lit_slice {a b : Nat} (pending : a < b) (short : b ≤ 65536)
    (rest : Produces (out ++ slice blk 0 b) ops out') :
    Produces (out ++ slice blk 0 a) (.lit (slice blk a b) :: ops) out' := by
  refine produces_cons_iff.mpr ⟨opOk_lit_iff.mpr ?_, ?_⟩
  · rw [length_slice]
    omega
  · rwa [applyOp, List.append_assoc, slice_append blk (Nat.zero_le a) pending.le]

/-- A copy stands for the bytes that match its candidate. -/
theorem produces_copy_slice {c b len : Nat} (before : c < b) (short : b ≤ 65535) (least : 4 ≤ len)
    (m : Matches blk c b len) (rest : Produces (out ++ slice blk 0 (b + len)) ops out') :
    Produces (out ++ slice blk 0 b) (.copy (b - c) len :: ops) out' := by
  have history : (out ++ slice blk 0 b).length = out.length + b := by rw [List.length_append, length_slice, Nat.sub_zero]
  refine produces_cons_iff.mpr ⟨opOk_copy_iff.mpr (by omega), ?_⟩
  have source : (out ++ slice blk 0 b).drop ((out ++ slice blk 0 b).length - (b - c)) = slice blk c b := by
    rw [history, show out.length + b - (b - c) = out.length + c by omega, List.drop_length_add_append,
      drop_slice blk before.le]
  rwa [applyOp, source, repeatPattern_slice before m, List.append_assoc,
    slice_append blk (Nat.zero_le b) (Nat.le_add_right b len)]

end

theorem remainder_produces (e : MatchEnv) (short : e.n ≤ 65536) (out : List Byte) {a : Nat} (inside : a ≤ e.n) :
    Produces (out ++ slice e.blk 0 a) (e.remainder a) (out ++ slice e.blk 0 e.n) := by
  unfold MatchEnv.remainder
  split
  case isTrue pending => exact produces_lit_slice pending short (produces_nil _)
  case isFalse none =>
    obtain rfl : a = e.n := by omega
    exact produces_nil _

/-- What holds at a label of the match-finder (R215): the table holds positions before the scan's next one, at REPEAT up to
the match's own; a scan moves forward; at REPEAT the accepted candidate is an earlier position with the same four bytes. -/
def MatchState.Sound (e : MatchEnv) (htab : HashTable) (nextEmit : Nat) : MatchState → Prop
  | .scan s skip _ => nextEmit < s ∧ 32 ≤ skip ∧ htab.Below s
  | .again s candidate =>
    s = nextEmit ∧ s + 4 ≤ e.n ∧ candidate < s ∧ Matches e.blk candidate s 4 ∧ htab.Below (s + 1)

theorem MatchEnv.step_pos (e : MatchEnv) {skip : Nat} (h : 32 ≤ skip) : 1 ≤ e.step skip := by
  unfold MatchEnv.step
  split <;> omega

/-- From a label where the invariant holds the match-finder produces the rest of the block (R215 (e)). -/
theorem matchFind_produces (e : MatchEnv) (short : e.n ≤ 65536) (out : List Byte) (fuel : Nat) (st : MatchState)
    (htab : HashTable) (nextEmit : Nat) (inside : nextEmit ≤ e.n) (sound : st.Sound e htab nextEmit) :
    Produces (out ++ slice e.blk 0 nextEmit) (matchFind e fuel st htab nextEmit) (out ++ slice e.blk 0 e.n) := by
  have limit : e.sLimit = e.n - 15 := rfl
  induction fuel generalizing st htab nextEmit with
  | zero => cases st <;> exact remainder_produces e short out inside
  | succ fuel ih =>
    cases st with
    | scan s skip nextHash =>
      obtain ⟨pending, least, below⟩ := sound
      have forward := e.step_pos least
      have written : (htab.put nextHash s).Below (s + 1) :=
        (below.mono (Nat.le_succ s)).put (Nat.lt_succ_self s) nextHash
      simp only [matchFind]
      split
      case isTrue => exact remainder_produces e short out inside
      split
      case isTrue rejected => exact ih _ _ _ inside ⟨by omega, by omega, written.mono (by omega)⟩
      case isFalse equal =>
        have accepted : Matches e.blk (htab.look nextHash) s 4 := matches_of_load32_eq (not_not.mp equal).symm
        refine produces_lit_slice pending (by omega) ?_
        exact ih _ _ _ (by omega) ⟨rfl, by omega, below nextHash, accepted, written⟩
    | again base candidate =>
      obtain ⟨rfl, fits, before, fingerprint, below⟩ := sound
      obtain ⟨low, high⟩ := extendMatch_bounds e.blk e.n e.n (candidate + 4) fits
      have whole := fingerprint.append (extendMatch_matches e.blk e.n e.n (candidate + 4) (base + 4))
      simp only [matchFind]
      generalize extendMatch e.blk e.n e.n (candidate + 4) (base + 4) = s at low high whole ⊢
      rw [show 4 + (s - (base + 4)) = s - base by omega] at whole
      refine produces_copy_slice before (by omega) (by omega) whole ?_
      rw [show base + (s - base) = s by omega]
      have marked : (htab.put (e.hashAt (s - 1)) (s - 1)).Below s := (below.mono (by omega)).put (by omega) _
      have written := (marked.mono (Nat.le_succ s)).put (Nat.lt_succ_self s) (e.hashAt s)
      split
      case isTrue => exact remainder_produces e short out high
      split
      case isTrue equal => exact ih _ _ _ high ⟨rfl, by omega, marked _, matches_of_load32_eq equal.symm, written⟩
      case isFalse => exact ih _ _ _ high ⟨Nat.lt_succ_self s, Nat.le_refl 32, written⟩

/-! ### Sub-blocks and sources (R203) -/

/-- What `subBlockMatches` searches in (R206). -/
def subBlockEnv (skipOn : Bool) (bs : List Byte) : MatchEnv where
  blk i := bs.toArray.getD i 0#8
  n := bs.length
  shift := (tableSize bs.length).2
  skipOn := skipOn

theorem subBlockMatches_eq (skipOn : Bool) (bs : List Byte) :
    subBlockMatches skipOn bs = matchFind (subBlockEnv skipOn bs) (2 * bs.length)
      (.scan 1 32 ((subBlockEnv skipOn bs).hashAt 1)) (Array.replicate (tableSize bs.length).1 0) 0 := rfl

theorem slice_subBlockEnv (skipOn : Bool) (bs : List Byte) :
    slice (subBlockEnv skipOn bs).blk 0 (subBlockEnv skipOn bs).n = bs := by
  refine List.ext_getElem (by simp [subBlockEnv]) fun i _ inside => ?_
  simp [slice, subBlockEnv, inside]

theorem subBlockMatches_produces (skipOn : Bool) (out : List Byte) {bs : List Byte} (short : bs.length ≤ 65536) :
    Produces out (subBlockMatches skipOn bs) (out ++ bs) := by
  have found := matchFind_produces (subBlockEnv skipOn bs) short out (2 * bs.length)
    (.scan 1 32 ((subBlockEnv skipOn bs).hashAt 1)) (Array.replicate (tableSize bs.length).1 0) 0 (Nat.zero_le _)
    ⟨Nat.one_pos, Nat.le_refl 32, HashTable.below_replicate _⟩
  rwa [slice_self, List.append_nil, slice_subBlockEnv, ← subBlockMatches_eq] at found

theorem subBlockPlan_produces (skipOn : Bool) (out : List Byte) {bs : List Byte} (nonempty : bs ≠ [])
    (short : bs.length ≤ Config.maxBlock) : Produces out (subBlockPlan skipOn bs) (out ++ bs) := by
  simp only [Config.maxBlock] at short
  unfold subBlockPlan
  split
  case isTrue => exact produces_singleton_lit out (List.length_pos_of_ne_nil nonempty) (by omega)
  case isFalse => exact subBlockMatches_produces skipOn out short

/-- A plan that produces every sub-block produces the source. -/
theorem subBlocks_plan_produces {plan : List Byte → List EmitOp}
    (each : ∀ out {bs}, bs ≠ [] → bs.length ≤ Config.maxBlock → Produces out (plan bs) (out ++ bs)) {fuel : Nat}
    (out : List Byte) {src : List Byte} (enough : src.length ≤ fuel * Config.maxBlock) :
    Produces out ((subBlocks fuel src).flatMap plan) (out ++ src) := by
  induction fuel generalizing out src with
  | zero =>
    obtain rfl : src = [] := List.eq_nil_of_length_eq_zero (by omega)
    rw [List.append_nil]
    exact produces_nil out
  | succ fuel ih =>
    rw [subBlocks]
    split
    case isTrue empty =>
      rw [List.isEmpty_iff.mp empty, List.append_nil]
      exact produces_nil out
    case isFalse nonempty =>
      have head : src.take Config.maxBlock ≠ [] := by simpa [List.take_eq_nil_iff] using nonempty
      have tail := ih (out ++ src.take Config.maxBlock) (src := src.drop Config.maxBlock) (by
        simp only [List.length_drop, Config.maxBlock] at enough ⊢
        omega)
      rw [List.append_assoc, List.take_append_drop] at tail
      exact (each out head (List.length_take_le ..)).append tail

theorem length_le_subBlocks (src : List Byte) :
    src.length ≤ (src.length / Config.maxBlock + 1) * Config.maxBlock := by
  simp only [Config.maxBlock]
  omega

theorem referencePlan_produces (skipOn : Bool) (src : List Byte) : Produces [] (referencePlan skipOn src) src :=
  subBlocks_plan_produces (subBlockPlan_produces skipOn) [] (length_le_subBlocks src)

/-- Settles O22: what the invariant of the match-finder gives for each sub-block, and the bound kept literal by literal. -/
theorem referenceEncoderConforms : Obligations.ReferenceEncoderConforms := by
  unfold Obligations.ReferenceEncoderConforms
  exact fun skip src => planConforms_iff.mpr
    ⟨referencePlan_produces skip src, fun _ bound => length_encodeWith_le bound (length_subBlockPlan_le skip)⟩

end Sys2Proof.Machine
end

section
/-! Every encoded block decodes to its source (O23; 42_block_encoder.md R217, 43_block_decoder.md R240, R266): BlockDecode
takes each emission of a conforming plan apart chunk by chunk, and appends what the emission produces. -/

namespace Sys2Proof.Machine

/-! ### Copies, byte by byte (43_block_decoder.md R260) -/

theorem refCopy_add (off k k' : Nat) (out : List Byte) :
    refCopy off (k + k') out = refCopy off k' (refCopy off k out) := by
  induction k generalizing out with
  | zero => rw [Nat.zero_add, refCopy]
  | succ k ih => rw [Nat.succ_add, refCopy, ih, refCopy]

theorem length_refCopy (off k : Nat) (out : List Byte) : (refCopy off k out).length = out.length + k := by
  induction k generalizing out with
  | zero => rfl
  | succ k ih => rw [refCopy, ih, List.length_append, List.length_singleton, Nat.add_assoc, Nat.add_comm 1]

/-- Copying one byte at a time repeats the pattern of the last `off` bytes. -/
theorem refCopy_eq_applyOp {off : Nat} (pos : 1 ≤ off) (len : Nat) {out : List Byte} (inside : off ≤ out.length) :
    refCopy off len out = applyOp out (.copy off len) := by
  induction len generalizing out with
  | zero => rw [refCopy, applyOp, repeatPattern, List.append_nil]
  | succ len ih =>
    have source : out.length - off < out.length := by omega
    have oldest : out.getD (out.length - off) 0#8 = out[out.length - off] := List.getD_eq_getElem _ _ source
    have grown : (out ++ [out[out.length - off]]).length = out.length + 1 := List.length_append
    have pattern : (out ++ [out[out.length - off]]).drop (out.length + 1 - off) =
        out.drop (out.length - off + 1) ++ [out[out.length - off]] := by
      rw [List.drop_append_of_le_length (by omega), Nat.sub_add_comm inside]
    rw [refCopy, oldest, ih (by omega), applyOp, applyOp, grown, pattern, List.drop_eq_getElem_cons source,
      repeatPattern, List.append_assoc, List.singleton_append]

/-! ### One round of the decoder's loop (43_block_decoder.md R251 to R260) -/

section
variable {b rest : List Byte} {n s : Nat} {out : List Byte}

/-- From (s, out) one chunk of `b` brings the loop to a later position and the next output. -/
def ChunkStep (b : List Byte) (n : Nat) (p q : Nat × List Byte) : Prop :=
  p.1 < b.length ∧ p.1 < q.1 ∧ refChunk b n p.1 p.2 = .ok q

theorem length_of_drop_eq_cons {t : Byte} {bs : List Byte} (here : b.drop s = t :: bs) :
    b.length = s + 1 + bs.length := by
  have length := congrArg List.length here
  rw [List.length_drop, List.length_cons] at length
  omega

theorem getD_of_drop_eq_cons {t : Byte} {bs : List Byte} (here : b.drop s = t :: bs) : b.getD s 0#8 = t := by
  rw [List.getD_eq_getElem?_getD, ← List.head?_drop, here, List.head?_cons, Option.getD_some]

theorem drop_succ_of_drop_eq_cons {t : Byte} {bs : List Byte} (here : b.drop s = t :: bs) : b.drop (s + 1) = bs := by
  rw [← List.drop_drop, here, List.drop_succ_cons, List.drop_zero]

/-- The number of extension bytes and the length field a literal's tag stands for (30_encoding.md R96). -/
theorem literalHeader_form {m : Nat} (h : m < 2 ^ 32) : ∃ (tag : Byte) (ext : Nat),
    literalHeader m = tag :: leBytes ext m ∧ tag.toNat % 4 = 0 ∧
      (tag.toNat / 4 = m ∧ m < 60 ∧ ext = 0 ∨ tag.toNat / 4 = 59 + ext ∧ 1 ≤ ext ∧ m < 256 ^ ext) := by
  unfold literalHeader
  split
  case isTrue short =>
    have tag : (BitVec.ofNat 8 (m * 4)).toNat = m * 4 := by rw [BitVec.toNat_ofNat]; omega
    exact ⟨_, 0, rfl, by omega, .inl ⟨by omega, short, rfl⟩⟩
  repeat' split
  · exact ⟨0xF0#8, 1, rfl, rfl, .inr ⟨rfl, by omega, by omega⟩⟩
  · exact ⟨0xF4#8, 2, rfl, rfl, .inr ⟨rfl, by omega, by omega⟩⟩
  · exact ⟨0xF8#8, 3, rfl, rfl, .inr ⟨rfl, by omega, by omega⟩⟩
  · exact ⟨0xFC#8, 4, rfl, rfl, .inr ⟨rfl, by omega, by omega⟩⟩

/-- The bytes of a literal append its data. -/
theorem chunkStep_literal {bs : List Byte} (nonempty : 1 ≤ bs.length) (short : bs.length ≤ 2 ^ 32)
    (room : out.length + bs.length ≤ n) (here : b.drop s = emitLiteral bs ++ rest) :
    ChunkStep b n (s, out) (s + (emitLiteral bs).length, out ++ bs) := by
  obtain ⟨tag, ext, header, kind, form⟩ := literalHeader_form (m := bs.length - 1) (by omega)
  have whole : (emitLiteral bs).length = 1 + ext + bs.length := by
    rw [emitLiteral, header, List.length_append, List.length_cons, leBytes_length, Nat.add_comm 1]
  rw [emitLiteral, header, List.cons_append, List.cons_append, List.append_assoc] at here
  have total := length_of_drop_eq_cons here
  have after := drop_succ_of_drop_eq_cons here
  rw [List.length_append, List.length_append, leBytes_length] at total
  have field : (b.drop (s + 1)).take ext = leBytes ext (bs.length - 1) := by
    rw [after]
    exact List.take_left' (leBytes_length ..)
  have data : (b.drop (s + 1 + ext)).take bs.length = bs := by
    rw [← List.drop_drop, after, List.drop_left' (leBytes_length ..), List.take_left]
  have extension : (if tag.toNat / 4 < 60 then 0 else tag.toNat / 4 - 59) = ext := by
    split <;> omega
  have length : (if tag.toNat / 4 < 60 then tag.toNat / 4 else leNat (leBytes ext (bs.length - 1))) + 1 = bs.length := by
    rw [leNat_leBytes]
    obtain ⟨high, few, -⟩ | ⟨high, more, fits⟩ := form
    · rw [if_pos (by omega)]
      omega
    · rw [if_neg (by omega), Nat.mod_eq_of_lt fits]
      omega
  refine ⟨by simp only; omega, by simp only; omega, ?_⟩
  simp only [refChunk, getD_of_drop_eq_cons here, kind, if_true, extension, field, length, data]
  rw [if_neg (by omega), if_neg (by omega), if_neg (by omega), whole, ← Nat.add_assoc, ← Nat.add_assoc]

/-- The three bytes of a COPY2 copy its length from its offset. -/
theorem chunkStep_copy2 {off len : Nat} (pos : 1 ≤ off) (far : off ≤ 65535) (least : 1 ≤ len) (most : len ≤ 64)
    (inside : off ≤ out.length) (room : out.length + len ≤ n) (here : b.drop s = copy2Chunk off len ++ rest) :
    ChunkStep b n (s, out) (s + (copy2Chunk off len).length, refCopy off len out) := by
  have tag : (BitVec.ofNat 8 ((len - 1) * 4 + 2)).toNat = (len - 1) * 4 + 2 := by rw [BitVec.toNat_ofNat]; omega
  have length : 1 + ((len - 1) * 4 + 2) / 4 = len := by omega
  rw [copy2Chunk, List.cons_append] at here
  have total := length_of_drop_eq_cons here
  rw [List.length_append, leBytes_length] at total
  have offset : leNat ((b.drop (s + 1)).take 2) = off := by
    rw [drop_succ_of_drop_eq_cons here, List.take_left' (leBytes_length ..), leNat_leBytes, Nat.mod_eq_of_lt (by omega)]
  rw [length_copy2Chunk]
  refine ⟨by simp only; omega, by simp only; omega, ?_⟩
  simp only [refChunk, getD_of_drop_eq_cons here, tag, offset, length]
  rw [if_neg (by omega), if_neg (by omega), if_pos (by omega), if_neg (by omega), if_neg (by omega), if_neg (by omega)]

/-- The two bytes of a COPY1 copy its length from its offset. -/
theorem chunkStep_copy1 {off len : Nat} (pos : 1 ≤ off) (near : off < 2048) (least : 4 ≤ len) (most : len < 12)
    (inside : off ≤ out.length) (room : out.length + len ≤ n) (here : b.drop s = copy1Chunk off len ++ rest) :
    ChunkStep b n (s, out) (s + (copy1Chunk off len).length, refCopy off len out) := by
  have tag : (BitVec.ofNat 8 (off / 256 * 32 + (len - 4) * 4 + 1)).toNat = off / 256 * 32 + (len - 4) * 4 + 1 := by
    rw [BitVec.toNat_ofNat]
    omega
  have low : (BitVec.ofNat 8 off).toNat = off % 256 := BitVec.toNat_ofNat ..
  have length : 4 + (off / 256 * 32 + (len - 4) * 4 + 1) / 4 % 8 = len := by omega
  have offset : (off / 256 * 32 + (len - 4) * 4 + 1) / 32 * 256 + off % 256 = off := by omega
  rw [copy1Chunk, List.cons_append, List.singleton_append] at here
  have total := length_of_drop_eq_cons here
  rw [List.length_cons] at total
  have second := getD_of_drop_eq_cons (drop_succ_of_drop_eq_cons here)
  refine ⟨by simp only; omega, by simp [copy1Chunk], ?_⟩
  simp only [refChunk, getD_of_drop_eq_cons here, second, tag, low, offset, length]
  rw [if_neg (by omega), if_pos (by omega), if_neg (by omega), if_neg (by omega), if_neg (by omega)]
  rfl

/-! ### The rounds of a plan -/

/-- The loop comes from p to q in some rounds. -/
abbrev ChunkRun (b : List Byte) (n : Nat) : Nat × List Byte → Nat × List Byte → Prop :=
  Relation.ReflTransGen (ChunkStep b n)

/-- What follows in the block after its next bytes. -/
theorem drop_add_of_drop_eq_append {l l' : List Byte} (here : b.drop s = l ++ l') : b.drop (s + l.length) = l' := by
  rw [← List.drop_drop, here, List.drop_left]

theorem chunkStep_copyLast {off len : Nat} (ok : opOk out.length (.copy off len) = true) (most : len ≤ 64)
    (room : out.length + len ≤ n) (here : b.drop s = emitCopyLast off len ++ rest) :
    ChunkStep b n (s, out) (s + (emitCopyLast off len).length, refCopy off len out) := by
  obtain ⟨pos, far, least, inside⟩ := opOk_copy_iff.mp ok
  by_cases two : 12 ≤ len ∨ 2048 ≤ off
  · rw [emitCopyLast_eq_copy2Chunk two] at here ⊢
    exact chunkStep_copy2 pos far (by omega) most inside room here
  · rw [emitCopyLast_eq_copy1Chunk (by omega) (by omega)] at here ⊢
    exact chunkStep_copy1 pos (by omega) least (by omega) inside room here

/-- A copy longer than 64 is a COPY2 and a shorter copy (42_block_encoder.md R205). -/
theorem emitCopy_split (off : Nat) {len : Nat} (long : 64 < len) : ∃ k, 1 ≤ k ∧ k ≤ 64 ∧ k + 4 ≤ len ∧
    emitCopy off len = copy2Chunk off k ++ emitCopy off (len - k) := by
  obtain short | longer := Nat.lt_or_ge len 68
  · exact ⟨60, by omega, by omega, by omega, emitCopy_of_lt_68 off long short⟩
  · exact ⟨64, by omega, by omega, by omega, emitCopy_of_ge_68 off longer⟩

/-- The chunks a copy is split into copy its whole length. -/
theorem chunkRun_copy {off : Nat} (len : Nat) (ok : opOk out.length (.copy off len) = true)
    (room : out.length + len ≤ n) (here : b.drop s = emitCopy off len ++ rest) :
    ChunkRun b n (s, out) (s + (emitCopy off len).length, refCopy off len out) := by
  induction len using Nat.strong_induction_on generalizing s out with
  | _ len ih =>
    obtain short | long := le_or_gt len 64
    · rw [emitCopy_of_le_64 off short] at here ⊢
      exact .single (chunkStep_copyLast ok short room here)
    · obtain ⟨k, least, most, remains, split⟩ := emitCopy_split off long
      obtain ⟨pos, far, -, inside⟩ := opOk_copy_iff.mp ok
      have copied := length_refCopy off k out
      have okRest : opOk (refCopy off k out).length (.copy off (len - k)) = true := opOk_copy_iff.mpr (by omega)
      rw [split, List.append_assoc] at here
      have first := chunkStep_copy2 (n := n) pos far least most inside (by omega) here
      have others := ih (len - k) (by omega) okRest (by omega) (drop_add_of_drop_eq_append here)
      rw [← refCopy_add, Nat.add_sub_of_le (by omega), Nat.add_assoc, ← List.length_append, ← split] at others
      exact others.head first

/-- The chunks of an emission append what it produces. -/
theorem chunkRun_emitOp {op : EmitOp} (ok : opOk out.length op = true) (room : out.length + opSize op ≤ n)
    (here : b.drop s = emitOp op ++ rest) : ChunkRun b n (s, out) (s + (emitOp op).length, applyOp out op) := by
  cases op with
  | lit bs =>
    obtain ⟨nonempty, short⟩ := opOk_lit_iff.mp ok
    exact .single (chunkStep_literal nonempty short room here)
  | copy off len =>
    obtain ⟨pos, -, -, inside⟩ := opOk_copy_iff.mp ok
    rw [← refCopy_eq_applyOp pos len inside]
    exact chunkRun_copy len ok room here

theorem Produces.length_le {out out' : List Byte} {plan : List EmitOp} (produces : Produces out plan out') :
    out.length ≤ out'.length := by
  induction plan generalizing out with
  | nil =>
    obtain ⟨-, rfl⟩ := produces
    exact Nat.le_refl _
  | cons op ops ih =>
    obtain ⟨ok, more⟩ := produces_cons_iff.mp produces
    have := ih more
    rw [length_applyOp ok] at this
    omega

/-- The chunks of a plan bring the output to what the plan produces. -/
theorem chunkRun_emitAll {plan : List EmitOp} {out' : List Byte} (produces : Produces out plan out')
    (room : out'.length ≤ n) (here : b.drop s = emitAll plan ++ rest) :
    ChunkRun b n (s, out) (s + (emitAll plan).length, out') := by
  induction plan generalizing s out with
  | nil =>
    obtain ⟨-, rfl⟩ := produces
    exact .refl
  | cons op ops ih =>
    obtain ⟨ok, more⟩ := produces_cons_iff.mp produces
    have size := more.length_le
    rw [length_applyOp ok] at size
    rw [emitAll, List.append_assoc] at here
    rw [emitAll, List.length_append, ← Nat.add_assoc]
    exact (chunkRun_emitOp ok (by omega) here).trans (ih more (drop_add_of_drop_eq_append here))

/-- Every round takes at least a byte, so the loop's bound is not met before the end of the block. -/
theorem refChunks_of_chunkRun {p : Nat × List Byte} {out' : List Byte} (run : ChunkRun b n p (b.length, out'))
    {fuel : Nat} (enough : b.length ≤ p.1 + fuel) : refChunks b n fuel p.1 p.2 = refEnd b n out' := by
  induction run using Relation.ReflTransGen.head_induction_on generalizing fuel with
  | refl =>
    cases fuel with
    | zero => rfl
    | succ fuel => rw [refChunks, if_neg (Nat.lt_irrefl _)]
  | head step _ ih =>
    obtain ⟨inside, forward, chunk⟩ := step
    obtain ⟨fuel, rfl⟩ : ∃ f, fuel = f + 1 := ⟨fuel - 1, by omega⟩
    rw [refChunks, if_pos inside, chunk]
    exact ih (by omega)

end

/-! ### Blocks -/

/-- A block of a conforming plan decodes to the plan's source. -/
theorem refBlockDecode_encodeWith {plan : List EmitOp} {src : List Byte} (produces : Produces [] plan src)
    (small : src.length ≤ 0xFFFFFFFF) {cap : Nat} (room : src.length ≤ cap) :
    refBlockDecode 0xFFFFFFFF cap (encodeWith plan src) = .ok src := by
  have wide : src.length < 2 ^ 64 := by omega
  have prefixLength := length_varintEncode wide
  have decoded : refVarintDecode (encodeWith plan src) = (src.length, (varintEncode src.length).length) := by
    rw [prefixLength]
    exact (varintLaws src.length wide).1 (emitAll plan)
  obtain ⟨positive, -⟩ := varintLength_bounds src.length wide
  have body : (encodeWith plan src).drop (varintEncode src.length).length = emitAll plan ++ [] := by
    rw [encodeWith, List.drop_left, List.append_nil]
  have run := chunkRun_emitAll produces (Nat.le_refl src.length) body
  rw [show (varintEncode src.length).length + (emitAll plan).length = (encodeWith plan src).length from
    List.length_append.symm] at run
  have chunks := refChunks_of_chunkRun run (fuel := (encodeWith plan src).length) (Nat.le_add_left ..)
  simp only [refBlockDecode, decoded]
  rw [if_neg (by omega), if_neg (by omega), if_neg (by omega), chunks, refEnd, if_neg (not_not.mpr rfl)]

theorem literalPlan_produces (src : List Byte) : Produces [] (literalPlan src) src := by
  rw [literalPlan_eq_flatMap]
  refine subBlocks_plan_produces (fun out bs nonempty short => ?_) [] (length_le_subBlocks src)
  simp only [Config.maxBlock] at short
  exact produces_singleton_lit out (List.length_pos_of_ne_nil nonempty) (by omega)

theorem conformantPlan_produces (src : List Byte) : Produces [] (conformantPlan src) src := by
  unfold conformantPlan
  split
  case isTrue conforms => exact (planConforms_iff.mp conforms).1
  case isFalse => exact literalPlan_produces src

/-- Under either policy a block is that of a plan which produces the source. -/
theorem encodeBlock_eq_encodeWith (p : Params) (src : List Byte) :
    ∃ plan, encodeBlock p src = encodeWith plan src ∧ Produces [] plan src := by
  unfold encodeBlock
  cases p.encPolicy with
  | reference => exact ⟨_, rfl, referencePlan_produces p.encSkip src⟩
  | conformant => exact ⟨_, rfl, conformantPlan_produces src⟩

/-- Settles O23: under either policy the plan produces its source, which decoding gives back; the bound is kept. -/
theorem encodedBlockDecodesBack : Obligations.EncodedBlockDecodesBack := by
  unfold Obligations.EncodedBlockDecodesBack
  intro p src small
  obtain ⟨plan, block, produces⟩ := encodeBlock_eq_encodeWith p src
  refine ⟨fun cap room => ?_, fun b bound => length_encodeBlock_le p bound⟩
  rw [block]
  exact refBlockDecode_encodeWith produces small room

end Sys2Proof.Machine
end

section
/-! The block decoder, element by element (O24 to O31; 43_block_decoder.md R240 to R263): where a BDEC starts, the checks on
the declared length, the ends of the chunk loop, and every outcome of a chunk for BDEC and for a compressed frame. -/

namespace Sys2Proof.Machine

/-! ### Where a BDEC starts (R241, R262) -/

theorem exec_bdec {s : State} (regions : regionsOk s = true) : exec .bdec s = .next (prefixBegin .bdec s) :=
  if_pos regions

theorem prefixBegin_empty {u : BlockUser} {s : State} (empty : blockLength u s = 0) :
    prefixBegin u s = blockCorrupt u 0 s :=
  if_pos empty

theorem prefixBegin_nonempty {u : BlockUser} {s : State} (nonempty : blockLength u s ≠ 0) :
    prefixBegin u s = { s with engine := .varint { i := 0, x := 0#64 } (.ofBlock u) } :=
  if_neg nonempty

/-- Settles O24: past the region checks an empty block fails, any other has a first byte. -/
theorem bdecStarts : Obligations.BdecStarts := by
  unfold Obligations.BdecStarts
  intro s regions
  rw [exec_bdec regions]
  refine ⟨fun nonempty => ?_, fun empty => ?_⟩
  · rw [prefixBegin_nonempty (u := .bdec) nonempty]
  · rw [prefixBegin_empty (u := .bdec) empty]
    exact blockCorrupt_failed .bdec 0 s

/-! ### The head of the chunk loop (R250, R261, R262) -/

theorem blockLoop_inside {u : BlockUser} {c : BlockCursor} {s : State} (inside : c.s < blockLength u s) :
    blockLoop u c s = { s with engine := .block c u } :=
  if_pos inside

theorem blockLoop_short {u : BlockUser} {c : BlockCursor} {s : State} (ends : blockLength u s ≤ c.s)
    (short : c.d ≠ c.n) : blockLoop u c s = blockCorrupt u (blockLength u s) s :=
  (if_neg (Nat.not_lt.mpr ends)).trans (if_pos short)

theorem blockLoop_done {u : BlockUser} {c : BlockCursor} {s : State} (ends : blockLength u s ≤ c.s) (whole : c.d = c.n) :
    blockLoop u c s = blockDone u c.n s :=
  (if_neg (Nat.not_lt.mpr ends)).trans (if_neg (not_not.mpr whole))

theorem blockDone_bdec (n : Nat) (s : State) : blockDone .bdec n s = Finished n n s := rfl

/-- The end of a compressed frame, its data in DBUF (46_stream_reader.md R343, R348): the checksum decides, then whether
there are data to deliver. -/
theorem dataFrameDone_outcomes (i0 h0 : DWord) {s : State} (field : 4 ≤ s.fbuf.length) :
    (s.fbuf.take 4 ≠ checksumField s.dbuf → ReaderFailed .corrupt h0 s (.next (dataFrameDone i0 h0 s))) ∧
    (s.fbuf.take 4 = checksumField s.dbuf → s.dbuf = [] →
      dataFrameDone i0 h0 s = { s with leftRd := 0, leftEnd := 0, engine := .header i0 s.srInpos [] }) ∧
    (s.fbuf.take 4 = checksumField s.dbuf → s.dbuf ≠ [] →
      ∃ m n, n = min s.latch.dstCap.toNat s.dbuf.length ∧
        dataFrameDone i0 h0 s =
          Finished n (s.srInpos - i0).toNat { s with mem := m, leftRd := n, leftEnd := s.dbuf.length } ∧
        MemWritten s.mem m s.latch.dstAddr.toNat (s.dbuf.take n)) := by
  obtain ⟨differs, fails⟩ | ⟨agrees, loops⟩ := dataFrameDone_cases i0 h0 s field
  · rw [fails]
    exact ⟨fun _ => srFail_failed .corrupt h0 s, (absurd · differs), (absurd · differs)⟩
  rw [loops]
  refine ⟨(absurd agrees ·), fun _ empty => ?_, fun _ nonempty => ?_⟩
  · rw [empty]
    exact if_pos rfl
  · have pending : 0 ≠ s.dbuf.length := (List.length_pos_of_ne_nil nonempty).ne
    refine ⟨_, _, rfl, ?_, Memory.memWritten_write _ _ _⟩
    refine (if_neg pending).trans ?_
    simp only [deliver, finish_eq, complete_eq_finished, Nat.zero_add]
    rfl

/-- Settles O26: the three outcomes of the loop's head, the last of them split by who decodes the block. -/
theorem chunkLoopEnds : Obligations.ChunkLoopEnds := by
  unfold Obligations.ChunkLoopEnds
  intro u c s
  refine ⟨blockLoop_inside, fun ends short => ?_, fun ends whole => ?_, fun i0 h0 field ends whole => ?_⟩
  · rw [blockLoop_short ends short]
    exact blockCorrupt_failed u _ s
  · rw [blockLoop_done (u := .bdec) ends whole, blockDone_bdec]
  · rw [blockLoop_done (u := .frame i0 h0) ends whole]
    exact dataFrameDone_outcomes i0 h0 field

/-! ### The checks on the declared length (R242, R243) -/

theorem blockBegin_tooLarge (u : BlockUser) {n : Nat} (used : Nat) {s : State} (large : s.cfg.maxDecodedLen.toNat < n) :
    blockBegin u n used s = blockTooLarge u s :=
  if_pos large

theorem blockBegin_dstSmall {u : BlockUser} {n : Nat} (used : Nat) {s : State} (below : n ≤ s.cfg.maxDecodedLen.toNat)
    (small : blockCapacity u s < n) : blockBegin u n used s = blockDstSmall u n s :=
  (if_neg (Nat.not_lt.mpr below)).trans (if_pos small)

theorem blockBegin_fits {u : BlockUser} {n : Nat} (used : Nat) {s : State} (below : n ≤ s.cfg.maxDecodedLen.toNat)
    (fits : n ≤ blockCapacity u s) : blockBegin u n used s = blockLoop u { s := used, d := 0, n := n } s :=
  (if_neg (Nat.not_lt.mpr below)).trans (if_neg (Nat.not_lt.mpr fits))

/-- Settles O25: the ceiling, the capacity, then the head of the chunk loop with no output yet. -/
theorem blockPrefixChecks : Obligations.BlockPrefixChecks := by
  unfold Obligations.BlockPrefixChecks
  intro u n used s
  refine ⟨fun large => ?_, ?_, ?_, fun below fits inside => ?_, fun below fits ends nonzero => ?_, fun ends => ?_,
    fun i0 h0 field ends empty => ?_⟩
  · rw [blockBegin_tooLarge u used large]
    exact blockTooLarge_failed u s
  · rintro below rfl small
    rw [blockBegin_dstSmall (u := .bdec) used below small]
    rfl
  · rintro i0 h0 below rfl small
    rw [blockBegin_dstSmall (u := .frame i0 h0) used below small]
    exact srFail_failed .corrupt h0 s
  · rw [blockBegin_fits used below fits, blockLoop_inside inside]
  · rw [blockBegin_fits used below fits, blockLoop_short ends nonzero.symm]
    exact blockCorrupt_failed u _ s
  · rw [blockBegin_fits used (Nat.zero_le _) (Nat.zero_le _), blockLoop_done (u := .bdec) (c := ⟨used, 0, 0⟩) ends rfl,
      blockDone_bdec]
  · obtain ⟨differs, agrees, -⟩ := dataFrameDone_outcomes i0 h0 field
    rw [blockBegin_fits used (Nat.zero_le _) (Nat.zero_le _),
      blockLoop_done (u := .frame i0 h0) (c := ⟨used, 0, 0⟩) ends rfl]
    exact ⟨fun other => differs (by rwa [empty]), fun same => agrees (by rwa [empty]) empty⟩

/-! ### Literals and copies (R251 to R260) -/

section
variable {u : BlockUser} {c : BlockCursor} {s : State}

theorem literalBody_fits {len hd : Nat} (room : len ≤ c.n - c.d) (data : len ≤ blockLength u s - (c.s + hd)) :
    literalBody u c len hd s =
      blockLoop u { s := c.s + hd + len, d := c.d + len, n := c.n } (outWrite u c.d (blockBytes u (c.s + hd) len s) s) :=
  (if_neg (Nat.not_lt.mpr room)).trans (if_neg (Nat.not_lt.mpr data))

theorem literalBody_bad {len hd : Nat} (bad : c.n - c.d < len ∨ blockLength u s - (c.s + hd) < len) :
    literalBody u c len hd s = blockCorrupt u c.s s := by
  obtain ⟨-, corrupt⟩ | ⟨room, data, -⟩ := literalBody_cases u c len hd s
  · exact corrupt
  · omega

theorem copyBody_fits {off len : Nat} (size : Nat) (pos : 1 ≤ off) (inside : off ≤ c.d) (room : len ≤ c.n - c.d) :
    copyBody u c off len size s =
      blockLoop u { s := c.s + size, d := c.d + len, n := c.n } (decompress u c.d off len s) :=
  (if_neg (by omega)).trans (if_neg (Nat.not_lt.mpr room))

theorem copyBody_bad {off len : Nat} (size : Nat) (bad : off = 0 ∨ c.d < off ∨ c.n - c.d < len) :
    copyBody u c off len size s = blockCorrupt u c.s s := by
  obtain ⟨-, corrupt⟩ | ⟨pos, inside, room, -⟩ := copyBody_cases u c off len size s
  · exact corrupt
  · omega

end

/-- A copy's bytes: as many as its length, byte k that of the pattern at k mod off (R260). -/
theorem repeatPattern_spec {w : List Byte} {off : Nat} (length : w.length = off) (pos : 1 ≤ off) (len : Nat) :
    (repeatPattern w len).length = len ∧
      ∀ k < len, (repeatPattern w len).getD k 0#8 = w.getD (k % off) 0#8 := by
  have nonempty : w ≠ [] := List.ne_nil_of_length_pos (by omega)
  exact ⟨repeatPattern_length w len nonempty, fun k inside => length ▸ repeatPattern_getD w len k nonempty inside 0#8⟩

/-- Settles O27: each of the five forms runs `literalBody`, whose checks hold. -/
theorem literalChunkCompletes : Obligations.LiteralChunkCompletes := by
  unfold Obligations.LiteralChunkCompletes
  intro i len hd s c u form cursor room data
  rw [exec_literalForm form cursor, literalBody_fits (by omega) (by omega)]
  refine ⟨?_, fun frame => ?_⟩
  · rintro rfl
    exact ⟨_, rfl, Memory.memWritten_write _ _ _⟩
  · cases u with
    | bdec => exact absurd rfl frame
    | frame i0 h0 => rfl

/-- Settles O28: both forms run `copyBody`, whose checks hold, and it appends the repeated pattern. -/
theorem copyChunkCompletes : Obligations.CopyChunkCompletes := by
  unfold Obligations.CopyChunkCompletes
  intro i off len size s c u form cursor pos inside room
  rw [exec_copyForm form cursor, copyBody_fits size pos inside (by omega)]
  have low (k : Nat) : k % off < off := Nat.mod_lt k pos
  refine ⟨?_, fun frame held => ?_⟩
  · rintro rfl
    obtain ⟨length, bytes⟩ := repeatPattern_spec (w := outBytes .bdec (c.d - off) off s) (Memory.read_length ..) pos len
    refine ⟨_, _, rfl, Memory.memWritten_write _ _ _, length, fun k before => ?_⟩
    rw [bytes k before, outBytes, Memory.read_getD _ _ _ _ _ (low k), Nat.add_assoc]
  · cases u with
    | bdec => exact absurd rfl frame
    | frame i0 h0 =>
      have whole : (outBytes (.frame i0 h0) (c.d - off) off s).length = off := by
        rw [outBytes, List.length_take, List.length_drop]
        omega
      obtain ⟨length, bytes⟩ := repeatPattern_spec whole pos len
      refine ⟨_, ?_, length, fun k before => ?_⟩
      · rw [decompress, outWrite, held, List.take_length]
      · rw [bytes k before, outBytes, List.getD_eq_getElem?_getD, List.getElem?_take_of_lt (low k), List.getElem?_drop,
          ← List.getD_eq_getElem?_getD]

/-- Settles O29: the same bodies, where a check does not hold. -/
theorem chunkErrorsAreCorrupt : Obligations.ChunkErrorsAreCorrupt := by
  unfold Obligations.ChunkErrorsAreCorrupt
  refine ⟨fun i len hd s c u form cursor bad => ?_, fun i off len size s c u form cursor bad => ?_⟩
  · rw [exec_literalForm form cursor, literalBody_bad bad]
    exact blockCorrupt_failed u c.s s
  · rw [exec_copyForm form cursor, copyBody_bad size bad]
    exact blockCorrupt_failed u c.s s

/-! ### COPY4 (R258) -/

theorem exec_copy4 (h : BitVec 6) {c : BlockCursor} {u : BlockUser} {s : State} (cursor : s.engine = .block c u) :
    exec (.copy4 h) s = .next (blockUnsupported u c.s s) :=
  atChunk_block cursor _

/-- Settles O30: COPY4 raises before anything else is looked at. -/
theorem legacyCopyIsUnsupported : Obligations.LegacyCopyIsUnsupported := by
  unfold Obligations.LegacyCopyIsUnsupported
  intro h s c u cursor
  rw [exec_copy4 h cursor]
  exact blockUnsupported_failed u c.s s

/-! ### Operand bytes that are not there (R252 to R257) -/

theorem toNat_tagKind (t : Byte) : (tagKind t).toNat = t.toNat % 4 := by
  rw [tagKind, BitVec.extractLsb'_toNat, Nat.shiftRight_zero]

theorem toNat_tagHigh (t : Byte) : (tagHigh t).toNat = t.toNat / 4 := by
  have := t.isLt
  rw [tagHigh, BitVec.extractLsb'_toNat, Nat.shiftRight_eq_div_pow]
  omega

/-- How many operand bytes a tag calls for (30_encoding.md R96 to R99): for a literal, those of its length field. -/
def operandCount (t : Byte) : Nat :=
  if tagKind t = 0#2 then (tagHigh t).toNat - 59 else if tagKind t = 1#2 then 1 else if tagKind t = 2#2 then 2 else 0

theorem operandCount_eq (t : Byte) :
    operandCount t =
      if t.toNat % 4 = 0 then t.toNat / 4 - 59 else if t.toNat % 4 = 1 then 1 else if t.toNat % 4 = 2 then 2 else 0 := by
  simp only [operandCount, ← BitVec.toNat_inj, toNat_tagKind, toNat_tagHigh]
  rfl

theorem operandCount_le (t : Byte) : operandCount t ≤ 4 := by
  have := t.isLt
  rw [operandCount_eq]
  split_ifs <;> omega

theorem decodeLiteral_error_iff (h : BitVec 6) (bs : List Byte) :
    (∃ e, decodeLiteral h bs = .error e) ↔ bs.length < h.toNat - 59 := by
  unfold decodeLiteral
  split_ifs with is60 is61 is62 is63
  case neg =>
    have inline : h < 60#6 := (inlineLengthFits_iff h).mpr ⟨is60, is61, is62, is63⟩
    have small : h.toNat < 60 := inline
    simp only [exists_false, false_iff]
    omega
  all_goals
    subst h
    rcases bs with _ | ⟨_, _ | ⟨_, _ | ⟨_, _ | _⟩⟩⟩ <;> simp

/-- The tag decoder rejects a tag exactly when its operand bytes are not all there. -/
theorem decodeTag_error_iff (t : Byte) (bs : List Byte) :
    (∃ e, decodeTag (t :: bs) = .error e) ↔ bs.length < operandCount t := by
  unfold decodeTag operandCount
  simp only
  split_ifs
  · exact decodeLiteral_error_iff (tagHigh t) bs
  · cases bs <;> simp [decodeCopy1]
  · rcases bs with _ | ⟨_, _ | _⟩ <;> simp [decodeCopy2]
  · simp

theorem engineStep_truncated {c : BlockCursor} {u : BlockUser} {s : State} {e : DecodeError}
    (cursor : s.engine = .block c u) (rejected : decodeTag (fetchTag c u s) = .error e) :
    engineStep s = .next (blockCorrupt u c.s s) := by
  simp only [engineStep, cursor, rejected, chunkTruncated]

/-- Settles O31: the three truncations are where the tag decoder rejects, and the engine then raises. -/
theorem truncatedChunkIsCorrupt : Obligations.TruncatedChunkIsCorrupt := by
  unfold Obligations.TruncatedChunkIsCorrupt
  intro s₀ s c u t rest turn cursor _ bytes truncated
  have short : rest.length < operandCount t := by
    rw [operandCount_eq]
    split_ifs <;> omega
  obtain ⟨e, rejected⟩ := (decodeTag_error_iff t rest).mpr short
  rw [← bytes] at rejected
  rw [turn.step_eq, engineStep_truncated cursor rejected]
  exact blockCorrupt_failed u c.s s

end Sys2Proof.Machine
end

section
/-! The run of a BDEC (O32; 43_block_decoder.md R240, R262, R264): the declared length as VarintDecode reads it, then
chunk by chunk what BlockDecode makes of the source. Between its elements the machine is the issued state with the output so far at
DST_ADDR, which leaves the source as it was. -/

namespace Sys2Proof.Machine

/-! ### Runs of buffer memory -/

/-- A run inside a longer one. -/
theorem Memory.read_slice (m : List Host.Cell) (a : Nat) {i k n : Nat} (inside : i + k ≤ n) :
    Memory.read m (a + i) k = ((Memory.read m a n).drop i).take k := by
  obtain ⟨rest, rfl⟩ := Nat.exists_eq_add_of_le inside
  rw [Nat.add_assoc i, ← Memory.read_append, List.drop_left' (Memory.read_length ..), ← Memory.read_append,
    List.take_left' (Memory.read_length ..)]

/-- What was written is read back. -/
theorem MemWritten.read {m m' : List Host.Cell} {a : Nat} {bs : List Byte} (written : MemWritten m m' a bs) :
    Memory.read m' a bs.length = bs := by
  refine List.ext_getElem (Memory.read_length ..) fun k read inside => ?_
  have byte := Memory.read_getD m' a bs.length k 0#8 inside
  rw [List.getD_eq_getElem _ _ read, written, if_pos (by omega), Nat.add_sub_cancel_left,
    List.getD_eq_getElem _ _ inside] at byte
  exact byte

/-- Two runs written one behind the other are one. -/
theorem MemWritten.append {m m' m'' : List Host.Cell} {a : Nat} {bs bs' : List Byte} (first : MemWritten m m' a bs)
    (second : MemWritten m' m'' (a + bs.length) bs') : MemWritten m m'' a (bs ++ bs') := by
  intro x
  rw [second x, first x, List.length_append]
  by_cases before : x < a + bs.length
  · rw [if_neg (by omega)]
    by_cases inside : a ≤ x
    · rw [if_pos ⟨inside, before⟩, if_pos (by omega), List.getD_append _ _ _ _ (by omega)]
    · rw [if_neg (by omega), if_neg (by omega)]
  · by_cases inside : x < a + bs.length + bs'.length
    · rw [if_pos (by omega), if_pos (by omega), List.getD_append_right _ _ _ _ (by omega), Nat.sub_sub]
    · rw [if_neg (by omega), if_neg (by omega), if_neg (by omega)]

/-! ### What BlockDecode makes of a chunk that the tag decoder answers -/

/-- The tag and the length field of a literal form (30_encoding.md R96). -/
theorem encode_literalForm {i : Instr} {len hd : Nat} (form : literalForm i = some (len, hd)) {muMax : Byte}
    (wf : i.WellFormed muMax) : ∃ (tag : Byte) (ext : Nat),
    encode i = tag :: leBytes ext (len - 1) ∧ hd = 1 + ext ∧ 1 ≤ len ∧ tag.toNat % 4 = 0 ∧
      (tag.toNat / 4 = len - 1 ∧ len ≤ 60 ∧ ext = 0 ∨
        tag.toNat / 4 = 59 + ext ∧ 1 ≤ ext ∧ len - 1 < 256 ^ ext) := by
  cases i <;> cases form
  case litInline h =>
    have inline : h.toNat < 60 := of_decide_eq_true wf
    have tag : (tagByte h 0#2).toNat = h.toNat * 4 := toNat_append_eq_add h 0#2
    exact ⟨_, 0, rfl, rfl, by omega, by omega, .inl ⟨by omega, by omega, rfl⟩⟩
  case litX1 m => exact ⟨tagByte 60#6 0#2, 1, rfl, rfl, by omega, rfl, .inr ⟨rfl, by omega, m.isLt⟩⟩
  case litX2 m => exact ⟨tagByte 61#6 0#2, 2, rfl, rfl, by omega, rfl, .inr ⟨rfl, by omega, m.isLt⟩⟩
  case litX3 m => exact ⟨tagByte 62#6 0#2, 3, rfl, rfl, by omega, rfl, .inr ⟨rfl, by omega, m.isLt⟩⟩
  case litX4 m => exact ⟨tagByte 63#6 0#2, 4, rfl, rfl, by omega, rfl, .inr ⟨rfl, by omega, m.isLt⟩⟩

section
variable {b rest : List Byte} {n pos : Nat} {out : List Byte}

/-- A tag whose operand bytes run past the end of the block. -/
theorem refChunk_truncated {t : Byte} {bs : List Byte} (here : b.drop pos = t :: bs) (short : bs.length < operandCount t) :
    refChunk b n pos out = .error (.corruptAt pos) := by
  have total := length_of_drop_eq_cons here
  rw [operandCount_eq] at short
  simp only [refChunk, getD_of_drop_eq_cons here]
  by_cases literal : t.toNat % 4 = 0
  · rw [if_pos literal] at short
    rw [if_pos literal, if_pos (by split <;> omega)]
  rw [if_neg literal] at short ⊢
  by_cases one : t.toNat % 4 = 1
  · rw [if_pos one] at short
    rw [if_pos one, if_pos (by omega)]
  rw [if_neg one] at short ⊢
  by_cases two : t.toNat % 4 = 2
  · rw [if_pos two] at short
    rw [if_pos two, if_pos (by omega)]
  · rw [if_neg two] at short
    omega

theorem refChunk_literal {i : Instr} {len hd : Nat} (form : literalForm i = some (len, hd)) {muMax : Byte}
    (wf : i.WellFormed muMax) (here : b.drop pos = encode i ++ rest) :
    refChunk b n pos out =
      if n - out.length < len ∨ b.length - (pos + hd) < len then .error (.corruptAt pos)
      else .ok (pos + hd + len, out ++ (b.drop (pos + hd)).take len) := by
  obtain ⟨tag, ext, bytes, rfl, least, kind, size⟩ := encode_literalForm form wf
  rw [bytes, List.cons_append] at here
  have total := length_of_drop_eq_cons here
  rw [List.length_append, leBytes_length] at total
  have field : (b.drop (pos + 1)).take ext = leBytes ext (len - 1) := by
    rw [drop_succ_of_drop_eq_cons here]
    exact List.take_left' (leBytes_length ..)
  have extension : (if tag.toNat / 4 < 60 then 0 else tag.toNat / 4 - 59) = ext := by
    split <;> omega
  have length : (if tag.toNat / 4 < 60 then tag.toNat / 4 else leNat (leBytes ext (len - 1))) + 1 = len := by
    rw [leNat_leBytes]
    obtain ⟨high, few, -⟩ | ⟨high, more, fits⟩ := size
    · rw [if_pos (by omega)]
      omega
    · rw [if_neg (by omega), Nat.mod_eq_of_lt fits]
      omega
  simp only [refChunk, getD_of_drop_eq_cons here, kind, if_true, extension, field, length, ← Nat.add_assoc]
  rw [if_neg (by omega), ite_or]

theorem refChunk_copy {i : Instr} {off len size : Nat} (form : copyForm i = some (off, len, size))
    (here : b.drop pos = encode i ++ rest) :
    refChunk b n pos out =
      if off = 0 ∨ out.length < off ∨ n - out.length < len then .error (.corruptAt pos)
      else .ok (pos + size, refCopy off len out) := by
  cases i <;> cases form
  case copy1 len off =>
    have tag : (off.extractLsb' 8 3 ++ len ++ 1#2).toNat = off.toNat / 256 * 32 + len.toNat * 4 + 1 := by
      rw [toNat_append_eq_add, toNat_append_eq_add, BitVec.extractLsb'_toNat, Nat.shiftRight_eq_div_pow]
      simp only [BitVec.toNat_ofNat]
      omega
    have low : (off.extractLsb' 0 8).toNat = off.toNat % 256 := by
      rw [BitVec.extractLsb'_toNat, Nat.shiftRight_zero]
    rw [encode, List.cons_append, List.singleton_append] at here
    have total := length_of_drop_eq_cons here
    rw [List.length_cons] at total
    have second := getD_of_drop_eq_cons (drop_succ_of_drop_eq_cons here)
    have length : 4 + (off.toNat / 256 * 32 + len.toNat * 4 + 1) / 4 % 8 = len.toNat + 4 := by omega
    have offset : (off.toNat / 256 * 32 + len.toNat * 4 + 1) / 32 * 256 + off.toNat % 256 = off.toNat := by omega
    simp only [refChunk, getD_of_drop_eq_cons here, second, tag, low, length, offset]
    rw [if_neg (by omega), if_pos (by omega), if_neg (by omega)]
    simp only [ite_or, gt_iff_lt]
  case copy2 len off =>
    have tag : (tagByte len 2#2).toNat = len.toNat * 4 + 2 := toNat_append_eq_add len 2#2
    rw [encode, List.cons_append] at here
    have total := length_of_drop_eq_cons here
    rw [List.length_append, leBytes_length] at total
    have offset : leNat ((b.drop (pos + 1)).take 2) = off.toNat := by
      rw [drop_succ_of_drop_eq_cons here, List.take_left' (leBytes_length ..), leNat_leBytes]
      exact Nat.mod_eq_of_lt off.isLt
    have length : 1 + (len.toNat * 4 + 2) / 4 = len.toNat + 1 := by omega
    simp only [refChunk, getD_of_drop_eq_cons here, tag, offset, length]
    rw [if_neg (by omega), if_neg (by omega), if_pos (by omega), if_neg (by omega)]
    simp only [ite_or, gt_iff_lt]

theorem refChunk_copy4 {h : BitVec 6} (here : b.drop pos = encode (.copy4 h) ++ rest) :
    refChunk b n pos out = .error { code := .unsupported, pos := pos, needed := 0 } := by
  have tag : (tagByte h 3#2).toNat = h.toNat * 4 + 3 := toNat_append_eq_add h 3#2
  simp only [refChunk, getD_of_drop_eq_cons here, tag]
  rw [if_neg (by omega), if_neg (by omega), if_neg (by omega)]

end

/-! ### The source and the output while a BDEC runs -/

/-- A BDEC issued in `s` that declares n bytes has put the output `out` at DST_ADDR: buffer memory is then `m`. -/
structure HoldsOutput (s : State) (n : Nat) (out : List Byte) (m : List Host.Cell) : Prop where
  room : out.length ≤ n
  fits : n ≤ s.latch.dstCap.toNat
  written : MemWritten s.mem m s.latch.dstAddr.toNat out

/-- The issued state `s` with buffer memory `m` and the engine at `e`: all that changes until a BDEC completes. -/
def bdecState (s : State) (m : List Host.Cell) (e : Engine) : State := { s with mem := m, engine := e }

section
variable {s : State} {n : Nat} {out : List Byte} {m : List Host.Cell}

theorem holdsOutput_nil (fits : n ≤ s.latch.dstCap.toNat) : HoldsOutput s n [] s.mem where
  room := Nat.zero_le n
  fits := fits
  written := fun _ => (if_neg (by rw [List.length_nil]; omega)).symm

theorem HoldsOutput.append (holds : HoldsOutput s n out m) {bs : List Byte} (room : out.length + bs.length ≤ n) :
    HoldsOutput s n (out ++ bs) (Memory.write m (s.latch.dstAddr.toNat + out.length) bs) where
  room := by rwa [List.length_append]
  fits := holds.fits
  written := holds.written.append (Memory.memWritten_write _ _ _)

/-- The output lies inside DST, which does not overlap SRC (40_commands.md R114): the source reads as at issue. -/
theorem HoldsOutput.read_source (holds : HoldsOutput s n out m) (regions : regionsOk s = true) {i k : Nat}
    (inside : i + k ≤ s.latch.srcLen.toNat) :
    Memory.read m (s.latch.srcAddr.toNat + i) k = ((sourceBytes s).drop i).take k := by
  obtain ⟨room, fits, written⟩ := holds
  simp only [regionsOk, regionsOverlap, Bool.and_eq_true, Bool.not_eq_true', decide_eq_false_iff_not] at regions
  rw [sourceBytes, ← Memory.read_slice s.mem _ inside]
  refine Memory.read_congr fun x low high => ?_
  rw [written x, if_neg (by omega)]

/-- The last bytes of the output are those before the place of the next one. -/
theorem HoldsOutput.read_pattern (holds : HoldsOutput s n out m) {off : Nat} (inside : off ≤ out.length) :
    Memory.read m (s.latch.dstAddr.toNat + (out.length - off)) off = out.drop (out.length - off) := by
  rw [Memory.read_slice m _ (n := out.length) (by omega), holds.written.read]
  exact List.take_of_length_le (by rw [List.length_drop]; omega)

/-- An error of a BDEC leaves any bytes in DST and nothing outside it changed (40_commands.md R117). -/
theorem HoldsOutput.raised (holds : HoldsOutput s n out m) (code : Code) (pos : Nat) (e : Engine) :
    RaisedOverDst code pos s (.next (raiseDst code pos (bdecState s m e))) := by
  obtain ⟨room, fits, written⟩ := holds
  refine ⟨_, _, rfl, fun x outside => ?_⟩
  refine (scrambleDst_outside (s := bdecState s m e) outside).trans ?_
  simp only [inLatchedDst, inRegion, decide_eq_false_iff_not] at outside
  exact (written x).trans (if_neg (by omega))

end

/-! ### A turn at a chunk -/

/-- The issued state `s` at the chunk at `pos`, with the output `out` in the memory `m`. -/
def chunkState (s : State) (n pos : Nat) (out : List Byte) (m : List Host.Cell) : State :=
  bdecState s m (.block { s := pos, d := out.length, n := n } .bdec)

/-- The result `r` of a turn at the chunk at `pos` is what BlockDecode makes of that chunk: its error, or the loop's head at
the next position with the next output. -/
def ChunkTurn (s : State) (n pos : Nat) (out : List Byte) (m : List Host.Cell) (r : Result) : Prop :=
  (∃ err, refChunk (sourceBytes s) n pos out = .error err ∧ err.code ≠ .dstSmall ∧
    r = .next (raiseDst err.code err.pos (chunkState s n pos out m))) ∨
  ∃ pos' out' m', refChunk (sourceBytes s) n pos out = .ok (pos', out') ∧ pos < pos' ∧ HoldsOutput s n out' m' ∧
    r = .next (blockLoop .bdec { s := pos', d := out'.length, n := n }
      (bdecState s m' (.block { s := pos, d := out.length, n := n } .bdec)))

section
variable {s : State} {n pos : Nat} {out rest : List Byte} {m : List Host.Cell}

theorem length_sourceBytes (s : State) : (sourceBytes s).length = s.latch.srcLen.toNat := Memory.read_length ..

theorem chunkTurn_corrupt (corrupt : refChunk (sourceBytes s) n pos out = .error (.corruptAt pos)) :
    ChunkTurn s n pos out m (.next (blockCorrupt .bdec pos (chunkState s n pos out m))) :=
  .inl ⟨_, corrupt, nofun, rfl⟩

/-- A chunk that appends the bytes `bs` to the output. -/
theorem chunkTurn_append (holds : HoldsOutput s n out m) {pos' : Nat} (forward : pos < pos') {bs : List Byte}
    (room : out.length + bs.length ≤ n) (appends : refChunk (sourceBytes s) n pos out = .ok (pos', out ++ bs)) :
    ChunkTurn s n pos out m (.next (blockLoop .bdec { s := pos', d := out.length + bs.length, n := n }
      (outWrite .bdec out.length bs (chunkState s n pos out m)))) := by
  refine .inr ⟨pos', out ++ bs, _, appends, forward, holds.append room, ?_⟩
  rw [List.length_append]
  rfl

theorem chunkTurn_literal (holds : HoldsOutput s n out m) (regions : regionsOk s = true) {i : Instr} {len hd : Nat}
    (form : literalForm i = some (len, hd)) {muMax : Byte} (wf : i.WellFormed muMax)
    (here : (sourceBytes s).drop pos = encode i ++ rest) :
    ChunkTurn s n pos out m (exec i (chunkState s n pos out m)) := by
  have chunk := refChunk_literal (n := n) (out := out) form wf here
  obtain ⟨-, -, -, -, least, -⟩ := encode_literalForm form wf
  have room := holds.room
  rw [exec_literalForm form rfl]
  by_cases bad : n - out.length < len ∨ (sourceBytes s).length - (pos + hd) < len
  · rw [if_pos bad] at chunk
    rw [length_sourceBytes] at bad
    rw [literalBody_bad bad]
    exact chunkTurn_corrupt chunk
  · rw [if_neg bad] at chunk
    rw [length_sourceBytes] at bad
    obtain ⟨fits, there⟩ := not_or.mp bad
    have inside : pos + hd + len ≤ s.latch.srcLen.toNat := by omega
    have data : blockBytes .bdec (pos + hd) len (chunkState s n pos out m) = ((sourceBytes s).drop (pos + hd)).take len :=
      holds.read_source regions inside
    have length : (((sourceBytes s).drop (pos + hd)).take len).length = len := by
      rw [List.length_take, List.length_drop, length_sourceBytes]
      omega
    have turn := chunkTurn_append holds (by omega) (by omega) chunk
    rw [length] at turn
    rw [literalBody_fits (c := ⟨pos, out.length, n⟩) (Nat.not_lt.mp fits) (Nat.not_lt.mp there), data]
    exact turn

theorem copyForm_size_pos {i : Instr} {off len size : Nat} (form : copyForm i = some (off, len, size)) : 0 < size := by
  cases i <;> cases form
  all_goals decide

theorem chunkTurn_copy (holds : HoldsOutput s n out m) {i : Instr} {off len size : Nat}
    (form : copyForm i = some (off, len, size)) (here : (sourceBytes s).drop pos = encode i ++ rest) :
    ChunkTurn s n pos out m (exec i (chunkState s n pos out m)) := by
  have chunk := refChunk_copy (n := n) (out := out) form here
  have room := holds.room
  rw [exec_copyForm form rfl]
  by_cases bad : off = 0 ∨ out.length < off ∨ n - out.length < len
  · rw [if_pos bad] at chunk
    rw [copyBody_bad size bad]
    exact chunkTurn_corrupt chunk
  · rw [if_neg bad] at chunk
    simp only [not_or] at bad
    obtain ⟨nonzero, before, fits⟩ := bad
    have positive : 1 ≤ off := Nat.pos_of_ne_zero nonzero
    have inside : off ≤ out.length := Nat.not_lt.mp before
    have pattern : outBytes .bdec (out.length - off) off (chunkState s n pos out m) = out.drop (out.length - off) :=
      holds.read_pattern inside
    have length : (repeatPattern (out.drop (out.length - off)) len).length = len :=
      (repeatPattern_spec (by rw [List.length_drop]; omega) positive len).1
    rw [refCopy_eq_applyOp positive len inside, applyOp] at chunk
    have turn := chunkTurn_append holds (Nat.lt_add_of_pos_right (copyForm_size_pos form)) (by omega) chunk
    rw [length] at turn
    rw [copyBody_fits size positive inside (Nat.not_lt.mp fits)]
    simp only [chunkState, decompress] at pattern turn ⊢
    rw [pattern]
    exact turn

/-- The bytes the tag decoder is given are those of the source. -/
theorem fetchTag_chunkState (holds : HoldsOutput s n out m) (regions : regionsOk s = true)
    (inside : pos < s.latch.srcLen.toNat) :
    fetchTag { s := pos, d := out.length, n := n } .bdec (chunkState s n pos out m) =
      ((sourceBytes s).drop pos).take 5 := by
  have left : ((sourceBytes s).drop pos).length = s.latch.srcLen.toNat - pos := by
    rw [List.length_drop, length_sourceBytes]
  have whole : pos + min 5 (s.latch.srcLen.toNat - pos) ≤ s.latch.srcLen.toNat := by omega
  rw [List.take_eq_take_min, left]
  exact holds.read_source regions whole

/-- One turn at a chunk is one round of BlockDecode's loop. -/
theorem step_chunk (noEvents : s.events = []) (regions : regionsOk s = true) (holds : HoldsOutput s n out m)
    (inside : pos < s.latch.srcLen.toNat) :
    ChunkTurn s n pos out m (step (chunkState s n pos out m)) := by
  have fetched := fetchTag_chunkState holds regions inside
  rw [step_noEvents (s := chunkState s n pos out m) noEvents]
  cases decoded : decodeTag (((sourceBytes s).drop pos).take 5) with
  | error e =>
    rw [← fetched] at decoded
    rw [engineStep_truncated rfl decoded]
    refine chunkTurn_corrupt ?_
    have place : pos < (sourceBytes s).length := (length_sourceBytes s).symm ▸ inside
    have here := List.drop_eq_getElem_cons place
    rw [fetched, here, List.take_succ_cons] at decoded
    have short := (decodeTag_error_iff _ _).mp ⟨e, decoded⟩
    refine refChunk_truncated here ?_
    have most := operandCount_le (sourceBytes s)[pos]
    rw [List.length_take] at short
    omega
  | ok answer =>
    obtain ⟨i, after⟩ := answer
    obtain ⟨wf, bytes⟩ := encode_of_decodeTag (muMax := 0x7F#8) decoded
    have here := (List.take_append_drop 5 ((sourceBytes s).drop pos)).symm
    rw [bytes, List.append_assoc] at here
    rw [engineStep_block rfl (fetched ▸ decoded)]
    obtain ⟨len, hd, form⟩ | ⟨off, len, size, form⟩ | ⟨high, rfl⟩ := chunk_forms (decodeTag_format decoded)
    · exact chunkTurn_literal holds regions form wf here
    · exact chunkTurn_copy holds form here
    · exact .inl ⟨_, refChunk_copy4 here, nofun, exec_copy4 high (c := ⟨pos, out.length, n⟩) (u := .bdec) rfl⟩

end

/-! ### The chunk loop -/

/-- The result `r` is what BDEC completes with where BlockDecode gives `d` (R262, R264). -/
def BdecCompletes (s : State) (d : Except BlockError (List Byte)) (r : Result) : Prop :=
  match d with
  | .ok out =>
    ∃ m, r = .next (Finished out.length out.length { s with mem := m }) ∧ MemWritten s.mem m s.latch.dstAddr.toNat out
  | .error e =>
    if e.code = .dstSmall then r = .next (Raised .dstSmall e.needed s) else RaisedOverDst e.code e.pos s r

theorem bdecCompletes_error {s : State} {err : BlockError} (other : err.code ≠ .dstSmall) {r : Result}
    (raised : RaisedOverDst err.code err.pos s r) : BdecCompletes s (.error err) r :=
  (if_neg other).mpr raised

section
variable {s : State} (noEvents : s.events = []) (regions : regionsOk s = true)
include noEvents

/-- The end of the block: the final length check (R261). -/
theorem run_chunksEnd {n pos : Nat} {out : List Byte} {m : List Host.Cell} (holds : HoldsOutput s n out m)
    (ends : s.latch.srcLen.toNat ≤ pos) (e : Engine) (k : Nat) :
    BdecCompletes s (refEnd (sourceBytes s) n out) (Host.Core.run core k
      (blockLoop .bdec { s := pos, d := out.length, n := n } (bdecState s m e))) := by
  by_cases whole : out.length = n
  · subst n
    rw [refEnd, if_neg (not_not.mpr rfl),
      blockLoop_done (u := .bdec) (c := ⟨pos, out.length, out.length⟩) (s := bdecState s m e) ends rfl, blockDone_bdec,
      run_idle (s := Finished _ _ (bdecState s m e)) noEvents rfl]
    exact ⟨m, rfl, holds.written⟩
  · rw [refEnd, if_pos whole, length_sourceBytes,
      blockLoop_short (u := .bdec) (c := ⟨pos, out.length, n⟩) (s := bdecState s m e) ends whole,
      run_idle (s := blockCorrupt .bdec _ (bdecState s m e)) noEvents rfl]
    exact bdecCompletes_error (err := .corruptAt _) nofun (holds.raised .corrupt _ e)

include regions

/-- From the loop's head at `pos`, as many turns as bytes are left complete the command as BlockDecode's loop says. -/
theorem run_chunks {n fuel k pos : Nat} {out : List Byte} {m : List Host.Cell} (holds : HoldsOutput s n out m)
    (rounds : s.latch.srcLen.toNat ≤ pos + fuel) (turns : s.latch.srcLen.toNat ≤ pos + k) (e : Engine) :
    BdecCompletes s (refChunks (sourceBytes s) n fuel pos out) (Host.Core.run core k
      (blockLoop .bdec { s := pos, d := out.length, n := n } (bdecState s m e))) := by
  induction fuel generalizing k pos out m e with
  | zero => exact run_chunksEnd noEvents holds rounds e k
  | succ fuel ih =>
    rw [refChunks, length_sourceBytes]
    by_cases inside : pos < s.latch.srcLen.toNat
    · obtain ⟨k, rfl⟩ : ∃ j, k = j + 1 := ⟨k - 1, by omega⟩
      rw [if_pos inside, blockLoop_inside (u := .bdec) (c := ⟨pos, out.length, n⟩) (s := bdecState s m e) inside]
      obtain ⟨err, chunk, other, next⟩ | ⟨pos', out', m', chunk, forward, holds', next⟩ :=
        step_chunk noEvents regions holds inside
      · rw [chunk]
        exact bdecCompletes_error other (run_succ_of_completed next noEvents rfl k ▸ holds.raised err.code err.pos _)
      · rw [chunk]
        exact run_succ_of_next next k ▸ ih holds' (by omega) (by omega) _
    · rw [if_neg inside]
      exact run_chunksEnd noEvents holds (Nat.not_lt.mp inside) e k

end

/-! ### The checks on the declared length (R240 to R243) -/

/-- `BlockDecode` after its first line, with what VarintDecode returned (43_block_decoder.md R240). -/
def refDecodeDeclared (ceiling cap : Nat) (b : List Byte) (declared : Nat × Nat) : Except BlockError (List Byte) :=
  if declared.2 = 0 then .error (.corruptAt 0)
  else if declared.1 > ceiling then .error { code := .tooLarge, pos := 0, needed := 0 }
  else if declared.1 > cap then .error { code := .dstSmall, pos := 0, needed := declared.1 }
  else refChunks b declared.1 b.length declared.2 []

theorem refBlockDecode_eq (ceiling cap : Nat) (b : List Byte) :
    refBlockDecode ceiling cap b = refDecodeDeclared ceiling cap b (refVarintDecode b) := rfl

/-- BlockDecode of the source of a BDEC, with what VarintDecode returned. -/
abbrev bdecDeclared (s : State) (declared : Nat × Nat) : Except BlockError (List Byte) :=
  refDecodeDeclared s.cfg.maxDecodedLen.toNat s.latch.dstCap.toNat (sourceBytes s) declared

section
variable {s : State} (noEvents : s.events = []) (regions : regionsOk s = true)

/-- No length is declared: Corrupt(0) (R241). -/
theorem bdecCompletes_undeclared (value : Nat) (e : Engine) :
    BdecCompletes s (bdecDeclared s (value, 0)) (.next (blockCorrupt .bdec 0 (bdecState s s.mem e))) :=
  bdecCompletes_error (err := .corruptAt 0) nofun ((holdsOutput_nil (Nat.zero_le _)).raised .corrupt 0 e)

include noEvents regions

/-- Once the length is declared, the checks on it and then the chunks complete the command. -/
theorem run_blockBegin (n : Nat) {used k : Nat} (least : 0 < used) (turns : s.latch.srcLen.toNat ≤ used + k) (e : Engine) :
    BdecCompletes s (bdecDeclared s (n, used))
      (Host.Core.run core k (blockBegin .bdec n used (bdecState s s.mem e))) := by
  unfold bdecDeclared refDecodeDeclared
  rw [if_neg least.ne']
  by_cases large : s.cfg.maxDecodedLen.toNat < n
  · rw [if_pos large, blockBegin_tooLarge .bdec used (s := bdecState s s.mem e) large,
      run_idle (s := blockTooLarge .bdec (bdecState s s.mem e)) noEvents rfl]
    exact bdecCompletes_error (err := ⟨.tooLarge, 0, 0⟩) nofun ((holdsOutput_nil (Nat.zero_le _)).raised .tooLarge 0 e)
  rw [if_neg large]
  have below : n ≤ s.cfg.maxDecodedLen.toNat := Nat.not_lt.mp large
  by_cases small : s.latch.dstCap.toNat < n
  · rw [if_pos small, blockBegin_dstSmall (u := .bdec) used (s := bdecState s s.mem e) below small,
      run_idle (s := blockDstSmall .bdec n (bdecState s s.mem e)) noEvents rfl]
    rfl
  rw [if_neg small]
  have fits : n ≤ s.latch.dstCap.toNat := Nat.not_lt.mp small
  rw [blockBegin_fits (u := .bdec) used (s := bdecState s s.mem e) below fits]
  exact run_chunks noEvents regions (holdsOutput_nil fits) (by rw [length_sourceBytes]; omega) turns e

end

/-! ### The bytes of the declared length (R240, 41_varint.md R185) -/

/-- The issued state `s` at byte i of the declared length. -/
def lengthState (s : State) (i : Nat) (x : DWord) : State :=
  bdecState s s.mem (.varint { i := i, x := x } (.ofBlock .bdec))

section
variable {s : State} (noEvents : s.events = []) {i : Nat} {x : DWord} {b : Byte} {bs : List Byte}
  (left : i + (bs.length + 1) = s.latch.srcLen.toNat)
  (byte : Memory.get s.mem (s.latch.srcAddr.toNat + i) = b)
include noEvents left byte

theorem step_lengthByte : step (lengthState s i x) = exec (varintInstr b) (lengthState s i x) := by
  have one : min 1 (s.latch.srcLen.toNat - i) = 1 := by omega
  have fetched : fetchVarint { i := i, x := x } (.ofBlock .bdec) (lengthState s i x) = [b] := by
    change Memory.read s.mem (s.latch.srcAddr.toNat + i) (min 1 (s.latch.srcLen.toNat - i)) = [b]
    rw [one, Memory.read, Memory.read, byte]
  rw [step_noEvents (s := lengthState s i x) noEvents]
  exact engineStep_varint rfl (rest := []) (by rw [fetched]; rfl)

/-- One turn at a byte of the declared length is one step of VarintDecode: it fails, or it ends with the length declared, or
it goes on to the next byte. -/
theorem step_lengthByte_cases (tenth : i ≤ 9) :
    (refVarintFrom i x.toNat (b :: bs) = (0, 0) ∧
      step (lengthState s i x) = .next (blockCorrupt .bdec 0 (lengthState s i x))) ∨
    (∃ n, refVarintFrom i x.toNat (b :: bs) = (n, i + 1) ∧
      step (lengthState s i x) = .next (blockBegin .bdec n (i + 1) (lengthState s i x))) ∨
    ∃ x' : DWord, i < 9 ∧ bs ≠ [] ∧ refVarintFrom i x.toNat (b :: bs) = refVarintFrom (i + 1) x'.toNat bs ∧
      step (lengthState s i x) = .next (lengthState s (i + 1) x') := by
  have group := toNat_groupBits b
  rw [step_lengthByte noEvents left byte]
  by_cases last : b.toNat < 128
  · have same : (b.extractLsb' 0 7).toNat = b.toNat := by omega
    rw [varintInstr_of_last last, exec_vbLast _ rfl, refVarintFrom_last _ _ last]
    by_cases large : i ≥ 9 ∧ b.toNat > 1
    · exact .inl ⟨if_pos large, by rw [varintFinish_fails large.1 (same ▸ large.2)]; rfl⟩
    · have fits : i < 9 ∨ (b.extractLsb' 0 7).toNat ≤ 1 := by omega
      refine .inr (.inl ⟨_, if_neg large, ?_⟩)
      rw [varintFinish_fits fits, varintDone_ofBlock, toNat_or_varintGroup x tenth fits, same]
  · have continues : 128 ≤ b.toNat := Nat.not_lt.mp last
    rw [varintInstr_of_continues continues, exec_vbCont _ rfl]
    by_cases inside : i < 9
    · by_cases empty : bs = []
      · subst empty
        refine .inl ⟨refVarintFrom_unterminated i _ (bs := [b]) (by simpa using continues), ?_⟩
        rw [varintContinue_fails (c := ⟨i, x⟩) (u := .ofBlock .bdec) (s := lengthState s i x) _ (.inr left.ge)]
        rfl
      · have more : i + 1 < s.latch.srcLen.toNat := by
          have := List.length_pos_of_ne_nil empty
          omega
        refine .inr (.inr ⟨x ||| varintGroup (b.extractLsb' 0 7) i, inside, empty, ?_, ?_⟩)
        · rw [refVarintFrom_continue inside _ continues, toNat_or_varintGroup x tenth (.inl inside), group]
        · rw [varintContinue_more (u := .ofBlock .bdec) _ inside more]
          rfl
    · refine .inl ⟨if_pos ⟨Nat.not_lt.mp inside, by omega⟩, ?_⟩
      rw [varintContinue_fails _ (.inl (Nat.not_lt.mp inside))]
      rfl

end

/-- From byte i of the declared length, as many turns as bytes are left complete the command as BlockDecode says. -/
theorem run_lengthBytes {s : State} (noEvents : s.events = []) (regions : regionsOk s = true) {k i : Nat} {x : DWord}
    (left : i + (k + 1) = s.latch.srcLen.toNat) (tenth : i ≤ 9) :
    BdecCompletes s
      (bdecDeclared s (refVarintFrom i x.toNat (Memory.read s.mem (s.latch.srcAddr.toNat + i) (k + 1))))
      (Host.Core.run core (k + 1) (lengthState s i x)) := by
  induction k using Nat.strong_induction_on generalizing i x with
  | _ k ih =>
    rw [Memory.read]
    have left' : i + ((Memory.read s.mem (s.latch.srcAddr.toNat + i + 1) k).length + 1) = s.latch.srcLen.toNat := by
      rwa [Memory.read_length]
    obtain ⟨decoded, next⟩ | ⟨n, decoded, next⟩ | ⟨x', inside, more, decoded, next⟩ :=
      step_lengthByte_cases noEvents (x := x) left' rfl tenth
    · rw [decoded, run_succ_of_completed next noEvents rfl]
      exact bdecCompletes_undeclared 0 _
    · rw [decoded, run_succ_of_next next]
      exact run_blockBegin noEvents regions n (Nat.succ_pos i) (by omega) _
    · obtain ⟨k, rfl⟩ : ∃ j, k = j + 1 := Nat.exists_eq_add_one.mpr (by
        have := List.length_pos_of_ne_nil more
        rwa [Memory.read_length] at this)
      rw [decoded, run_succ_of_next next]
      exact ih k (Nat.lt_succ_self k) (by omega) inside

/-- Settles O32: the bytes of the declared length by induction on those left, then the chunks by induction on BlockDecode's
rounds, each turn of the engine one step of BlockDecode. -/
theorem bdecComputesBlockDecode : Obligations.BdecComputesBlockDecode := by
  unfold Obligations.BdecComputesBlockDecode
  intro s noEvents issued op regions
  have start : step s = .next (prefixBegin .bdec s) := by
    rw [step_noEvents noEvents, engineStep_dispatch issued, op]
    exact exec_bdec regions
  have completes : BdecCompletes s (bdecDeclared s (refVarintDecode (sourceBytes s)))
      (Host.Core.run core (s.latch.srcLen.toNat + 1) s) := by
    by_cases empty : s.latch.srcLen.toNat = 0
    · rw [prefixBegin_empty (u := .bdec) empty] at start
      rw [run_succ_of_completed start noEvents rfl, sourceBytes, empty]
      exact bdecCompletes_undeclared 0 s.engine
    · rw [prefixBegin_nonempty (u := .bdec) empty] at start
      obtain ⟨k, bytes⟩ := Nat.exists_eq_add_one_of_ne_zero empty
      rw [run_succ_of_next start, sourceBytes, bytes]
      exact run_lengthBytes (x := 0#64) noEvents regions ((Nat.zero_add _).trans bytes.symm) (Nat.zero_le 9)
  rw [refBlockDecode_eq]
  exact completes

end Sys2Proof.Machine
end

section
/-! The check values of the checksum engine (O33; 44_checksum.md R285). The bit loop of R280 is run once for each row, a byte
as its eight bit steps; the masked value and the field bytes of a row follow from its CRC-32C alone (R281, R282). -/

namespace Sys2Proof.Machine

/-- R280's loop over one byte, unrolled: `simp` evaluates it from the inside, so that no step nests in the next byte's. -/
theorem crcByte_eq_crcBit_eight (c : Word) (x : Byte) :
    crcByte c x = crcBit (crcBit (crcBit (crcBit (crcBit (crcBit (crcBit (crcBit (c ^^^ x.setWidth 32)))))))) := rfl

theorem frameChecksum_of_crc32c {data : List Byte} {c : Word} (crc : crc32c data = c) :
    frameChecksum data = crcMask c :=
  congrArg crcMask crc

theorem checksumField_of_crc32c {data : List Byte} {c : Word} (crc : crc32c data = c) :
    checksumField data = leBytes 4 (crcMask c).toNat := by
  rw [checksumField, frameChecksum_of_crc32c crc]

theorem crc32c_nil : crc32c [] = 0x00000000#32 := by
  simp [crc32c, crcBytes]

/-- The row "a". -/
theorem crc32c_letterA : crc32c [0x61#8] = 0xC1D04330#32 := by
  simp [crc32c, crcBytes, crcByte_eq_crcBit_eight, crcBit]

/-- The published check value, of "123456789". -/
theorem crc32c_digits :
    crc32c [0x31#8, 0x32#8, 0x33#8, 0x34#8, 0x35#8, 0x36#8, 0x37#8, 0x38#8, 0x39#8] = 0xE3069283#32 := by
  simp [crc32c, crcBytes, crcByte_eq_crcBit_eight, crcBit]

theorem crc32c_replicate_0xFF : crc32c (List.replicate 32 0xFF#8) = 0x62A8AB43#32 := by
  simp [List.replicate, crc32c, crcBytes, crcByte_eq_crcBit_eight, crcBit]

/-- Settles O33: each row's CRC-32C by running its bytes, its mask and its field from that value. -/
theorem checksumTableValues : Obligations.ChecksumTableValues := by
  unfold Obligations.ChecksumTableValues
  refine ⟨crc32c_nil, ?mask_empty, ?field_empty, crc32c_letterA, ?field_a, crc32c_digits, ?mask_digits,
    crc32c_replicate_0xFF⟩
  case mask_empty => rw [frameChecksum_of_crc32c crc32c_nil]; decide
  case field_empty => rw [checksumField_of_crc32c crc32c_nil]; decide
  case field_a => rw [checksumField_of_crc32c crc32c_letterA]; decide
  case mask_digits => rw [frameChecksum_of_crc32c crc32c_digits]; decide

end Sys2Proof.Machine
end

section
/-! What EmitFrame puts (O35; 45_stream_writer.md R305, R307): one frame, with the encoded slice or the slice itself in its
body. -/

namespace Sys2Proof.Machine

theorem selectCompressed_iff (p : Params) (c u : Nat) :
    selectCompressed p c u = true ↔ (p.select = .smaller ∧ c < u) ∨ (p.select = .eighth ∧ c < u - u / 8) := by
  unfold selectCompressed
  cases p.select <;> simp

/-- A frame's header with the length of the body that follows (45_stream_writer.md R305). -/
theorem frameHeader_append (ty : Byte) (u content : List Byte) :
    frameHeader ty content.length ++ checksumField u ++ content =
      ty :: leBytes 3 (checksumField u ++ content).length ++ (checksumField u ++ content) := by
  rw [frameHeader, List.append_assoc, List.length_append, checksumField_length]

theorem take_checksumField (u content : List Byte) : (checksumField u ++ content).take 4 = checksumField u :=
  List.take_left' (checksumField_length u)

theorem drop_checksumField (u content : List Byte) : (checksumField u ++ content).drop 4 = content :=
  List.drop_left' (checksumField_length u)

theorem four_le_of_take_eq_checksumField {body u : List Byte} (field : body.take 4 = checksumField u) :
    4 ≤ body.length := by
  have length := congrArg List.length field
  rw [List.length_take, checksumField_length] at length
  omega

/-- Settles O35: the two kinds of frame, as Select says; c is shorter than u where it is taken. -/
theorem emitFrameIsOneFrame : Obligations.EmitFrameIsOneFrame := by
  unfold Obligations.EmitFrameIsOneFrame
  rintro p u c - short rfl
  simp only [frameBytes, selectCompressed_iff]
  split
  case isTrue compressed =>
    refine ⟨0x00#8, checksumField u ++ encodeBlock p u, frameHeader_append .., ?_, take_checksumField .., rfl,
      drop_checksumField ..⟩
    rw [List.length_append, checksumField_length]
    omega
  case isFalse raw =>
    refine ⟨0x01#8, checksumField u ++ u, frameHeader_append .., ?_, take_checksumField .., rfl, drop_checksumField ..⟩
    rw [List.length_append, checksumField_length]
    omega

end Sys2Proof.Machine
end

section
/-! A reader at one of the writer's frames (O49; 45_stream_writer.md R312, 46_stream_reader.md R359(a)): the header, the body
taken whole, the block decoded chunk by chunk as BlockDecode would, and the data delivered. -/

namespace Sys2Proof.Machine

/-- Each turn of the engine leads on to the next state, from `s` to `t`. -/
abbrev Reaches : State → State → Prop := Relation.ReflTransGen fun s t => step s = .next t

theorem Reaches.exists_run {s t : State} (reaches : Reaches s t) : ∃ k, Host.Core.run core k s = .next t := by
  induction reaches using Relation.ReflTransGen.head_induction_on with
  | refl => exact ⟨0, rfl⟩
  | head next _ ih =>
    obtain ⟨k, run⟩ := ih
    exact ⟨k + 1, (run_succ_of_next next k).trans run⟩

/-! ### The frame taken from IN (46_stream_reader.md R344, R347) -/

theorem decodeHeader_frame (muMax ty : Byte) (len : Nat) (rest : List Byte) :
    decodeHeader muMax (ty :: leBytes 3 len ++ rest) = .ok (frameInstr muMax ty (BitVec.ofNat 24 len), rest) := by
  refine decoded_congr (frameInstr muMax ty) (BitVec.eq_of_toNat_eq ?_) rest
  change (BitVec.ofNat 24 (leNat (leBytes 3 len))).toNat = _
  simp [leNat_leBytes]

/-- The state with a whole frame taken from IN, its body in FBUF, and `rest` still to come. -/
def frameTaken (body rest : List Byte) (s : State) : State :=
  { s with
    fbuf := body
    inPending := rest
    inTaken := s.inTaken + (4 + body.length)
    srInpos := s.srInpos + BitVec.ofNat 64 (4 + body.length) }

/-- A frame offered whole is read in one turn. -/
theorem step_frame {s : State} {i0 h0 : DWord} {ty : Byte} {body rest : List Byte} {kind : BodyKind}
    (noEvents : s.events = []) (cursor : s.engine = .header i0 h0 []) (phase : s.srPhase = .streaming)
    (unlatched : s.inLatch = false)
    (form : ∀ len, bodyForm (frameInstr s.cfg.muMax ty len) = some (kind, len.toNat)) (size : body.length < 2 ^ 24)
    (fits : kind.lengthOk body.length) (offered : s.inPending = ty :: leBytes 3 body.length ++ body ++ rest) :
    step s = .next (bodyDone i0 h0 kind (frameTaken body rest s)) := by
  have length : (ty :: leBytes 3 body.length).length = 4 := rfl
  have header : fetchHeader [] s = ty :: leBytes 3 body.length := by
    rw [fetchHeader_eq [] unlatched, offered, List.append_assoc]
    exact List.take_left' length
  have pending : s.inPending.drop 4 = body ++ rest := by
    rw [offered, List.append_assoc]
    exact List.drop_left' length
  have decoded := decodeHeader_frame s.cfg.muMax ty body.length []
  rw [List.append_nil] at decoded
  have instr := form (BitVec.ofNat 24 body.length)
  rw [BitVec.toNat_ofNat, Nat.mod_eq_of_lt size] at instr
  rw [step_noEvents noEvents, engineStep_header cursor (header.symm ▸ decoded), header,
    exec_bodyForm (s := takeHeader i0 h0 [] (ty :: leBytes 3 body.length) s) instr fits (.inr phase) rfl]
  refine congrArg _ ((readBody_whole (s := takeHeader i0 h0 [] _ s) _ _ _ _ unlatched ?_).trans ?_)
  · change _ ≤ (s.inPending.drop 4).length
    rw [pending, List.length_append]
    exact Nat.le_add_right ..
  · refine Eq.trans ?_ (bodyDone_engine i0 h0 kind (frameTaken body rest s) (.header i0 h0 (ty :: leBytes 3 body.length)))
    simp only [BodyTaken, takeHeader, inConsume, length, pending, List.take_left, List.drop_left, frameTaken,
      Nat.add_assoc, BitVec.add_assoc, BitVec.ofNat_add, List.nil_append]

/-! ### The block of a compressed frame, decoded (46_stream_reader.md R348) -/

/-- SR_READ decoding the block in FBUF: the output so far is in DBUF. -/
def frameState (s : State) (out : List Byte) (e : Engine) : State := { s with dbuf := out, engine := e }

/-- The block in FBUF: the body after the checksum field. -/
def frameBlock (s : State) : List Byte := s.fbuf.drop 4

section
variable {s : State} (i0 h0 : DWord)

theorem blockLength_frameState (out : List Byte) (e : Engine) :
    blockLength (.frame i0 h0) (frameState s out e) = (frameBlock s).length :=
  List.length_drop.symm

theorem blockBytes_frameState (i n : Nat) (out : List Byte) (e : Engine) :
    blockBytes (.frame i0 h0) i n (frameState s out e) = ((frameBlock s).drop i).take n := by
  rw [frameBlock, List.drop_drop]
  rfl

/-- The state at the chunk at `pos`, after the output `out`. -/
def frameChunk (s : State) (n pos : Nat) (out : List Byte) : State :=
  frameState s out (.block { s := pos, d := out.length, n := n } (.frame i0 h0))

theorem outWrite_frameChunk {n pos : Nat} {out : List Byte} (bs : List Byte) :
    outWrite (.frame i0 h0) out.length bs (frameChunk i0 h0 s n pos out) =
      frameState s (out ++ bs) (.block { s := pos, d := out.length, n := n } (.frame i0 h0)) := by
  simp only [outWrite, frameChunk, frameState, List.take_length]

/-- The tag decoder is given bytes of the block. -/
theorem fetchTag_frameChunk (n pos : Nat) (out : List Byte) :
    fetchTag { s := pos, d := out.length, n := n } (.frame i0 h0) (frameChunk i0 h0 s n pos out) =
      ((frameBlock s).drop pos).take 5 := by
  rw [fetchTag, frameChunk, blockBytes_frameState, blockLength_frameState, List.take_eq_take_min (i := 5),
    List.length_drop]

/-- The bytes of a chunk that BlockDecode accepts are those of an instruction. -/
theorem decodeTag_of_refChunk {b : List Byte} {n pos : Nat} {out : List Byte} {q : Nat × List Byte}
    (inside : pos < b.length) (accepted : refChunk b n pos out = .ok q) :
    ∃ i after rest, decodeTag ((b.drop pos).take 5) = .ok (i, after) ∧ i.WellFormed 0x7F#8 ∧
      b.drop pos = encode i ++ rest := by
  cases decoded : decodeTag ((b.drop pos).take 5) with
  | error e =>
    have here := List.drop_eq_getElem_cons inside
    rw [here, List.take_succ_cons] at decoded
    have short := (decodeTag_error_iff _ _).mp ⟨e, decoded⟩
    have most := operandCount_le b[pos]
    rw [List.length_take] at short
    rw [refChunk_truncated here (by omega)] at accepted
    cases accepted
  | ok answer =>
    obtain ⟨i, after⟩ := answer
    obtain ⟨wf, bytes⟩ := encode_of_decodeTag (muMax := 0x7F#8) decoded
    refine ⟨i, after, after ++ (b.drop pos).drop 5, rfl, wf, ?_⟩
    rw [← List.append_assoc, ← bytes, List.take_append_drop]

section
variable {i : Instr} {n pos pos' : Nat} {out out' rest : List Byte} (here : (frameBlock s).drop pos = encode i ++ rest)
  (accepted : refChunk (frameBlock s) n pos out = .ok (pos', out'))
include here accepted

theorem exec_frameLiteral {len hd : Nat} (form : literalForm i = some (len, hd)) (wf : i.WellFormed 0x7F#8) :
    ∃ e, exec i (frameChunk i0 h0 s n pos out) =
      .next (blockLoop (.frame i0 h0) { s := pos', d := out'.length, n := n } (frameState s out' e)) := by
  rw [refChunk_literal form wf here] at accepted
  split at accepted
  case isTrue bad => cases accepted
  case isFalse fits =>
    obtain ⟨room, data⟩ := not_or.mp fits
    obtain ⟨-, -, -, -, least, -⟩ := encode_literalForm form wf
    have length : (((frameBlock s).drop (pos + hd)).take len).length = len := by
      rw [List.length_take, List.length_drop]
      omega
    cases accepted
    rw [exec_literalForm form rfl, literalBody_fits (c := ⟨pos, out.length, n⟩) (Nat.not_lt.mp room)
      (by rw [frameChunk, blockLength_frameState]; exact Nat.not_lt.mp data), frameChunk, blockBytes_frameState,
      ← frameChunk, outWrite_frameChunk, List.length_append, length]
    exact ⟨_, rfl⟩

theorem exec_frameCopy {off len size : Nat} (form : copyForm i = some (off, len, size)) :
    ∃ e, exec i (frameChunk i0 h0 s n pos out) =
      .next (blockLoop (.frame i0 h0) { s := pos', d := out'.length, n := n } (frameState s out' e)) := by
  rw [refChunk_copy form here] at accepted
  split at accepted
  case isTrue bad => cases accepted
  case isFalse fits =>
    simp only [not_or] at fits
    obtain ⟨nonzero, before, room⟩ := fits
    have positive : 1 ≤ off := Nat.pos_of_ne_zero nonzero
    have inside : off ≤ out.length := Nat.not_lt.mp before
    have last : (out.drop (out.length - off)).length ≤ off := by
      rw [List.length_drop]
      omega
    have pattern : outBytes (.frame i0 h0) (out.length - off) off (frameChunk i0 h0 s n pos out) =
        out.drop (out.length - off) := List.take_of_length_le last
    cases accepted
    rw [exec_copyForm form rfl, copyBody_fits (c := ⟨pos, out.length, n⟩) size positive inside (Nat.not_lt.mp room),
      decompress, pattern, outWrite_frameChunk, length_refCopy, refCopy_eq_applyOp positive len inside, applyOp]
    exact ⟨_, rfl⟩

end

/-- One turn at a chunk that BlockDecode accepts is one round of its loop. -/
theorem step_frameChunk (noEvents : s.events = []) {n pos pos' : Nat} {out out' : List Byte}
    (chunk : ChunkStep (frameBlock s) n (pos, out) (pos', out')) :
    ∃ e, step (frameChunk i0 h0 s n pos out) =
      .next (blockLoop (.frame i0 h0) { s := pos', d := out'.length, n := n } (frameState s out' e)) := by
  obtain ⟨inside, -, accepted⟩ := chunk
  obtain ⟨i, after, rest, decoded, wf, here⟩ := decodeTag_of_refChunk inside accepted
  rw [step_noEvents (s := frameChunk i0 h0 s n pos out) noEvents,
    engineStep_block rfl ((fetchTag_frameChunk i0 h0 n pos out).symm ▸ decoded)]
  obtain ⟨len, hd, form⟩ | ⟨off, len, size, form⟩ | ⟨high, rfl⟩ := chunk_forms (decodeTag_format decoded)
  · exact exec_frameLiteral i0 h0 here accepted form wf
  · exact exec_frameCopy i0 h0 here accepted form
  · rw [refChunk_copy4 here] at accepted
    cases accepted

/-- The chunks that BlockDecode accepts up to the end of the block, taken one a turn. -/
theorem reaches_frameChunks (noEvents : s.events = []) {p : Nat × List Byte} {out : List Byte}
    (run : ChunkRun (frameBlock s) out.length p ((frameBlock s).length, out)) (e : Engine) :
    ∃ e', Reaches (blockLoop (.frame i0 h0) { s := p.1, d := p.2.length, n := out.length } (frameState s p.2 e))
      (dataFrameDone i0 h0 (frameState s out e')) := by
  induction run using Relation.ReflTransGen.head_induction_on generalizing e with
  | refl =>
    have ends : blockLength (.frame i0 h0) (frameState s out e) ≤ (frameBlock s).length :=
      (blockLength_frameState i0 h0 out e).le
    rw [blockLoop_done (c := ⟨_, out.length, out.length⟩) ends rfl]
    exact ⟨e, .refl⟩
  | @head p q chunk _ ih =>
    have inside : p.1 < blockLength (.frame i0 h0) (frameState s p.2 e) := by
      rw [blockLength_frameState]
      exact chunk.1
    obtain ⟨e', next⟩ := step_frameChunk i0 h0 noEvents chunk
    obtain ⟨e'', others⟩ := ih e'
    rw [blockLoop_inside (c := ⟨p.1, p.2.length, out.length⟩) inside]
    exact ⟨e'', .head next others⟩

/-- The state at byte i of the declared length, with the running value x. -/
def frameLength (s : State) (i : Nat) (x : DWord) : State :=
  frameState s [] (.varint { i := i, x := x } (.ofBlock (.frame i0 h0)))

theorem step_frameLength (noEvents : s.events = []) {i : Nat} (x : DWord) {b : Byte} {bs : List Byte}
    (here : (frameBlock s).drop i = b :: bs) :
    step (frameLength i0 h0 s i x) = exec (varintInstr b) (frameLength i0 h0 s i x) := by
  have total := length_of_drop_eq_cons here
  have one : min 1 ((frameBlock s).length - i) = 1 := by omega
  have fetched : fetchVarint { i := i, x := x } (.ofBlock (.frame i0 h0)) (frameLength i0 h0 s i x) = [b] := by
    rw [fetchVarint, varintLimit, frameLength, blockBytes_frameState, blockLength_frameState, one, here,
      List.take_succ_cons, List.take_zero]
  rw [step_noEvents (s := frameLength i0 h0 s i x) noEvents]
  exact engineStep_varint rfl (rest := []) (by rw [fetched]; rfl)

/-- The bytes of a declared length that VarintDecode accepts, taken one a turn. -/
theorem reaches_blockBegin (noEvents : s.events = []) {bs : List Byte} {i n used : Nat} {x : DWord}
    (tenth : i ≤ 9) (here : (frameBlock s).drop i = bs) (decoded : refVarintFrom i x.toNat bs = (n, used))
    (accepted : used ≠ 0) :
    ∃ e, Reaches (frameLength i0 h0 s i x) (blockBegin (.frame i0 h0) n used (frameState s [] e)) := by
  induction bs generalizing i x with
  | nil =>
    cases decoded
    exact absurd rfl accepted
  | cons b bs ih =>
    have total := length_of_drop_eq_cons here
    have next := step_frameLength i0 h0 noEvents x here
    have group := toNat_groupBits b
    by_cases last : b.toNat < 128
    · have same : (b.extractLsb' 0 7).toNat = b.toNat := by omega
      rw [refVarintFrom_last _ _ last] at decoded
      split at decoded
      case isTrue large =>
        cases decoded
        exact absurd rfl accepted
      case isFalse fits =>
        have fits : i < 9 ∨ (b.extractLsb' 0 7).toNat ≤ 1 := by omega
        cases decoded
        rw [varintInstr_of_last last, exec_vbLast _ rfl, varintFinish_fits fits, varintDone_ofBlock,
          toNat_or_varintGroup x tenth fits, same] at next
        exact ⟨_, .single next⟩
    · have continues : 128 ≤ b.toNat := Nat.not_lt.mp last
      by_cases inside : i < 9
      · rw [refVarintFrom_continue inside _ continues, ← group, ← toNat_or_varintGroup x tenth (.inl inside)] at decoded
        have more : i + 1 < varintLimit (.ofBlock (.frame i0 h0)) (frameLength i0 h0 s i x) := by
          have nonempty : bs ≠ [] := by
            rintro rfl
            cases decoded
            exact accepted rfl
          have := List.length_pos_of_ne_nil nonempty
          rw [varintLimit, frameLength, blockLength_frameState]
          omega
        rw [varintInstr_of_continues continues, exec_vbCont _ rfl, varintContinue_more _ inside more] at next
        obtain ⟨e, others⟩ := ih inside (drop_succ_of_drop_eq_cons here) decoded
        exact ⟨e, .head next others⟩
      · rw [refVarintFrom, if_pos (by omega)] at decoded
        cases decoded
        exact absurd rfl accepted

end

/-! ### The encoder's blocks (42_block_encoder.md R203, R217) -/

theorem refVarintDecode_encodeWith (plan : List EmitOp) {src : List Byte} (small : src.length < 2 ^ 64) :
    refVarintDecode (encodeWith plan src) = (src.length, varintLength src.length) :=
  (varintLaws src.length small).1 (emitAll plan)

/-- After the declared length, BlockDecode takes the chunks up to the end of the block. -/
theorem chunkRun_encodeWith {plan : List EmitOp} {src : List Byte} (small : src.length < 2 ^ 64)
    (produces : Produces [] plan src) :
    ChunkRun (encodeWith plan src) src.length (varintLength src.length, []) ((encodeWith plan src).length, src) := by
  have body : (encodeWith plan src).drop (varintLength src.length) = emitAll plan ++ [] := by
    rw [List.append_nil]
    exact List.drop_left' (length_varintEncode small)
  have total : (encodeWith plan src).length = varintLength src.length + (emitAll plan).length := by
    rw [encodeWith, List.length_append, length_varintEncode small]
  exact total ▸ chunkRun_emitAll produces (Nat.le_refl src.length) body

/-- A compressed frame whose block is an encoding of `u` decodes to `u`, in as many turns as it takes. -/
theorem reaches_compressedBody {s : State} (i0 h0 : DWord) (noEvents : s.events = []) {plan : List EmitOp} {u : List Byte}
    (produces : Produces [] plan u) (block : frameBlock s = encodeWith plan u) (short : u.length ≤ 65536)
    (below : u.length ≤ s.cfg.maxDecodedLen.toNat) :
    ∃ e, Reaches (compressedBody i0 h0 s) (dataFrameDone i0 h0 (frameState s u e)) := by
  have small : u.length < 2 ^ 64 := by omega
  obtain ⟨least, -⟩ := varintLength_bounds u.length small
  have nonempty : blockLength (.frame i0 h0) (frameState s [] s.engine) ≠ 0 := by
    rw [blockLength_frameState, block, encodeWith, List.length_append, length_varintEncode small]
    omega
  have start : compressedBody i0 h0 s = frameLength i0 h0 s 0 0#64 := prefixBegin_nonempty nonempty
  obtain ⟨e, declared⟩ := reaches_blockBegin i0 h0 noEvents (x := 0#64) (Nat.zero_le 9) block
    (refVarintDecode_encodeWith plan small) (Nat.ne_of_gt least)
  have capacity : u.length ≤ blockCapacity (.frame i0 h0) (frameState s [] e) := short
  rw [blockBegin_fits (s := frameState s [] e) _ below capacity] at declared
  obtain ⟨e', chunks⟩ := reaches_frameChunks i0 h0 noEvents (block.symm ▸ chunkRun_encodeWith small produces) e
  exact ⟨e', start ▸ declared.trans chunks⟩

/-! ### Round trip of one frame (45_stream_writer.md R312) -/

/-- The writer's frame of `u` is read up to the end of its data, `u` in DBUF, in one turn if it is raw. -/
theorem reaches_dataFrameDone {s : State} {i0 h0 : DWord} {u rest : List Byte} (noEvents : s.events = [])
    (cursor : s.engine = .header i0 h0 []) (phase : s.srPhase = .streaming) (unlatched : s.inLatch = false)
    (nonempty : 1 ≤ u.length) (short : u.length ≤ 65536) (below : u.length ≤ s.cfg.maxDecodedLen.toNat)
    (offered : s.inPending = frameBytes s.cfg u ++ rest) :
    ∃ ty body e, frameBytes s.cfg u = ty :: leBytes 3 body.length ++ body ∧ body.take 4 = checksumField u ∧
      Reaches s (dataFrameDone i0 h0 (frameState (frameTaken body rest s) u e)) := by
  obtain ⟨ty, body, bytes, bound, field, choice⟩ := emitFrameIsOneFrame s.cfg u _ nonempty short rfl
  rw [bytes] at offered
  have least := four_le_of_take_eq_checksumField field
  have size : body.length < 2 ^ 24 := by omega
  split at choice
  · obtain ⟨rfl, block⟩ := choice
    obtain ⟨plan, encoded, produces⟩ := encodeBlock_eq_encodeWith s.cfg u
    have first := step_frame noEvents cursor phase unlatched (kind := .compressed) (fun _ => rfl) size
      ⟨least, bound⟩ offered
    obtain ⟨e, decodes⟩ := reaches_compressedBody i0 h0 (s := frameTaken body rest s) noEvents produces
      (block.trans encoded) short below
    exact ⟨_, body, e, bytes, field, .head first decodes⟩
  · obtain ⟨rfl, data⟩ := choice
    have total := congrArg List.length data
    rw [List.length_drop] at total
    have fits : body.length ≤ Config.maxBlock + 4 := by
      simp only [Config.maxBlock]
      omega
    have first := step_frame noEvents cursor phase unlatched (kind := .uncompressed) (fun _ => rfl) size
      ⟨least, fits⟩ offered
    exact ⟨_, body, s.engine, bytes, field, .single (data ▸ first)⟩

/-- Settles O49: the frame is read to the end of its data, whose checksum agrees, and the data are delivered. -/
theorem writerFrameReadsBack : Obligations.WriterFrameReadsBack := by
  unfold Obligations.WriterFrameReadsBack
  intro s i0 h0 u rest noEvents cursor phase unlatched _ nonempty short below offered
  obtain ⟨ty, body, e, bytes, field, reaches⟩ :=
    reaches_dataFrameDone noEvents cursor phase unlatched nonempty short below offered
  have total : (frameBytes s.cfg u).length = 4 + body.length := by
    rw [bytes, List.length_append]
    rfl
  have dropped : (frameBytes s.cfg u).drop 4 = body := by
    rw [bytes]
    exact List.drop_left' rfl
  obtain ⟨-, -, delivered⟩ := dataFrameDone_outcomes i0 h0 (s := frameState (frameTaken body rest s) u e)
    (four_le_of_take_eq_checksumField field)
  obtain ⟨m, n, count, delivers, written⟩ := delivered field (List.ne_nil_of_length_pos nonempty)
  obtain ⟨k, run⟩ := reaches.exists_run
  rw [delivers] at run
  rw [total, dropped]
  exact ⟨k, m, n, count, run, written⟩

end Sys2Proof.Machine
end

section
/-! The commands of the stream writer (O36 to O40; 45_stream_writer.md R302 to R311) and SR_RESET (46_stream_reader.md R369),
while the sink accepts everything: what each puts and leaves, and which states SW_STATUS shows meanwhile. -/

namespace Sys2Proof.Machine

/-! ### The resets and the closed writer (R310, R311, R369) -/

/-- Settles O39: both resets complete in their own step. -/
theorem instanceResetsComplete : Obligations.InstanceResetsComplete := by
  unfold Obligations.InstanceResetsComplete
  exact fun s => ⟨rfl, rfl, rfl, rfl⟩

/-- Settles O40: the check of SW_STATE comes first, or right after the region check. -/
theorem closedWriterRaisesClosed : Obligations.ClosedWriterRaisesClosed := by
  unfold Obligations.ClosedWriterRaisesClosed
  intro s closed
  refine ⟨fun valid => ?_, if_pos closed, if_pos closed⟩
  exact (if_neg (by simp [valid])).trans (if_pos closed)

/-! ### An open writer runs its actions -/

section
variable {s : State} (opened : s.swState ≠ .closed)
include opened

theorem exec_swWrite (valid : srcValid s = true) :
    exec .swWrite s = .next (runWriter s.latch.srcLen.toNat (swWriteOps s) 0 s) :=
  (if_neg (by simp [valid])).trans (if_neg opened)

theorem exec_swFlush : exec .swFlush s = .next (runWriter s.ibuf.length (swFlushOps s) 0 s) := if_neg opened

theorem exec_swClose : exec .swClose s = .next (runWriter s.ibuf.length (swCloseOps s) 0 s) := if_neg opened

theorem commandStates_swWrite (valid : srcValid s = true) : commandStates .swWrite s = writerStates (swWriteOps s) s :=
  if_neg (by simp [valid, opened])

theorem commandStates_swFlush : commandStates .swFlush s = writerStates (swFlushOps s) s := if_neg opened

theorem commandStates_swClose : commandStates .swClose s = writerStates (swCloseOps s) s := if_neg opened

end

/-! ### What a flush puts -/

/-- The frame SW_FLUSH puts after the marker, if IBUF holds bytes (R308). -/
def flushedFrame (s : State) : List Byte := if s.ibuf = [] then [] else frameBytes s.cfg s.ibuf

/-- EmitFrame of IBUF, if it holds bytes, all of it accepted. -/
theorem runWriter_flushOps {s : State} (resLen : Nat) (ops : List WriterOp) (o : Nat) (room : s.outRoom = none) :
    runWriter resLen (flushOps s ++ ops) o s =
      runWriter resLen ops (o + (flushedFrame s).length) { s with ibuf := [], out := s.out ++ flushedFrame s } := by
  unfold flushOps flushedFrame
  by_cases empty : s.ibuf = []
  · rw [if_pos empty, if_pos empty, List.append_nil, List.nil_append, List.length_nil, Nat.add_zero, ← empty]
  · rw [if_neg empty, if_neg empty, List.singleton_append, runWriter_frame _ _ _ room]

/-- SW_FLUSH and then more: the marker if it is owed, and IBUF as one frame (R308, R309). -/
theorem runWriter_swFlushOps {s : State} (resLen : Nat) (ops : List WriterOp) (room : s.outRoom = none)
    (opened : s.swState ≠ .closed) :
    runWriter resLen (swFlushOps s ++ ops) 0 s =
      runWriter resLen ops (markerOwed s ++ flushedFrame s).length
        { s with swState := .active, ibuf := [], out := s.out ++ (markerOwed s ++ flushedFrame s) } := by
  rw [swFlushOps, List.append_assoc, runWriter_marker _ _ room opened, List.length_append, ← List.append_assoc]
  exact runWriter_flushOps (s := { s with swState := .active, out := s.out ++ markerOwed s }) resLen ops _ room

/-! ### What SW_STATUS shows of the states of a list (70_reset_and_hazards.md R463) -/

/-- One of the states is in SW_STATE `st` with `len` bytes in IBUF. -/
def Shows (l : List State) (st : SwState) (len : Nat) : Prop := ∃ u ∈ l, u.swState = st ∧ u.ibuf.length = len

section
variable {st : SwState} {len : Nat}

theorem shows_cons_iff {s : State} {l : List State} :
    Shows (s :: l) st len ↔ (st = s.swState ∧ len = s.ibuf.length) ∨ Shows l st len := by
  unfold Shows
  rw [List.exists_mem_cons_iff, eq_comm (a := st), eq_comm (a := len)]

theorem shows_append_iff {l l' : List State} : Shows (l ++ l') st len ↔ Shows l st len ∨ Shows l' st len := by
  unfold Shows
  simp only [List.mem_append, or_and_right, exists_or]

theorem shows_writerStates_nil_iff {s : State} :
    Shows (writerStates [] s) st len ↔ st = s.swState ∧ len = s.ibuf.length := by
  rw [writerStates, shows_cons_iff]
  simp [Shows]

/-- Every list of actions shows the state it starts in. -/
theorem shows_start {s : State} {ops : List WriterOp} (now : st = s.swState ∧ len = s.ibuf.length) :
    Shows (writerStates ops s) st len :=
  ⟨s, self_mem_writerStates ops s, now.1.symm, now.2.symm⟩

/-- The marker, if it is owed, shows the state as it is; then the actions after it start in ACTIVE (R304). -/
theorem shows_markerOps_iff {s : State} {ops : List WriterOp} (room : s.outRoom = none) (opened : s.swState ≠ .closed) :
    Shows (writerStates (markerOps s ++ ops) s) st len ↔
      (st = s.swState ∧ len = s.ibuf.length) ∨
        Shows (writerStates ops { s with swState := .active, out := s.out ++ markerOwed s }) st len := by
  unfold markerOps markerOwed
  by_cases unstarted : s.swState = .unstarted
  · rw [if_pos unstarted, if_pos unstarted, List.cons_append, List.singleton_append, writerStates_put_none _ _ room,
      writerStates, shows_cons_iff, shows_cons_iff, ← or_assoc, or_self]
  · have active : SwState.active = s.swState := by
      cases h : s.swState <;> simp_all
    rw [if_neg unstarted, if_neg unstarted, List.append_nil, List.nil_append, active]
    exact (or_iff_right_of_imp shows_start).symm

/-- `len` is IBUF_LEN after one of the states of n source bytes put behind `held` bytes: counted from the last full block,
or 65536 before a full IBUF is framed (R302, R303). -/
def FillLength (held n len : Nat) : Prop := len ≤ 65536 ∧ ∃ j c, j ≤ n ∧ held + j = 65536 * c + len

theorem fillLength_iff_of_short {held n : Nat} (fits : n < 65536 - held) :
    FillLength held n len ↔ (∃ j < n, len = held + j) ∨ len = held + n := by
  constructor
  · rintro ⟨_, j, c, _, _⟩
    by_cases last : j = n
    · exact .inr (by omega)
    · exact .inl ⟨j, by omega, by omega⟩
  · rintro (⟨j, _, rfl⟩ | rfl)
    · exact ⟨by omega, j, 0, by omega, by omega⟩
    · exact ⟨by omega, n, 0, by omega, by omega⟩

theorem fillLength_iff_of_full {held n : Nat} (short : held < 65536) (full : 65536 - held ≤ n) :
    FillLength held n len ↔
      (∃ j < 65536 - held, len = held + j) ∨ len = 65536 ∨ FillLength 0 (n - (65536 - held)) len := by
  constructor
  · rintro ⟨most, j, c, _, total⟩
    obtain _ | c := c
    · by_cases last : j = 65536 - held
      · exact .inr (.inl (by omega))
      · exact .inl ⟨j, by omega, by omega⟩
    · exact .inr (.inr ⟨most, j - (65536 - held), c, by omega, by omega⟩)
  · rintro (⟨j, _, rfl⟩ | rfl | ⟨most, j, c, _, _⟩)
    · exact ⟨by omega, j, 0, by omega, by omega⟩
    · exact ⟨by omega, 65536 - held, 0, by omega, by omega⟩
    · exact ⟨most, (65536 - held) + j, c + 1, by omega, by omega⟩

theorem length_append_sourceSlice (s : State) (k n : Nat) :
    (s.ibuf ++ sourceSlice k n s).length = s.ibuf.length + n := by
  rw [List.length_append, sourceSlice, Memory.read_length]

/-- IBUF takes source bytes one by one (R302). -/
theorem shows_fill_iff {s : State} {ops : List WriterOp} {k n : Nat} :
    Shows (writerStates (.fill k n :: ops) s) st len ↔
      (st = s.swState ∧ ∃ j < n, len = s.ibuf.length + j) ∨
        Shows (writerStates ops { s with ibuf := s.ibuf ++ sourceSlice k n s }) st len := by
  rw [writerStates, shows_append_iff]
  refine or_congr_left ⟨?_, ?_⟩
  · rintro ⟨u, mem, rfl, rfl⟩
    obtain ⟨j, inside, rfl⟩ := List.mem_map.mp mem
    exact ⟨rfl, j, List.mem_range.mp inside, length_append_sourceSlice s k j⟩
  · rintro ⟨rfl, j, inside, rfl⟩
    exact ⟨_, List.mem_map_of_mem (List.mem_range.mpr inside), rfl, length_append_sourceSlice s k j⟩

/-- EmitFrame shows IBUF as it is, and then empty (R305). -/
theorem shows_frame_iff {s : State} {ops : List WriterOp} (room : s.outRoom = none) :
    Shows (writerStates (.frame :: ops) s) st len ↔
      (st = s.swState ∧ len = s.ibuf.length) ∨
        Shows (writerStates ops { s with ibuf := [], out := s.out ++ frameBytes s.cfg s.ibuf }) st len := by
  rw [writerStates_frame_none _ room, shows_cons_iff]

/-- The loop of SW_WRITE shows IBUF_LEN after each of the source bytes (R302, R303). -/
theorem shows_fillOps_iff {fuel : Nat} {s : State} {k n : Nat} (room : s.outRoom = none) (short : s.ibuf.length < 65536)
    (enough : (s.ibuf.length + n) / 65536 < fuel) :
    Shows (writerStates (fillOps fuel s.ibuf.length k n) s) st len ↔
      st = s.swState ∧ FillLength s.ibuf.length n len := by
  induction fuel generalizing s k n with
  | zero => exact absurd enough (Nat.not_lt_zero _)
  | succ fuel ih =>
    simp only [fillOps, Config.maxBlock]
    by_cases fits : n < 65536 - s.ibuf.length
    · rw [if_pos fits, shows_fill_iff, shows_writerStates_nil_iff, length_append_sourceSlice, ← and_or_left,
        fillLength_iff_of_short fits]
    · rw [if_neg fits]
      have others := ih (k := k + (65536 - s.ibuf.length)) (n := n - (65536 - s.ibuf.length))
        (s := { s with
          ibuf := []
          out := s.out ++ frameBytes s.cfg (s.ibuf ++ sourceSlice k (65536 - s.ibuf.length) s) })
        room (by simp) (by simp only [List.length_nil]; omega)
      have framed := (shows_frame_iff (s := { s with ibuf := s.ibuf ++ sourceSlice k (65536 - s.ibuf.length) s })
        room).trans (or_congr_right others)
      rw [length_append_sourceSlice, Nat.add_sub_of_le short.le, ← and_or_left] at framed
      refine (shows_fill_iff.trans (or_congr_right framed)).trans ?_
      rw [← and_or_left, fillLength_iff_of_full short (Nat.not_lt.mp fits)]
      rfl

/-- IBUF, framed if it holds bytes, is shown as it is, and then empty (R308). -/
theorem shows_flushOps_iff {s : State} {ops : List WriterOp} (room : s.outRoom = none) :
    Shows (writerStates (flushOps s ++ ops) s) st len ↔
      (st = s.swState ∧ len = s.ibuf.length) ∨
        Shows (writerStates ops { s with ibuf := [], out := s.out ++ flushedFrame s }) st len := by
  unfold flushOps flushedFrame
  by_cases empty : s.ibuf = []
  · rw [if_pos empty, if_pos empty, List.append_nil, List.nil_append, ← empty]
    exact (or_iff_right_of_imp shows_start).symm
  · rw [if_neg empty, if_neg empty, List.singleton_append, shows_frame_iff room]

/-- SW_FLUSH and then more: the state it starts in, or ACTIVE with IBUF as it was or empty (R308, R309). -/
theorem shows_swFlushOps_iff {s : State} {ops : List WriterOp} (room : s.outRoom = none) (opened : s.swState ≠ .closed) :
    Shows (writerStates (swFlushOps s ++ ops) s) st len ↔
      (st = s.swState ∧ len = s.ibuf.length) ∨ (st = .active ∧ len = s.ibuf.length) ∨
        Shows (writerStates ops
          { s with swState := .active, ibuf := [], out := s.out ++ markerOwed s ++ flushedFrame s }) st len := by
  rw [swFlushOps, List.append_assoc, shows_markerOps_iff room opened]
  exact or_congr_right (shows_flushOps_iff (s := { s with swState := .active, out := s.out ++ markerOwed s }) room)

end

/-! ### The commands (R302, R308, R309) -/

/-- Settles O36: the marker, then the loop over IBUF and the source, for the bytes put and for the states shown. -/
theorem swWriteCompletes : Obligations.SwWriteCompletes := by
  unfold Obligations.SwWriteCompletes
  intro s room valid opened short
  have size : s.latch.srcLen.toNat < 2 ^ 32 := s.latch.srcLen.isLt
  have enough : (s.ibuf.length + s.latch.srcLen.toNat) / 65536 < s.latch.srcLen.toNat / 65536 + 2 := by omega
  refine ⟨fun st len => ?_, ?_⟩
  · rw [commandStates_swWrite opened valid, swWriteOps]
    refine (shows_markerOps_iff room opened).trans (or_congr_right ?_)
    exact shows_fillOps_iff (s := { s with swState := .active, out := s.out ++ markerOwed s }) room short enough
  · rintro data frames keep source sliced
    have length : data.length = s.ibuf.length + s.latch.srcLen.toNat := by
      rw [source, List.length_append, Memory.read_length]
    have slices : (s.ibuf.length + s.latch.srcLen.toNat) / Config.maxBlock ≤ data.length := by
      rw [← length]
      exact Nat.div_le_self ..
    refine ⟨?_, ?_⟩
    · have kept := refSlices_keep s.cfg data.length data (Nat.div_le_self ..)
      rwa [sliced] at kept
    · have runs := runWriter_fill s.latch.srcLen.toNat _ data.length
        { s with swState := .active, out := s.out ++ markerOwed s } 0 s.latch.srcLen.toNat
        (markerOwed s).length room short enough slices
      simp only [sourceSlice, Nat.add_zero, ← source, sliced] at runs
      rw [exec_swWrite opened valid, swWriteOps, runWriter_marker _ _ room opened, List.length_append, ← List.append_assoc]
      exact congrArg _ runs

/-- Settles O37: the actions of SW_FLUSH and nothing after them. -/
theorem swFlushCompletes : Obligations.SwFlushCompletes := by
  unfold Obligations.SwFlushCompletes
  intro s room opened
  refine ⟨fun st len => ?_, ?_⟩
  · rw [commandStates_swFlush opened, ← List.append_nil (swFlushOps s)]
    refine (shows_swFlushOps_iff room opened).trans (or_congr_right ?_)
    rw [shows_writerStates_nil_iff, ← and_or_left]
    rfl
  · rintro frame rfl
    rw [exec_swFlush opened, ← List.append_nil (swFlushOps s), runWriter_swFlushOps _ _ room opened]
    rfl

/-- Settles O38: the actions of SW_FLUSH, and then CLOSED. -/
theorem swCloseCompletes : Obligations.SwCloseCompletes := by
  unfold Obligations.SwCloseCompletes
  intro s room opened
  refine ⟨fun st len => ?_, ?_⟩
  · rw [commandStates_swClose opened, swCloseOps]
    refine (shows_swFlushOps_iff room opened).trans (or_congr_right ?_)
    rw [writerStates, shows_cons_iff, shows_writerStates_nil_iff, ← or_assoc, ← and_or_left]
    rfl
  · rintro frame rfl
    rw [exec_swClose opened, swCloseOps, runWriter_swFlushOps _ _ room opened]
    rfl

end Sys2Proof.Machine
end

section
/-! SR_READ and the frames it reads, each with its body offered whole (O42 to O47; 46_stream_reader.md R341 to R354): the
checks before a frame, what each frame does with its body, and the delivery. -/

namespace Sys2Proof.Machine

/-! ### SR_READ at a frame or with leftover (R341 to R343) -/

/-- SR_READ past the checks of its operands and of the sticky condition. -/
theorem exec_srRead {s : State} (valid : dstValid s = true) (fine : s.srErr = .none) (room : s.latch.dstCap.toNat ≠ 0) :
    exec .srRead s = .next (readerLoop s.srInpos s) :=
  (if_neg (by simp [valid])).trans ((if_neg (not_not.mpr fine)).trans (if_neg room))

/-- Settles O42: the checks in their order, then the two ways the reader's loop can go. -/
theorem srReadChecksThenDelivers : Obligations.SrReadChecksThenDelivers := by
  unfold Obligations.SrReadChecksThenDelivers
  refine ⟨⟨rfl, rfl, rfl, rfl⟩, fun s => ⟨?badArg, ?sticky, ?noRoom, ?noLeftover, ?leftover⟩⟩
  case badArg => exact exec_dstInvalid (by simp)
  case sticky =>
    intro valid sticky
    exact (if_neg (by simp [valid])).trans (if_pos sticky)
  case noRoom =>
    intro valid fine noRoom
    exact (if_neg (by simp [valid])).trans ((if_neg (not_not.mpr fine)).trans (if_pos noRoom))
  case noLeftover =>
    intro valid fine room empty
    rw [exec_srRead valid fine room]
    exact congrArg _ (if_pos empty)
  case leftover =>
    intro valid fine room pending held
    refine ⟨_, _, rfl, ?_, Memory.memWritten_write _ _ _, ?_⟩
    · rw [exec_srRead valid fine room, readerLoop, if_neg pending.ne, deliver, BitVec.sub_self]
      rfl
    · rw [List.length_take, List.length_drop]
      omega

/-! ### The checks before a frame (R345, R346, R354) -/

theorem atHeader_header (f : DWord → DWord → State → State) {s : State} {i0 h0 : DWord} {h : List Byte}
    (cursor : s.engine = .header i0 h0 h) : atHeader f s = .next (f i0 h0 s) := by
  simp only [atHeader, cursor]

/-- A frame at its header runs the checks; only the stream marker's leave out the phase. -/
theorem exec_frame {i : Instr} {n : Nat} {s : State} {i0 h0 : DWord} {h : List Byte} (form : frameLen i = some n)
    (cursor : s.engine = .header i0 h0 h) :
    ∃ marker len f, len.toNat = n ∧ (marker = true ↔ ∃ len, i = .ftStreamId len) ∧
      exec i s = .next (frameGate marker len f i0 h0 s) := by
  cases i with
  | ftStreamId len =>
    cases form
    exact ⟨true, len, _, rfl, by simp, atHeader_header _ cursor⟩
  | ftCompressed len | ftUncompressed len | ftPadding len | ftReservedUnskippable _ len | ftReservedSkippable _ len =>
    cases form
    exact ⟨false, len, _, rfl, by simp, atHeader_header _ cursor⟩
  | _ => cases form

section
variable {marker : Bool} {len : BitVec 24} {f : DWord → DWord → State → State} {i0 h0 : DWord} {s : State}

theorem frameGate_awaitMarker (phase : s.srPhase = .awaitMarker) :
    frameGate false len f i0 h0 s = srFail .corrupt h0 s :=
  if_pos (by simp [phase])

theorem frameGate_phase (passes : marker = true ∨ s.srPhase = .streaming) :
    frameGate marker len f i0 h0 s =
      if len.toNat > Config.maxFrameLen then srFail .unsupported h0 s else f i0 h0 { s with fbuf := [] } :=
  if_neg (by obtain passes | passes := passes <;> simp [passes])

/-- A frame that rejects its header, past the checks. -/
theorem atHeader_rejected {h : List Byte} {e : SrErr} (cursor : s.engine = .header i0 h0 h)
    (passes : marker = true ∨ s.srPhase = .streaming) (short : len.toNat ≤ 76494)
    (rejects : f i0 h0 { s with fbuf := [] } = srFail e h0 { s with fbuf := [] }) :
    ReaderFailed e h0 { s with fbuf := [] } (atHeader (frameGate marker len f) s) := by
  rw [atHeader_header _ cursor, frameGate_phase passes, if_neg (Nat.not_lt.mpr short), rejects]
  exact srFail_failed e h0 _

end

/-- Settles O43: the three rejections in the order of the checks. -/
theorem frameGateErrors : Obligations.FrameGateErrors := by
  unfold Obligations.FrameGateErrors
  intro i n s i0 h0 h form cursor
  obtain ⟨marker, len, f, rfl, isMarker, runs⟩ := exec_frame form cursor
  refine ⟨fun other phase => ?_, fun passes long => ?_, ?_⟩
  · obtain rfl : marker = false := by
      rw [Bool.eq_false_iff, ne_eq, isMarker]
      exact not_exists.mpr other
    rw [runs, frameGate_awaitMarker phase]
    exact srFail_failed .corrupt h0 s
  · rw [runs, frameGate_phase (passes.imp_left isMarker.mpr), if_pos long]
    exact srFail_failed .unsupported h0 s
  · rintro ty len' rfl phase short
    exact atHeader_rejected cursor (.inr phase) ((Option.some.inj form).trans_le short) rfl

/-! ### A frame whose body is offered whole (R347 to R353) -/

/-- The body is taken into FBUF, and then the frame's own work is done. -/
theorem exec_wholeBody {i : Instr} {kind : BodyKind} {len : Nat} {s : State} {i0 h0 : DWord} {h : List Byte}
    (form : bodyForm i = some (kind, len)) (fits : kind.lengthOk len) (phase : kind = .streamId ∨ s.srPhase = .streaming)
    (cursor : s.engine = .header i0 h0 h) (unlatched : s.inLatch = false) (offered : len ≤ s.inPending.length) :
    exec i s = .next (bodyDone i0 h0 kind (BodyTaken len s)) := by
  rw [exec_bodyForm form fits phase cursor, readBody_whole i0 h0 kind len s unlatched offered]

/-- Settles O44: the body is taken and nothing is done with it. -/
theorem skippedFramesComplete : Obligations.SkippedFramesComplete := by
  unfold Obligations.SkippedFramesComplete
  intro i len ty s i0 h0 h kind cursor phase short unlatched offered empty
  have form : bodyForm i = some (.skipped, len.toNat) := by
    obtain rfl | rfl := kind <;> rfl
  rw [exec_wholeBody form short (.inr phase) cursor unlatched offered]
  exact congrArg _ (if_pos empty)

theorem streamIdBody_magic (i0 h0 : DWord) {s : State} (magic : s.fbuf = Config.magic) :
    streamIdBody i0 h0 s = readerLoop i0 { s with srPhase := .streaming } :=
  if_neg (not_not.mpr magic)

theorem streamIdBody_other (i0 h0 : DWord) {s : State} (other : s.fbuf ≠ Config.magic) :
    streamIdBody i0 h0 s = srFail .corrupt h0 s :=
  if_pos other

/-- Settles O45: LEN is checked first, then the six bytes. -/
theorem streamMarkerCompletes : Obligations.StreamMarkerCompletes := by
  unfold Obligations.StreamMarkerCompletes
  intro s i0 h0 h cursor unlatched
  have whole : 6 ≤ s.inPending.length →
      exec (.ftStreamId 6#24) s = .next (streamIdBody i0 h0 (BodyTaken 6 s)) :=
    exec_wholeBody (kind := .streamId) rfl rfl (.inl rfl) cursor unlatched
  refine ⟨fun offered magic empty => ?_, fun offered other => ?_, fun len other short => ?_⟩
  · rw [whole offered, streamIdBody_magic i0 h0 magic]
    exact congrArg _ (if_pos empty)
  · rw [whole offered, streamIdBody_other i0 h0 other]
    exact srFail_failed .corrupt h0 _
  · have length : len.toNat ≠ 6 := fun six => other (BitVec.eq_of_toNat_eq six)
    exact atHeader_rejected cursor (.inl rfl) short (if_pos length)

theorem uncompressedFrame_badLength {len : BitVec 24} (bad : len.toNat < 4 ∨ 65540 < len.toNat) (i0 h0 : DWord)
    (s : State) : uncompressedFrame len i0 h0 s = srFail .corrupt h0 s := by
  obtain few | many := bad
  · exact if_pos few
  · have large : len.toNat - 4 > Config.maxBlock := Nat.lt_sub_of_add_lt many
    exact (if_neg (by omega)).trans (if_pos large)

/-- Settles O46: LEN is checked first; then the body's data are in DBUF, and a data frame ends as `dataFrameDone` says. -/
theorem uncompressedFrameCompletes : Obligations.UncompressedFrameCompletes := by
  unfold Obligations.UncompressedFrameCompletes
  intro len s i0 h0 h cursor phase unlatched short
  refine ⟨fun bad => ?_, ?_⟩
  · exact atHeader_rejected cursor (.inr phase) short (uncompressedFrame_badLength bad i0 h0 _)
  rintro least most offered data rfl
  have whole := exec_wholeBody (i := .ftUncompressed len) (kind := .uncompressed) rfl ⟨least, most⟩ (.inr phase) cursor
    unlatched offered
  have length : ((s.inPending.take len.toNat).drop 4).length = len.toNat - 4 := by
    rw [List.length_drop, List.length_take_of_le offered]
  have field : (s.inPending.take len.toNat).take 4 = s.inPending.take 4 := by
    rw [List.take_take, Nat.min_eq_left least]
  obtain ⟨differs, agreesEmpty, agrees⟩ := dataFrameDone_outcomes i0 h0
    (s := { BodyTaken len.toNat s with dbuf := (s.inPending.take len.toNat).drop 4 })
    (least.trans (List.length_take_of_le offered).ge)
  rw [whole, ← field]
  refine ⟨differs, fun same four => ?_, fun same more => ?_⟩
  · have empty : (s.inPending.take len.toNat).drop 4 = [] := List.eq_nil_of_length_eq_zero (by omega)
    exact congrArg _ (agreesEmpty same empty)
  · have nonempty : (s.inPending.take len.toNat).drop 4 ≠ [] := List.ne_nil_of_length_pos (by omega)
    obtain ⟨m, n, count, delivers, written⟩ := agrees same nonempty
    exact ⟨m, n, count, congrArg _ delivers, written⟩

/-- Settles O47: LEN is checked first; then the block decoder starts, unless there is no block. -/
theorem compressedFrameStarts : Obligations.CompressedFrameStarts := by
  unfold Obligations.CompressedFrameStarts
  intro len s i0 h0 h cursor phase unlatched short
  have whole (least : 4 ≤ len.toNat) (offered : len.toNat ≤ s.inPending.length) :
      exec (.ftCompressed len) s =
        .next (prefixBegin (.frame i0 h0) { BodyTaken len.toNat s with dbuf := [] }) :=
    exec_wholeBody (kind := .compressed) rfl ⟨least, short⟩ (.inr phase) cursor unlatched offered
  have block (offered : len.toNat ≤ s.inPending.length) :
      blockLength (.frame i0 h0) { BodyTaken len.toNat s with dbuf := [] } = len.toNat - 4 :=
    congrArg (· - 4) (List.length_take_of_le offered)
  refine ⟨fun few => ?_, fun four offered => ?_, fun more offered => ?_⟩
  · exact atHeader_rejected cursor (.inr phase) short (if_pos few)
  · rw [← four] at offered
    rw [whole four.ge offered, prefixBegin_empty ((block offered).trans (by omega)), ← four]
    exact srFail_failed .corrupt h0 _
  · rw [whole more.le offered, prefixBegin_nonempty ((block offered).trans_ne (by omega))]

end Sys2Proof.Machine
end

section
/-! Scenario D for raw frames (O34; 46_stream_reader.md R359(b)): the checksum detects every error burst of at most four bytes.
A bit step of the checksum engine (44_checksum.md R280) is linear over XOR and loses nothing; so the bytes after the damage keep
two different values apart, and the damaged bytes, which the register holds side by side, set them apart. -/

namespace Sys2Proof.Machine

/-! ### The bit steps are linear and lose nothing -/

theorem crcBit_eq (c : Word) : crcBit c = c >>> 1 ^^^ if c.getLsbD 0 then 0x82F63B78#32 else 0#32 := by
  unfold crcBit
  split
  · rfl
  · exact BitVec.xor_zero.symm

theorem crcBit_xor (a b : Word) : crcBit (a ^^^ b) = crcBit a ^^^ crcBit b := by
  have divisor : ∀ p q : Bool, (if (p ^^ q) then 0x82F63B78#32 else 0#32) =
      (if p then 0x82F63B78#32 else 0#32) ^^^ (if q then 0x82F63B78#32 else 0#32) := by decide
  rw [crcBit_eq, crcBit_eq, crcBit_eq, BitVec.getLsbD_xor, BitVec.ushiftRight_xor_distrib, divisor]
  ac_rfl

/-- The divisor's top bit shows which way a step went. -/
theorem eq_zero_of_crcBit_eq_zero {c : Word} (zero : crcBit c = 0#32) : c = 0#32 := by
  unfold crcBit at zero
  split at zero
  case isTrue odd =>
    have top := congrArg (BitVec.getLsbD · 31) zero
    simp at top
  case isFalse even =>
    have half := congrArg BitVec.toNat zero
    rw [BitVec.getLsbD, Nat.testBit_zero, decide_eq_true_iff] at even
    rw [BitVec.toNat_ushiftRight, Nat.shiftRight_eq_div_pow, BitVec.toNat_ofNat] at half
    exact BitVec.eq_of_toNat_eq (show c.toNat = 0 by omega)

theorem crcBit_injective : Function.Injective crcBit := fun a b same =>
  BitVec.xor_eq_zero_iff.mp (eq_zero_of_crcBit_eq_zero (by rw [crcBit_xor, same, BitVec.xor_self]))

theorem crcBits_xor (n : Nat) (a b : Word) : crcBits n (a ^^^ b) = crcBits n a ^^^ crcBits n b := by
  induction n generalizing a b with
  | zero => rfl
  | succ n ih => rw [crcBits, crcBit_xor, ih, crcBits, crcBits]

theorem crcBits_add (m n : Nat) (c : Word) : crcBits (m + n) c = crcBits n (crcBits m c) := by
  induction m generalizing c with
  | zero => rw [Nat.zero_add]; rfl
  | succ m ih => rw [Nat.succ_add, crcBits, ih, crcBits]

theorem crcBits_injective (n : Nat) : Function.Injective (crcBits n) := by
  induction n with
  | zero => exact Function.injective_id
  | succ n ih => exact ih.comp crcBit_injective

/-! ### Alike bytes keep two values apart -/

theorem crcByte_injective (x : Byte) : Function.Injective (crcByte · x) := fun _ _ same =>
  (BitVec.xor_left_inj _).mp (crcBits_injective 8 same)

theorem crcBytes_injective (bs : List Byte) : Function.Injective (crcBytes · bs) := by
  induction bs with
  | nil => exact Function.injective_id
  | cons x xs ih => exact ih.comp (crcByte_injective x)

theorem crcBytes_append (c : Word) (xs ys : List Byte) : crcBytes c (xs ++ ys) = crcBytes (crcBytes c xs) ys := by
  induction xs generalizing c with
  | nil => rfl
  | cons x xs ih => exact ih (crcByte c x)

/-! ### At most four bytes are one number in the register -/

theorem crcBit_even {m : Nat} (fits : 2 * m < 2 ^ 32) : crcBit (BitVec.ofNat 32 (2 * m)) = BitVec.ofNat 32 m := by
  have even : ¬(BitVec.ofNat 32 (2 * m)).getLsbD 0 = true := by
    rw [BitVec.getLsbD_ofNat, Nat.testBit_zero, Nat.mul_mod_right]
    decide
  unfold crcBit
  rw [if_neg even]
  apply BitVec.eq_of_toNat_eq
  rw [BitVec.toNat_ushiftRight, Nat.shiftRight_eq_div_pow, BitVec.toNat_ofNat, BitVec.toNat_ofNat]
  omega

/-- A number whose last n bits are 0 is shifted out of them. -/
theorem crcBits_multiple (n : Nat) {m : Nat} (fits : 2 ^ n * m < 2 ^ 32) :
    crcBits n (BitVec.ofNat 32 (2 ^ n * m)) = BitVec.ofNat 32 m := by
  induction n with
  | zero => rw [pow_zero, Nat.one_mul]; rfl
  | succ n ih =>
    rw [pow_succ', Nat.mul_assoc] at fits ⊢
    rw [crcBits, crcBit_even fits, ih (by omega)]

/-- A byte and the number above it do not overlap. -/
theorem byte_xor_multiple (x : Byte) {m : Nat} (fits : x.toNat + 2 ^ 8 * m < 2 ^ 32) :
    x.setWidth 32 ^^^ BitVec.ofNat 32 (2 ^ 8 * m) = BitVec.ofNat 32 (x.toNat + 2 ^ 8 * m) := by
  have disjoint : x.toNat ^^^ 2 ^ 8 * m = 2 ^ 8 * m + x.toNat := by
    refine Nat.eq_of_testBit_eq fun j => ?_
    rw [Nat.testBit_xor, Nat.testBit_two_pow_mul, Nat.testBit_two_pow_mul_add m x.isLt]
    by_cases low : j < 8
    · simp [low, Nat.not_le.mpr low]
    · have high : 2 ^ 8 ≤ 2 ^ j := Nat.pow_le_pow_right (by decide) (Nat.not_lt.mp low)
      simp [low, Nat.testBit_lt_two_pow (x.isLt.trans_le high), Nat.not_lt.mp low]
  apply BitVec.eq_of_toNat_eq
  rw [BitVec.toNat_xor, BitVec.toNat_setWidth, BitVec.toNat_ofNat, BitVec.toNat_ofNat, Nat.mod_eq_of_lt (by omega),
    Nat.mod_eq_of_lt (by omega), Nat.mod_eq_of_lt fits, disjoint,
    Nat.add_comm]

theorem leNat_lt_of_short {bs : List Byte} (short : bs.length ≤ 4) : leNat bs < 2 ^ 32 :=
  (leNat_lt bs).trans_le (Nat.pow_le_pow_right (n := 256) (by decide) short)

/-- The bytes enter the register as the number they spell, least significant byte first. -/
theorem crcBytes_eq_crcBits (c : Word) {bs : List Byte} (short : bs.length ≤ 4) :
    crcBytes c bs = crcBits (8 * bs.length) (c ^^^ BitVec.ofNat 32 (leNat bs)) := by
  induction bs generalizing c with
  | nil => exact BitVec.xor_zero.symm
  | cons x xs ih =>
    have all : x.toNat + 2 ^ 8 * leNat xs < 2 ^ 32 := leNat_lt_of_short (bs := x :: xs) short
    calc crcBytes c (x :: xs)
      _ = crcBits (8 * xs.length) (crcBits 8 (c ^^^ x.setWidth 32) ^^^ BitVec.ofNat 32 (leNat xs)) :=
        ih (crcByte c x) (Nat.le_of_succ_le short)
      _ = crcBits (8 * xs.length) (crcBits 8 (c ^^^ x.setWidth 32 ^^^ BitVec.ofNat 32 (2 ^ 8 * leNat xs))) := by
        rw [crcBits_xor 8 (c ^^^ _), crcBits_multiple 8 (Nat.lt_of_le_of_lt (Nat.le_add_left ..) all)]
      _ = crcBits (8 * (x :: xs).length) (c ^^^ BitVec.ofNat 32 (leNat (x :: xs))) := by
        rw [BitVec.xor_assoc, byte_xor_multiple x all, ← crcBits_add, List.length_cons, Nat.mul_succ,
          Nat.add_comm]
        rfl

/-- Two strings of the same length up to four never lead from one value to one value. -/
theorem eq_of_crcBytes_eq {c : Word} {xs ys : List Byte} (length : xs.length = ys.length) (short : ys.length ≤ 4)
    (same : crcBytes c xs = crcBytes c ys) : xs = ys := by
  rw [crcBytes_eq_crcBits c short, crcBytes_eq_crcBits c (length.trans_le short), length] at same
  have number := congrArg BitVec.toNat ((BitVec.xor_right_inj c).mp (crcBits_injective _ same))
  rw [BitVec.toNat_ofNat, BitVec.toNat_ofNat, Nat.mod_eq_of_lt (leNat_lt_of_short short),
    Nat.mod_eq_of_lt (leNat_lt_of_short (length.trans_le short))] at number
  rw [← leBytes_leNat xs, ← leBytes_leNat ys, length, number]

/-! ### The checksum field (R281, R282) -/

theorem rotateLeft_rotateRight_fifteen (c : Word) : (c.rotateRight 15).rotateLeft 15 = c := by
  ext i inside
  rw [BitVec.getElem_rotateLeft]
  by_cases low : i < 15
  · simp [BitVec.getElem_rotateRight, low]
  · have inner : i - 15 < 17 := by omega
    simp [BitVec.getElem_rotateRight, low, inner, Nat.add_sub_cancel' (Nat.not_lt.mp low)]

theorem crcMask_injective : Function.Injective crcMask := fun a b same => by
  rw [← rotateLeft_rotateRight_fifteen a, (BitVec.add_left_inj _).mp same, rotateLeft_rotateRight_fifteen b]

theorem crc32c_eq_of_checksumField_eq {xs ys : List Byte} (same : checksumField xs = checksumField ys) :
    crc32c xs = crc32c ys := by
  have stored := (frameChecksum_eq_iff (checksumField_length xs)).mpr same
  rw [← (frameChecksum_eq_iff (checksumField_length xs)).mpr rfl] at stored
  exact crcMask_injective (BitVec.eq_of_toNat_eq stored.symm)

/-- Data that differ in at most four consecutive bytes have different checksum fields. -/
theorem checksumField_ne_of_burst (before after : List Byte) {sent got : List Byte} (length : sent.length = got.length)
    (short : got.length ≤ 4) (differ : sent ≠ got) :
    checksumField (before ++ sent ++ after) ≠ checksumField (before ++ got ++ after) := by
  intro same
  have crc := (BitVec.xor_left_inj _).mp (crc32c_eq_of_checksumField_eq same)
  rw [crcBytes_append, crcBytes_append _ _ after, crcBytes_append, crcBytes_append _ before] at crc
  exact differ (eq_of_crcBytes_eq length short (crcBytes_injective after crc))

/-- Settles O34: the field and the data are those of an uncompressed frame whose checksum differs. -/
theorem damagedRawFrameIsCorrupt : Obligations.DamagedRawFrameIsCorrupt := by
  unfold Obligations.DamagedRawFrameIsCorrupt
  intro s i0 h0 h before sent got after rest len cursor phase unlatched length short differ total most offered
  have body : (checksumField (before ++ sent ++ after) ++ (before ++ got ++ after)).length = len.toNat := by
    rw [List.length_append, checksumField_length, total]
  have taken := List.take_left' (l₂ := rest) body
  have field : s.inPending.take 4 = checksumField (before ++ sent ++ after) := by
    rw [offered, List.append_assoc, take_checksumField]
  have data : (s.inPending.take len.toNat).drop 4 = before ++ got ++ after := by
    rw [offered, taken, drop_checksumField]
  have enough : len.toNat ≤ s.inPending.length := by
    rw [offered, List.length_append, body]
    exact Nat.le_add_right ..
  obtain ⟨-, whole⟩ := uncompressedFrameCompletes len s i0 h0 h cursor phase unlatched (by omega)
  obtain ⟨corrupt, -⟩ := whole (by omega) (by omega) enough _ data.symm
  exact ⟨_, corrupt (field.trans_ne (checksumField_ne_of_burst before after length short differ))⟩

end Sys2Proof.Machine
end

section
/-! A reader short of bytes (O48; 46_stream_reader.md R344, R347, R357; 20_memory.md R77): it takes those there are, then meets
EOS or waits; and a body taken in pieces ends as one taken whole. -/

namespace Sys2Proof.Machine

/-! ### Short of header bytes (R344, R357) -/

/-- Fewer than four bytes are no header (30_encoding.md R101). -/
theorem decodeHeader_short (muMax : Byte) {bs : List Byte} (short : bs.length < 4) :
    decodeHeader muMax bs = .error .shortHeader := by
  match bs with
  | [] | [_] | [_, _] | [_, _, _] => rfl

theorem engineStep_headerShort {s : State} {i0 h0 : DWord} {h : List Byte} (cursor : s.engine = .header i0 h0 h)
    (unlatched : s.inLatch = false) (short : h.length + s.inPending.length < 4) :
    engineStep s = .next (headerShort h0 (h ++ s.inPending) (takeHeader i0 h0 h s.inPending s)) := by
  have fetched : fetchHeader h s = s.inPending := by
    rw [fetchHeader_eq h unlatched, List.take_of_length_le (by omega)]
  have undecoded := decodeHeader_short s.cfg.muMax (bs := h ++ s.inPending) (by rwa [List.length_append])
  simp only [engineStep, cursor, fetched, undecoded]

/-- All that was offered is taken: what comes next is what the source says. -/
theorem headerShort_drained (h0 : DWord) (h : List Byte) {s : State} (unlatched : s.inLatch = false)
    (drained : s.inPending = []) : headerShort h0 h s = if s.inEos then headerEos h0 h s else s := by
  simp only [headerShort, inAtEos, unlatched, drained, List.isEmpty_nil, Bool.true_and, Bool.false_or]

/-! ### Short of body bytes (R347) -/

theorem engineStep_body {s : State} {i0 h0 : DWord} {kind : BodyKind} {len : Nat} (cursor : s.engine = .body i0 h0 kind len) :
    engineStep s = .next (readBody i0 h0 kind len s) := by
  simp only [engineStep, cursor]

/-- All that IN offers taken into FBUF. -/
def bodyDrained (s : State) : State :=
  { s with
    inPending := []
    inTaken := s.inTaken + s.inPending.length
    srInpos := s.srInpos + BitVec.ofNat 64 s.inPending.length
    fbuf := s.fbuf ++ s.inPending }

theorem readBody_short_outcomes (i0 h0 : DWord) (kind : BodyKind) {len : Nat} {s : State} (unlatched : s.inLatch = false)
    (short : s.fbuf.length + s.inPending.length < len) :
    (s.inEos = false → readBody i0 h0 kind len s = { bodyDrained s with engine := .body i0 h0 kind len }) ∧
    (s.inEos = true →
      ReaderFailed .corrupt h0 { bodyDrained s with inLatch := true } (.next (readBody i0 h0 kind len s))) := by
  have read := readBody_short (i0 := i0) (h0 := h0) (k := kind) unlatched short
  refine ⟨fun continues => read.trans (if_neg (by simp [continues])), fun eos => ?_⟩
  rw [read.trans (if_pos eos)]
  exact srFail_failed .corrupt h0 _

/-! ### A body in pieces (R347) -/

/-- A reader in a body, as if it still stood at the header of that body with all of it offered. -/
def atBodyStart (i0 h0 : DWord) (h : List Byte) (s : State) : State :=
  { s with
    inPending := s.fbuf ++ s.inPending
    inTaken := s.inTaken - s.fbuf.length
    srInpos := s.srInpos - BitVec.ofNat 64 s.fbuf.length
    engine := .header i0 h0 h }

/-- Taking the last bytes of a body leaves what taking it whole would have left. -/
theorem readBody_last (i0 h0 : DWord) (h : List Byte) (kind : BodyKind) {len : Nat} {s : State}
    (unlatched : s.inLatch = false) (within : s.fbuf.length ≤ len) (counted : s.fbuf.length ≤ s.inTaken)
    (offered : len ≤ s.fbuf.length + s.inPending.length) :
    readBody i0 h0 kind len s = bodyDone i0 h0 kind (BodyTaken len (atBodyStart i0 h0 h s)) := by
  obtain ⟨more, rfl⟩ := Nat.exists_eq_add_of_le within
  have last : (s.inPending.take more).length = more := List.length_take_of_le (by omega)
  have taken : s.inTaken - s.fbuf.length + (s.fbuf.length + more) = s.inTaken + more := by omega
  have position : s.srInpos - BitVec.ofNat 64 s.fbuf.length + BitVec.ofNat 64 (s.fbuf.length + more) =
      s.srInpos + BitVec.ofNat 64 more := by
    rw [BitVec.ofNat_add, ← BitVec.add_assoc, BitVec.sub_add_cancel]
  have whole : BodyTaken (s.fbuf.length + more) (atBodyStart i0 h0 h s) =
      { inConsume more { s with fbuf := s.fbuf ++ s.inPending.take more } with engine := .header i0 h0 h } := by
    simp only [BodyTaken, atBodyStart, inConsume, List.take_length_add_append, List.drop_length_add_append, taken, position]
  rw [whole, bodyDone_engine]
  simp only [readBody, inPeek, inAvailable, unlatched, Bool.false_eq_true, if_false, Nat.add_sub_cancel_left, last]
  exact if_pos (by simp [last])

/-- Settles O48: each wait and each EOS is the short case of its read; the last piece of a body completes it as a whole. -/
theorem readerWaitsOrMeetsEos : Obligations.ReaderWaitsOrMeetsEos := by
  unfold Obligations.ReaderWaitsOrMeetsEos
  refine ⟨?header, ?bodyAtHeader, ?body, ?lastPiece⟩
  case header =>
    intro s₀ s i0 h0 h turn cursor unlatched short t drained
    have taken : takeHeader i0 h0 h s.inPending s = t := by
      simp only [drained, takeHeader, inConsume, List.drop_length]
    have eosOffered : t.inEos = s.inEos := by rw [drained]
    rw [turn.step_eq, engineStep_headerShort cursor unlatched short, taken,
      headerShort_drained h0 _ (by rw [drained]; exact unlatched) (by rw [drained])]
    refine ⟨fun continues => ?_, fun eos first => ?_, fun eos later => ?_⟩
    · rw [if_neg (by simp [eosOffered, continues])]
    · rw [if_pos (eosOffered.trans eos), headerEos, if_pos first]
      exact srFail_failed .eos h0 (latchEos t)
    · rw [if_pos (eosOffered.trans eos), headerEos, if_neg later]
      exact srFail_failed .corrupt h0 (latchEos t)
  case bodyAtHeader =>
    intro i kind len s i0 h0 h form fits phase cursor unlatched short
    obtain ⟨waits, fails⟩ := readBody_short_outcomes i0 h0 kind (s := { s with fbuf := [] }) unlatched
      ((Nat.zero_add _).trans_lt short)
    have drained : bodyDrained { s with fbuf := [] } = BodyTaken s.inPending.length s := by
      simp only [bodyDrained, BodyTaken, List.take_length, List.drop_length, List.nil_append]
    rw [drained] at waits fails
    rw [exec_bodyForm form fits phase cursor]
    exact ⟨fun continues => congrArg _ (waits continues), fails⟩
  case body =>
    rintro s₀ s i0 h0 kind len turn cursor unlatched short t rfl
    obtain ⟨waits, fails⟩ := readBody_short_outcomes i0 h0 kind unlatched short
    rw [← cursor] at waits
    rw [turn.step_eq, engineStep_body cursor]
    exact ⟨fun continues => congrArg _ (waits continues), fails⟩
  case lastPiece =>
    intro i kind len s₀ s i0 h0 h turn form fits phase cursor unlatched within counted offered
    have whole := exec_wholeBody (s := atBodyStart i0 h0 h s) form fits phase rfl unlatched
      (by rw [atBodyStart, List.length_append]; exact offered)
    rw [turn.step_eq, engineStep_body cursor, readBody_last i0 h0 h kind unlatched within.le counted offered]
    exact whole.symm

end Sys2Proof.Machine
end

section
/-! What reset leaves (O1, O2), and the accesses of the host and the platform to buffer memory and the ports (O58). -/

namespace Sys2Proof.Machine

/-! ### Right after reset (70_reset_and_hazards.md R450) -/

/-- Settles O1: a reset of legal parameters leads to a consistent state, and the default parameters are legal. -/
theorem resetMeetsInvariant : Obligations.ResetMeetsInvariant :=
  consistent_resetState (s := State.reset) (by decide) State.reset_mem_wf

/-- ID, CONFIG and MAX_DLEN are the only registers that do not read 0 after reset (10_state.md R48). -/
theorem regRead_reset {off : Nat} (id : off ≠ 0x00) (config : off ≠ 0x40) (maxDlen : off ≠ 0x44) :
    regRead State.reset off = 0#32 := by
  unfold regRead
  split
  case h_1 => exact absurd rfl id
  case h_17 => exact absurd rfl config
  case h_18 => exact absurd rfl maxDlen
  all_goals rfl

/-- Settles O2: the registers are read at their reset values, and the idle engine leaves the state as it is. -/
theorem resetRegisterValues : Obligations.ResetRegisterValues := by
  unfold Obligations.ResetRegisterValues
  refine ⟨rfl, rfl, rfl, fun off id config maxDlen => ?_, rfl, rfl, rfl, rfl, rfl, rfl, rfl, rfl, rfl, ?_⟩
  · have differs (v : Byte) (other : off ≠ v) : off.toNat ≠ v.toNat := fun same => other (BitVec.eq_of_toNat_eq same)
    unfold busRead
    rw [regRead_reset (differs _ id) (differs _ config) (differs _ maxDlen), ite_self]
  · exact (step_noEvents rfl).trans (engineStep_idle rfl)

/-! ### What an endless source offers next (20_memory.md R77) -/

theorem chooseFrom_eq_getElem {α : Type} (d : α) (l : List α) (n : Nat) (inside : n < l.length) :
    chooseFrom d l n = l[n] := by
  induction l generalizing n with
  | nil => exact absurd inside (Nat.not_lt_zero n)
  | cons a l ih =>
    cases l with
    | nil => rw [chooseFrom, List.getElem_singleton]
    | cons b l =>
      cases n with
      | zero => rfl
      | succ n => exact ih n (Nat.lt_of_succ_lt_succ inside)

theorem chooseFrom_singleBytes (b : Byte) : chooseFrom [] singleBytes b.toNat = [b] := by
  have inside : b.toNat < singleBytes.length := by
    rw [singleBytes, List.length_map, List.length_range]
    exact b.isLt
  rw [chooseFrom_eq_getElem [] singleBytes b.toNat inside]
  simp only [singleBytes, List.getElem_map, List.getElem_range, BitVec.ofNat_toNat, BitVec.setWidth_eq]

/-! ### Host accesses to buffer memory (70_reset_and_hazards.md R460, 20_memory.md R82) -/

section
variable {s : State} {a : Nat} (inside : a < s.cfg.memSize)
include inside

theorem hostMemWrite_running (b : Byte) (running : inRunningSrc s a = true ∨ inRunningDst s a = true) :
    hostMemWrite a b s = .refused .hostRegionRace :=
  (if_neg (Nat.not_le.mpr inside)).trans (if_pos (Bool.or_eq_true_iff.mpr running))

theorem hostMemWrite_outside (b : Byte) (src : inRunningSrc s a = false) (dst : inRunningDst s a = false) :
    hostMemWrite a b s = .next { s with mem := Memory.write s.mem a [b] } :=
  (if_neg (Nat.not_le.mpr inside)).trans (if_neg (by simp only [src, dst, Bool.or_self, Bool.false_eq_true, not_false_eq_true]))

theorem hostMemRead_outside (dst : inRunningDst s a = false) :
    hostMemRead a s = .next { s with busData := BitVec.setWidth 32 (Memory.get s.mem a) } :=
  (if_neg (Nat.not_le.mpr inside)).trans (if_neg (Bool.eq_false_iff.mp dst))

theorem hostMemRead_running (dst : inRunningDst s a = true) :
    hostMemRead a s = .next { s with busData := BitVec.setWidth 32 (dstRead a s), draws := s.draws + 1 } :=
  (if_neg (Nat.not_le.mpr inside)).trans (if_pos dst)

end

/-- An element that stops leaves memory as it is. -/
theorem engineMem_cases (s : State) : engineMem s = s.mem ∨ ∃ t, engineStep s = .next t ∧ engineMem s = t.mem := by
  unfold engineMem
  split
  case h_1 t next => exact .inr ⟨t, next, rfl⟩
  case h_2 => exact .inl rfl

/-- The bytes a read of a running DST can return (log 7). -/
theorem dstRead_cases (a : Nat) (s : State) :
    dstRead a s = Memory.get s.memBefore a ∨ dstRead a s = Memory.get s.mem a ∨
      ∃ t, engineStep s = .next t ∧ dstRead a s = Memory.get t.mem a := by
  unfold dstRead
  match Config.freePick s.draws with
  | 0 => exact .inl rfl
  | 1 => exact .inr (.inl rfl)
  | 2 =>
    obtain same | ⟨t, next, written⟩ := engineMem_cases s
    · exact .inr (.inl (congrArg (Memory.get · a) same))
    · exact .inr (.inr ⟨t, next, congrArg (Memory.get · a) written⟩)
  | n + 3 => exact .inr (.inl rfl)

/-- An EOS not yet returned is withdrawn by a byte and by nothing else (log 9). -/
theorem inOffer_eq (bs : List Byte) (s : State) :
    inOffer bs s = { s with inPending := s.inPending ++ bs, inEos := if bs = [] then s.inEos else false } := by
  cases bs with
  | nil => simp only [inOffer, List.isEmpty_nil, Bool.and_true, if_true]
  | cons b bs => simp only [inOffer, List.isEmpty_cons, Bool.and_false, reduceCtorEq, if_false]

/-- Settles O58: a move of the host or the platform is `hostAct` on the rest of the list. -/
theorem hostMemoryAccesses : Obligations.HostMemoryAccesses := by
  unfold Obligations.HostMemoryAccesses
  refine ⟨fun s bs room rest => ⟨?_, rfl, rfl⟩, fun chunks n nonempty => chooseFrom_mem [] nonempty n,
    fun b => ⟨b.toNat, chooseFrom_singleBytes b⟩, fun s a b rest inside => ⟨fun running => ?_, fun src dst => ?_,
    fun dst => ?_, fun dst => ?_⟩⟩
  · exact congrArg _ (inOffer_eq bs { s with events := rest })
  · exact hostMemWrite_running (s := { s with events := rest }) inside b running
  · exact ⟨_, hostMemWrite_outside (s := { s with events := rest }) inside b src dst, Memory.memWritten_write s.mem a [b]⟩
  · exact hostMemRead_outside (s := { s with events := rest }) inside dst
  · exact ⟨_, hostMemRead_running (s := { s with events := rest }) inside dst, dstRead_cases a { s with events := rest }⟩

end Sys2Proof.Machine
end

section
/-! An endless stream of frames that SR_READ passes over (O60; 70_reset_and_hazards.md R464, 46_stream_reader.md R340). One turn
takes a whole frame; a compressed one then has the bytes of its declared length 0 taken, one a turn, and whenever IN has nothing
left the source offers its next group. So SR_READ passes from frame to frame, and nothing but the reader's progress changes. -/

namespace Sys2Proof.Machine

/-! ### What passing over frames changes -/

/-- A state without what SR_READ changes while it passes over frames, and without the free choices drawn. -/
def outsideProgress (s : State) : State :=
  { s with
    engine := .idle, dbuf := [], leftRd := 0, leftEnd := 0, srInpos := 0#64, fbuf := [], inPending := [], inEos := false
    inTaken := 0, draws := 0 }

/-- Nothing but the reader's progress has changed from `s` to `t`. -/
abbrev OnlyProgress (s t : State) : Prop := outsideProgress t = outsideProgress s

theorem OnlyProgress.cfg {s t : State} (progress : OnlyProgress s t) : t.cfg = s.cfg := (congrArg State.cfg progress :)
theorem OnlyProgress.events {s t : State} (progress : OnlyProgress s t) : t.events = s.events :=
  (congrArg State.events progress :)
theorem OnlyProgress.srPhase {s t : State} (progress : OnlyProgress s t) : t.srPhase = s.srPhase :=
  (congrArg State.srPhase progress :)
theorem OnlyProgress.inLatch {s t : State} (progress : OnlyProgress s t) : t.inLatch = s.inLatch :=
  (congrArg State.inLatch progress :)

/-- Neither the completion record nor buffer memory is part of the progress. -/
theorem OnlyProgress.record {s t : State} (progress : OnlyProgress s t) :
    t.done = s.done ∧ t.err = s.err ∧ t.resLen = s.resLen ∧ t.resVal = s.resVal ∧ t.errPos = s.errPos ∧
      t.mem = s.mem :=
  ⟨(congrArg State.done progress :), (congrArg State.err progress :), (congrArg State.resLen progress :),
    (congrArg State.resVal progress :), (congrArg State.errPos progress :), (congrArg State.mem progress :)⟩

/-- A turn from `u` to `t` that takes n bytes from IN and completes nothing. -/
structure Takes (n : Nat) (u t : State) : Prop where
  progress : OnlyProgress u t
  pending : t.inPending = u.inPending.drop n
  draws : t.draws = u.draws
  taken : t.inTaken = u.inTaken + n
  position : t.srInpos = u.srInpos + BitVec.ofNat 64 n

theorem takes_none (u : State) : Takes 0 u u := ⟨rfl, rfl, rfl, rfl, (BitVec.add_zero _).symm⟩

/-- Where SR_READ stands, what is in DBUF and where the leftover ends is not said. -/
theorem Takes.moved {n : Nat} {u t : State} (takes : Takes n u t) (e : Engine) (out : List Byte) (rd last : Nat) :
    Takes n u { t with engine := e, dbuf := out, leftRd := rd, leftEnd := last } :=
  ⟨takes.progress, takes.pending, takes.draws, takes.taken, takes.position⟩

theorem takes_frameTaken {u : State} {ty : Byte} {body rest : List Byte}
    (offered : u.inPending = ty :: leBytes 3 body.length ++ body ++ rest) :
    Takes (ty :: leBytes 3 body.length ++ body).length u (frameTaken body rest u) := by
  have size : (ty :: leBytes 3 body.length ++ body).length = 4 + body.length := List.length_append
  exact ⟨rfl, by rw [offered, List.drop_left]; rfl, rfl, by rw [size]; rfl, by rw [size]; rfl⟩

/-- SR_READ stands at the first byte of a frame, with no leftover. -/
def AtHeader (i0 : DWord) (t : State) : Prop := (∃ h, t.engine = .header i0 h []) ∧ t.leftRd = t.leftEnd

/-- SR_READ stands at byte i of the declared length of an empty block, which FBUF holds after the checksum of no data. -/
def AtLength (i0 : DWord) (k i : Nat) (t : State) : Prop :=
  (∃ h, t.engine = .varint { i := i, x := 0#64 } (.ofBlock (.frame i0 h))) ∧
    t.fbuf = checksumField [] ++ emptyBlock k ∧ t.dbuf = []

theorem AtHeader.busy {i0 : DWord} {t : State} (here : AtHeader i0 t) : t.busy = true := by
  obtain ⟨⟨h, cursor⟩, -⟩ := here
  rw [busy_eq_true_iff, cursor]
  exact Engine.noConfusion

theorem AtLength.busy {i0 : DWord} {k i : Nat} {t : State} (here : AtLength i0 k i t) : t.busy = true := by
  obtain ⟨⟨h, cursor⟩, -⟩ := here
  rw [busy_eq_true_iff, cursor]
  exact Engine.noConfusion

/-! ### One turn at a frame -/

/-- A frame offered whole is taken in one turn of the engine, whoever gives the turn. -/
theorem engineStep_wholeFrame {s : State} {i0 h0 : DWord} {ty : Byte} {body rest : List Byte} {kind : BodyKind}
    (cursor : s.engine = .header i0 h0 []) (phase : s.srPhase = .streaming) (unlatched : s.inLatch = false)
    (form : ∀ len, bodyForm (frameInstr s.cfg.muMax ty len) = some (kind, len.toNat)) (size : body.length < 2 ^ 24)
    (fits : kind.lengthOk body.length) (offered : s.inPending = ty :: leBytes 3 body.length ++ body ++ rest) :
    engineStep s = .next (bodyDone i0 h0 kind (frameTaken body rest s)) := by
  have length : (ty :: leBytes 3 body.length).length = 4 := rfl
  have header : fetchHeader [] s = ty :: leBytes 3 body.length := by
    rw [fetchHeader_eq [] unlatched, offered, List.append_assoc]
    exact List.take_left' length
  have pending : s.inPending.drop 4 = body ++ rest := by
    rw [offered, List.append_assoc]
    exact List.drop_left' length
  have decoded := decodeHeader_frame s.cfg.muMax ty body.length []
  rw [List.append_nil, ← header] at decoded
  have instr := form (BitVec.ofNat 24 body.length)
  rw [BitVec.toNat_ofNat, Nat.mod_eq_of_lt size] at instr
  have whole : body.length ≤ (s.inPending.drop 4).length := by
    rw [pending, List.length_append]
    exact Nat.le_add_right ..
  rw [engineStep_header cursor decoded, header,
    exec_wholeBody (s := takeHeader i0 h0 [] (ty :: leBytes 3 body.length) s) instr fits (.inr phase) rfl unlatched whole,
    ← bodyDone_engine i0 h0 kind (frameTaken body rest s) (.header i0 h0 (ty :: leBytes 3 body.length))]
  simp only [BodyTaken, takeHeader, inConsume, length, pending, List.take_left, List.drop_left, frameTaken, Nat.add_assoc,
    BitVec.add_assoc, BitVec.ofNat_add, List.nil_append]

theorem readerLoop_drained (i0 : DWord) {t : State} (drained : t.leftRd = t.leftEnd) : readerLoop i0 t = nextFrame i0 t :=
  if_pos drained

theorem bodyForm_skipped {muMax ty : Byte} (skipped : typeSkippable muMax ty ∨ ty = 0xFE#8) (len : BitVec 24) :
    bodyForm (frameInstr muMax ty len) = some (.skipped, len.toNat) := by
  obtain ⟨least, above, most⟩ | rfl := skipped
  · rw [frameInstr_reserved least most, if_neg (BitVec.not_le.mpr above)]
    rfl
  · rfl

/-- One turn of the engine takes n bytes and goes on to the next frame, or to the declared length of an empty block. -/
def TurnsPast (i0 : DWord) (n : Nat) (u : State) : Prop :=
  ∃ t, engineStep u = .next t ∧ Takes n u t ∧ (AtHeader i0 t ∨ ∃ k, k ≤ 9 ∧ AtLength i0 k 0 t)

section
variable {u : State} {i0 h0 : DWord} {rest : List Byte} (cursor : u.engine = .header i0 h0 []) (phase : u.srPhase = .streaming)
  (unlatched : u.inLatch = false)
include cursor phase unlatched

theorem turnsPast_marker (drained : u.leftRd = u.leftEnd) (offered : u.inPending = markerBytes ++ rest) :
    TurnsPast i0 markerBytes.length u := by
  have turn := engineStep_wholeFrame (ty := 0xFF#8) (body := Config.magic) (kind := .streamId) cursor phase unlatched
    (fun _ => rfl) (by decide) rfl offered
  have same : { frameTaken Config.magic rest u with srPhase := .streaming } = frameTaken Config.magic rest u := by
    rw [← phase]
    rfl
  rw [bodyDone, streamIdBody_magic i0 h0 rfl, same, readerLoop_drained i0 (by exact drained)] at turn
  exact ⟨_, turn, (takes_frameTaken offered).moved .., .inl ⟨⟨_, rfl⟩, drained⟩⟩

theorem turnsPast_uncompressed (offered : u.inPending = [0x01#8, 0x04#8, 0x00#8, 0x00#8] ++ checksumField [] ++ rest) :
    TurnsPast i0 ([0x01#8, 0x04#8, 0x00#8, 0x00#8] ++ checksumField []).length u := by
  have four : (checksumField []).length = 4 := checksumField_length []
  have turn := engineStep_wholeFrame (ty := 0x01#8) (body := checksumField []) (kind := .uncompressed) cursor phase unlatched
    (fun _ => rfl) (by omega) (by rw [four]; exact ⟨Nat.le_refl 4, by decide⟩) offered
  obtain ⟨-, goesOn, -⟩ :=
    dataFrameDone_outcomes i0 h0 (s := { frameTaken (checksumField []) rest u with dbuf := [] }) four.ge
  exact ⟨_, turn.trans (congrArg _ (goesOn rfl rfl)), (takes_frameTaken offered).moved .., .inl ⟨⟨_, rfl⟩, rfl⟩⟩

theorem turnsPast_compressed {k : Nat} (short : k ≤ 9)
    (offered : u.inPending = 0x00#8 :: leBytes 3 (4 + (k + 1)) ++ checksumField [] ++ emptyBlock k ++ rest) :
    TurnsPast i0 (0x00#8 :: leBytes 3 (4 + (k + 1)) ++ checksumField [] ++ emptyBlock k).length u := by
  have length : (checksumField [] ++ emptyBlock k).length = 4 + (k + 1) := by
    rw [List.length_append, checksumField_length, emptyBlock, List.length_append, List.length_replicate, List.length_singleton]
  rw [List.append_assoc (_ :: _)] at offered ⊢
  rw [← length] at offered ⊢
  have fits : (checksumField [] ++ emptyBlock k).length ≤ Config.maxFrameLen := by
    rw [length, Config.maxFrameLen]
    omega
  have turn := engineStep_wholeFrame (ty := 0x00#8) (kind := .compressed) cursor phase unlatched (fun _ => rfl) (by omega)
    ⟨by omega, fits⟩ offered
  have nonempty :
      blockLength (.frame i0 h0) { frameTaken (checksumField [] ++ emptyBlock k) rest u with dbuf := [] } ≠ 0 := by
    change (checksumField [] ++ emptyBlock k).length - 4 ≠ 0
    omega
  rw [bodyDone, compressedBody, prefixBegin_nonempty nonempty] at turn
  exact ⟨_, turn, (takes_frameTaken offered).moved .., .inr ⟨k, short, ⟨_, rfl⟩, rfl, rfl⟩⟩

theorem turnsPast_skipped (drained : u.leftRd = u.leftEnd) {ty : Byte} {body : List Byte}
    (skipped : typeSkippable u.cfg.muMax ty ∨ ty = 0xFE#8) (fits : body.length ≤ Config.maxFrameLen)
    (offered : u.inPending = ty :: leBytes 3 body.length ++ body ++ rest) :
    TurnsPast i0 (ty :: leBytes 3 body.length ++ body).length u := by
  have turn := engineStep_wholeFrame (kind := .skipped) cursor phase unlatched (bodyForm_skipped skipped)
    (fits.trans_lt (by decide)) fits offered
  rw [bodyDone, readerLoop_drained i0 (by exact drained)] at turn
  exact ⟨_, turn, (takes_frameTaken offered).moved .., .inl ⟨⟨_, rfl⟩, drained⟩⟩

/-- So it is for every frame of an endless skippable stream. -/
theorem turnsPast_passedOver (drained : u.leftRd = u.leftEnd) {f : List Byte} (passed : PassedOver u.cfg.muMax f)
    (offered : u.inPending = f ++ rest) : TurnsPast i0 f.length u := by
  obtain rfl | rfl | ⟨k, short, rfl⟩ | ⟨ty, body, skipped, fits, rfl⟩ := passed
  · exact turnsPast_marker cursor phase unlatched drained offered
  · exact turnsPast_uncompressed cursor phase unlatched offered
  · exact turnsPast_compressed cursor phase unlatched short offered
  · exact turnsPast_skipped cursor phase unlatched drained skipped fits offered

end

/-! ### One turn at a byte of a declared length 0 -/

theorem drop_emptyBlock {k i : Nat} (inside : i ≤ k) : (emptyBlock k).drop i = emptyBlock (k - i) := by
  rw [emptyBlock, List.drop_append_of_le_length (by rw [List.length_replicate]; exact inside), List.drop_replicate, emptyBlock]

theorem varintGroup_zero (i : Nat) : varintGroup 0#7 i = 0#64 := by
  rw [varintGroup, BitVec.setWidth_zero, BitVec.zero_shiftLeft]

section
variable {u : State} {i0 : DWord} {k i : Nat} (here : AtLength i0 k i u)
include here

theorem AtLength.blockLength_eq (h : DWord) : blockLength (.frame i0 h) u = k + 1 := by
  obtain ⟨-, body, -⟩ := here
  rw [blockLength, body, List.length_append, checksumField_length, emptyBlock, List.length_append,
    List.length_replicate, List.length_singleton, Nat.add_sub_cancel_left]

theorem AtLength.fetchVarint_eq (inside : i ≤ k) (x h : DWord) :
    fetchVarint { i := i, x := x } (.ofBlock (.frame i0 h)) u = (emptyBlock (k - i)).take 1 := by
  have one : min 1 (k + 1 - i) = 1 := by omega
  rw [fetchVarint, varintLimit, here.blockLength_eq h, one]
  obtain ⟨-, body, -⟩ := here
  rw [blockBytes, body, ← List.drop_drop, List.drop_left' (checksumField_length []), drop_emptyBlock inside]

/-- A byte 0x80 adds nothing to the declared length, and another byte follows it. -/
theorem AtLength.continues (inside : i < k) (tenth : k ≤ 9) :
    ∃ t, engineStep u = .next t ∧ Takes 0 u t ∧ AtLength i0 k (i + 1) t := by
  obtain ⟨⟨h, cursor⟩, body, out⟩ := id here
  obtain ⟨d, more⟩ : ∃ d, k - i = d + 1 := ⟨k - i - 1, by omega⟩
  have decoded : decodeVarintByte (fetchVarint ⟨i, 0#64⟩ (.ofBlock (.frame i0 h)) u) = .ok (.vbCont 0#7, []) := by
    rw [here.fetchVarint_eq inside.le 0#64 h, more]
    rfl
  have turn : engineStep u = .next _ := (engineStep_varint cursor decoded).trans (exec_vbCont 0#7 cursor)
  rw [varintContinue_more 0#7 (by exact inside.trans_le tenth)
    (by exact (Nat.succ_lt_succ inside).trans_eq (here.blockLength_eq h).symm), varintGroup_zero, BitVec.or_zero] at turn
  exact ⟨_, turn, (takes_none u).moved .., ⟨h, rfl⟩, body, out⟩

/-- The byte 00 ends the declared length: the block has no chunk, the frame no data. -/
theorem AtLength.ends (last : i = k) (tenth : k ≤ 9) :
    ∃ t, engineStep u = .next t ∧ Takes 0 u t ∧ AtHeader i0 t := by
  subst last
  obtain ⟨⟨h, cursor⟩, body, out⟩ := id here
  have decoded : decodeVarintByte (fetchVarint ⟨i, 0#64⟩ (.ofBlock (.frame i0 h)) u) = .ok (.vbLast 0#7, []) := by
    rw [here.fetchVarint_eq le_rfl 0#64 h, Nat.sub_self]
    rfl
  have field : u.fbuf.take 4 = checksumField u.dbuf := by
    rw [body, out]
    exact List.take_left' (checksumField_length [])
  have four : 4 ≤ u.fbuf.length := by
    rw [body, List.length_append, checksumField_length]
    exact Nat.le_add_right ..
  obtain ⟨-, goesOn, -⟩ := dataFrameDone_outcomes i0 h four
  have turn : engineStep u = .next _ := (engineStep_varint cursor decoded).trans (exec_vbLast 0#7 cursor)
  rw [varintFinish_fits (g := 0#7) (.inr (Nat.zero_le 1)), varintDone_ofBlock, varintGroup_zero, BitVec.or_zero,
    BitVec.toNat_zero, blockBegin_fits _ (Nat.zero_le _) (Nat.zero_le _),
    blockLoop_done (by exact (here.blockLength_eq h).le) rfl, blockDone, goesOn field out] at turn
  exact ⟨_, turn, (takes_none u).moved .., ⟨_, rfl⟩, rfl⟩

end

/-! ### The source's groups (log 9) -/

/-- An offer changes what is said of the source's bytes and of the choices drawn, and nothing else. -/
theorem inRefill_keeps {α : Sort*} (view : State → α)
    (free : ∀ u bs eos d, view { u with inPending := bs, inEos := eos, draws := d } = view u) (chunks : List (List Byte))
    (t : State) : view (inRefill chunks t) = view t := by
  rw [inRefill_eq]
  dsimp only
  split
  · exact free ..
  · rfl

theorem onlyProgress_inRefill (chunks : List (List Byte)) (t : State) : OnlyProgress t (inRefill chunks t) :=
  inRefill_keeps outsideProgress (fun _ _ _ _ => rfl) chunks t

theorem AtHeader.inRefill {i0 : DWord} {t : State} (here : AtHeader i0 t) (chunks : List (List Byte)) :
    AtHeader i0 (inRefill chunks t) :=
  (inRefill_keeps (AtHeader i0) (fun _ _ _ _ => rfl) chunks t).mpr here

theorem AtLength.inRefill {i0 : DWord} {k i : Nat} {t : State} (here : AtLength i0 k i t) (chunks : List (List Byte)) :
    AtLength i0 k i (inRefill chunks t) :=
  (inRefill_keeps (AtLength i0 k i) (fun _ _ _ _ => rfl) chunks t).mpr here

theorem PassedOver.ne_nil {muMax : Byte} {f : List Byte} (passed : PassedOver muMax f) : f ≠ [] := by
  obtain rfl | rfl | ⟨k, -, rfl⟩ | ⟨ty, body, -, -, rfl⟩ := passed
  all_goals exact List.cons_ne_nil _ _

/-- SR_READ, started in `s`, has taken the first m groups and q frames of the next one; the rest of that one is offered. -/
structure HasTaken (groups : List (List (List Byte))) (s : State) (m q : Nat) (t : State) : Prop where
  progress : OnlyProgress s t
  pending : t.inPending = ((offeredGroup groups s m).drop q).flatten
  draws : t.draws = s.draws + (m + 1)
  taken : t.inTaken = s.inTaken + endlessLength groups s m q
  position : t.srInpos = s.srInpos + BitVec.ofNat 64 (endlessLength groups s m q)

section
variable {groups : List (List (List Byte))} {s t u : State} {m q : Nat}

theorem endlessLength_succ (inside : q < (offeredGroup groups s m).length) :
    endlessLength groups s m (q + 1) = endlessLength groups s m q + (offeredGroup groups s m)[q].length := by
  rw [endlessLength, endlessLength, List.take_add_one, List.getElem?_eq_getElem inside, List.flatten_append, List.length_append,
    ← Nat.add_assoc, Option.toList_some, List.flatten_singleton]

/-- The end of a group is the start of the next one. -/
theorem endlessLength_groupEnd :
    endlessLength groups s m (offeredGroup groups s m).length = endlessLength groups s (m + 1) 0 := by
  rw [endlessLength, endlessLength, List.take_length, List.take_zero, List.range_succ, List.map_append, List.sum_append,
    List.map_singleton, List.sum_singleton, List.flatten_nil, List.length_nil, Nat.add_zero]

theorem HasTaken.rests (here : HasTaken groups s m q u) (takes : Takes 0 u t) : HasTaken groups s m q t where
  progress := takes.progress.trans here.progress
  pending := takes.pending.trans here.pending
  draws := takes.draws.trans here.draws
  taken := takes.taken.trans here.taken
  position := (takes.position.trans (BitVec.add_zero _)).trans here.position

theorem HasTaken.takesFrame (here : HasTaken groups s m q u) (inside : q < (offeredGroup groups s m).length)
    (takes : Takes (offeredGroup groups s m)[q].length u t) : HasTaken groups s m (q + 1) t where
  progress := takes.progress.trans here.progress
  pending := by
    rw [takes.pending, here.pending, List.drop_eq_getElem_cons inside, List.flatten_cons, List.drop_left]
  draws := takes.draws.trans here.draws
  taken := by rw [takes.taken, here.taken, endlessLength_succ inside, Nat.add_assoc]
  position := by rw [takes.position, here.position, endlessLength_succ inside, BitVec.ofNat_add, BitVec.add_assoc]

end

/-! ### Passing from frame to frame -/

/-- From `s` to `t` in n steps, each of which leaves a command running and changes nothing but the reader's progress. -/
inductive PassesIn : Nat → State → State → Prop where
  | refl (s : State) : PassesIn 0 s s
  | head {n : Nat} {s u t : State} (next : step s = .next u) (busy : u.busy = true) (progress : OnlyProgress s u)
    (others : PassesIn n u t) : PassesIn (n + 1) s t

theorem PassesIn.trans {n k : Nat} {s t u : State} (first : PassesIn n s t) (second : PassesIn k t u) :
    PassesIn (n + k) s u := by
  induction first with
  | refl => rwa [Nat.zero_add]
  | head next busy progress _ ih =>
    rw [Nat.add_right_comm]
    exact .head next busy progress (ih second)

theorem PassesIn.run {n : Nat} {s t : State} (passes : PassesIn n s t) : Host.Core.run core n s = .next t := by
  induction passes with
  | refl => rfl
  | head next _ _ _ ih => exact (run_succ_of_next next _).trans ih

/-- At every step on the way the command runs, and nothing but the reader's progress has changed. -/
theorem PassesIn.run_before {n k : Nat} {s t : State} (passes : PassesIn n s t) (busy : s.busy = true) (before : k ≤ n) :
    ∃ u, Host.Core.run core k s = .next u ∧ u.busy = true ∧ OnlyProgress s u := by
  induction passes generalizing k with
  | refl s =>
    obtain rfl := Nat.le_zero.mp before
    exact ⟨s, rfl, busy, rfl⟩
  | @head n s u t next busy' progress _ ih =>
    cases k with
    | zero => exact ⟨s, rfl, busy, rfl⟩
    | succ k =>
      obtain ⟨v, run, busy'', progress'⟩ := ih busy' (Nat.le_of_succ_le_succ before)
      exact ⟨v, (run_succ_of_next next k).trans run, busy'', progress'.trans progress⟩

section
variable {groups : List (List (List Byte))} {s : State} {rest : List HostAction} {i0 : DWord}
  (feeds : s.events = .feed (groups.map List.flatten) :: rest) (nonempty : groups ≠ [])
  (skips : ∀ g ∈ groups, g ≠ [] ∧ ∀ f ∈ g, PassedOver s.cfg.muMax f)
  (phase : s.srPhase = .streaming) (unlatched : s.inLatch = false)

/-- Where nothing is left, the source offers the next group. -/
theorem hasTaken_inRefill {t : State} {m : Nat} (progress : OnlyProgress s t) (empty : t.inPending = [])
    (draws : t.draws = s.draws + m) (taken : t.inTaken = s.inTaken + endlessLength groups s m 0)
    (position : t.srInpos = s.srInpos + BitVec.ofNat 64 (endlessLength groups s m 0)) :
    HasTaken groups s m 0 (inRefill (groups.map List.flatten) t) := by
  have chosen : chooseFrom [] (groups.map List.flatten) (Config.freePick t.draws) = (offeredGroup groups s m).flatten := by
    rw [draws]
    exact chooseFrom_map List.flatten [] groups _
  rw [inRefill_eq, chosen]
  exact (if_pos empty).symm ▸ ⟨progress, rfl, congrArg (· + 1) draws, taken, position⟩

theorem HasTaken.refill_groupEnd {t : State} {m : Nat} (here : HasTaken groups s m (offeredGroup groups s m).length t) :
    HasTaken groups s (m + 1) 0 (inRefill (groups.map List.flatten) t) :=
  hasTaken_inRefill here.progress (here.pending.trans (by rw [List.drop_length, List.flatten_nil])) here.draws
    (endlessLength_groupEnd ▸ here.taken) (endlessLength_groupEnd ▸ here.position)

include feeds in
/-- While the command runs, the engine has its turn after the source's offer. -/
theorem HasTaken.step_eq {t t' : State} {m q n : Nat} (stands : HasTaken groups s m q (inRefill (groups.map List.flatten) t))
    (busy : t.busy = true) (next : engineStep (inRefill (groups.map List.flatten) t) = .next t')
    (takes : Takes n (inRefill (groups.map List.flatten) t) t') : step t = .next t' ∧ OnlyProgress t t' := by
  have refilled := onlyProgress_inRefill (groups.map List.flatten) t
  have progress : OnlyProgress s t := refilled.symm.trans stands.progress
  refine ⟨?_, takes.progress.trans refilled⟩
  simp only [step, progress.events.trans feeds, busy, if_true, next]

include nonempty skips

theorem offeredGroup_passedOver (m : Nat) :
    0 < (offeredGroup groups s m).length ∧ ∀ f ∈ offeredGroup groups s m, PassedOver s.cfg.muMax f := by
  obtain ⟨some, all⟩ := skips _ (chooseFrom_mem [] nonempty (Config.freePick (s.draws + m)))
  exact ⟨List.length_pos_of_ne_nil some, all⟩

/-- While frames of a group are left, the source offers nothing more. -/
theorem HasTaken.refill_inside {t : State} {m q : Nat} (here : HasTaken groups s m q t)
    (inside : q < (offeredGroup groups s m).length) : HasTaken groups s m q (inRefill (groups.map List.flatten) t) := by
  obtain ⟨-, all⟩ := offeredGroup_passedOver nonempty skips m
  have left : t.inPending ≠ [] := by
    rw [here.pending, List.drop_eq_getElem_cons inside, List.flatten_cons]
    exact List.append_ne_nil_of_left_ne_nil (all _ (List.getElem_mem inside)).ne_nil _
  rw [inRefill_eq]
  exact (if_neg left).symm ▸ here

include feeds

/-- The bytes of a declared length 0, taken one a turn, lead on to the next header. -/
theorem passes_length {t : State} {m q k i : Nat} (here : AtLength i0 k i t) (reach : i ≤ k) (tenth : k ≤ 9)
    (stands : HasTaken groups s m q (inRefill (groups.map List.flatten) t)) (inside : q < (offeredGroup groups s m).length) :
    ∃ n t', PassesIn n t t' ∧ AtHeader i0 t' ∧ HasTaken groups s m q (inRefill (groups.map List.flatten) t') := by
  induction reach using Nat.decreasingInduction generalizing t with
  | self =>
    obtain ⟨t', next, takes, header⟩ := (here.inRefill _).ends rfl tenth
    obtain ⟨turn, progress⟩ := stands.step_eq feeds here.busy next takes
    exact ⟨1, t', .head turn header.busy progress (.refl t'), header,
      (stands.rests takes).refill_inside nonempty skips inside⟩
  | of_succ i inside' ih =>
    obtain ⟨t', next, takes, more⟩ := (here.inRefill _).continues inside' tenth
    obtain ⟨turn, progress⟩ := stands.step_eq feeds here.busy next takes
    obtain ⟨n, t'', others, there⟩ := ih more ((stands.rests takes).refill_inside nonempty skips inside)
    exact ⟨n + 1, t'', .head turn more.busy progress others, there⟩

include phase unlatched

/-- SR_READ passes over a frame to the next header, whether that frame is in the same group or in the next one. -/
theorem passes_frame {t : State} {m q m' q' : Nat} (here : AtHeader i0 t)
    (stands : HasTaken groups s m q (inRefill (groups.map List.flatten) t)) (inside : q < (offeredGroup groups s m).length)
    (goesOn : ∀ {u}, HasTaken groups s m (q + 1) u → HasTaken groups s m' q' (inRefill (groups.map List.flatten) u))
    (inside' : q' < (offeredGroup groups s m').length) :
    ∃ n t', PassesIn (n + 1) t t' ∧ AtHeader i0 t' ∧ HasTaken groups s m' q' (inRefill (groups.map List.flatten) t') := by
  obtain ⟨-, all⟩ := offeredGroup_passedOver nonempty skips m
  obtain ⟨⟨h, cursor⟩, drained⟩ := here.inRefill (groups.map List.flatten)
  obtain ⟨t₁, next, takes, place⟩ := turnsPast_passedOver (f := (offeredGroup groups s m)[q]) cursor
    (stands.progress.srPhase.trans phase) (stands.progress.inLatch.trans unlatched) drained
    (stands.progress.cfg ▸ all _ (List.getElem_mem inside))
    (by rw [stands.pending, List.drop_eq_getElem_cons inside, List.flatten_cons])
  have stands₁ := goesOn (stands.takesFrame inside takes)
  obtain ⟨turn, progress⟩ := stands.step_eq feeds here.busy next takes
  obtain header | ⟨k, tenth, length⟩ := place
  · exact ⟨0, t₁, .head turn header.busy progress (.refl t₁), header, stands₁⟩
  · obtain ⟨n, t', others, there⟩ := passes_length feeds nonempty skips length (Nat.zero_le k) tenth stands₁ inside'
    exact ⟨n, t', .head turn length.busy progress others, there⟩

/-- At least m steps lead to the header after m groups and q frames of the next one. -/
def Reached (groups : List (List (List Byte))) (i0 : DWord) (s : State) (m q : Nat) : Prop :=
  ∃ n t, m ≤ n ∧ PassesIn n s t ∧ AtHeader i0 t ∧ HasTaken groups s m q (inRefill (groups.map List.flatten) t)

theorem Reached.inGroup {m q : Nat} (start : Reached groups i0 s m 0) (inside : q < (offeredGroup groups s m).length) :
    Reached groups i0 s m q := by
  induction q with
  | zero => exact start
  | succ q ih =>
    have before := Nat.lt_of_succ_lt inside
    obtain ⟨n, t, many, passes, here, stands⟩ := ih before
    obtain ⟨k, t', more, there⟩ := passes_frame feeds nonempty skips phase unlatched here stands before
      (fun taken => taken.refill_inside nonempty skips inside) inside
    exact ⟨n + (k + 1), t', many.trans (Nat.le_add_right ..), passes.trans more, there⟩

theorem Reached.nextGroup {m : Nat} (start : Reached groups i0 s m 0) : Reached groups i0 s (m + 1) 0 := by
  obtain ⟨some, -⟩ := offeredGroup_passedOver nonempty skips m
  obtain ⟨some', -⟩ := offeredGroup_passedOver nonempty skips (m + 1)
  have last := Nat.sub_one_lt_of_lt some
  obtain ⟨n, t, many, passes, here, stands⟩ := start.inGroup feeds nonempty skips phase unlatched last
  obtain ⟨k, t', more, there⟩ := passes_frame feeds nonempty skips phase unlatched here stands last
    (fun taken => (Nat.sub_add_cancel some ▸ taken).refill_groupEnd) some'
  exact ⟨n + (k + 1), t', by omega, passes.trans more, there⟩

theorem reached_group (here : AtHeader i0 s) (empty : s.inPending = []) (m : Nat) : Reached groups i0 s m 0 := by
  induction m with
  | zero => exact ⟨0, s, le_rfl, .refl s, here, hasTaken_inRefill rfl empty rfl rfl (BitVec.add_zero _).symm⟩
  | succ m ih => exact ih.nextGroup feeds nonempty skips phase unlatched

theorem reached_frame (here : AtHeader i0 s) (empty : s.inPending = []) {m q : Nat}
    (inside : q ≤ (offeredGroup groups s m).length) :
    ∃ m' q', m ≤ m' ∧ endlessLength groups s m' q' = endlessLength groups s m q ∧ Reached groups i0 s m' q' := by
  have start := reached_group feeds nonempty skips phase unlatched here empty
  obtain inside | rfl := inside.lt_or_eq
  · exact ⟨m, q, le_rfl, rfl, (start m).inGroup feeds nonempty skips phase unlatched inside⟩
  · exact ⟨m + 1, 0, Nat.le_succ m, endlessLength_groupEnd.symm, start (m + 1)⟩

end

/-- Settles O60: every group of the stream is reached, so every step lies on the way to one. -/
theorem endlessSkippableStreamHangs : Obligations.EndlessSkippableStreamHangs := by
  unfold Obligations.EndlessSkippableStreamHangs
  intro s groups rest i0 h0 feeds nonempty skips cursor phase unlatched empty drained
  have here : AtHeader i0 s := ⟨⟨h0, cursor⟩, drained⟩
  refine ⟨fun n => ?_, fun m q inside => ?_⟩
  · obtain ⟨k, _, many, passes, -⟩ := reached_group feeds nonempty skips phase unlatched here empty n
    obtain ⟨t, run, busy, progress⟩ := passes.run_before here.busy many
    exact ⟨t, run, busy, progress.record⟩
  · obtain ⟨m', q', many', length, n, t, many, passes, ⟨⟨h, header⟩, -⟩, stands⟩ :=
      reached_frame feeds nonempty skips phase unlatched here empty inside
    have progress : OnlyProgress s t := (onlyProgress_inRefill (groups.map List.flatten) t).symm.trans stands.progress
    have taken := stands.taken
    have position := stands.position
    rw [inRefill_keeps State.inTaken fun _ _ _ _ => rfl, length] at taken
    rw [inRefill_keeps State.srInpos fun _ _ _ _ => rfl, length] at position
    exact ⟨n, t, h, many'.trans many, passes.run, header, progress.srPhase.trans phase, taken, position⟩

end Sys2Proof.Machine
end
